-- ==== Sys2Proof/Syntax.lean ====
section
/-! DEFINITION. The commands of the LV8K block: one constructor of `Instr` per row of spec/opcode_table.json, with the row's
operands. A context is named by its number (R15), a port by 0 (A) or 1 (B) (R376), a master by 0, 1 or 2 (R448), a queue
by its QID (R380). Readings and verdicts that come from outside the block (sensor values, link state, the host's descriptors,
the outcome of checking a tag or a signature of an incoming object) are operands. -/
namespace Sys2Proof

/-- Register ALU operands (R78, R79): the 16-bit form `rd op rs`, the 32-bit form `rd = ra op rb`. -/
inductive AluForm where
  | r16 (rd rs : Reg)
  | r32 (rd ra rb : Reg)
  deriving DecidableEq, Repr

/-- Shift operands (R78, R79, R85). -/
inductive ShiftForm where
  | reg (f : AluForm)
  | imm (n : Fin 32) (rd : Reg)
  deriving DecidableEq, Repr

/-- ROR has the 16-bit immediate form and the 32-bit extended form only (R78, R79). -/
inductive RorForm where
  | imm (n : Fin 32) (rd : Reg)
  | x32 (rd ra rb : Reg)
  deriving DecidableEq, Repr

/-- Immediate operands of ADDI (R78, R79). -/
inductive AddImm where
  | i8 (rd : Reg) (imm : Byte)
  | i16 (rd ra : Reg) (imm : Half)
  deriving DecidableEq, Repr

/-- Immediate operands of CMPI (R78, R79). -/
inductive CmpImm where
  | i8 (rd : Reg) (imm : Byte)
  | i16 (ra : Reg) (imm : Half)
  deriving DecidableEq, Repr

/-- The load and store address forms of R81. -/
inductive Ea where
  | base16 (rb : Reg) (off : BitVec 3)
  | stack16 (off : BitVec 7)
  | disp32 (ra : Reg) (imm : Half)
  | scaled (ra rb : Reg)
  | postInc (ra : Reg)
  | preDec (ra : Reg)
  | postReg (ra rb : Reg)
  deriving DecidableEq, Repr

/-- The assigned conditions of R88. -/
inductive Cond where
  | eq | ne | cs | cc | mi | pl | vs | vc | hi | ls | ge | lt | gt | le | al
  deriving DecidableEq, Repr

/-- Offsets of Bcc (R78, R79, R87). -/
inductive BccForm where
  | short (off : BitVec 8)
  | long (off : BitVec 20)
  deriving DecidableEq, Repr

/-- The bits of an instruction as they lie in memory: `long` for a 32-bit instruction, `bits` = I = h1 ‖ h0 (R72). -/
structure Encoding where
  long : Bool
  bits : Word
  deriving DecidableEq, Repr

/-- Where a plain register write lands (R8, R44, R374, R378, R448, R518): an aligned 32-bit one of an I/O register, BAR0, a mailbox or the GPIO
block, a BAR access of `size` bytes that is none (`hi` is the upper half of a 64-bit one, R377), or the Device Control, PTM Control, MSI-X
Message Control and power-management control registers of a function's configuration space. -/
inductive RegTarget where
  | io (ctx : Nat) (off : Nat)
  | bar0 (port : Nat) (off : Nat)
  | mailbox (master : Nat) (off : Nat)
  | gpio (off : Nat)
  | barOther (port bar off size : Nat) (hi : Word)
  | devCtl (port : Nat)
  | ptmCtl (port : Nat)
  | msixCtl (port : Nat)
  | pmcsr (port : Nat)
  deriving DecidableEq, Repr

/-- An input record as it stands in a queue 1 message: TARGET is bits [31:0] only (R47, R50). -/
structure InRec where
  target : Word
  port : Byte
  kind : Byte
  btn : Word
  ax0 : Half
  ax1 : Half
  deriving DecidableEq, Repr

/-- What the device takes from a descriptor (R383, R384): `rsvd` says that a reserved bit of CTL is set. -/
structure Desc where
  addr : Nat
  len : Word
  own : Bool
  last : Bool
  rsvd : Bool
  deriving DecidableEq, Repr

/-- The 32 bytes of a descriptor as they stand in host memory (R383). -/
abbrev RawDesc := List Byte

/-- What the ring of a queue reads from FHEAD on, and whether the read after that fails (R386). -/
structure Ring where
  qid : Nat
  descs : List RawDesc
  readErr : Bool
  deriving DecidableEq, Repr

/-- Bytes under AES-256-GCM as they arrive: what stands before the ciphertext, the ciphertext, the 16-byte tag (R286, R415, R417, R427). -/
structure Sealed where
  head : List Byte
  ct : List Byte
  tag : List Byte
  deriving DecidableEq, Repr

/-- What the read of an inbound message brings: its bytes, and whether a read of a buffer failed (R384, R389). -/
structure Arrival where
  raw : Sealed
  hostErr : Bool
  deriving DecidableEq, Repr

/-- The payload of a queue-key envelope and the verdicts on the envelope (R417 to R419). `tdevOk`, `tagOk` are the outcomes of
comparing TDEV and opening the GCM tag. -/
structure KeyEnv where
  formatOk : Bool
  lenOk : Bool
  tdevOk : Bool
  tagOk : Bool
  imgHash : Nat
  tag : Nat
  qmask : Half
  sid : Word
  keys : List Nat
  deriving DecidableEq, Repr

/-- The payload of an image-key envelope and the verdicts on it (R417 to R419). -/
structure ImgEnv where
  formatOk : Bool
  lenOk : Bool
  tdevOk : Bool
  tagOk : Bool
  imgHash : Nat
  key : Nat
  seed : Nat
  deriving DecidableEq, Repr

/-- The plaintext of an inbound message, by queue (R421). -/
inductive InBody where
  | keys (e : KeyEnv)
  | input (recs : List InRec)
  | side (seq : Word) (rsvdOk : Bool) (payload : List Byte)
  | debug (op : Byte) (rsvdOk : Bool)
  deriving DecidableEq, Repr

/-- An inbound message as the device reads it (R389, R421): envelope fields, the verdict on its tag, its
plaintext, and whether a buffer read failed (R384). -/
structure InMsg where
  mlen : Nat
  queue : Nat
  ver : Byte
  sid : Word
  ctr : Nat
  tagOk : Bool
  hostErr : Bool
  body : InBody
  deriving DecidableEq, Repr

/-- A command packet (R452): its header, all its parameter bytes, its trailer, and the bulk input that its bulk descriptor names (R454). `key` and
`trailerOk` are filled in by the device when it takes the packet: the key of the session that carries it, under which it is answered (R452), and
whether the trailer is right (R433). -/
structure Hdr where
  master : Nat
  op : Half
  tag : Half
  len : Nat
  fver : Byte
  flags : Byte
  sh : Word
  seq : Word
  params : List Byte
  trailer : List Byte
  input : List Byte := []
  key : Option Nat := none
  trailerOk : Bool := false
  deriving DecidableEq, Repr

/-- What a transfer of M2 shows before its bytes: the target address, and whether its PEC is right (R451). -/
structure M2Tx where
  addr : Nat
  pecOk : Bool
  deriving DecidableEq, Repr

/-- FLAGS.BULK, and a reserved bit of FLAGS set (R452). -/
def Hdr.bulk (h : Hdr) : Bool := h.flags.getLsbD 0
def Hdr.rsvdFlags (h : Hdr) : Bool := decide (h.flags.toNat / 2 ≠ 0)

/-- CTX.CREATE parameters (R470). -/
structure CreateP where
  imgHash : Nat
  tag : Nat
  mode : Byte
  prof : Byte
  opts : Byte
  pmax : Byte
  allow : Nat
  port : Byte
  cls : Byte
  grace : Nat
  deriving DecidableEq, Repr

/-- A sealed image as IMG.LOAD finds it: its header fields, the outcomes of decrypting it, and its plaintext (R413 to R416). -/
structure SealedImg where
  magicOk : Bool
  ver : Byte
  rsvdOk : Bool
  imgLen : Nat
  bulkLen : Nat
  tagOk : Bool
  hash : Nat
  bytes : List Byte
  deriving DecidableEq, Repr

/-- The ticket and certificates of CTX.EXPORT (R426): whether the target's X.509 device certificate chains to the Iluade root, its DIK public key,
the DXK, FWK and membership certificates, the ticket. -/
structure ExportP where
  chainOk : Bool
  tdik : List Byte
  dxk : List Byte
  fwk : List Byte
  member : List Byte
  ticket : List Byte
  outLen : Nat
  deriving DecidableEq, Repr

/-- An export object with the chain that CTX.IMPORT supplies (R427, R428): the DIK public key of the source's X.509 device certificate, none where that
does not chain to the Iluade root, and its FWK certificate; `sig` is the object's SIG. -/
structure ImportP where
  obj : Sealed
  sig : List Byte
  sdik : Option (List Byte)
  sfwk : List Byte
  deriving DecidableEq, Repr

/-- QUE.SETUP parameters (R471). -/
structure QueSetupP where
  qid : Nat
  rbase : Nat
  log2n : Nat
  prio : Nat
  coal : Nat
  opt : Byte
  sfh : Nat
  sfv : Nat
  eclaim : Nat
  deriving DecidableEq, Repr

/-- A Reticle placement descriptor (R265); `flagsOk`, `rsvdOk`: FLAGS [7:1] and bytes 8 to 15 are zero. -/
structure Placement where
  image : Half
  x : Half
  y : Half
  alpha : Byte
  en : Bool
  flagsOk : Bool
  rsvdOk : Bool
  deriving DecidableEq, Repr

/-- A watched-region descriptor (R269); `flagsOk`, `rsvdOk`: FLAGS [7:1] and bytes 10 and 11 are zero. -/
structure Region where
  left : Nat
  top : Nat
  right : Nat
  bottom : Nat
  nsig : Nat
  en : Bool
  flagsOk : Bool
  rsvdOk : Bool
  missMax : Nat
  stillMax : Nat
  sigs : List Word
  deriving DecidableEq, Repr

/-- PIN.SET parameters (R471). -/
structure PinP where
  pin : Nat
  func : Nat
  pull : Nat
  drive : Nat
  sleep : Nat
  out : Bool
  oe : Nat
  deriving DecidableEq, Repr

/-- CHIP.ENROL parameters (R424): domain identifier, chip number, domain public key, membership certificate. -/
structure EnrolP where
  domain : Nat
  chipNo : Half
  dpub : List Byte
  cert : List Byte
  deriving DecidableEq, Repr

/-- What the board and the boot flash show to a start-up (R526 to R529): BIF_STRAP, whether the maker's signature of each bank verifies, whether the
board configuration area is intact, the bytes of the two chip-tag halves with their MACs, 304 each, that have changed in the flash (R447), the worst
slacks of the re-plan. -/
structure BootP where
  bifStrap : Bool
  bankAOk : Bool
  bankBOk : Bool
  boardCfgOk : Bool
  tagFlips : List (Fin 2 × Fin 304 × Byte)
  slacks : List Int
  deriving DecidableEq, Repr

/-- Why a chip-level fault arises (R405, R476, R503). -/
inductive ChipCause where
  | firmware | uncorrectable
  deriving DecidableEq, Repr

inductive Instr where
  -- register ALU (R83)
  | mov (c : Nat) (f : AluForm)
  | add (c : Nat) (f : AluForm)
  | adc (c : Nat) (f : AluForm)
  | sub (c : Nat) (f : AluForm)
  | sbc (c : Nat) (f : AluForm)
  | and (c : Nat) (f : AluForm)
  | or (c : Nat) (f : AluForm)
  | xor (c : Nat) (f : AluForm)
  | cmp (c : Nat) (f : AluForm)
  | tst (c : Nat) (f : AluForm)
  | neg (c : Nat) (f : AluForm)
  | not (c : Nat) (f : AluForm)
  | mul (c : Nat) (f : AluForm)
  | lsl (c : Nat) (f : ShiftForm)
  | lsr (c : Nat) (f : ShiftForm)
  | asr (c : Nat) (f : ShiftForm)
  -- extended ALU (R83)
  | mulh (c : Nat) (rd ra rb : Reg)
  | mulhu (c : Nat) (rd ra rb : Reg)
  | div (c : Nat) (rd ra rb : Reg)
  | divu (c : Nat) (rd ra rb : Reg)
  | rem (c : Nat) (rd ra rb : Reg)
  | remu (c : Nat) (rd ra rb : Reg)
  | min (c : Nat) (rd ra rb : Reg)
  | max (c : Nat) (rd ra rb : Reg)
  | minu (c : Nat) (rd ra rb : Reg)
  | maxu (c : Nat) (rd ra rb : Reg)
  | ror (c : Nat) (f : RorForm)
  | sxtb (c : Nat) (rd ra : Reg)
  | sxth (c : Nat) (rd ra : Reg)
  | zxtb (c : Nat) (rd ra : Reg)
  | zxth (c : Nat) (rd ra : Reg)
  -- immediates (R78, R79)
  | movi (c : Nat) (rd : Reg) (imm : Byte)
  | addi (c : Nat) (f : AddImm)
  | cmpi (c : Nat) (f : CmpImm)
  | andi (c : Nat) (rd ra : Reg) (imm : Half)
  | ori (c : Nat) (rd ra : Reg) (imm : Half)
  | xori (c : Nat) (rd ra : Reg) (imm : Half)
  | movhi (c : Nat) (rd : Reg) (imm : Half)
  -- loads and stores (R81, R82)
  | ldw (c : Nat) (rd : Reg) (ea : Ea)
  | ldh (c : Nat) (rd : Reg) (ea : Ea)
  | ldhs (c : Nat) (rd : Reg) (ea : Ea)
  | ldb (c : Nat) (rd : Reg) (ea : Ea)
  | ldbs (c : Nat) (rd : Reg) (ea : Ea)
  | stw (c : Nat) (rd : Reg) (ea : Ea)
  | sth (c : Nat) (rd : Reg) (ea : Ea)
  | stb (c : Nat) (rd : Reg) (ea : Ea)
  -- branches (R87, R88)
  | bcc (c : Nat) (cond : Cond) (f : BccForm)
  | b (c : Nat) (off : BitVec 12)
  | bl (c : Nat) (off : BitVec 24)
  | br (c : Nat) (rs : Reg)
  | blr (c : Nat) (rs : Reg)
  -- control registers, loops, accumulator (R70, R91, R95, R98, R100)
  | mrs (c : Nat) (rd : Reg) (cr : Fin 32)
  | msr (c : Nat) (cr : Fin 32) (ra : Reg)
  | loop (c : Nat) (ra : Reg) (eoff : Half)
  | loopi (c : Nat) (cnt eoff : BitVec 12)
  | lpop (c : Nat)
  | macx (c : Nat) (ra rb : Reg) (sz : Fin 4) (sa sb : BitVec 4) (clr sub : Bool)
  | accrd (c : Nat) (rd : Reg) (sh : Fin 32) (sat : Fin 4) (rnd clr : Bool)
  | post (c : Nat) (q : Fin 16)
  | callg (c : Nat) (g : Fin 256)
  | retg (c : Nat)
  | rete (c : Nat)
  | brk (c : Nat)
  | nop (c : Nat)
  | sleep (c : Nat)
  | sync (c : Nat)
  | bmov (c : Nat)
  | bfill (c : Nat)
  | bcmp (c : Nat)
  | illegalOpcode (c : Nat) (e : Encoding)
  -- machine services (R144 to R148)
  | attest (c : Nat)
  | rand (c : Nat)
  | walltime (c : Nat)
  | debugout (c : Nat)
  | saveCommit (c : Nat)
  -- events and registers of a context
  | interruptEntry (c : Nat)
  | holdWindowEnd (c : Nat)
  | timerTick (c : Nat) (n : Fin 4)
  | tmCountRead (c : Nat) (n : Fin 4)
  | tmCtlWrite (c : Nat) (n : Fin 4) (v : Word)
  | tmCountWrite (c : Nat) (n : Fin 4) (v : Word)
  | timerHaltTick (c : Nat)
  | bmFramelRead (c : Nat)
  | icRaise (c : Nat) (v : Word)
  | oqCtlWrite (c : Nat) (q : Fin 16) (v : Word)
  | registerWrite (t : RegTarget) (v : Word)
  | hblankStart (c : Nat)
  | lineCompare (c : Nat)
  | inputLatch (c : Nat)
  | rasterListCapture (c : Nat)
  | listInForce (c : Nat)
  | rasterEntryAction (c : Nat)
  | spriteEvaluation (c : Nat)
  | sheafBegin (c : Nat)
  | lineRender (c : Nat)
  | laneWaitEnd (c : Nat)
  | lineCommit (c : Nat)
  | videoSliceEncode (c : Nat)
  | audioSample (c : Nat)
  | auCommit (c : Nat) (v : Word)
  | audioCommitTaken (c : Nat)
  | crossfadeEnd (c : Nat)
  | audioBlockCommit (c : Nat)
  | audioBlockSend (c : Nat)
  | buGo (c : Nat) (v : Word)
  | blitStart (c : Nat)
  | blitRow (c : Nat)
  -- input, side data, rollback, Orrery
  | inputMessage (c : Nat)
  | inputDeadline (c : Nat)
  | sideMessage (c : Nat)
  | keyEnvelopeMessage (c : Nat)
  | debugHaltRequest (c : Nat)
  | debugResume (c : Nat)
  | attestSigned (c : Nat)
  | depthAdjust (c : Nat)
  | firstUseEnd (c : Nat)
  | epochRelease (c : Nat)
  | swapOut (c : Nat)
  | swapIn (c : Nat)
  | egressSecond (c : Nat)
  -- host attachment
  | doorbell (port qid : Nat) (v : Word) (descs : List RawDesc) (readErr : Bool)
  | outboundMessageWrite (qid : Nat)
  | inboundMessageRead (qid : Nat) (a : Arrival)
  | coalescerFire (k : Nat)
  | hQprobe (port : Nat) (v : Word)
  | hDmactl (port : Nat) (v : Word)
  | dmaDisableClear (port : Nat) (rings : List Ring)
  | dlDown (port : Nat)
  | flr (port : Nat)
  | busMasterDisable (port : Nat)
  | chipLevelFault (cause : ChipCause)
  | firmwareRestart
  | restartTimeout
  | bulkTransferComplete (master : Nat) (tag : Half) (hostErr : Bool)
  | m2Write (x : M2Tx) (off : Nat) (data : List Byte)
  | m2SetRead (x : M2Tx) (off len : Nat)
  | m2Read (x : M2Tx)
  -- management commands
  | chipQuery (h : Hdr)
  | chipCerts (h : Hdr)
  | chipEvents (h : Hdr) (cursor : Nat)
  | chipClaim (h : Hdr)
  | chipRenew (h : Hdr)
  | chipRelease (h : Hdr)
  | chipHandover (h : Hdr) (target : Byte)
  | chipAccept (h : Hdr)
  | chipTag (h : Hdr) (off : Nat) (data : List Byte) (flashOk : Bool)
  | chipEnrol (h : Hdr) (p : EnrolP)
  | chipSetclaim (h : Hdr) (order : List Nat) (m2addr : Nat) (lease : Nat)
  | sesOpen (h : Hdr) (role slot : Nat) (mnonce : Nat) (form : Byte) (mxy : Nat)
  | sesProve (h : Hdr) (shandle : Word) (cpub sig : List Byte)
  | sesClose (h : Hdr)
  | roleSetcred (h : Hdr) (slot : Nat) (digest : Nat)
  | ctxCreate (h : Hdr) (p : CreateP)
  | ctxStart (h : Hdr) (c : Nat)
  | ctxPark (h : Hdr) (c : Nat)
  | ctxResume (h : Hdr) (c : Nat)
  | ctxDestroy (h : Hdr) (c : Nat)
  | ctxClass (h : Hdr) (c cls grace : Nat)
  | ctxExport (h : Hdr) (c : Nat) (p : ExportP)
  | ctxImprep (h : Hdr)
  | ctxImport (h : Hdr) (port cls grace : Nat) (head ct tag sig : List Byte) (sdik : Option (List Byte)) (sfwk : List Byte)
  | ctxAttest (h : Hdr) (c : Nat) (nonce : Nat)
  | ctxQuery (h : Hdr) (c : Nat)
  | ctxReimage (h : Hdr) (c : Nat) (imgHash : Nat)
  | imgLoad (h : Hdr) (env : Option Sealed) (raw : Sealed)
  | imgUnload (h : Hdr) (imgHash : Nat)
  | imgKeys (h : Hdr) (c : Nat) (env : Sealed)
  | imgList (h : Hdr) (start : Nat)
  | queSetup (h : Hdr) (p : QueSetupP)
  | queQuery (h : Hdr) (qid : Nat)
  | retUpload (h : Hdr) (width height : Nat) (pixels : List Byte)
  | retFree (h : Hdr) (handle : Half)
  | retPlace (h : Hdr) (c : Nat) (mask : Byte) (plc : List Placement)
  | retWatch (h : Hdr) (c : Nat) (mask : Byte) (regs : List Region)
  | retWatchq (h : Hdr) (c : Nat)
  | mtrRead (h : Hdr) (c : Nat)
  | mtrStatement (h : Hdr) (sseq max : Nat)
  | mtrAck (h : Hdr) (upto : Nat)
  | timeSet (h : Hdr) (time : Nat)
  | pwrLimit (h : Hdr) (watts : Nat)
  | pwrStepcap (h : Hdr) (cap : Nat)
  | pwrThrottle (h : Hdr) (tj : Nat)
  | pwrAgeing (h : Hdr) (slacks : List Int)
  | pwrQuery (h : Hdr)
  | pinSet (h : Hdr) (p : PinP)
  | pinLock (h : Hdr) (mask : Nat)
  | pinQuery (h : Hdr)
  | pinlock (off : Nat) (v : Word)
  | rasScrubStop (h : Hdr) (period : Nat)
  | rasScrubOnePass (h : Hdr) (period : Nat)
  | rasScrubContinuous (h : Hdr) (period : Nat)
  | rasCounts (h : Hdr)
  | rasThresh (h : Hdr) (hbm onchip : Nat)
  | rasClear (h : Hdr)
  | almRead (h : Hdr) (seq max : Nat)
  | almHead (h : Hdr) (nonce : Nat)
  | fwUpdate (h : Hdr) (sigOk : Bool) (svn : Nat)
  | fwDiag (h : Hdr) (test : Nat)
  | rmaReset (h : Hdr)
  -- ownership, sessions, metering, power, pins, resets
  | electionWindowClose
  | ownershipLapse
  | handoverOfferExpiry
  | sessionTimeout (sh : Word)
  | ticketExpiry
  | minuteClose
  | frequencyStepChange (q : Fin 4)
  | railRetry (q : Fin 4)
  | powerLimitLoop (cardDeciW : Nat) (quadPower : List Nat)
  | thermalSample (clusterTemps : List Int) (hbmTemps : List Int)
  | thermalTrip
  | powerBrakeAssert
  | powerBrakeDeassert
  | frostEntry
  | frostExit (port : Nat)
  | ageingReplan (slacks : List Int)
  | pllLockLoss
  | gleanerUnit
  | errorHourEnd
  | gpioPadChange (pin : Nat) (level : Bool)
  | frameSyncInEdge (pin : Nat)
  | frameSyncOutPulse
  | coldReset
  | deviceReset (selfRefreshOk : Bool)
  | portBReset
  | startUp (p : BootP)
  | linkUp (port speed width : Nat)
  | msixVectorUnmask (port vector : Nat)
  | busMasterEnable (port : Nat) (rings : List Ring)
  | ptmDialogue (port : Nat) (rootNs : Nat)
  | unassignedOpcode (h : Hdr)
  | badPacketHeader (master : Nat)
  | mbRconsWrite (master : Nat) (v : Word)
  | railTargetTimeout (q : Fin 4)
  | startUpTimeout
  | rejectionSummary (master : Nat)
  deriving DecidableEq, Repr

end Sys2Proof
end

