-- ==== Sys2Proof/Decode.lean ====
section
/-! DEFINITION. The encodings of the game core (R72, R78, R79, R80): the encoder gives the bits that an exception stores in INFO
(R122), the decoder says which encodings are assigned (R80). The opcode table itself gives no row any bits, so
`decodeTableWord` answers none. -/
namespace Sys2Proof

/-- A 16-bit encoding from its four nibbles (R78). -/
def enc16 (n3 n2 n1 n0 : Nat) : Encoding := ⟨false, BitVec.ofNat 32 (n3 * 4096 + n2 * 256 + n1 * 16 + n0)⟩

/-- A 32-bit encoding from its major opcode and the six operand nibbles (R79). -/
def enc32 (major n7 n6 n5 n4 n1 n0 : Nat) : Encoding :=
  ⟨true, BitVec.ofNat 32 (n7 * 268435456 + n6 * 16777216 + n5 * 1048576 + n4 * 65536 + (224 + major) * 256 + n1 * 16 + n0)⟩

/-- Nibble `k` of a number. -/
def nib (x k : Nat) : Nat := x / 16 ^ k % 16

def condNo : Cond → Nat
  | .eq => 0 | .ne => 1 | .cs => 2 | .cc => 3 | .mi => 4 | .pl => 5 | .vs => 6 | .vc => 7
  | .hi => 8 | .ls => 9 | .ge => 10 | .lt => 11 | .gt => 12 | .le => 13 | .al => 14

def condOf : Nat → Option Cond
  | 0 => some .eq | 1 => some .ne | 2 => some .cs | 3 => some .cc | 4 => some .mi | 5 => some .pl | 6 => some .vs | 7 => some .vc
  | 8 => some .hi | 9 => some .ls | 10 => some .ge | 11 => some .lt | 12 => some .gt | 13 => some .le | 14 => some .al
  | _ => none

def encAlu (fn : Nat) : AluForm → Encoding
  | .r16 rd rs => enc16 0 fn rd rs
  | .r32 rd ra rb => enc32 0x00 0 0 fn rb rd ra

def encShift (fn sf : Nat) : ShiftForm → Encoding
  | .reg f => encAlu fn f
  | .imm n rd => enc16 4 (sf * 4 + n.val / 16) (n.val % 16) rd

def encX (xfn : Nat) (rd ra rb : Reg) : Encoding := enc32 0x01 0 0 xfn rb rd ra

def encImm (major imm rd ra : Nat) : Encoding := enc32 major (nib imm 3) (nib imm 2) (nib imm 1) (nib imm 0) rd ra

/-- Loads and stores: `major` is the displacement major, `kind` the kind of major 0x10, `isLoad` the bit L of the 16-bit
word forms, `kind16` the kind of 0xA where the operation has one (R78, R79). -/
def encMem (major kind isLoad kind16 : Nat) (rd : Reg) : Ea → Encoding
  | .base16 rb off => if kind = 0 ∨ kind = 5 then enc16 5 (isLoad * 8 + off.toNat) rd rb else enc16 0xA (kind16 * 4 + off.toNat % 4) rd rb
  | .stack16 off => enc16 6 (isLoad * 8 + off.toNat / 16) (off.toNat % 16) rd
  | .disp32 ra imm => encImm major imm.toNat rd ra
  | .scaled ra rb => enc32 0x10 0 0 kind rb rd ra
  | .postInc ra => enc32 0x10 0 1 kind 0 rd ra
  | .preDec ra => enc32 0x10 0 2 kind 0 rd ra
  | .postReg ra rb => enc32 0x10 0 3 kind rb rd ra

def encMisc (fn sub : Nat) : Encoding := enc16 9 fn (sub / 16) (sub % 16)

/-- The encoding of a core instruction, written from R78 and R79; none for a command that is no instruction. -/
def encodeCore : Instr → Option Encoding
  | .mov _ f => some (encAlu 0x0 f)
  | .add _ f => some (encAlu 0x1 f)
  | .adc _ f => some (encAlu 0x2 f)
  | .sub _ f => some (encAlu 0x3 f)
  | .sbc _ f => some (encAlu 0x4 f)
  | .and _ f => some (encAlu 0x5 f)
  | .or _ f => some (encAlu 0x6 f)
  | .xor _ f => some (encAlu 0x7 f)
  | .cmp _ f => some (encAlu 0x8 f)
  | .tst _ f => some (encAlu 0x9 f)
  | .neg _ f => some (encAlu 0xA f)
  | .not _ f => some (encAlu 0xB f)
  | .mul _ f => some (encAlu 0xC f)
  | .lsl _ f => some (encShift 0xD 0 f)
  | .lsr _ f => some (encShift 0xE 1 f)
  | .asr _ f => some (encShift 0xF 2 f)
  | .mulh _ rd ra rb => some (encX 0x0 rd ra rb)
  | .mulhu _ rd ra rb => some (encX 0x1 rd ra rb)
  | .div _ rd ra rb => some (encX 0x2 rd ra rb)
  | .divu _ rd ra rb => some (encX 0x3 rd ra rb)
  | .rem _ rd ra rb => some (encX 0x4 rd ra rb)
  | .remu _ rd ra rb => some (encX 0x5 rd ra rb)
  | .min _ rd ra rb => some (encX 0x6 rd ra rb)
  | .max _ rd ra rb => some (encX 0x7 rd ra rb)
  | .minu _ rd ra rb => some (encX 0x8 rd ra rb)
  | .maxu _ rd ra rb => some (encX 0x9 rd ra rb)
  | .ror _ (.imm n rd) => some (enc16 4 (3 * 4 + n.val / 16) (n.val % 16) rd)
  | .ror _ (.x32 rd ra rb) => some (encX 0xA rd ra rb)
  | .sxtb _ rd ra => some (encX 0xB rd ra 0)
  | .sxth _ rd ra => some (encX 0xC rd ra 0)
  | .zxtb _ rd ra => some (encX 0xD rd ra 0)
  | .zxth _ rd ra => some (encX 0xE rd ra 0)
  | .movi _ rd imm => some (enc16 1 (imm.toNat / 16) (imm.toNat % 16) rd)
  | .addi _ (.i8 rd imm) => some (enc16 2 (imm.toNat / 16) (imm.toNat % 16) rd)
  | .addi _ (.i16 rd ra imm) => some (encImm 0x02 imm.toNat rd ra)
  | .cmpi _ (.i8 rd imm) => some (enc16 3 (imm.toNat / 16) (imm.toNat % 16) rd)
  | .cmpi _ (.i16 ra imm) => some (encImm 0x07 imm.toNat 0 ra)
  | .andi _ rd ra imm => some (encImm 0x03 imm.toNat rd ra)
  | .ori _ rd ra imm => some (encImm 0x04 imm.toNat rd ra)
  | .xori _ rd ra imm => some (encImm 0x05 imm.toNat rd ra)
  | .movhi _ rd imm => some (encImm 0x06 imm.toNat rd 0)
  | .ldw _ rd ea => some (encMem 0x08 0 1 0 rd ea)
  | .ldh _ rd ea => some (encMem 0x09 1 1 1 rd ea)
  | .ldhs _ rd ea => some (encMem 0x0A 2 1 0 rd ea)
  | .ldb _ rd ea => some (encMem 0x0B 3 1 0 rd ea)
  | .ldbs _ rd ea => some (encMem 0x0C 4 1 0 rd ea)
  | .stw _ rd ea => some (encMem 0x0D 5 0 0 rd ea)
  | .sth _ rd ea => some (encMem 0x0E 6 0 3 rd ea)
  | .stb _ rd ea => some (encMem 0x0F 7 0 2 rd ea)
  | .bcc _ cond (.short off) => some (enc16 7 (condNo cond) (off.toNat / 16) (off.toNat % 16))
  | .bcc _ cond (.long off) => some (enc32 0x11 (nib off.toNat 4) (nib off.toNat 3) (nib off.toNat 2) (nib off.toNat 1) (nib off.toNat 0) (condNo cond))
  | .b _ off => some (enc16 8 (nib off.toNat 2) (nib off.toNat 1) (nib off.toNat 0))
  | .bl _ off => some (enc32 0x12 (nib off.toNat 5) (nib off.toNat 4) (nib off.toNat 3) (nib off.toNat 2) (nib off.toNat 1) (nib off.toNat 0))
  | .br _ rs => some (enc16 9 1 0 rs)
  | .blr _ rs => some (enc16 9 2 0 rs)
  | .mrs _ rd cr => some (enc32 0x13 0 0 (cr.val / 16) (cr.val % 16) rd 0)
  | .msr _ cr ra => some (enc32 0x14 0 0 (cr.val / 16) (cr.val % 16) 0 ra)
  | .loop _ ra eoff => some (encImm 0x15 eoff.toNat 0 ra)
  | .loopi _ cnt eoff => some (enc32 0x16 (nib cnt.toNat 2) (nib cnt.toNat 1) (nib cnt.toNat 0) (nib eoff.toNat 2) (nib eoff.toNat 1) (nib eoff.toNat 0))
  | .lpop _ => some (encMisc 0 5)
  | .macx _ ra rb sz sa sb clr sub => some (enc32 0x17 sb.toNat sa.toNat (sz.val * 4 + clr.toNat * 2 + sub.toNat) rb 0 ra)
  | .accrd _ rd sh sat rnd clr => some (enc32 0x18 0 rnd.toNat (clr.toNat * 8 + sat.val * 2 + sh.val / 16) (sh.val % 16) rd 0)
  | .post _ q => some (encMisc 4 q.val)
  | .callg _ g => some (encMisc 3 g.val)
  | .retg _ => some (encMisc 0 3)
  | .rete _ => some (encMisc 0 4)
  | .brk _ => some (encMisc 0 6)
  | .nop _ => some (encMisc 0 0)
  | .sleep _ => some (encMisc 0 1)
  | .sync _ => some (encMisc 0 2)
  | .bmov _ => some (encMisc 5 0)
  | .bfill _ => some (encMisc 5 1)
  | .bcmp _ => some (encMisc 5 2)
  | .attest _ => some (encMisc 3 0xF0)
  | .rand _ => some (encMisc 3 0xF1)
  | .walltime _ => some (encMisc 3 0xF2)
  | .debugout _ => some (encMisc 3 0xF3)
  | .saveCommit _ => some (encMisc 3 0xF4)
  | .illegalOpcode _ e => some e
  | _ => none

/-- The bits of a core instruction, zero for a command that is none. -/
def encodingOf (i : Instr) : Encoding := (encodeCore i).getD ⟨false, 0⟩

def decAlu (c fn : Nat) (f : AluForm) (sh : ShiftForm) : Option Instr :=
  match fn with
  | 0x0 => some (.mov c f) | 0x1 => some (.add c f) | 0x2 => some (.adc c f) | 0x3 => some (.sub c f)
  | 0x4 => some (.sbc c f) | 0x5 => some (.and c f) | 0x6 => some (.or c f) | 0x7 => some (.xor c f)
  | 0x8 => some (.cmp c f) | 0x9 => some (.tst c f) | 0xA => some (.neg c f) | 0xB => some (.not c f)
  | 0xC => some (.mul c f) | 0xD => some (.lsl c sh) | 0xE => some (.lsr c sh) | 0xF => some (.asr c sh)
  | _ => none

def decX (c xfn : Nat) (rd ra rb : Reg) : Option Instr :=
  match xfn with
  | 0x0 => some (.mulh c rd ra rb) | 0x1 => some (.mulhu c rd ra rb) | 0x2 => some (.div c rd ra rb)
  | 0x3 => some (.divu c rd ra rb) | 0x4 => some (.rem c rd ra rb) | 0x5 => some (.remu c rd ra rb)
  | 0x6 => some (.min c rd ra rb) | 0x7 => some (.max c rd ra rb) | 0x8 => some (.minu c rd ra rb)
  | 0x9 => some (.maxu c rd ra rb) | 0xA => some (.ror c (.x32 rd ra rb))
  | 0xB => if rb = 0 then some (.sxtb c rd ra) else none
  | 0xC => if rb = 0 then some (.sxth c rd ra) else none
  | 0xD => if rb = 0 then some (.zxtb c rd ra) else none
  | 0xE => if rb = 0 then some (.zxth c rd ra) else none
  | _ => none

def decMisc (c fn sub : Nat) : Option Instr :=
  match fn with
  | 0 => match sub with
    | 0 => some (.nop c) | 1 => some (.sleep c) | 2 => some (.sync c) | 3 => some (.retg c) | 4 => some (.rete c)
    | 5 => some (.lpop c) | 6 => some (.brk c) | _ => none
  | 1 => if sub < 16 then some (.br c (Fin.ofNat 16 sub)) else none
  | 2 => if sub < 16 then some (.blr c (Fin.ofNat 16 sub)) else none
  | 3 => match sub with
    | 0xF0 => some (.attest c) | 0xF1 => some (.rand c) | 0xF2 => some (.walltime c) | 0xF3 => some (.debugout c)
    | 0xF4 => some (.saveCommit c)
    | g => some (.callg c (Fin.ofNat 256 g))
  | 4 => if sub < 16 then some (.post c (Fin.ofNat 16 sub)) else none
  | 5 => match sub with
    | 0 => some (.bmov c) | 1 => some (.bfill c) | 2 => some (.bcmp c) | _ => none
  | _ => none

def dec16 (c x : Nat) : Option Instr :=
  let n2 := nib x 2; let n1 := nib x 1; let n0 := nib x 0
  let r1 : Reg := Fin.ofNat 16 n1; let r0 : Reg := Fin.ofNat 16 n0
  let b := BitVec.ofNat 8 (n2 * 16 + n1)
  match nib x 3 with
  | 0x0 => decAlu c n2 (.r16 r1 r0) (.reg (.r16 r1 r0))
  | 0x1 => some (.movi c r0 b)
  | 0x2 => some (.addi c (.i8 r0 b))
  | 0x3 => some (.cmpi c (.i8 r0 b))
  | 0x4 =>
    let n : Fin 32 := Fin.ofNat 32 (n2 % 2 * 16 + n1)
    if n2 / 2 % 2 = 1 then none
    else match n2 / 4 with
      | 0 => some (.lsl c (.imm n r0)) | 1 => some (.lsr c (.imm n r0)) | 2 => some (.asr c (.imm n r0))
      | _ => some (.ror c (.imm n r0))
  | 0x5 => if n2 / 8 = 1 then some (.ldw c r1 (.base16 r0 (BitVec.ofNat 3 n2))) else some (.stw c r1 (.base16 r0 (BitVec.ofNat 3 n2)))
  | 0x6 =>
    let off := BitVec.ofNat 7 (n2 % 8 * 16 + n1)
    if n2 / 8 = 1 then some (.ldw c r0 (.stack16 off)) else some (.stw c r0 (.stack16 off))
  | 0x7 => (condOf n2).map fun k => .bcc c k (.short (BitVec.ofNat 8 (n1 * 16 + n0)))
  | 0x8 => some (.b c (BitVec.ofNat 12 (n2 * 256 + n1 * 16 + n0)))
  | 0x9 => decMisc c n2 (n1 * 16 + n0)
  | 0xA =>
    let ea := Ea.base16 r0 (BitVec.ofNat 3 (n2 % 4))
    match n2 / 4 with
    | 0 => some (.ldb c r1 ea) | 1 => some (.ldh c r1 ea) | 2 => some (.stb c r1 ea) | _ => some (.sth c r1 ea)
  | _ => none

def decMem (c kind : Nat) (rd : Reg) (ea : Ea) : Option Instr :=
  match kind with
  | 0 => some (.ldw c rd ea) | 1 => some (.ldh c rd ea) | 2 => some (.ldhs c rd ea) | 3 => some (.ldb c rd ea)
  | 4 => some (.ldbs c rd ea) | 5 => some (.stw c rd ea) | 6 => some (.sth c rd ea) | 7 => some (.stb c rd ea)
  | _ => none

/-- Major 0x10: a load in modes 1 to 3 whose rd equals ra is reserved (R80), and modes 1 and 2 have rb 0 (R81). -/
def decMode (c mode kind : Nat) (rd ra rb : Reg) : Option Instr :=
  match mode with
  | 0 => decMem c kind rd (.scaled ra rb)
  | 1 => if rb ≠ 0 ∨ (kind < 5 ∧ rd = ra) then none else decMem c kind rd (.postInc ra)
  | 2 => if rb ≠ 0 ∨ (kind < 5 ∧ rd = ra) then none else decMem c kind rd (.preDec ra)
  | 3 => if kind < 5 ∧ rd = ra then none else decMem c kind rd (.postReg ra rb)
  | _ => none

/-- R70: control register numbers 0x00 to 0x14 are assigned. -/
def crAssigned (cr : Nat) : Bool := cr ≤ 0x14

def dec32 (c x : Nat) : Option Instr :=
  let n7 := nib x 7; let n6 := nib x 6; let n5 := nib x 5; let n4 := nib x 4; let n1 := nib x 1; let n0 := nib x 0
  let rd : Reg := Fin.ofNat 16 n1; let ra : Reg := Fin.ofNat 16 n0; let rb : Reg := Fin.ofNat 16 n4
  let imm := BitVec.ofNat 16 (n7 * 4096 + n6 * 256 + n5 * 16 + n4)
  let major := x / 256 % 32
  match major with
  | 0x00 =>
    if n7 ≠ 0 ∨ n6 ≠ 0 ∨ ((n5 = 8 ∨ n5 = 9) ∧ n1 ≠ 0) then none
    else decAlu c n5 (.r32 rd ra rb) (.reg (.r32 rd ra rb))
  | 0x01 => if n7 ≠ 0 ∨ n6 ≠ 0 then none else decX c n5 rd ra rb
  | 0x02 => some (.addi c (.i16 rd ra imm))
  | 0x03 => some (.andi c rd ra imm)
  | 0x04 => some (.ori c rd ra imm)
  | 0x05 => some (.xori c rd ra imm)
  | 0x06 => if n0 ≠ 0 then none else some (.movhi c rd imm)
  | 0x07 => if n1 ≠ 0 then none else some (.cmpi c (.i16 ra imm))
  | 0x08 | 0x09 | 0x0A | 0x0B | 0x0C | 0x0D | 0x0E | 0x0F => decMem c (major - 8) rd (.disp32 ra imm)
  | 0x10 => if n7 ≠ 0 then none else decMode c n6 n5 rd ra rb
  | 0x11 => (condOf n0).map fun k => .bcc c k (.long (BitVec.ofNat 20 (n7 * 65536 + n6 * 4096 + n5 * 256 + n4 * 16 + n1)))
  | 0x12 => some (.bl c (BitVec.ofNat 24 (n7 * 1048576 + n6 * 65536 + n5 * 4096 + n4 * 256 + n1 * 16 + n0)))
  | 0x13 =>
    if n7 ≠ 0 ∨ n6 ≠ 0 ∨ 1 < n5 ∨ n0 ≠ 0 ∨ ¬ crAssigned (n5 * 16 + n4) then none else some (.mrs c rd (Fin.ofNat 32 (n5 * 16 + n4)))
  | 0x14 =>
    if n7 ≠ 0 ∨ n6 ≠ 0 ∨ 1 < n5 ∨ n1 ≠ 0 ∨ ¬ crAssigned (n5 * 16 + n4) then none else some (.msr c (Fin.ofNat 32 (n5 * 16 + n4)) ra)
  | 0x15 => if n1 ≠ 0 ∨ imm = 0 then none else some (.loop c ra imm)
  | 0x16 =>
    let eoff := BitVec.ofNat 12 (n4 * 256 + n1 * 16 + n0)
    if eoff = 0 then none else some (.loopi c (BitVec.ofNat 12 (n7 * 256 + n6 * 16 + n5)) eoff)
  | 0x17 =>
    if n1 ≠ 0 ∨ 1 < n5 / 4 ∨ ra = rb then none
    else some (.macx c ra rb (Fin.ofNat 4 (n5 / 4)) (BitVec.ofNat 4 n6) (BitVec.ofNat 4 n7) (n5 / 2 % 2 = 1) (n5 % 2 = 1))
  | 0x18 =>
    if n7 ≠ 0 ∨ 1 < n6 ∨ n0 ≠ 0 then none
    else some (.accrd c rd (Fin.ofNat 32 (n5 % 2 * 16 + n4)) (Fin.ofNat 4 (n5 / 2 % 4)) (n6 = 1) (n5 / 8 = 1))
  | _ => none

/-- The instruction an encoding stands for on context `c`; none where R80 says vector 1. -/
def decodeCore (c : Nat) (e : Encoding) : Option Instr :=
  if e.long then (if e.bits.toNat / 8192 % 8 = 7 then dec32 c e.bits.toNat else none)
  else if 65535 < e.bits.toNat then none else dec16 c e.bits.toNat

/-- The command that an opcode-table word spells: the table gives no row any bits. -/
def decodeTableWord (_nbits _w : Nat) : Option Instr := none

end Sys2Proof
end

