-- ==== Sys2Proof/Config.lean ====
section
/-! DEFINITION. What the chip fixes (mode tables of R165, R166 and R28, profile sizes of R33) and the free values: constants with
no body, so that no proof can see a value of them. `Config.free` serves every value the spec leaves open. -/
namespace Sys2Proof

/-- The figures of a video mode (R165, R166): kHz of the bus clock, DOTDIV, active and total geometry, rate, vc per audio sample,
samples per frame. -/
structure ModeT where
  khz : Nat
  dotdiv : Nat
  hAct : Nat
  vAct : Nat
  hTot : Nat
  vTot : Nat
  rate : Nat
  vcSample : Nat
  samples : Nat
  deriving DecidableEq, Repr

/-- R165, R166: the table by `SYS_CFG.MODE`; codes 6 and 7 are not used. -/
def modeOf (mode : Nat) : ModeT :=
  match mode with
  | 0 => ⟨12288, 2, 256, 224, 400, 256, 60, 256, 800⟩
  | 1 => ⟨12288, 2, 256, 224, 384, 320, 50, 256, 960⟩
  | 2 => ⟨24576, 2, 320, 240, 640, 320, 60, 512, 800⟩
  | 3 => ⟨49152, 4, 384, 216, 800, 256, 60, 1024, 800⟩
  | 4 => ⟨49152, 4, 480, 270, 640, 320, 60, 1024, 800⟩
  | _ => ⟨98304, 4, 480, 270, 640, 320, 120, 2048, 400⟩

/-- vc per line (R166). -/
def ModeT.lineVc (t : ModeT) : Nat := t.hTot * t.dotdiv

/-- vc per frame (R166). -/
def ModeT.frameVc (t : ModeT) : Nat := t.vTot * t.lineVc

/-- Render charge in pixels per second (R28). -/
def ModeT.charge (t : ModeT) : Nat := t.hAct * t.vAct * t.rate

/-- Work RAM size by profile (R33). -/
def workSize (prof : Nat) : Nat := match prof with | 0 => 0x100000 | 1 => 0x400000 | _ => 0x1000000

/-- VRAM size by profile (R33). -/
def vramSize (prof : Nat) : Nat := match prof with | 0 => 0x40000 | 1 => 0x100000 | _ => 0x200000

/-- Audio RAM size by profile (R33). -/
def audioSize (prof : Nat) : Nat := match prof with | 0 => 0x40000 | 1 => 0x100000 | _ => 0x400000

/-- What the device keeps for a context in HBM beside its memories and its queue-table entries (R500): items that the device writes and reads whole, so
that an error in any block of one is met by each use of the item, and gone where it is written anew (R498, R499). -/
inductive CtxStore where
  /-- the lane-state record, while the context has no lane (R24) -/
  | lane
  /-- the machine-state copy of the snapshot of a frame (R335) -/
  | snapshot (frame : Nat)
  /-- the version of a page that carries the tag of a frame (R336): memory by its number (1 work RAM, 2 VRAM, 3 audio RAM) and page -/
  | version (frame mem page : Nat)
  /-- the records of the input log for a target (R50, R326) -/
  | log (target : Nat)
  /-- the latch record of a frame (R339) -/
  | latch (frame : Nat)
  /-- a rendered line with its stamps, by its index, in the slot of its sheaf (R25) -/
  | line (index : Nat)
  /-- a staged side message: its queue, and its place in the queue's order of arrival (R58) -/
  | staged (queue place : Nat)
  /-- an outbound message, by its number (R286) -/
  | outbound (num : Nat)
  /-- the predictor history (R24, R238) -/
  | predictor
  deriving DecidableEq, Repr

/-- What the vote store holds (R430, R435, R442, R468, R489, R492, R529): the digest of a credential slot, the lowest FWSVN, the boot count, the Almanac
head (SEQ, CHAIN), the meter epoch, the next SSEQ, the settings of CHIP.SETCLAIM with the owner state, the powered hours, the retired steps. -/
inductive VoteField where
  | cred (slot : Fin 6) | minSvn | boot | head | epoch | sseq | claim | hours | retired
  deriving DecidableEq, Repr

/-- The 32-bit words that a field takes: 48 bytes of a digest, SEQ and CHAIN, an SSEQ of 8 bytes (R430, R434, R441). -/
def VoteField.words : VoteField → Nat
  | .cred _ => 12
  | .head => 14
  | .sseq => 2
  | .minSvn => 1
  | .boot => 1
  | .epoch => 1
  | .claim => 2
  | .hours => 1
  | .retired => 1

/-- A word of the vote store: word `index` of a field (R507). -/
structure VoteWord where
  field : VoteField
  index : Nat
  deriving DecidableEq, Repr

/-- What a place of the firmware part holds (R22, R264, R443, R503): the Zarba image or the Reticle pool, of which each stack has a copy; the statement
store; device data of which there is one copy. -/
inductive FirmPart where
  | copied | statements | other
  deriving DecidableEq, Repr, Inhabited

/-- What the environment does to stored data, and when the device reads data of its own whose reads no command states (R495, R497, R500, R503, R507).
`double` says that the word is uncorrectable; memories are numbered 1 work RAM, 2 VRAM, 3 audio RAM. -/
inductive Hit where
  /-- a fast-RAM word of a context -/
  | fast (ctx word : Nat) (double : Bool)
  /-- HBM of a memory of a context -/
  | ram (ctx mem addr : Nat) (double : Bool)
  /-- on-chip data of a memory of a context: a write buffer, or a dirty L2 line -/
  | onChip (ctx mem addr : Nat) (buffer double : Bool)
  /-- HBM of a loaded image, by its place in the list -/
  | image (index addr : Nat) (double : Bool)
  /-- an item that the device keeps for a context, at an offset of its stack -/
  | store (ctx : Nat) (what : CtxStore) (off : Nat) (double : Bool)
  /-- the on-chip queue-state cache: the state of a queue -/
  | entry (qid : Nat) (double : Bool)
  /-- a word at an offset of the reserved region of a stack (R22) -/
  | reserved (stack : Fin 4) (off : Nat) (double : Bool)
  /-- the device reads that word -/
  | reading (stack : Fin 4) (off : Nat)
  /-- a correction that a stack reports -/
  | onDie (stack : Fin 4)
  /-- an engine cache, L1 or a clean L2 line -/
  | cache
  /-- management SRAM -/
  | sram (double : Bool)
  /-- one copy of a vote-store word: it differs from what was written, or is uncorrectable -/
  | vote (word : VoteWord) (bank : Fin 3)
  /-- the device reads a vote-store word -/
  | voteRead (word : VoteWord)
  /-- the copy of a statement in stack 0 or 1, at an offset of the reserved region -/
  | statement (sseq : Nat) (copy : Fin 2) (off : Nat) (double : Bool)
  deriving DecidableEq, Repr

/-! ### The reserved region of HBM (R22 to R25) -/

/-- Bytes of one of the four HBM stacks (R506). -/
def stackBytes : Nat := 0x800000000

/-- Where the reserved 2 GB of a stack begin (R22). -/
def reservedBase : Nat := 0x780000000

/-- The parts of the reserved region (R22). -/
inductive Part where
  | sheaf | granary | queues | almanac | firmware
  deriving DecidableEq, Repr

/-- The part that holds offset `off` of the reserved region of stack `st` (R22). -/
def partOf (st off : Nat) : Part :=
  if off < 0x20000000 then .sheaf
  else if off < 0x77000000 then .granary
  else if off < 0x78000000 then (if st = 0 then .queues else .granary)
  else if off < 0x7B000000 then (if st = 0 then .almanac else .granary)
  else if off < 0x7C000000 then (if st = 0 then .almanac else .queues)
  else .firmware

/-- Offset of the queue-table part in the reserved region (R22). -/
def queuesBase (st : Nat) : Nat := if st = 0 then 0x77000000 else 0x7B000000

/-- Offset of the Almanac in the reserved region of stack 0, and the bytes of a record (R22, R434). -/
def almanacBase : Nat := 0x78000000
def almanacRec : Nat := 128

/-- Pages of the snapshot page pool of a stack (R24). -/
def poolPages (st : Nat) : Nat := if st = 0 then 1072 * 256 else 1136 * 256

/-- Sheaf-store slots of a stack (R25). -/
def sheafSlots : Nat := 32768

namespace Config

/-- The value of open result number `n`: the spec states none. -/
opaque free : Nat → Nat

/-- What the environment does to stored data at tick `n` (R495). -/
opaque upsetAt : Nat → Option Hit

/-- Physical HBM address of the 64-byte unit `b` of a memory (1 work RAM, 2 VRAM, 3 audio RAM) of a context: the device may place it in
any stack (R27, R504). -/
opaque place : Nat → Nat → Nat → Nat

/-- Physical HBM address of the 64-byte unit `b` of the loaded image with a hash (R27). -/
opaque placeImage : Nat → Nat → Nat

/-- The stack of an item of a context for which R22 to R25 name none: a snapshot page, the input log, staged data (R24, R326). -/
opaque storeStack : Nat → CtxStore → Nat

/-- What lies at an offset of the firmware part of every stack (R22, R503). -/
opaque firmPart : Nat → FirmPart

/-- The stream that the codec engines choose for given lines; where it is a valid OLC stream of them it is the payload (R282). -/
opaque olc : List (List Nat) → List Byte

/-- The trailer of a reply to a packet whose handle names no session: the spec gives no key for it (R433). -/
opaque trailer : Nat → List Byte → List Byte

/-- The product CA's X.509 certificate (R410). -/
opaque caCert : List Byte

/-- The parts of a device certificate before its subject's serial number, between that and the certified key, and after it; the text of the serial
number that says these bytes; the product CA's signature over what stands before it (R410). -/
opaque certPart : Nat → List Byte
opaque certSerial : List Byte → List Byte
opaque certSig : List Byte → List Byte

/-- The Device Serial Number of a port's function (R374): the spec states no value. -/
opaque serial : Nat → BitVec 64

/-- Base voltage VB of step `s` in mV, recorded at final test (R489, R490). -/
opaque baseVoltage : Nat → Nat

/-- Slack sensitivity k of step `s` in ps per 5 mV, recorded at final test (R489). -/
opaque slackPer5mV : Nat → Nat

/-- The result of maker diagnostic number `n`, none where there is no such test (R472). -/
opaque diag : Nat → Option Nat

end Config
end Sys2Proof
end

