-- ==== Sys2Proof/Machine/State.lean ====
section
/-! DEFINITION. The state of the LV8K block as plain data, and its reset. Each structure names the chapter and rules of spec/
that give its fields. `Mach` is the context state of R66 that snapshots save and rollbacks restore (R335); `Ctx` adds what the
spec calls physical or output-side state; `State` adds the device. -/
namespace Sys2Proof.Machine

/-- No command of the block stops it: the spec gives every row an effect. The type has no constructor. -/
inductive Fault
  deriving DecidableEq, Repr

/-- Raised by `exec` alone, for a row that has no meaning yet; safe. -/
inductive Refusal where
  | notModelled (mnemonic : String)
  deriving DecidableEq, Repr

/-! ### The processor (03, 04) -/

/-- One loop level: LSTARTk, LENDk, LCOUNTk (R90). -/
structure LoopReg where
  start : Word := 0
  lend : Word := 0
  count : Word := 0
  deriving DecidableEq, Repr, Inhabited

/-- An exception or interrupt: its vector, CAUSE.KIND (3 where no memory access raised it, R123), INFO and frame PC (R122). -/
structure Exc where
  vec : Nat
  kind : Nat := 3
  info : Word := 0
  pc : Word
  deriving DecidableEq, Repr

/-- Processor registers (R69, R70, R113, R131). `psw` holds every PSW field but HOLD, which is `hold`: the first vc at which
an open HOLD window is closed again (R128). `ssp` is the stored supervisor stack pointer, in use at level 0 only (R70).
The rest is work in progress: `afterRete` says that no instruction has issued since a RETE (R124), `begun` that the instruction at the PC
has issued in vc `Mach.vc` and passed the checks of its first vc (R74, R76, R144), `entry` is an exception or interrupt that is being
entered with the vc in which its entry begins (R126), `blk` counts the words of a block instruction done since its entry (R104, R105),
`word` is what the first vc of the instruction, or of the present word of a block instruction, has read (R104, R132, R137, R139), `idle` says that a SLEEP (true) or a SYNC (false) waits (R107, R108), `at12`
that the first instruction of a vector 12 handler has still to issue (R500). -/
structure Cpu where
  regs : Vector Word 16 := Vector.replicate 16 0
  pc : Word := 0
  psw : Word := 0x400
  hold : Option Nat := none
  vbr : Word := 0x04000400
  gtb : Word := 0
  gtl : Word := 0
  usp : Word := 0
  ssp : Word := 0x1FC0
  cause : Word := 0
  info : Word := 0
  loops : Vector LoopReg 3 := Vector.replicate 3 {}
  acc : BitVec 48 := 0
  cychLatch : Word := 0
  afterRete : Bool := false
  begun : Bool := false
  entry : Option (Exc × Nat) := none
  blk : Option Nat := none
  word : List Word := []
  idle : Option Bool := none
  at12 : Bool := false
  deriving DecidableEq, Repr, Inhabited

/-! ### Memory of a context (02, 18) -/

/-- A written fast-RAM word; a word that is not listed is unwritten (R39). `soft` says that it holds a correctable error, which swaps
and snapshots keep (R38, R496). -/
structure FastCell where
  val : Word
  poisoned : Bool := false
  soft : Bool := false
  deriving DecidableEq, Repr

/-- The three HBM-backed memories of a context (R33). -/
inductive Ram where
  | work | vram | audio
  deriving DecidableEq, Repr

/-- A poisoned 16-byte block and the bytes of it written since the poison arose (R498). -/
structure PoisonBlk where
  ram : Ram
  blk : Nat
  written : BitVec 16 := 0
  deriving DecidableEq, Repr

/-- Work RAM, VRAM and audio RAM list their nonzero bytes by offset; an unlisted byte reads 0 (R36). -/
structure Mem where
  work : List Host.Cell := []
  vram : List Host.Cell := []
  audio : List Host.Cell := []
  fast : List (Nat × FastCell) := []
  poison : List PoisonBlk := []
  deriving DecidableEq, Repr, Inhabited

/-! ### Registers of the I/O blocks (02, 04, 05, 06, 07, 09, 11, 12) -/

/-- A W1C register (R8) with the bits the device set in vc `stamp - 1`: a write in that same vc does not clear them (R9). -/
structure W1c where
  val : Word := 0
  stamp : Nat := 0
  fresh : Word := 0
  deriving DecidableEq, Repr, Inhabited

/-- Interrupt controller (R61). `since` is the vc after the one in which each source last became pending: it is considered at boundaries from
there on (R63). -/
structure Ic where
  pend : W1c := {}
  since : Vector Nat 32 := Vector.replicate 32 0
  enable : Word := 0
  prio : Vector Word 4 := Vector.replicate 4 0
  deriving DecidableEq, Repr, Inhabited

/-- A timer (R150 to R152); `phase0` is the vc in which the prescale phase P was last 0, so that P in vc v is v - phase0, or in
which a chained timer was last enabled or written; `offAt` the vc in which EN was last cleared, where a tick of that vc may still occur (R153);
`acc` is the accumulator of R161 during a halt. -/
structure Timer where
  en : Bool := false
  chain : Bool := false
  psc : Nat := 0
  count : Word := 0
  reload : Word := 0xFFFFFFFF
  cmp : Word := 0xFFFFFFFF
  latch : Word := 0
  matches_ : Half := 0
  wraps : Half := 0
  phase0 : Nat := 0
  offAt : Option Nat := none
  acc : Nat := 0
  deriving DecidableEq, Repr, Inhabited

/-- Beam registers (R168); `lcmpFrom` is the vc in which BM_LCMP was last written, `lcmpDone` the vc after the last raise;
`ctlOld` is the value of BM_CTL before its last write, which retired in vc `ctlFrom` (R172). -/
structure Bm where
  frameh : Word := 0
  lcmp : Word := 0x3FF
  ctl : Word := 0
  lcmpFrom : Nat := 0
  lcmpDone : Nat := 0
  ctlOld : Word := 0
  ctlFrom : Nat := 0
  deriving DecidableEq, Repr, Inhabited

/-- The target of a stamped write (R174): a register of blocks 4 to 7 by its I/O offset, or a VRAM byte. -/
inductive VTarget where
  | reg (off : Nat)
  | byte (addr : Nat)
  deriving DecidableEq, Repr

/-- A stamped write with its effect point as a vc (R174 to R178). -/
structure VWrite where
  stamp : Nat
  effect : Nat
  target : VTarget
  val : Word
  list : Bool := false
  deriving DecidableEq, Repr

/-- Blocks 4 to 7 and the picture state (R175 to R180): `regs` the values last written, `shownRegs` and `shownVram` those in
effect before every write of `log`; registers not listed hold 0. `ovf` is OB_OVF (R206); `sprites` the selection of R204 for the
line of index `spriteLine`. -/
structure Vid where
  regs : List (Nat × Word) := []
  shownRegs : List (Nat × Word) := []
  shownVram : List Host.Cell := []
  log : List VWrite := []
  ovf : Word := 0
  sprites : List Nat := []
  spriteLine : Nat := 0
  deriving DecidableEq, Repr, Inhabited

/-- A raster-list entry (R183) and whether it has acted or been counted (R184, R185). -/
structure RlEntry where
  w0 : Word
  w1 : Word
  done : Bool := false
  deriving DecidableEq, Repr

/-- Raster list (R181, R182). `inForce` is the list in force, `captured` the list that waits, `none` where the frame has no list. -/
structure Rl where
  ctl : Word := 0
  base : Word := 0
  count : Word := 0
  capt : Nat := 0
  doneCnt : Nat := 0
  range : Bool := false
  skip : Word := 0
  captured : Option (List RlEntry) := none
  inForce : Option (List RlEntry) := none
  deriving DecidableEq, Repr, Inhabited

/-- The command registers of the blitter (R244), as captured by BU_GO (R247) with the level and the sequence number. -/
structure BlitCmd where
  sbase : Word := 0
  sgeom : Word := 0
  sxy : Word := 0
  dbase : Word := 0
  dgeom : Word := 0
  dxy : Word := 0
  size : Word := 0
  op : Word := 0
  fill : Word := 0
  mer : Word := 0
  lv : Nat := 0
  seq : Word := 0
  deriving DecidableEq, Repr, Inhabited

/-- A running blit: its start vc and the rows done (R256). -/
structure BlitRun where
  cmd : BlitCmd
  start : Nat
  rows : Nat := 0
  bottomUp : Bool := false
  merDone : Bool := false
  deriving DecidableEq, Repr

/-- The blitter (R243 to R259); `freeVc` is the vc from which the next accepted blit may start (R249). -/
structure Bu where
  cmd : BlitCmd := {}
  queue : List BlitCmd := []
  run : Option BlitRun := none
  freeVc : Nat := 0
  order : Nat := 0
  rowsDone : Nat := 0
  err : W1c := {}
  seq : Word := 0
  errSeq : Word := 0
  deriving DecidableEq, Repr, Inhabited

/-- One voice set (R313). -/
structure VoiceSet where
  ctl : Word := 0
  addr : Word := 0
  loop : Word := 0
  lend : Word := 0
  pitch : Word := 0x10000
  env : Word := 0
  mix : Word := 0
  filt : Word := 0
  deriving DecidableEq, Repr, Inhabited

/-- One bus set (R313). -/
structure BusSet where
  eqf : Word := 0
  eqg0 : Word := 0x10001000
  eqg1 : Word := 0x1000
  cth : Word := 0
  ctc : Word := 0
  mkg : Word := 0
  deriving DecidableEq, Repr, Inhabited

/-- All parameter sets (R313): voice sets, bus sets, routing set, master set. -/
structure AuSet where
  voices : Vector VoiceSet 32 := Vector.replicate 32 {}
  buses : Vector BusSet 4 := Vector.replicate 4 {}
  route : Vector Word 4 := Vector.replicate 4 0
  mgain : Word := 0
  limc : Word := 0x1700
  limt : Word := 0
  deriving DecidableEq, Repr, Inhabited

/-- Envelope stages (R304). -/
inductive Stage where
  | idle | attack | decay | sustain | release
  deriving DecidableEq, Repr, Inhabited

/-- ADPCM decoder state (R300): predictor, which is the element of the last nibble decoded, step index, index of that nibble. -/
structure Adpcm where
  pred : Int := 0
  k : Nat := 32
  x : Int := -1
  deriving DecidableEq, Repr, Inhabited

/-- Running state of a voice (R300 to R305); `saved` is the decoder state after nibble LOOP - 1 with its tag. -/
structure Voice where
  active : Bool := false
  stage : Stage := .idle
  pos : Nat := 0
  frac : Nat := 0
  env : Nat := 0
  dec : Adpcm := {}
  saved : Option (Nat × Adpcm) := none
  noise : Nat := 0xACE1
  low : Int := 0
  band : Int := 0
  deriving DecidableEq, Repr, Inhabited

/-- Running state of a bus (R309, R310): the low-pass states per channel, the 64-sample delay line, oldest first, the envelope. -/
structure Bus where
  lpLL : Int := 0
  lpLR : Int := 0
  lpHL : Int := 0
  lpHR : Int := 0
  delay : List (Int × Int) := List.replicate 64 (0, 0)
  env : Int := 0
  deriving DecidableEq, Repr, Inhabited

/-- The old route, VOL and PAN word of a voice that crossfades (R317). -/
structure XfVoice where
  n : Nat
  route : Nat
  mix : Word
  deriving DecidableEq, Repr

/-- The sound system (R294 to R323): shadow and live sets, triggers, commit state, running state, samples done, output samples
of the block not yet committed. -/
structure Au where
  shadow : AuSet := {}
  live : AuSet := {}
  kon : Word := 0
  koff : Word := 0
  commit : Option Nat := none
  xfq : Bool := false
  xf : Option (Nat × List XfVoice) := none
  vend : W1c := {}
  voices : Vector Voice 32 := Vector.replicate 32 {}
  buses : Vector Bus 4 := Vector.replicate 4 {}
  envL : Int := 0
  samples : Nat := 0
  out : List (Half × Half) := []
  blocks : Nat := 0
  deriving DecidableEq, Repr, Inhabited

/-- One input port (R52). -/
structure Port where
  present : Bool := false
  btn : Word := 0
  press : Word := 0
  release : Word := 0
  ax0 : Half := 0
  ax1 : Half := 0
  deriving DecidableEq, Repr, Inhabited

/-- Block 11 (R52). -/
structure Inp where
  frame : Word := 0
  plugev : W1c := {}
  late : Word := 0
  ports : Vector Port 8 := Vector.replicate 8 {}
  deriving DecidableEq, Repr, Inhabited

/-- A posting (R55 to R57): its range in work RAM, the latches it has met, a SAVE_COMMIT marker (R148), its number, and for
RBEN its copy (R57). -/
structure Posting where
  base : Nat
  len : Nat
  latches : Nat := 0
  marked : Bool := false
  id : Nat := 0
  deriving DecidableEq, Repr

/-- A side queue (R53 to R60). -/
structure Oq where
  base : Word := 0
  size : Word := 0
  en : Bool := false
  dirIn : Bool := false
  clearWait : Bool := false
  posts : List Posting := []
  wptr : Nat := 0
  rptr : Nat := 0
  rptrOk : Nat := 0
  drop : Word := 0
  taken : Nat := 0
  deriving DecidableEq, Repr, Inhabited

/-- Block 13 (R329). -/
structure Rb where
  ctl : Word := 0
  surp : Word := 0
  hold : Vector Word 8 := Vector.replicate 8 0xFFFFFFFF
  axp : Vector Word 8 := Vector.replicate 8 3
  deriving DecidableEq, Repr, Inhabited

/-- A user window (R117, R118). -/
structure Win where
  lo : Word := 0
  hi : Word := 0
  ctl : Word := 0
  deriving DecidableEq, Repr, Inhabited

/-- Block 15 (R118). -/
structure Dbg where
  stat : W1c := {}
  bp0 : Word := 0
  bp1 : Word := 0
  wins : Vector Win 8 := Vector.replicate 8 {}
  deriving DecidableEq, Repr, Inhabited

/-- An outstanding ATTEST request (R146): buffer, nonce, the latches passed since, the values taken at the call (R423). -/
structure AttestReq where
  buf : Nat
  nonce : Nat
  imgHash : Nat := 0
  latches : Nat := 0
  epoch : Nat := 0
  frame : Option Nat := none
  id : Nat := 0
  deriving DecidableEq, Repr

/-- CTR_DRBG working state, Key and V, and request count (R147). -/
structure Drbg where
  st : List Byte × Nat := ([], 0)
  count : Nat := 0
  deriving DecidableEq, Repr, Inhabited

/-- Where HBM data that a context uses lie: in one of its memories, or in the image it runs (R27). -/
inductive HbmAt where
  | ram (r : Ram) (off : Nat)
  | image (off : Nat)
  deriving DecidableEq, Repr

/-- What a step of a context does outside the context state; the list `Mach.fx` is empty between commands. -/
inductive Fx where
  /-- a stamped write of the processor or the block unit (R225, R226) -/
  | stamped (w : VWrite)
  /-- a store to a page of work RAM, VRAM or audio RAM (R336) -/
  | touched (r : Ram) (page : Nat)
  /-- a store of `n` bytes to one of the three memories (R496) -/
  | wrote (r : Ram) (off n : Nat)
  /-- a read has met a correctable error: none for fast RAM (R496, R497) -/
  | corrected (p : Option HbmAt)
  /-- consumed poison, on chip (none) or in HBM (R509) -/
  | consumed (p : Option HbmAt)
  /-- the context stops in state FAULTED (R121, R500); `rule500` where consumed poison is the cause -/
  | faulted (rule500 : Bool)
  /-- a POST, with its copy for RBEN (R57, R348) -/
  | posted (q id base len : Nat) (copy : List Byte)
  /-- a SAVE_COMMIT marker (R148) -/
  | marked (q id : Nat)
  /-- a DEBUGOUT message (R148) -/
  | debugMsg (bytes : List Byte)
  /-- an ATTEST request (R146) -/
  | attestReq (id : Nat)
  deriving DecidableEq, Repr

/-- Which happenings of virtual time have taken place (R167, R171): next frame or line index to come for each kind. -/
structure Cur where
  latch : Nat := 0
  capture : Nat := 0
  inForce : Nat := 0
  hblank : Nat := 0
  sprite : Nat := 0
  commit : Nat := 0
  deriving DecidableEq, Repr, Inhabited

/-- An image as a context runs it: its hash names the single loaded copy (R42). -/
structure ImgRef where
  hash : Nat := 0
  len : Nat := 0
  deriving DecidableEq, Repr, Inhabited

/-- The context state of R66 as it has evolved: what a snapshot holds (R335). `vc` is the vc in which the next instruction
issues (R74), or in a SLEEP or SYNC wait the vc it has come to; `reach` the vc in which the lane's work in progress acts, before which every
happening of virtual time comes first; `ioData` the value of the last register read a command made; `posted` numbers side outputs. -/
structure Mach where
  cpu : Cpu := {}
  vc : Nat := 0
  reach : Nat := 0
  mem : Mem := {}
  img : ImgRef := {}
  umask : Word := 0
  ic : Ic := {}
  tm : Vector Timer 4 := Vector.replicate 4 {}
  bm : Bm := {}
  vid : Vid := {}
  rl : Rl := {}
  bu : Bu := {}
  au : Au := {}
  inp : Inp := {}
  oq : Vector Oq 16 := Vector.replicate 16 {}
  rb : Rb := {}
  dbg : Dbg := {}
  attest : Option AttestReq := none
  drbg : Drbg := {}
  wall : Option Nat := none
  cur : Cur := {}
  ioData : Word := 0
  posted : Nat := 0
  fx : List Fx := []
  deriving DecidableEq, Repr, Inhabited

/-! ### Configuration of a context and its physical and output-side state (08, 10, 12 to 15) -/

/-- Fixed at CTX.CREATE (R66, R470). -/
structure Cfg where
  mode : Nat := 0
  prof : Nat := 0
  rben : Bool := false
  tcompat : Bool := false
  c15 : Bool := false
  tag : Nat := 0
  pmax : Nat := 0
  allow : Nat := 0
  port : Nat := 0
  deriving DecidableEq, Repr, Inhabited

/-- States of a defined context (R473). -/
inductive CtxStat where
  | defined | awaiting | running | parked | faulted
  deriving DecidableEq, Repr

/-- A record as logged: its 64-bit target, whether it counts as late (R50, R326). -/
structure LogRec where
  target : Nat
  late : Bool
  r : InRec
  deriving DecidableEq, Repr

/-- A latch record (R339). -/
structure LatchRec where
  frame : Nat
  cuts : List (Nat × Nat)
  attestReady : Bool
  wall : Option Nat
  deriving DecidableEq, Repr

/-- A snapshot (R335, R336): the whole context state at the start of epoch F + 1, the pages with a version tagged F, and the poison that such a
page held when its version was copied. -/
structure Snap where
  frame : Nat
  m : Mach
  pages : List (Ram × Nat) := []
  bad : List PoisonBlk := []
  deriving DecidableEq, Repr

/-- A rendered line (R221 to R223): line index, known-through vc, footprint, colours. -/
structure RLine where
  idx : Nat
  kL : Nat
  foot : List Nat
  px : List Nat
  deriving DecidableEq, Repr

/-- Line-engine and predictor state of a context (R218 to R241). `slots` lists its sheaf-store slots as sheaf and
stack (R25); `sheaf` is the sheaf in work; `hist` the hazard lines of the last four frames, newest first; `first` the first-frame period of R238. -/
structure Rend where
  lines : List RLine := []
  sheaf : Option Nat := none
  slots : List (Nat × Nat) := []
  depth : Nat := 1
  hist : List (List Nat) := []
  first : Bool := true
  firstFrame : Nat := 0
  haz : List (Nat × Nat) := []
  chaff : Nat := 0
  held : Bool := false
  slotWait : Bool := false
  deriving DecidableEq, Repr

/-- A watched-region status record with its previous signature (R272). -/
structure RegStat where
  frame : Nat := 0
  result : Nat := 0
  midx : Nat := 0
  miss : Nat := 0
  still : Nat := 0
  matches_ : Nat := 0
  prev : Option Word := none
  evald : Option Nat := none
  deriving DecidableEq, Repr

/-- A slice of lines on its way to the codec (R263, R276): kind 1 video, 2 spectator. -/
structure Slice where
  kind : Nat
  frame : Nat
  rev : Nat
  idx : Nat
  first : Nat
  lines : List (List Nat)
  lastSl : Bool
  waited : Bool := false
  deriving DecidableEq, Repr

/-- A committed audio block (R321). -/
structure ABlock where
  num : Nat
  rev : Nat
  samples : List (Half × Half)
  waited : Bool := false
  deriving DecidableEq, Repr

/-- A message that waits to be sealed and written to the host (R286): its number among those of its context (the model's own field, which names it in
`CtxStore`), its plaintext, the posting it carries (number, and the range in work RAM that the DMA reads for a context without rollback, R57), its
revision. -/
structure OutMsg where
  num : Nat := 0
  queue : Nat
  plain : List Byte := []
  src : Option (Nat × Nat × Nat) := none
  rev : Nat := 0
  sealed : Option (Word × Nat × List Byte) := none
  deriving DecidableEq, Repr

/-- A side output held until its epoch is final (R348). -/
inductive HeldKind where
  | posting (q : Nat) (copy : List Byte) (id : Nat)
  | debugMsg (copy : List Byte)
  | attest (id : Nat)
  deriving DecidableEq, Repr

structure Held where
  epoch : Nat
  vc : Nat
  kind : HeldKind
  deriving DecidableEq, Repr

/-- An output set that governs frames from `frame` on (R267, R269, R274). -/
structure OutSet where
  frame : Nat := 0
  plc : List Placement := []
  regs : List Region := []
  fh : Nat := 1
  fv : Nat := 1
  deriving DecidableEq, Repr

/-- A command accepted for a context that acts from its next first-passed latch (R49). -/
inductive LatchCmd where
  | place (mask : Byte) (plc : List Placement)
  | watch (mask : Byte) (regs : List Region)
  | spectator (fh fv : Nat)
  deriving DecidableEq, Repr

/-- Output stage of a context (R262 to R293, R320 to R323, R345): present and kept output sets, region records, lines of the
slice in work, waiting slices and blocks, sealed messages and how many there have been, revision counters; `marks` names a queue, a posting and the epoch of the SAVE_COMMIT
that marked it (R148); `debugQ` holds messages with the epoch of their DEBUGOUT; `maxLine` is the first line index never yet
committed (R439). -/
structure Outp where
  sets : List OutSet := [{}]
  cmds : List LatchCmd := []
  stats : Vector RegStat 4 := Vector.replicate 4 {}
  flines : List (List Nat) := []
  spart : List (List Nat) := []
  slices : List Slice := []
  blocks : List ABlock := []
  msgs : List OutMsg := []
  msgNum : Nat := 0
  marks : List (Nat × Nat × Nat) := []
  held : List Held := []
  debugQ : List (Nat × List Byte) := []
  frameRevs : List (Nat × Nat) := []
  blockRevs : List (Nat × Nat) := []
  pressed : Bool := false
  maxLine : Nat := 0
  deriving DecidableEq, Repr

/-- A queue key of a context (R288, R421): SID last installed, key, CTR of the next message out, greatest CTR accepted in. -/
structure QKey where
  sid : Word := 0
  ever : Bool := false
  key : Option Nat := none
  ctr : Nat := 0
  inCtr : Option Nat := none
  deriving DecidableEq, Repr

/-- Input log and prediction state (R50, R51, R324 to R344). `closed` is the lowest target still open; `closes` the CLOSE records
standing; `applied` the latch results applied for targets not yet confirmed (the port states they left); `waited` the lane waits for input
now, `waitedAt` the target of the last new latch at which it did so. -/
structure InLog where
  recs : List LogRec := []
  closes : List Nat := []
  closed : Nat := 1
  deadlines : Nat := 0
  applied : List (Nat × List Port × Word) := []
  pt : Nat := 0
  firstUse : Option Nat := none
  winLatches : Nat := 0
  winW : Nat := 0
  winU : Nat := 0
  maxLatch : Nat := 0
  maxVc : Nat := 0
  maxSample : Nat := 0
  waited : Bool := false
  waitedAt : Nat := 0
  recsKept : List LatchRec := []
  deriving DecidableEq, Repr

/-- Inbound traffic of a context (R58, R389, R420, R149): messages completed and not yet acted on, side messages staged in arrival
order with the queue and the sequence number. -/
structure Inb where
  waiting : List InMsg := []
  staged : List (Nat × Word × List Byte) := []
  arrived : Vector Nat 16 := Vector.replicate 16 0
  attestDone : List (Nat × List Byte) := []
  attestPend : List Nat := []
  deriving DecidableEq, Repr

/-- Orrery state of a context (R354 to R373). `anchor` is T0 in CLK_AUD edges; `released` counts the epochs released; the frames before `due` have
fallen due; `lane` is its lane, `grant` one that a victim has left for it (R365); `reach` is the last epoch whose pacing point the lane has come to
(R360). `newcomer` says that it became runnable without a lane and no victim has been taken for it (R365), `fresh` that it became so at CTX.START or
at resumption, its epoch being still to be released (R365), `was` that it was runnable when it was last looked at while others wait (R367), `victim`
that it lost its lane while it held at a pacing point (R367), `begun` that its epoch 0 counts as begun (R439), `unpassed` that its lane has still to pass
the pacing point at which it started or resumed (R357, R465). -/
structure Orr where
  cls : Nat := 1
  grace : Nat := 4000
  eclaim : Nat := 3
  anchor : Int := 0
  released : Nat := 0
  due : Nat := 0
  lane : Option Nat := none
  grant : Option Nat := none
  reach : Option Nat := none
  newcomer : Bool := false
  fresh : Bool := false
  was : Bool := false
  victim : Bool := false
  begun : Bool := false
  unpassed : Bool := false
  charged : Bool := false
  egress : Nat := 0
  second : Nat := 0
  deriving DecidableEq, Repr

/-- Debug halt and operator park (R149, R161): requests, what holds the context, the uptime at which it was first held and the CLK_TICK
edges since then that the timers have counted (R162). -/
structure Hold where
  haltReq : Bool := false
  halted : Bool := false
  parkReq : Bool := false
  exportBy : Option (Hdr × ExportP) := none
  since : Nat := 0
  ticks : Nat := 0
  reimage : List (Nat × Nat) := []
  exporting : Bool := false
  byHalt : Bool := false
  byPark : Bool := false
  deriving DecidableEq, Repr

/-- A context; `imported` says that it came by CTX.IMPORT and has not started since, `carried` is the image key and DRBG seed that its export
object brought (R428), `bad` names the items of R500 that hold poison. -/
structure Ctx where
  num : Nat
  cfg : Cfg := {}
  stat : CtxStat := .defined
  m : Mach := {}
  hold : Hold := {}
  log : InLog := {}
  inb : Inb := {}
  rend : Rend := {}
  outp : Outp := {}
  orr : Orr := {}
  snaps : List Snap := []
  keys : Vector QKey 16 := Vector.replicate 16 {}
  meters : Vector Nat 32 := Vector.replicate 32 0
  metersBase : Vector Nat 32 := Vector.replicate 32 0
  minBase : Nat := 0
  spanStart : Nat := 0
  tstep : Bool := false
  prevStmt : Nat := 0
  memKey : Nat := 0
  imported : Bool := false
  bad : List CtxStore := []
  carried : Option (Nat × Nat) := none
  deriving DecidableEq, Repr

/-! ### The device (13 to 19) -/

/-- What the plaintext of an export object carries (R427); `cfg.port` is not carried. -/
structure Exported where
  imgHash : Nat
  key : Nat
  seed : Nat
  cfg : Cfg
  m : Mach
  sids : List (Option Word)
  deriving DecidableEq, Repr, Inhabited

/-- A loaded image (R42, R414, R416): the single copy with its poisoned blocks (R498, R501), its image key and its memory key (R408, R412). -/
structure Image where
  hash : Nat
  len : Nat
  bytes : List Byte
  seed : Nat
  key : Nat
  memKey : Nat := 0
  poison : List Nat := []
  deriving DecidableEq, Repr

/-- A queue state (R381); `fetched` are the descriptors the device has fetched and not completed, `kept` says that the stored TAIL waits for the
context to leave FAULTED or for the port's DMA to run before it is acted on (R386), `waits` is how many µs each of its waiting messages has waited, oldest first (R394), `bad`
that the state is poisoned where it lies, in the cache or in the queue table (R380, R498, R500). -/
structure Queue where
  qid : Nat
  rbase : Nat := 0
  log2n : Nat := 0
  prio : Nat := 0
  coal : Nat := 0
  opt : Byte := 0
  fhead : Nat := 0
  chead : Nat := 0
  tail : Nat := 0
  msgs : Nat := 0
  bytes : Nat := 0
  fetched : List Desc := []
  waits : List Nat := []
  kept : Bool := false
  bad : Bool := false
  deriving DecidableEq, Repr

/-- What the device puts on a port (R383, R391 to R393, R396, R397, R454), oldest first: write and read requests with No Snoop (`ns`) and
Relaxed Ordering (`ro`), write-backs of descriptor `idx`, bulk transfers, MSI-X messages. -/
inductive Wire where
  | data (qid addr : Nat) (ns ro : Bool) (bytes : List Byte)
  | read (qid addr len : Nat) (ns : Bool)
  | writeback (qid idx addr : Nat) (ro : Bool) (bytes : List Byte)
  | bulk (master : Nat) (tag : Half) (addr : Nat) (bytes : List Byte)
  | bulkRead (master : Nat) (tag : Half) (addr len : Nat)
  | msix (port vector : Nat)
  deriving DecidableEq, Repr

/-- A completion coalescer (R398). -/
structure Coal where
  nm1 : Nat := 0
  tus : Nat := 0
  cnt : Nat := 0
  first : Nat := 0
  deriving DecidableEq, Repr

/-- A DMA channel's registers (R378, R394) and the bytes of its message that it has not moved yet (R395). -/
structure Dma where
  busy : Bool := false
  pre : Bool := false
  prio : Nat := 0
  outb : Bool := false
  qid : Nat := 0
  bytes : Nat := 0
  left : Nat := 0
  deriving DecidableEq, Repr

/-- A function of the endpoint and its port (R374 to R405). `mps` and `mrrs` are the PCI Express codes of Max_Payload_Size and Max_Read_Request_Size,
`roEn` and `nsEn` the attribute enables of Device Control, `ptm` the Root's time less the device's in ns since the last dialogue under
`ptmEn`, `advisory` the AER record of an advisory non-fatal error (R384), `beat` the channel that had the port's last beat (R395). -/
structure Func where
  linkUp : Bool := false
  speed : Nat := 0
  width : Nat := 0
  dis : Bool := false
  disClear : Bool := false
  dberr : Word := 0
  descerr : Word := 0
  qprobe : Word := 0
  qinfo : Word := 0
  qhead : Word := 0
  qtail : Word := 0
  evpend : BitVec 256 := 0
  pba : BitVec 256 := 0
  mask : BitVec 256 := BitVec.allOnes 256
  msix : List (Nat × Word) := []
  msixEn : Bool := false
  busMaster : Bool := false
  d3hot : Bool := false
  mps : Nat := 0
  mrrs : Nat := 2
  roEn : Bool := true
  nsEn : Bool := true
  ptmEn : Bool := false
  ptm : Option Int := none
  advisory : Bool := false
  beat : Nat := 63
  deriving DecidableEq, Repr

/-- An entry of the chip-wide event log (R468). -/
structure EvEntry where
  uptime : Nat
  source : Nat
  unit : Nat
  func : Nat
  deriving DecidableEq, Repr

/-- A reply as posted (R452): the payload bytes, whether it carries a trailer, and the session key of that trailer (R433). -/
structure Reply where
  op : Half
  status : Byte
  tag : Half
  sh : Word
  result : Nat
  payload : List Byte
  trailer : Bool
  key : Option Nat := none
  pos : Nat
  deriving DecidableEq, Repr

/-- What a pending command waits to do (R458). FW.UPDATE has written `tenths` of the bank, whose former marks it keeps (R454, R472). -/
inductive PendBody where
  | claim
  | park (c : Nat)
  | export_ (c : Nat)
  | import_ (port cls grace : Nat) (e : Exported) (tnonce : Nat)
  | imgLoad (env : Option ImgEnv) (img : SealedImg)
  | retUpload (width height : Nat) (pixels : List Byte)
  | fwUpdate (svn tenths : Nat) (wasBad wasFresh : Bool)
  deriving DecidableEq, Repr

/-- A pending command with the role and context of its Almanac record (R459): `asked` says that its bulk reads are outstanding on the port, `dropped`
that the port's DMA has stopped since, so that their completions are discarded (R402, R454). -/
structure Pend where
  h : Hdr
  body : PendBody
  role : Byte := 0
  ctx : Nat := 0xFFFF
  asked : Bool := false
  dropped : Bool := false
  deriving DecidableEq, Repr

/-- The context on which a command pends, none where its effect is on no defined context (R459). -/
def Pend.on (p : Pend) : Option Nat :=
  match p.body with
  | .park c => some c
  | .export_ c => some c
  | .claim => none
  | .import_ _ _ _ _ _ => none
  | .imgLoad _ _ => none
  | .retUpload _ _ _ => none
  | .fwUpdate _ _ _ _ => none

/-- A mailbox (R448, R449, R451): registers in 16-byte units, command ring bytes, replies not yet consumed, and
replies that wait for room in the reply ring. -/
structure Mailbox where
  cprod : Nat := 0
  ccons : Nat := 0
  rprod : Nat := 0
  rcons : Nat := 0
  mem : List Host.Cell := []
  replies : List Reply := []
  waiting : List Reply := []
  deriving DecidableEq, Repr

/-- A session with its key (R432, R433). -/
structure Session where
  sh : Word
  master : Nat
  role : Nat
  slot : Nat
  t : Nat := 0
  key : Nat := 0
  isOpen : Bool := false
  seq : Nat := 1
  bad : Nat := 0
  last : Nat := 0
  deriving DecidableEq, Repr

/-- Management state: ownership (R460 to R464), sessions, credentials (R430), device state (R378), M2 transport (R451). -/
structure Mgmt where
  devstate : Nat := 1
  owner : Nat := 3
  leaseEnd : Nat := 0
  lease : Nat := 10
  elect : Option Nat := none
  order : List Nat := [0, 2, 1]
  orderNext : List Nat := [0, 2, 1]
  offer : Option (Nat × Nat) := none
  m2addr : Nat := 0x4C
  boxes : Vector Mailbox 3 := Vector.replicate 3 {}
  sessions : List Session := []
  creds : Vector Nat 6 := #v[1, 0, 0, 0, 0, 0]
  pend : List Pend := []
  m2off : Nat := 0
  m2len : Nat := 4
  m2data : List Byte := []
  faultAt : Option Nat := none
  lastFault : Option Nat := none
  tripped : Bool := false
  deriving DecidableEq, Repr

/-- An Almanac record (R434); `bad` says that its HBM copy is poisoned (R503). -/
structure AlmRec where
  seq : Nat
  boot : Nat
  uptime : Nat
  time : Nat
  opcode : Half
  status : Byte
  master : Byte
  role : Byte
  kind : Byte
  ctx : Nat
  session : Word
  detail : List Byte
  chain : Nat
  bad : Bool := false
  deriving DecidableEq, Repr

/-- A closed statement (R441), kept in stacks 0 and 1; `bad` says that both copies are poisoned, `half` that the one in that stack is, the error
lying at an offset of its reserved region (R503). -/
structure Stmt where
  sseq : Nat
  ctx : Nat
  final : Bool
  merged : Bool
  tstep : Bool
  epoch : Nat
  minutes : Nat
  min0 : Nat
  tstart : Nat
  tend : Nat
  almSeq : Nat
  imgHash : Nat
  tag : Nat
  prev : Nat
  counts : List Nat
  chipNo : Nat := 0
  domain : Nat := 0
  sig : Nat
  bad : Bool := false
  half : Option (Fin 2 × Nat) := none
  deriving DecidableEq, Repr

/-- A half of the chip tag in the boot flash with its MAC (R447); erased flash holds ones (PRESUMED, log entry 79). `bad` says that the MAC has failed
at the last boot. -/
structure TagHalf where
  bytes : List Byte := List.replicate 256 0xFF
  mac : List Byte := List.replicate 48 0xFF
  bad : Bool := false
  deriving DecidableEq, Repr

/-- A flash bank: security version and measurement of its image, and whether a write has left it invalid (R409, R527, R529). -/
structure Bank where
  svn : Nat := 0
  meas : Nat := 0
  bad : Bool := false
  deriving DecidableEq, Repr

/-- Vote store, boot flash and fused identity (R408 to R411, R430, R435, R442, R447, R489, R507, R529), the device unique secret among it: identifiers
are the numbers their bytes spell; `tags` holds the installer's half and the operator's, `active` the bank marked active, `fresh` whether FW.UPDATE
has written the other one since. -/
structure Ident where
  dus : Nat := 0
  fwmeas : Nat := 0
  fwsvn : Nat := 0
  minSvn : Nat := 0
  boot : Nat := 0
  chipNo : Nat := 0
  domain : Nat := 0
  domKey : Nat := 0
  mcert : List Byte := []
  enrolled : Bool := false
  tags : Vector TagHalf 2 := Vector.replicate 2 {}
  meterEpoch : Nat := 0
  banks : Vector Bank 2 := Vector.replicate 2 {}
  active : Fin 2 := 0
  fresh : Bool := false
  deriving DecidableEq, Repr

/-- Audit and metering (R434 to R445); `held` and `heldMore` are the records of Frost (R482), `owed` the final statements that a device
reset leaves to the next READY (R526), `cold` whether the last reset was a cold one (R526). -/
structure Audit where
  seq : Nat := 0
  chain : Nat := 0
  recs : List AlmRec := []
  held : List AlmRec := []
  heldMore : Nat := 0
  rejNow : Vector Nat 3 := Vector.replicate 3 0
  rejAt : Vector Nat 3 := Vector.replicate 3 0
  sseq : Nat := 0
  stmts : List Stmt := []
  owed : List Stmt := []
  minute : Nat := 0
  readyAt : Nat := 0
  time : Option Nat := none
  uptime : Nat := 0
  events : List EvEntry := []
  evSeq : Nat := 0
  tickets : List (Nat × Nat) := []
  cold : Bool := true
  deriving DecidableEq, Repr

/-- Power, clocks, thermal, ageing (R475 to R494); voltages in mV, slacks in ps, power in 0.1 W. `powAge` lists the standing demands
of R484, oldest first, as quadrant + 4 × level; `railWait` the uptime at which a failed change of a quadrant is retried (R479);
`lastAge` that of the last re-plan, `ageEnd` that at which its measurement ends (R490); `pllLost` says that the root PLL has lost lock (R476). -/
structure Power where
  limit : Nat := 225
  cap : Nat := 0
  throttle : Nat := 100
  step : Vector Nat 4 := Vector.replicate 4 2
  powDemand : Vector Nat 4 := Vector.replicate 4 0
  powAge : List Nat := []
  thermDemand : Vector Nat 4 := Vector.replicate 4 0
  brake : Bool := false
  rail : Nat := 800
  railWait : Vector (Option Nat) 4 := Vector.replicate 4 none
  frost : Bool := false
  cardPower : Nat := 0
  samples : List Nat := []
  lowMs : Nat := 0
  coolMs : Vector Nat 4 := Vector.replicate 4 0
  temps : List Int := []
  hbmTemps : List Int := []
  alert : Bool := false
  g : Vector Nat 3 := Vector.replicate 3 0
  retired : Vector Bool 3 := Vector.replicate 3 false
  lastAge : Nat := 0
  ageEnd : Nat := 0
  ageHours : Nat := 0
  forecastLow : Bool := false
  pllLost : Bool := false
  deriving DecidableEq, Repr

/-- A general pin (R518). -/
structure Pin where
  func : Nat := 0
  pull : Nat := 2
  drive : Nat := 1
  sleep : Nat := 2
  out : Bool := false
  oe : Bool := false
  lock : Bool := false
  pad : Bool := false
  deriving DecidableEq, Repr

/-- GPIO block (R518, R519, R523); `store` is the board configuration area's copy of the pin set-up; `low` are the function 11 pins that read low at
the last CLK_TICK edge, `lowTwice` those that did at the last two (R517); `kept` the levels that the pins of SLEEP 3 keep (R518); `asleep` the set-ups that
govern the pins in Frost (R524); `perr` the peripherals, by group and function, with their error flag set (R522); `syncOut` the frame-sync output,
`syncAt` the CLK_AUD edge at which it rises next. -/
structure Gpio where
  pins : Vector Pin 48 := Vector.replicate 48 {}
  store : Option (List Pin) := none
  maskL : Word := 0
  maskH : Word := 0
  armed : Bool := false
  abort : Word := 0
  low : BitVec 48 := 0
  lowTwice : BitVec 48 := 0
  kept : BitVec 48 := 0
  asleep : Vector Pin 48 := Vector.replicate 48 {}
  perr : List (Nat × Nat) := []
  syncOut : Bool := false
  syncAt : Nat := 0
  straps : Nat := 0
  bifurc : Bool := false
  thermtrip : Bool := false
  deriving DecidableEq, Repr

/-- Where a stored bit error lies: in a memory of a context, in a loaded image, in an item of a context at an offset of a stack, in an Almanac
record, or elsewhere in the reserved region of a stack (R22 to R27, R434). -/
inductive UpAt where
  | ram (ctx : Nat) (r : Ram) (addr : Nat)
  | image (hash addr : Nat)
  | store (ctx : Nat) (what : CtxStore) (stack off : Nat)
  | record (seq off : Nat)
  | reserved (stack off : Nat)
  deriving DecidableEq, Repr

/-- A bit error that stands in HBM; `double` says that it is uncorrectable (R495, R504). -/
structure Upset where
  loc : UpAt
  double : Bool
  deriving DecidableEq, Repr

/-- Error counters, thresholds and the Gleaner (R497, R504 to R510). `hour` counts the hours ended, `hourHbm` and `hourChip` the corrections
of the present one, `saidHbm` and `saidChip` whether it has raised its source, `upsets` the bit errors that stand in HBM, `seen` the words that the
controllers keep as corrected, oldest first (R497). -/
structure Ras where
  hbmce : Vector Nat 4 := Vector.replicate 4 0
  hbmue : Vector Nat 4 := Vector.replicate 4 0
  hbmlat : Vector Nat 4 := Vector.replicate 4 0
  hbmode : Vector Nat 4 := Vector.replicate 4 0
  frce : Nat := 0
  cachece : Nat := 0
  sramce : Nat := 0
  onue : Nat := 0
  votec : Nat := 0
  ctxf : Nat := 0
  chipf : Nat := 0
  gop : Nat := 0
  gperiod : Nat := 24
  gpasses : Nat := 0
  gpos : Nat := 0
  thHbm : Nat := 1000
  thChip : Nat := 100
  hour : Nat := 0
  hourHbm : Vector Nat 4 := Vector.replicate 4 0
  hourChip : Nat := 0
  saidHbm : Vector Bool 4 := Vector.replicate 4 false
  saidChip : Bool := false
  upsets : List Upset := []
  seen : List UpAt := []
  deriving DecidableEq, Repr

/-- A Reticle image (R264). -/
structure RetImg where
  handle : Nat
  width : Nat
  height : Nat
  px : List Byte
  deriving DecidableEq, Repr

/-- The whole block: contexts in ascending number, images, queues, and the device. `pending` is the queue of waiting commands,
first in first out. `votes` lists the copies of vote-store words, by word and bank, that differ from what was written or are uncorrectable (R507). `free` counts the free values taken so far (the model's own field, not the spec's). -/
structure State where
  pending : List Instr := []
  ctxs : List Ctx := []
  images : List Image := []
  queues : List Queue := []
  qcache : List Nat := []
  funcs : Vector Func 2 := Vector.replicate 2 {}
  coals : Vector Coal 192 := Vector.replicate 192 {}
  dmas : Vector Dma 64 := Vector.replicate 64 {}
  wire : List Wire := []
  mgmt : Mgmt := {}
  ident : Ident := {}
  votes : List (VoteWord × Fin 3) := []
  audit : Audit := {}
  power : Power := {}
  gpio : Gpio := {}
  ras : Ras := {}
  reticle : List RetImg := []
  free : Nat := 0
  deriving DecidableEq, Repr

/-- Pins 0 to 2 reset with a pull-up (R518). -/
def resetPins : Vector Pin 48 := Vector.ofFn fun i => if i.val < 3 then { pull := 1 } else {}

/-- The block right after a cold reset (R12, R526): device state BOOT, no context, nothing queued. -/
def State.reset : State := { gpio := { pins := resetPins } }

end Sys2Proof.Machine
end

