-- ==== Sys2Proof/Machine/Ops.lean ====
section
/-! DEFINITION. The named operations over the memories and registers of a context: the byte memories in canonical form, fast RAM
(R37 to R41), the address map and the checks of one access in the order of R532, and the store that stamps VRAM (R174). -/
namespace Sys2Proof.Machine

/-! ### W1C registers (R8, R9) -/

/-- The device sets `bits` in vc `t` (R62). -/
def W1c.set (r : W1c) (bits : Word) (t : Nat) : W1c :=
  { val := r.val ||| bits, stamp := t + 1, fresh := if r.stamp = t + 1 then r.fresh ||| bits else bits }

/-- A write of `bits` that retires in vc `t` clears them, but for those the device set in that vc (R9). -/
def W1c.clear (r : W1c) (bits : Word) (t : Nat) : W1c :=
  { r with val := r.val &&& ~~~ (if r.stamp = t + 1 then bits &&& ~~~ r.fresh else bits) }

/-! ### Byte memories: addresses strictly rising, no entry equal to zero -/

/-- What an unlisted byte reads as (R36). -/
def memDefault : Byte := 0

def memGet : List Host.Cell → Nat → Byte
  | [], _ => memDefault
  | (a, b) :: m, x => if a = x then b else memGet m x

/-- Put one byte; the default byte removes its entry. -/
def memPut (m : List Host.Cell) (x : Nat) (v : Byte) : List Host.Cell :=
  match m with
  | [] => if v = memDefault then [] else [(x, v)]
  | (a, b) :: m =>
    if x < a then (if v = memDefault then (a, b) :: m else (x, v) :: (a, b) :: m)
    else if x = a then (if v = memDefault then m else (x, v) :: m)
    else (a, b) :: memPut m x v

/-- The canonical form: every entry lies above `lo`, the addresses rise and no entry is the default byte. -/
def memWfFrom : Nat → List Host.Cell → Bool
  | _, [] => true
  | lo, (a, b) :: m => decide (lo ≤ a) && decide (b ≠ memDefault) && memWfFrom (a + 1) m

/-- The canonical form of a byte memory. -/
def memWf (m : List Host.Cell) : Bool := memWfFrom 0 m

/-- `n` bytes from `x` on, lowest first. -/
def memBytes (m : List Host.Cell) (x n : Nat) : List Byte := (List.range n).map fun i => memGet m (x + i)

/-- Put bytes from `x` on. -/
def memPutAll : List Host.Cell → Nat → List Byte → List Host.Cell
  | m, _, [] => m
  | m, x, b :: bs => memPutAll (memPut m x b) (x + 1) bs

/-- The canonical form of any list of bytes by address: later entries for an address win. -/
def memCanon (l : List Host.Cell) : List Host.Cell := l.foldl (fun m p => memPut m p.1 p.2) []

/-- A number read little-endian (R7). -/
def memNat (m : List Host.Cell) (x n : Nat) : Nat := leNat (memBytes m x n)

/-! ### Tables of words by number, in rising order -/

def tabGet {α : Type} : List (Nat × α) → Nat → Option α
  | [], _ => none
  | (a, v) :: l, x => if a = x then some v else tabGet l x

def tabPut {α : Type} (l : List (Nat × α)) (x : Nat) (v : α) : List (Nat × α) :=
  match l with
  | [] => [(x, v)]
  | (a, w) :: l => if x < a then (x, v) :: (a, w) :: l else if x = a then (x, v) :: l else (a, w) :: tabPut l x v

/-- A register of a table of words, 0 where it is not listed. -/
def regOf (l : List (Nat × Word)) (off : Nat) : Word := (tabGet l off).getD 0

/-! ### The environment of a context -/

/-- What an instruction of a context sees beside its context state: its creation parameters, the loaded images (R42), its number, and the single-bit
errors that stand in HBM (R496). -/
structure Env where
  cfg : Cfg
  images : List Image
  num : Nat := 0
  ups : List UpAt := []
  deriving DecidableEq, Repr

def Env.mode (e : Env) : ModeT := modeOf e.cfg.mode

/-- The image a context runs. -/
def Env.image (e : Env) (m : Mach) : Option Image := e.images.find? fun i => i.hash = m.img.hash

/-! ### PSW (R113) -/

def pswV (p : Word) : Bool := p.getLsbD 0
def pswC (p : Word) : Bool := p.getLsbD 1
def pswZ (p : Word) : Bool := p.getLsbD 2
def pswN (p : Word) : Bool := p.getLsbD 3
def pswT (p : Word) : Bool := p.getLsbD 4
def pswIE (p : Word) : Bool := p.getLsbD 5
def pswIPL (p : Word) : Nat := bitsOf p.toNat 8 6
def pswLV (p : Word) : Nat := bitsOf p.toNat 11 10
def pswLD (p : Word) : Nat := bitsOf p.toNat 13 12

/-- Replace the bits [lo + w - 1 : lo] of a word. -/
def setField (p : Word) (lo w v : Nat) : Word :=
  let mask := BitVec.ofNat 32 ((2 ^ w - 1) * 2 ^ lo)
  (p &&& ~~~ mask) ||| (BitVec.ofNat 32 (v % 2 ^ w * 2 ^ lo))

/-- Write N, Z, C and V. -/
def setFlags (p : Word) (n z c v : Bool) : Word :=
  (p &&& ~~~ (0xF#32)) ||| BitVec.ofNat 32 (n.toNat * 8 + z.toNat * 4 + c.toNat * 2 + v.toNat)

def Mach.lv (m : Mach) : Nat := pswLV m.cpu.psw

/-- A HOLD window is open in vc `t` (R128). -/
def Mach.holdOpen (m : Mach) (t : Nat) : Bool :=
  match m.cpu.hold with
  | none => false
  | some e => decide (t < e)

/-- PSW as it reads in vc `t`, HOLD included (R113, R128). -/
def Mach.pswAt (m : Mach) (t : Nat) : Word := if m.holdOpen t then m.cpu.psw ||| 0x200#32 else m.cpu.psw

def Mach.setPsw (m : Mach) (p : Word) : Mach := { m with cpu := { m.cpu with psw := p } }

def Mach.reg (m : Mach) (r : Reg) : Word := m.cpu.regs[r]

def Mach.setReg (m : Mach) (r : Reg) (v : Word) : Mach := { m with cpu := { m.cpu with regs := m.cpu.regs.set r v } }

/-- What the first vc of an instruction, or of a word of a block instruction, has read (R104, R132, R137, R139). -/
def Mach.setWord (m : Mach) (ws : List Word) : Mach := { m with cpu := { m.cpu with word := ws } }
def Mach.clearWord (m : Mach) : Mach := { m with cpu := { m.cpu with word := [] } }

/-- The words of a block instruction done since its entry (R105). -/
def Mach.setBlk (m : Mach) (n : Nat) : Mach := { m with cpu := { m.cpu with blk := some n } }

/-- w15 is the stack pointer of the current level (R69). -/
def spReg : Reg := 15

def Mach.emit (m : Mach) (f : Fx) : Mach := { m with fx := m.fx ++ [f] }

/-- The sources of `bits` become pending in vc `t`; one that is pending already stays so (R62). -/
def Ic.set (ic : Ic) (bits : Word) (t : Nat) : Ic :=
  { ic with
    pend := ic.pend.set bits t
    since := Vector.ofFn fun i => if bits.getLsbD i.val && !ic.pend.val.getLsbD i.val then t + 1 else ic.since[i] }

/-- Interrupt source `s` becomes pending in vc `t` (R62). -/
def Mach.raise (m : Mach) (s t : Nat) : Mach := { m with ic := m.ic.set (BitVec.ofNat 32 (2 ^ s)) t }

/-! ### The address map (R33, R34, R53) -/

inductive Acc where
  | read | write | fetch
  deriving DecidableEq, Repr

/-- CAUSE.KIND of a memory access (R123). -/
def Acc.kind : Acc → Nat
  | .read => 0
  | .write => 1
  | .fetch => 2

/-- What an address names. `ram r off` is an offset in one of the three memories, `io off` an offset in the I/O region. -/
inductive Loc where
  | fast (off : Nat)
  | ram (r : Ram) (off : Nat)
  | image (off : Nat)
  | io (off : Nat)
  deriving DecidableEq, Repr

def ramSize (prof : Nat) : Ram → Nat
  | .work => workSize prof
  | .vram => vramSize prof
  | .audio => audioSize prof

def inIo (a : Nat) : Bool := 0xFF000000 ≤ a && a < 0xFF010000

def inView (a : Nat) : Bool := 0x08000000 ≤ a && a < 0x09000000

/-- R53: the side queues are 5, 6 and 9 to 15. -/
def sideQueue (q : Nat) : Bool := q = 5 || q = 6 || (9 ≤ q && q < 16)

def Mach.oqOf (m : Mach) (q : Nat) : Oq := m.oq[q % 16]

/-- R53: an access through the side-data view. -/
def viewLoc (m : Mach) (a : Nat) : Option Loc :=
  let q := (a - 0x08000000) / 0x100000
  let x := a % 0x100000
  let o := m.oqOf q
  if sideQueue q && o.en && decide (x < o.size.toNat) then some (.ram .work (o.base.toNat + x)) else none

/-- The part of the map of R33 outside the view; none where it maps nothing. -/
def mapLoc (prof imgLen a : Nat) : Option Loc :=
  if a < 0x2000 then some (.fast a)
  else if 0x01000000 ≤ a && a < 0x01000000 + workSize prof then some (.ram .work (a - 0x01000000))
  else if 0x02000000 ≤ a && a < 0x02000000 + vramSize prof then some (.ram .vram (a - 0x02000000))
  else if 0x03000000 ≤ a && a < 0x03000000 + audioSize prof then some (.ram .audio (a - 0x03000000))
  else if 0x04000000 ≤ a && a < 0x04000000 + imgLen then some (.image (a - 0x04000000))
  else if inIo a then some (.io (a - 0xFF000000))
  else none

/-- R34: the Fetch and Write columns of R33. -/
def locAllows (acc : Acc) : Loc → Bool
  | .fast _ => true
  | .ram .work _ => true
  | .ram _ _ => acc ≠ .fetch
  | .image _ => acc ≠ .write
  | .io _ => acc ≠ .fetch

/-! ### Access rules by address (R46, R117, R56, R146) -/

/-- R117: a window covers an address and grants a right (bit 0 R, 1 W, 2 X). -/
def Win.grants (w : Win) (a bit : Nat) : Bool :=
  w.ctl.getLsbD bit && decide (w.lo.toNat / 4096 ≤ a / 4096) && decide (a / 4096 ≤ w.hi.toNat / 4096)

def winBit : Acc → Nat
  | .read => 0
  | .write => 1
  | .fetch => 2

def Mach.winOk (m : Mach) (acc : Acc) (a : Nat) : Bool := m.dbg.wins.toList.any fun w => w.grants a (winBit acc)

/-- R46: blocks under the level and SYS_UMASK. -/
def ioAllowed (m : Mach) (acc : Acc) (off : Nat) : Bool :=
  let n := off / 4096
  if m.lv ≠ 0 then true
  else if n = 14 || n = 15 then false
  else m.umask.getLsbD n && (n ≠ 0 || acc ≠ .write)

/-- The write-protected ranges of work RAM: postings (R56) and the ATTEST buffer (R146). -/
def Mach.guarded (m : Mach) : List (Nat × Nat) :=
  (m.oq.toList.flatMap fun o => o.posts.map fun p => (p.base, p.len)) ++
    (match m.attest with | none => [] | some r => [(r.buf, 1024)])

/-- The lowest byte of `n` bytes at work RAM offset `off` that is write-protected. -/
def Mach.guardedByte (m : Mach) (off n : Nat) : Option Nat :=
  (List.range n).find? fun i => m.guarded.any fun g => decide (g.1 ≤ off + i) && decide (off + i < g.1 + g.2)

/-! ### Poison (R498, R499) -/

def Mach.blkPoisoned (m : Mach) (r : Ram) (blk : Nat) : Bool := m.mem.poison.any fun p => p.ram = r && p.blk = blk

/-- Whether `n` bytes at a place use poisoned data. -/
def poisonedAt (e : Env) (m : Mach) (n : Nat) : Loc → Bool
  | .fast off => (List.range n).any fun i => match tabGet m.mem.fast ((off + i) / 4) with | some c => c.poisoned | none => false
  | .ram r off => (List.range n).any fun i => m.blkPoisoned r ((off + i) / 16)
  | .image off => match e.image m with | some im => (List.range n).any fun i => im.poison.contains ((off + i) / 16) | none => false
  | .io _ => false

/-- R39, R40: the word is unwritten. -/
def unwrittenAt (m : Mach) : Loc → Bool
  | .fast off => (tabGet m.mem.fast (off / 4)).isNone
  | _ => false

/-! ### One access (R532) -/

/-- The place an address names under R33, R34 and R53 at the map's own check: a view address is judged by R53 later, so here it
only has to lie in the view. -/
def accessLoc (e : Env) (m : Mach) (acc : Acc) (a : Nat) : Option Loc :=
  if inView a then (if acc = .fetch then none else viewLoc m a)
  else match mapLoc e.cfg.prof m.img.len a with
    | some l => if locAllows acc l then some l else none
    | none => none

/-- R532, checks 2 to 6, for an aligned access of `n` bytes: the vector and INFO of the first check that fails, or the place. Where an access
runs past the end of an image, INFO is the address of the halfword for a fetch and the first address outside for another access (R122). -/
def checkPlace (e : Env) (m : Mach) (acc : Acc) (a n : Nat) : Except (Nat × Word) Loc :=
  match accessLoc e m acc a with
  | none => .error (4, BitVec.ofNat 32 a)
  | some l =>
    let last : Bool := match l with | .image off => decide (off + n ≤ m.img.len) | _ => true
    let rule : Bool := match l with
      | .io off => ioAllowed m acc off
      | _ => inView a || m.lv ≠ 0 || m.winOk acc a
    let guard := match acc, l with | .write, .ram .work off => m.guardedByte off n | _, _ => none
    if !last then .error (4, BitVec.ofNat 32 (if acc = .fetch then a else 0x04000000 + m.img.len))
    else if !rule then .error (4, BitVec.ofNat 32 a)
    else match guard with
      | some i => .error (4, BitVec.ofNat 32 (a + i))
      | none =>
        if unwrittenAt m l && (acc ≠ .write || n < 4) then .error (11, BitVec.ofNat 32 a)
        else
          let useful := match acc, l with | .write, .fast _ => decide (n < 4) | .write, _ => false | _, _ => true
          if useful && poisonedAt e m n l then .error (12, BitVec.ofNat 32 a)
          else .ok l

/-- R532: natural alignment and the aligned 32-bit rule of the I/O region first (R35). -/
def checkAccess (e : Env) (m : Mach) (acc : Acc) (a n : Nat) : Except (Nat × Word) Loc :=
  if a % n ≠ 0 || (inIo a && n ≠ 4) then .error (3, BitVec.ofNat 32 a) else checkPlace e m acc a n

/-! ### Raw reads and writes of a place -/

/-- One byte of a place that is no I/O register. -/
def byteAt (e : Env) (m : Mach) : Loc → Byte
  | .fast off => match tabGet m.mem.fast (off / 4) with
    | some c => BitVec.ofNat 8 (c.val.toNat / 256 ^ (off % 4))
    | none => 0
  | .ram .work off => memGet m.mem.work off
  | .ram .vram off => memGet m.mem.vram off
  | .ram .audio off => memGet m.mem.audio off
  | .image off => match e.image m with | some im => im.bytes.getD off 0 | none => 0
  | .io _ => 0

def Loc.plus (l : Loc) (i : Nat) : Loc :=
  match l with
  | .fast off => .fast (off + i)
  | .ram r off => .ram r (off + i)
  | .image off => .image (off + i)
  | .io off => .io (off + i)

/-- The HBM data at a place, for the counters of R509; none for fast RAM and the I/O region. -/
def Loc.hbm? : Loc → Option HbmAt
  | .ram r off => some (.ram r off)
  | .image off => some (.image off)
  | _ => none

/-- Byte `a` of memory `r` of context `c`, or of the image `hash`, lies in the checked 64-bit word of the error (R495). -/
def UpAt.hits (u : UpAt) (c hash : Nat) : HbmAt → Bool
  | .ram r a => match u with | .ram d q b => d = c && decide (q = r) && b / 8 = a / 8 | _ => false
  | .image a => match u with | .image h b => h = hash && b / 8 = a / 8 | _ => false

/-- A correctable error stands in the checked unit that holds the byte at a place (R495, R496). -/
def softAt (e : Env) (m : Mach) (l : Loc) : Bool :=
  match l with
  | .fast off => match tabGet m.mem.fast (off / 4) with | some c => c.soft | none => false
  | _ => match l.hbm? with | some p => e.ups.any fun u => u.hits e.num m.img.hash p | none => false

/-- The byte is the first of its checked unit: a 32-bit word of fast RAM, a 64-bit word of HBM (R495). -/
def Loc.unitStart : Loc → Bool
  | .fast off => off % 4 = 0
  | .ram _ off => off % 8 = 0
  | .image off => off % 8 = 0
  | .io _ => false

/-- The corrections of a read of `n` bytes from a place on, one for each checked unit with a correctable error (R496). -/
def fixes (e : Env) (m : Mach) (l : Loc) (n : Nat) : List Fx :=
  (List.range n).filterMap fun i =>
    if (i = 0 || (l.plus i).unitStart) && softAt e m (l.plus i) then some (.corrected (l.plus i).hbm?) else none

/-- A read of `n` bytes from a place on: its corrections count (R496, R509). -/
def noteRead (e : Env) (m : Mach) (l : Loc) (n : Nat) : Mach := { m with fx := m.fx ++ fixes e m l n }

/-- An engine reads the bytes at places `bs` of memory `r`, each checked word once (R495, R496). -/
def noteBytes (e : Env) (m : Mach) (r : Ram) (bs : List Nat) : Mach :=
  { m with fx := m.fx ++ (bs.map fun b => b / 8 * 8).eraseDups.flatMap fun b => fixes e m (.ram r b) 1 }

/-- `n` bytes of a place, little-endian (R7). -/
def readPlace (e : Env) (m : Mach) (l : Loc) (n : Nat) : Nat := leNat ((List.range n).map fun i => byteAt e m (l.plus i))

def Mach.ramOf (m : Mach) : Ram → List Host.Cell
  | .work => m.mem.work
  | .vram => m.mem.vram
  | .audio => m.mem.audio

def Mach.setRam (m : Mach) (r : Ram) (c : List Host.Cell) : Mach :=
  match r with
  | .work => { m with mem := { m.mem with work := c } }
  | .vram => { m with mem := { m.mem with vram := c } }
  | .audio => { m with mem := { m.mem with audio := c } }

/-- R498: mark byte `i` of a block written; the block is clean once all 16 bytes are. -/
def unpoison (l : List PoisonBlk) (r : Ram) (off : Nat) : List PoisonBlk :=
  l.filterMap fun p =>
    if p.ram = r ∧ p.blk = off / 16 then
      let w := p.written ||| BitVec.ofNat 16 (2 ^ (off % 16))
      if w = BitVec.allOnes 16 then none else some { p with written := w }
    else some p

def unpoisonAll (l : List PoisonBlk) (r : Ram) (off n : Nat) : List PoisonBlk :=
  (List.range n).foldl (fun l i => unpoison l r (off + i)) l

/-- Effect point of a class S store with stamp `t` (R177). -/
def effectS (md : ModeT) (t : Nat) : Nat := (t / md.dotdiv / 8 + 1) * 8 * md.dotdiv

/-- Effect point of a class L store with stamp `t` (R176). -/
def effectL (md : ModeT) (t : Nat) : Nat := (t / md.lineVc + 1) * md.lineVc

/-- A stamped write is logged and passed to the line engines (R174, R225, R226). -/
def Mach.stampWrite (m : Mach) (w : VWrite) : Mach :=
  { m with vid := { m.vid with log := m.vid.log ++ [w] } }.emit (.stamped w)

/-- Bytes into one of the three memories, with poison cleared (R498), pages noted (R336) and VRAM bytes stamped (R174). -/
def Mach.putRam (e : Env) (m : Mach) (r : Ram) (off : Nat) (bs : List Byte) (t : Nat) : Mach :=
  let m := m.setRam r (memPutAll (m.ramOf r) off bs)
  let m := { m with mem := { m.mem with poison := unpoisonAll m.mem.poison r off bs.length } }
  let m := ((List.range bs.length).map fun i => (off + i) / 4096).eraseDups.foldl (fun m p => m.emit (.touched r p)) (m.emit (.wrote r off bs.length))
  if r = .vram then
    bs.zipIdx.foldl (fun m b => m.stampWrite
      { stamp := t, effect := effectS e.mode t, target := .byte (off + b.2), val := b.1.setWidth 32 }) m
  else m

/-- Bytes into fast RAM; the checks have passed, so a partial store meets a written, clean word (R40, R499). Only a store of the whole word replaces
its check bits: a correctable error stays under a smaller one (R496). -/
def putFast (l : List (Nat × FastCell)) (off : Nat) (bs : List Byte) : List (Nat × FastCell) :=
  let c := (tabGet l (off / 4)).getD { val := 0 }
  let v := bs.zipIdx.foldl (fun (v : Word) b => setField v ((off % 4 + b.2) * 8) 8 b.1.toNat) c.val
  tabPut l (off / 4) { val := v, soft := c.soft && decide (bs.length < 4) }

/-! ### Device-wide helpers -/

/-- The next free value, and the state with its counter advanced. -/
def State.takeFree (s : State) : Nat × State := (Config.free s.free, { s with free := s.free + 1 })

def State.ctx? (s : State) (c : Nat) : Option Ctx := s.ctxs.find? fun x => x.num = c

/-- Put a context back in its place. -/
def State.putCtx (s : State) (x : Ctx) : State := { s with ctxs := s.ctxs.map fun y => if y.num = x.num then x else y }

def State.env (s : State) (x : Ctx) : Env :=
  { cfg := x.cfg, images := s.images, num := x.num, ups := s.ras.upsets.filterMap fun u => if u.double then none else some u.loc }

end Sys2Proof.Machine
end

