-- ==== Sys2Proof/Machine/Io.lean ====
section
/-! DEFINITION. The I/O register blocks of a context (R44): every read and every write of a register, at the vc in which it
retires. Reserved bits are stored as zero (R10), unassigned offsets read zero and ignore writes (R11). -/
namespace Sys2Proof.Machine

/-- The number a 48-byte hash or 64-byte tag spells holds word `k` at bits [32k+31:32k] (block 0). -/
def wordAt (x k : Nat) : Word := BitVec.ofNat 32 (x >>> (32 * k))

/-! ### Block 0: system and identity -/

/-- SYS_CFG from the creation parameters (block 0 table). -/
def sysCfg (c : Cfg) : Word :=
  BitVec.ofNat 32 (c.mode % 8 + c.prof % 4 * 16 + c.rben.toNat * 256 + c.tcompat.toNat * 512 + c.c15.toNat * 1024)

def sysRead (e : Env) (m : Mach) (o : Nat) : Word :=
  if o = 0 then 0x800801B0
  else if o = 4 then sysCfg e.cfg
  else if o = 8 then BitVec.ofNat 32 m.img.len
  else if o = 0xC then m.umask
  else if 0x40 ≤ o ∧ o ≤ 0x6C then wordAt m.img.hash ((o - 0x40) / 4)
  else if 0x80 ≤ o ∧ o ≤ 0xBC then wordAt e.cfg.tag ((o - 0x80) / 4)
  else 0

/-! ### Block 1: interrupt controller -/

/-- The priority of source `s` (IC_PRIO). -/
def Ic.prioOf (ic : Ic) (s : Nat) : Nat := bitsOf (ic.prio[s / 8 % 4]).toNat (4 * (s % 8) + 2) (4 * (s % 8))

/-- Of the sources that satisfy `p`, the one of highest priority, and among equals the lowest number (R64). -/
def bestSource (ic : Ic) (p : Nat → Bool) : Option Nat :=
  (List.range 32).foldl (fun b s =>
    if p s then (match b with | none => some s | some k => if ic.prioOf k < ic.prioOf s then some s else some k) else b) none

/-- R63, without the processor's part: pending, enabled, priority above `ipl`. -/
def Ic.ready (ic : Ic) (ipl s : Nat) : Bool := ic.pend.val.getLsbD s && ic.enable.getLsbD s && decide (ipl < ic.prioOf s)

/-- The first boundary at which source `s` is considered (R63). -/
def Ic.from_ (ic : Ic) (s : Nat) : Nat := ic.since[s % 32]

/-- The first boundary at which some source is pending, enabled and above `ipl` (R63, R107). -/
def Ic.firstReady (ic : Ic) (ipl : Nat) : Option Nat :=
  (((List.range 32).filter (ic.ready ipl)).map ic.from_).min?

def icTop (ic : Ic) : Word :=
  match bestSource ic (ic.ready 0) with
  | none => 0
  | some s => BitVec.ofNat 32 (0x8000 + ic.prioOf s * 256 + s)

def icRead (ic : Ic) (o : Nat) : Word :=
  if o = 0 then ic.pend.val
  else if o = 8 then ic.enable
  else if 0x10 ≤ o ∧ o ≤ 0x1C then ic.prio[(o - 0x10) / 4 % 4]
  else if o = 0x20 then icTop ic
  else 0

/-- IC_RAISE: bits [27:24] set the software sources. -/
def icRaise (m : Mach) (v : Word) (t : Nat) : Mach :=
  { m with ic := m.ic.set (v &&& 0x0F000000#32) t }

def icWrite (m : Mach) (o : Nat) (v : Word) (t : Nat) : Mach :=
  if o = 0 then { m with ic := { m.ic with pend := m.ic.pend.clear v t } }
  else if o = 4 then icRaise m v t
  else if o = 8 then { m with ic := { m.ic with enable := v } }
  else if 0x10 ≤ o ∧ o ≤ 0x1C then
    { m with ic := { m.ic with prio := m.ic.prio.set ((o - 0x10) / 4 % 4) (v &&& 0x77777777#32) (Nat.mod_lt _ (by decide)) } }
  else m

/-! ### Block 2: timers (R150 to R159) -/

def Mach.timer (m : Mach) (n : Nat) : Timer := m.tm[n % 4]

def Mach.setTimer (m : Mach) (n : Nat) (x : Timer) : Mach := { m with tm := m.tm.set (n % 4) x (Nat.mod_lt _ (by decide)) }

def tmCtl (x : Timer) : Word := BitVec.ofNat 32 (x.en.toNat + x.chain.toNat * 2 + x.psc * 16)

/-- R159: the read of a count copies the next timer's present count into its latch. -/
def tmCountRead (m : Mach) (n : Nat) : Word × Mach :=
  let v := (m.timer n).count
  if n < 3 then (v, m.setTimer (n + 1) { m.timer (n + 1) with latch := (m.timer (n + 1)).count }) else (v, m)

def tmRead (m : Mach) (o : Nat) : Word × Mach :=
  if 0x80 ≤ o then (0, m)
  else
    let n := o / 0x20; let x := m.timer n
    match o % 0x20 with
    | 0x00 => (tmCtl x, m)
    | 0x04 => tmCountRead m n
    | 0x08 => (x.reload, m)
    | 0x0C => (x.cmp, m)
    | 0x10 => (if n = 0 then 0 else x.latch, m)
    | 0x14 => (x.matches_.setWidth 32 ||| (x.wraps.setWidth 32 <<< 16), m)
    | _ => (0, m)

/-- R151, R153, R157: CHAIN and PSC are taken only by a write that sets EN from 0, and a write that does not set it stores them
while EN is 0. Where EN is cleared, a tick that is due in that very vc still occurs, and a chained timer still takes the wrap of that vc. -/
def tmCtlWrite (m : Mach) (n : Nat) (v : Word) (t : Nat) : Mach :=
  let x := m.timer n
  let en := v.getLsbD 0
  if x.en then
    if en then m else m.setTimer n { x with en := false, offAt := if x.chain || x.phase0 + 2 ^ x.psc = t then some t else none }
  else
    m.setTimer n { x with
      en := en, chain := v.getLsbD 1 && n ≠ 0, psc := bitsOf v.toNat 7 4,
      phase0 := if en then t else x.phase0, offAt := none }

/-- R154: the write replaces the tick of its vc and sets P to 0. -/
def tmCountWrite (m : Mach) (n : Nat) (v : Word) (t : Nat) : Mach := m.setTimer n { m.timer n with count := v, phase0 := t }

def tmWrite (m : Mach) (o : Nat) (v : Word) (t : Nat) : Mach :=
  if 0x80 ≤ o then m
  else
    let n := o / 0x20; let x := m.timer n
    match o % 0x20 with
    | 0x00 => tmCtlWrite m n v t
    | 0x04 => tmCountWrite m n v t
    | 0x08 => m.setTimer n { x with reload := v }
    | 0x0C => m.setTimer n { x with cmp := v }
    | _ => m

/-! ### Block 3: beam (R167 to R170) -/

def lineOf (md : ModeT) (t : Nat) : Nat := t / md.lineVc % md.vTot
def dotOf (md : ModeT) (t : Nat) : Nat := t / md.dotdiv % md.hTot
def frameOf (md : ModeT) (t : Nat) : Nat := t / md.frameVc

def bmPos (md : ModeT) (t : Nat) : Word :=
  let l := lineOf md t; let d := dotOf md t
  BitVec.ofNat 32 (d + t % md.dotdiv * 2 ^ 10 + l * 2 ^ 16 + (if md.hAct ≤ d then 2 ^ 30 else 0) + (if md.vAct ≤ l then 2 ^ 31 else 0))

/-- R169: BM_FRAMEL latches the upper half. -/
def bmFramelRead (e : Env) (m : Mach) (t : Nat) : Word × Mach :=
  let f := frameOf e.mode t
  (BitVec.ofNat 32 f, { m with bm := { m.bm with frameh := BitVec.ofNat 32 (f >>> 32) } })

def bmRead (e : Env) (m : Mach) (o t : Nat) : Word × Mach :=
  let md := e.mode
  match o with
  | 0x00 => (bmPos md t, m)
  | 0x04 => bmFramelRead e m t
  | 0x08 => (m.bm.frameh, m)
  | 0x0C => (BitVec.ofNat 32 (md.hAct + md.hTot * 2 ^ 16 + md.dotdiv * 2 ^ 28), m)
  | 0x10 => (BitVec.ofNat 32 (md.vAct + md.vTot * 2 ^ 16), m)
  | 0x14 => (m.bm.lcmp, m)
  | 0x18 => (m.bm.ctl, m)
  | 0x1C => (BitVec.ofNat 32 md.rate, m)
  | _ => (0, m)

def bmWrite (m : Mach) (o : Nat) (v : Word) (t : Nat) : Mach :=
  match o with
  | 0x14 => { m with bm := { m.bm with lcmp := v &&& 0x03FF03FF#32, lcmpFrom := t } }
  | 0x18 => { m with bm := { m.bm with ctl := v &&& 1#32, ctlOld := m.bm.ctl, ctlFrom := t } }
  | _ => m

/-! ### Blocks 4 to 7: stamped registers (R201, R206, R207, R216) -/

/-- The writable bits of a register of blocks 4 to 7 by its I/O offset; none where the offset is unassigned or the register is
RO. -/
def vidMask (cfg : Cfg) (off : Nat) : Option Word :=
  let o := off % 4096
  if off % 4 ≠ 0 then none
  else match off / 4096 with
  | 4 =>
    if o < 0x80 then
      match o % 0x20 with
      | 0x00 => some (if o / 0x20 = 0 then 0x7FF else if o / 0x20 = 3 then 0xBFF else 0x3FF)
      | 0x04 | 0x08 => some 0x1FF800
      | 0x0C => some 0xFFFFFFFF
      | 0x10 => some 0x1FFFFE
      | 0x14 => if o / 0x20 = 3 then some 0x03FF07FF else none
      | _ => none
    else match o with
      | 0x80 | 0x84 | 0x88 | 0x8C => some 0xFFFFFFFF
      | 0x90 => some 0x1FFFF3
      | 0x94 => some 0x07FF07FF
      | _ => none
  | 5 => match o with
    | 0 => some 1
    | 4 => some 0x1FF000
    | 8 => some 0x1FF800
    | _ => none
  | 6 =>
    if o = 0x400 then some 0xFF
    else if o = 0x800 then some (if cfg.c15 then 1 else 0)
    else if o = 0xC00 then none
    else some 0xFFFFFFFF
  | 7 => match o with
    | 0x000 => some 0x00077777
    | 0x004 => some 0xFFFFFFFF
    | 0x008 => some 0xFF
    | 0x00C => some 0x1FF
    | 0x100 | 0x104 | 0x108 | 0x10C => some 0x03FF03FF
    | 0x110 | 0x114 | 0x118 | 0x11C | 0x120 | 0x124 => some 0xF
    | _ => none
  | _ => none

/-- R175: PL_, OB_ and WIN_ are class L, PAL_ and CM_ class S. -/
def classL (off : Nat) : Bool := off / 4096 = 4 || off / 4096 = 5 || (off / 4096 = 7 && 0x100 ≤ off % 4096)

def vidEffect (md : ModeT) (off t : Nat) : Nat := if classL off then effectL md t else effectS md t

/-- A processor store to a register of blocks 4 to 7 (R174, R179). -/
def vidWrite (e : Env) (m : Mach) (off : Nat) (v : Word) (t : Nat) : Mach :=
  match vidMask e.cfg off with
  | none => m
  | some k =>
    let m := { m with vid := { m.vid with regs := tabPut m.vid.regs off (v &&& k) } }
    m.stampWrite { stamp := t, effect := vidEffect e.mode off t, target := .reg off, val := v &&& k }

def vidRead (m : Mach) (off : Nat) : Word := if off = 0x500C then m.vid.ovf else regOf m.vid.regs off

/-! ### Block 8: raster list (R181) -/

def rlRead (rl : Rl) (o : Nat) : Word :=
  match o with
  | 0x0 => rl.ctl
  | 0x4 => rl.base
  | 0x8 => rl.count
  | 0xC => BitVec.ofNat 32 (rl.capt + rl.doneCnt * 2 ^ 16 + rl.range.toNat * 2 ^ 31)
  | 0x10 => rl.skip
  | _ => 0

def rlWrite (m : Mach) (o : Nat) (v : Word) : Mach :=
  match o with
  | 0x0 => { m with rl := { m.rl with ctl := v &&& 1#32 } }
  | 0x4 => { m with rl := { m.rl with base := v &&& 0x1FFFF8#32 } }
  | 0x8 => { m with rl := { m.rl with count := BitVec.ofNat 32 (min 1024 (v.toNat % 2048)) } }
  | _ => m

/-! ### Block 9: blitter (R244, R247, R248) -/

/-- BU_STAT.OUT: blits accepted and not yet ended. BUSY is set while there are any: in the vc in which a blit ends it stays set where the
next one starts in the following vc (R249). -/
def Bu.outstanding (b : Bu) : Nat := b.queue.length + (if b.run.isSome then 1 else 0)

def buRead (b : Bu) (o : Nat) : Word :=
  match o with
  | 0x00 => b.cmd.sbase
  | 0x04 => b.cmd.sgeom
  | 0x08 => b.cmd.sxy
  | 0x10 => b.cmd.dbase
  | 0x14 => b.cmd.dgeom
  | 0x18 => b.cmd.dxy
  | 0x20 => b.cmd.size
  | 0x24 => b.cmd.op
  | 0x28 => b.cmd.fill
  | 0x2C => b.cmd.mer
  | 0x40 => BitVec.ofNat 32 ((decide (0 < b.outstanding)).toNat + b.order * 2 + b.outstanding * 16 + b.rowsDone * 2 ^ 16)
  | 0x44 => b.err.val
  | 0x48 => b.seq
  | 0x4C => b.errSeq
  | _ => 0

/-- BU_GO: accepted below four outstanding blits (R247), refused with FULL and source 14 otherwise (R248). -/
def buGo (m : Mach) (v : Word) (t : Nat) : Mach :=
  if !v.getLsbD 0 then m
  else if m.bu.outstanding < 4 then
    let seq := m.bu.seq + 1
    let free := if m.bu.run.isNone && m.bu.queue.isEmpty then max m.bu.freeVc (t + 1) else m.bu.freeVc
    { m with bu := { m.bu with seq := seq, queue := m.bu.queue ++ [{ m.bu.cmd with lv := m.lv, seq := seq }], freeVc := free } }
  else { m with bu := { m.bu with err := m.bu.err.set 0x10 t } }.raise 14 t

def buWrite (m : Mach) (o : Nat) (v : Word) (t : Nat) : Mach :=
  let put (c : BlitCmd) : Mach := { m with bu := { m.bu with cmd := c } }
  match o with
  | 0x00 => put { m.bu.cmd with sbase := v }
  | 0x04 => put { m.bu.cmd with sgeom := v &&& 0x000703FF#32 }
  | 0x08 => put { m.bu.cmd with sxy := v &&& 0x03FF03FF#32 }
  | 0x10 => put { m.bu.cmd with dbase := v }
  | 0x14 => put { m.bu.cmd with dgeom := v &&& 0x000703FF#32 }
  | 0x18 => put { m.bu.cmd with dxy := v &&& 0x03FF03FF#32 }
  | 0x20 => put { m.bu.cmd with size := v &&& 0x03FF03FF#32 }
  | 0x24 => put { m.bu.cmd with op := v &&& 0x0001FF07#32 }
  | 0x28 => put { m.bu.cmd with fill := v }
  | 0x2C => put { m.bu.cmd with mer := v &&& 0x3FF#32 }
  | 0x30 => buGo m v t
  | 0x44 => { m with bu := { m.bu with err := m.bu.err.clear v t } }
  | _ => m

/-! ### Block 10: audio (R313 to R315) -/

def AuSet.voice (a : AuSet) (n : Nat) : VoiceSet := a.voices[n % 32]
def AuSet.bus (a : AuSet) (k : Nat) : BusSet := a.buses[k % 4]

/-- The route of voice `n` (R306). -/
def AuSet.routeOf (a : AuSet) (n : Nat) : Nat := bitsOf (a.route[n / 8 % 4]).toNat (4 * (n % 8) + 2) (4 * (n % 8))

def Stage.code : Stage → Nat
  | .idle => 0 | .attack => 1 | .decay => 2 | .sustain => 3 | .release => 4

def Au.voice (a : Au) (n : Nat) : Voice := a.voices[n % 32]

/-- AU_STATUS (R313). -/
def auStatus (a : Au) : Word := BitVec.ofNat 32 (a.commit.isSome.toNat + a.xf.isSome.toNat * 2 + a.xfq.toNat * 4)

def auRead (a : Au) (o : Nat) : Word :=
  if o < 0x400 then
    let v := a.shadow.voice (o / 0x20)
    match o % 0x20 with
    | 0x00 => v.ctl | 0x04 => v.addr | 0x08 => v.loop | 0x0C => v.lend | 0x10 => v.pitch | 0x14 => v.env | 0x18 => v.mix
    | 0x1C => v.filt | _ => 0
  else if o < 0x600 then
    let n := (o - 0x400) / 0x10; let v := a.voice n
    match o % 0x10 with
    | 0x0 => BitVec.ofNat 32 (v.stage.code + v.active.toNat * 8 + a.live.routeOf n * 16 + v.env * 256)
    | 0x4 => BitVec.ofNat 32 v.pos
    | 0x8 => BitVec.ofNat 32 v.frac
    | _ => 0
  else if o < 0x680 then
    let k := (o - 0x600) / 0x20; let b := a.shadow.bus k
    match o % 0x20 with
    | 0x00 => b.eqf | 0x04 => b.eqg0 | 0x08 => b.eqg1 | 0x0C => b.cth | 0x10 => b.ctc | 0x14 => b.mkg
    | 0x18 => BitVec.ofNat 32 (((a.buses[k % 4]).env.toNat >>> 16) % 2 ^ 13)
    | _ => 0
  else if o < 0x690 then (if o % 4 = 0 then a.shadow.route[(o - 0x680) / 4 % 4] else 0)
  else match o with
    | 0x6C0 => a.shadow.mgain
    | 0x6C4 => a.shadow.limc
    | 0x6C8 => a.shadow.limt
    | 0x6CC => BitVec.ofNat 32 ((a.envL.toNat >>> 16) % 2 ^ 13)
    | 0x800 => a.kon
    | 0x804 => a.koff
    | 0x80C => auStatus a
    | 0x810 => a.vend.val
    | _ => 0

/-- A write of AU_COMMIT that retires in vc `t` (R314, R315). -/
def auCommitWrite (m : Mach) (v : Word) (t : Nat) : Mach :=
  if !v.getLsbD 0 then m
  else match m.au.commit with
    | some _ => { m with au := { m.au with xfq := m.au.xfq || v.getLsbD 1 } }
    | none => { m with au := { m.au with commit := some t, xfq := v.getLsbD 1 } }

def Mach.setVoiceSet (m : Mach) (n : Nat) (v : VoiceSet) : Mach :=
  { m with au := { m.au with shadow := { m.au.shadow with voices := m.au.shadow.voices.set (n % 32) v (Nat.mod_lt _ (by decide)) } } }

def Mach.setBusSet (m : Mach) (k : Nat) (b : BusSet) : Mach :=
  { m with au := { m.au with shadow := { m.au.shadow with buses := m.au.shadow.buses.set (k % 4) b (Nat.mod_lt _ (by decide)) } } }

def auWrite (m : Mach) (o : Nat) (x : Word) (t : Nat) : Mach :=
  let sh := m.au.shadow
  let put (a : AuSet) : Mach := { m with au := { m.au with shadow := a } }
  if o < 0x400 then
    let n := o / 0x20; let v := sh.voice n
    match o % 0x20 with
    | 0x00 => m.setVoiceSet n { v with ctl := x &&& 0x7F#32 }
    | 0x04 => m.setVoiceSet n { v with addr := x &&& 0x3FFFFF#32 }
    | 0x08 => m.setVoiceSet n { v with loop := x &&& 0xFFFFFF#32 }
    | 0x0C => m.setVoiceSet n { v with lend := x &&& 0xFFFFFF#32 }
    | 0x10 => m.setVoiceSet n { v with pitch := x }
    | 0x14 => m.setVoiceSet n { v with env := x }
    | 0x18 => m.setVoiceSet n { v with mix := x &&& 0x01FF01FF#32 }
    | 0x1C => m.setVoiceSet n { v with filt := x &&& 0xFFFF7FFF#32 }
    | _ => m
  else if 0x600 ≤ o ∧ o < 0x680 then
    let k := (o - 0x600) / 0x20; let b := sh.bus k
    match o % 0x20 with
    | 0x00 => m.setBusSet k { b with eqf := x }
    | 0x04 => m.setBusSet k { b with eqg0 := x }
    | 0x08 => m.setBusSet k { b with eqg1 := x &&& 0xFFFF#32 }
    | 0x0C => m.setBusSet k { b with cth := x &&& 0x01FF1FFF#32 }
    | 0x10 => m.setBusSet k { b with ctc := x }
    | 0x14 => m.setBusSet k { b with mkg := x &&& 0x000107FF#32 }
    | _ => m
  else if 0x680 ≤ o ∧ o < 0x690 then
    put { sh with route := sh.route.set ((o - 0x680) / 4 % 4) (x &&& 0x77777777#32) (Nat.mod_lt _ (by decide)) }
  else match o with
    | 0x6C0 => put { sh with mgain := x &&& 0x1FFF#32 }
    | 0x6C4 => put { sh with limc := x &&& 0x00011FFF#32 }
    | 0x6C8 => put { sh with limt := x }
    | 0x800 => { m with au := { m.au with kon := x } }
    | 0x804 => { m with au := { m.au with koff := x } }
    | 0x808 => auCommitWrite m x t
    | 0x810 => { m with au := { m.au with vend := m.au.vend.clear x t } }
    | _ => m

/-! ### Block 11: input (R52) -/

def presentMask (ps : List Port) : Nat := ps.zipIdx.foldl (fun n p => n + (if p.1.present then 2 ^ p.2 else 0)) 0

def inRead (i : Inp) (o : Nat) : Word :=
  if o = 0 then i.frame
  else if o = 4 then BitVec.ofNat 32 (presentMask i.ports.toList)
  else if o = 8 then i.plugev.val
  else if o = 0xC then i.late
  else if 0x100 ≤ o ∧ o < 0x180 then
    let p := i.ports[(o - 0x100) / 0x10 % 8]
    match o % 0x10 with
    | 0x0 => p.btn
    | 0x4 => p.press
    | 0x8 => p.release
    | _ => p.ax0.setWidth 32 ||| (p.ax1.setWidth 32 <<< 16)
  else 0

def inWrite (m : Mach) (o : Nat) (v : Word) (t : Nat) : Mach :=
  if o = 8 then { m with inp := { m.inp with plugev := m.inp.plugev.clear v t } } else m

/-! ### Block 12: side queues (R53, R54) -/

def Mach.setOq (m : Mach) (q : Nat) (x : Oq) : Mach := { m with oq := m.oq.set (q % 16) x (Nat.mod_lt _ (by decide)) }

/-- DIR is fixed at 0 for queue 5 and at 1 for queue 6 (R54). -/
def oqDir (q : Nat) (o : Oq) : Bool := if q = 5 then false else if q = 6 then true else o.dirIn

def oqRead (m : Mach) (o : Nat) : Word :=
  let q := (o - 0x100) / 0x20
  if o < 0x100 ∨ 0x300 ≤ o ∨ !sideQueue q then 0
  else
    let x := m.oqOf q
    match o % 0x20 with
    | 0x00 => x.base
    | 0x04 => x.size
    | 0x08 => BitVec.ofNat 32 (x.en.toNat + (oqDir q x).toNat * 2)
    | 0x0C => BitVec.ofNat 32 x.posts.length
    | 0x10 => BitVec.ofNat 32 x.wptr
    | 0x14 => BitVec.ofNat 32 x.rptr
    | 0x18 => x.drop
    | _ => 0

/-- OQ_qCTL (R54): EN is not set while the size or the range cannot serve; a clear waits for the postings. -/
def oqCtlWrite (prof : Nat) (m : Mach) (q : Nat) (v : Word) : Mach :=
  let x := m.oqOf q
  if !sideQueue q then m
  else if x.en then
    if v.getLsbD 0 then m
    else if oqDir q x then m.setOq q { x with en := false, wptr := 0, rptr := 0, rptrOk := 0 }
    else if x.posts.isEmpty then m.setOq q { x with en := false, clearWait := false }
    else m.setOq q { x with clearWait := true }
  else
    let y := { x with dirIn := v.getLsbD 1 }
    let units := x.size.toNat / 4096
    if !v.getLsbD 0 then m.setOq q y
    else if units = 0 ∨ 256 < units ∨ workSize prof < x.base.toNat + x.size.toNat then m
    else m.setOq q { y with en := true, clearWait := false }

def oqWrite (e : Env) (m : Mach) (o : Nat) (v : Word) : Mach :=
  let q := (o - 0x100) / 0x20
  if o < 0x100 ∨ 0x300 ≤ o ∨ !sideQueue q then m
  else
    let x := m.oqOf q
    match o % 0x20 with
    | 0x00 => if x.en then m else m.setOq q { x with base := v &&& 0x00FFF000#32 }
    | 0x04 => if x.en then m else m.setOq q { x with size := v &&& 0x001FF000#32 }
    | 0x08 => oqCtlWrite e.cfg.prof m q v
    | 0x14 => m.setOq q { x with rptr := (v &&& 0xFFFFFFF8#32).toNat }
    | _ => m

/-! ### Block 13: rollback hints (R329) -/

def rbRead (r : Rb) (o : Nat) : Word :=
  if o = 0 then r.ctl
  else if o = 4 then r.surp
  else if 0x100 ≤ o ∧ o < 0x180 then
    match o % 0x10 with
    | 0x0 => r.hold[(o - 0x100) / 0x10 % 8]
    | 0x4 => r.axp[(o - 0x100) / 0x10 % 8]
    | _ => 0
  else 0

def rbWrite (m : Mach) (o : Nat) (v : Word) : Mach :=
  if o = 0 then { m with rb := { m.rb with ctl := v &&& 1#32 } }
  else if 0x100 ≤ o ∧ o < 0x180 then
    let n := (o - 0x100) / 0x10 % 8
    match o % 0x10 with
    | 0x0 => { m with rb := { m.rb with hold := m.rb.hold.set n v (Nat.mod_lt _ (by decide)) } }
    | 0x4 => { m with rb := { m.rb with axp := m.rb.axp.set n (v &&& 3#32) (Nat.mod_lt _ (by decide)) } }
    | _ => m
  else m

/-! ### Block 15: debug (R118) -/

def dbgRead (d : Dbg) (o : Nat) : Word :=
  if o = 0 then d.stat.val
  else if o = 8 then d.bp0
  else if o = 0xC then d.bp1
  else if 0x100 ≤ o ∧ o < 0x180 then
    let w := d.wins[(o - 0x100) / 0x10 % 8]
    match o % 0x10 with
    | 0x0 => w.lo
    | 0x4 => w.hi
    | 0x8 => w.ctl
    | _ => 0
  else 0

def dbgWrite (m : Mach) (o : Nat) (v : Word) (t : Nat) : Mach :=
  if o = 0 then { m with dbg := { m.dbg with stat := m.dbg.stat.clear v t } }
  else if o = 8 then { m with dbg := { m.dbg with bp0 := v } }
  else if o = 0xC then { m with dbg := { m.dbg with bp1 := v } }
  else if 0x100 ≤ o ∧ o < 0x180 then
    let n := (o - 0x100) / 0x10 % 8
    let w := m.dbg.wins[n]'(Nat.mod_lt _ (by decide))
    let put (w : Win) : Mach := { m with dbg := { m.dbg with wins := m.dbg.wins.set n w (Nat.mod_lt _ (by decide)) } }
    match o % 0x10 with
    | 0x0 => put { w with lo := v &&& 0xFFFFF000#32 }
    | 0x4 => put { w with hi := v &&& 0xFFFFF000#32 }
    | 0x8 => put { w with ctl := v &&& 7#32 }
    | _ => m
  else m

/-! ### The whole region (R44) -/

/-- A read of the register at I/O offset `off` that retires in vc `t`, with its side effects (R159, R169). -/
def ioRead (e : Env) (m : Mach) (off t : Nat) : Word × Mach :=
  let o := off % 4096
  match off / 4096 with
  | 0 => (sysRead e m o, m)
  | 1 => (icRead m.ic o, m)
  | 2 => tmRead m o
  | 3 => bmRead e m o t
  | 4 | 5 | 6 | 7 => (vidRead m off, m)
  | 8 => (rlRead m.rl o, m)
  | 9 => (buRead m.bu o, m)
  | 10 => (auRead m.au o, m)
  | 11 => (inRead m.inp o, m)
  | 12 => (oqRead m o, m)
  | 13 => (rbRead m.rb o, m)
  | 15 => (dbgRead m.dbg o, m)
  | _ => (0, m)

/-- A write of `v` to the register at I/O offset `off` that retires in vc `t`. -/
def ioWrite (e : Env) (m : Mach) (off : Nat) (v : Word) (t : Nat) : Mach :=
  let o := off % 4096
  match off / 4096 with
  | 0 => if o = 0xC then { m with umask := v &&& 0x3FFF#32 } else m
  | 1 => icWrite m o v t
  | 2 => tmWrite m o v t
  | 3 => bmWrite m o v t
  | 4 | 5 | 6 | 7 => vidWrite e m off v t
  | 8 => rlWrite m o v
  | 9 => buWrite m o v t
  | 10 => auWrite m o v t
  | 11 => inWrite m o v t
  | 12 => oqWrite e m o v
  | 13 => rbWrite m o v
  | 15 => dbgWrite m o v t
  | _ => m

end Sys2Proof.Machine
end

