-- ==== Sys2Proof/Machine/Due.lean ====
section
/-! DEFINITION. What falls due in the virtual time of a context, when, and in which order: every happening whose vc the context state fixes has
a key, its vc and its place within that vc. The lane acts in a vc only after every happening with a smaller key, and a happening acts only when no
other comes before it and the lane has come to it, so that values and vc do not depend on the order in which the sender names them (R3). -/
namespace Sys2Proof.Machine

/-! ### Beam positions -/

/-- First vc of the input latch of frame F (R171). -/
def latchVc (md : ModeT) (f : Nat) : Nat := f * md.frameVc + md.vAct * md.lineVc

/-- First vc of the commit of the line with index `idx` (R230). -/
def commitVc (md : ModeT) (idx : Nat) : Nat := idx * md.lineVc + md.hAct * md.dotdiv

/-- The first vc at or after `lo` in which the beam reaches (line, dot); none where the frame has no such position (R173). -/
def nextPosition (md : ModeT) (line dot lo : Nat) : Option Nat :=
  if line < md.vTot ∧ dot < md.hTot then
    let off := line * md.lineVc + dot * md.dotdiv
    some (off + (lo + md.frameVc - 1 - off) / md.frameVc * md.frameVc)
  else none

/-! ### Raster lists (R183 to R185) -/

def rlLine (r : RlEntry) : Nat := bitsOf r.w0.toNat 9 0
def rlSpan (r : RlEntry) : Nat := bitsOf r.w0.toNat 16 10
def rlOff (r : RlEntry) : Nat := bitsOf r.w0.toNat 30 17 * 4

/-- The entry has a position in the frame (R184). -/
def rlInFrame (md : ModeT) (r : RlEntry) : Bool := decide (rlLine r < md.vTot) && decide (rlSpan r < md.hTot / 8)

/-- The skip rules of R184 that an entry meets by itself. -/
def rlBad (cfg : Cfg) (md : ModeT) (r : RlEntry) : Bool :=
  !rlInFrame md r || r.w0.getLsbD 31 || (vidMask cfg (rlOff r)).isNone

/-- Each entry of a list with whether R184 skips it; `last` is the position of the last entry not skipped. -/
def rlSkips (cfg : Cfg) (md : ModeT) : List RlEntry → Option (Nat × Nat) → List (RlEntry × Bool)
  | [], _ => []
  | r :: l, last =>
    let pos := (rlLine r, rlSpan r)
    let early := match last with | none => false | some p => decide (pos.1 < p.1 ∨ (pos.1 = p.1 ∧ pos.2 < p.2))
    if rlBad cfg md r || early then (r, true) :: rlSkips cfg md l last else (r, false) :: rlSkips cfg md l (some pos)

/-- The vc in which an entry of frame F's list acts (R185). -/
def rlVc (md : ModeT) (f : Nat) (r : RlEntry) : Nat := f * md.frameVc + rlLine r * md.lineVc + rlSpan r * 8 * md.dotdiv - 1

/-- The index of the entry that acts next: of those not done with a position in the frame, the first in time, then in the list. -/
def rlNext (md : ModeT) (f : Nat) (l : List (RlEntry × Bool)) : Option Nat :=
  (l.zipIdx.foldl (fun (b : Option (Nat × Nat)) p =>
    if rlInFrame md p.1.1 && !p.1.1.done then
      match b with
      | none => some (rlVc md f p.1.1, p.2)
      | some q => if rlVc md f p.1.1 < q.1 then some (rlVc md f p.1.1, p.2) else some q
    else b) none).map fun q => q.2

/-! ### Blits (R245, R256) -/

/-- A rectangle on a surface (R245). -/
structure Rect where
  base : Nat
  pitch : Nat
  fmt : Nat
  x : Nat
  y : Nat
  w : Nat
  h : Nat
  deriving DecidableEq, Repr

def blitOp (c : BlitCmd) : Nat := bitsOf c.op.toNat 2 0
def blitAlpha (c : BlitCmd) : Nat := bitsOf c.op.toNat 15 8
def blitMen (c : BlitCmd) : Bool := c.op.getLsbD 16
def blitHm1 (c : BlitCmd) : Nat := bitsOf c.size.toNat 25 16

def rectOf (base geom xy size : Word) : Rect :=
  { base := base.toNat, pitch := bitsOf geom.toNat 9 0, fmt := bitsOf geom.toNat 18 16, x := bitsOf xy.toNat 9 0, y := bitsOf xy.toNat 25 16
    w := bitsOf size.toNat 9 0 + 1, h := bitsOf size.toNat 25 16 + 1 }

def srcRect (c : BlitCmd) : Rect := rectOf c.sbase c.sgeom c.sxy c.size
def dstRect (c : BlitCmd) : Rect := rectOf c.dbase c.dgeom c.dxy c.size

/-- Pixel size in bytes; 0 for a reserved format (R246). -/
def fmtBytes : Nat → Nat
  | 0 | 1 | 2 => 2
  | 3 => 1
  | 4 => 4
  | _ => 0

def Rect.b (r : Rect) : Nat := fmtBytes r.fmt

/-- Address of the first byte of row `k` of the rectangle (R245). -/
def Rect.row (r : Rect) (k : Nat) : Nat := r.base + (r.y + k) * r.pitch * 16 + r.x * r.b

/-- Row cost (R256). -/
def rowCost (c : BlitCmd) : Nat :=
  let d := dstRect c
  let u := (d.row 0 + d.w * d.b - 1) / 16 - d.row 0 / 16 + 1
  4 + (match blitOp c with | 1 => 1 | 0 => 2 | _ => 3) * u

/-- The row vc of the next row (R256). -/
def nextRowVc (r : BlitRun) : Nat := r.start + 7 + (r.rows + 1) * rowCost r.cmd

/-- The vc in which the blitter's next happening is due: the next row of a running blit, or the start of the oldest accepted one (R249, R256). -/
def Bu.nextVc (b : Bu) : Option Nat :=
  match b.run with
  | some r => some (nextRowVc r)
  | none => if b.queue.isEmpty then none else some b.freeVc

/-! ### Sample boundaries (R294, R314, R317) -/

/-- A crossfade ends at the boundary of the next sample (R317). -/
def xfEnds (au : Au) : Bool := match au.xf with | some (n0, _) => decide (n0 + 64 ≤ au.samples) | none => false

/-- A pending commit is taken at the boundary of the next sample (R314). -/
def commitDue (au : Au) (vcS : Nat) : Bool := match au.commit with | some t => decide (t < au.samples * vcS) && au.xf.isNone | none => false

/-! ### Order -/

/-- The happenings of virtual time, one for each row of the table that is an event of a context. -/
inductive Due where
  | latch | blockCommit | commitTaken | crossfadeEnd | sample | listCapture | sprites | listEntry | hblank | lineCommit | listInForce | blitStart
  | blitRow | tick (n : Nat) | lineCompare
  deriving DecidableEq, Repr

/-- The place of a happening within its vc. The spec fixes: the latch before a commit that the boundary takes, the sample, a blit row and the processor's stores
(R47, R257, R295), the commit of an audio block before a latch of its vc, as a restore leaves no block of which every sample lies before it to be
committed again (DEDUCED from R345, R322 and R320, log entry 1), raster-list writes before the processor (R186), the capture of a list before that vc's stores (R182), list
entries before the list in force changes (R182), the ticks of timers and the line comparison after the processor's writes (R153, R154, R173). The
places that these leave open are the model's (log entry 1). -/
def Due.rank : Due → Nat
  | .blockCommit => 0
  | .latch => 1
  | .commitTaken => 2
  | .crossfadeEnd => 3
  | .sample => 4
  | .listCapture => 5
  | .sprites => 6
  | .listEntry => 7
  | .hblank => 8
  | .lineCommit => 9
  | .listInForce => 10
  | .blitStart => 11
  | .blitRow => 12
  | .tick n => 20 + n % 4
  | .lineCompare => 24

/-- The processor's place within a vc. -/
def laneRank : Nat := 16

/-- The key of a happening in vc `t`. -/
def Due.key (d : Due) (t : Nat) : Nat := 32 * t + d.rank

/-- The first vc in which the lane may not yet act while the happening of key `k` has not: its vc where it comes before the processor, and the next
one where it comes after. -/
def limOf (k : Nat) : Nat := (k + laneRank - 1) / 32

/-- The vc in which the next tick of timer `n` is due; none where it does not tick by itself (R152, R153). -/
def Timer.nextVc (x : Timer) : Option Nat :=
  let due := x.phase0 + 2 ^ x.psc
  if !x.chain && (x.en || x.offAt = some due) then some due else none

/-- The vc of the next line comparison that the present BM_LCMP gives (R173). -/
def Bm.nextCompare (md : ModeT) (b : Bm) : Option Nat :=
  nextPosition md (bitsOf b.lcmp.toNat 9 0) (bitsOf b.lcmp.toNat 25 16) (max b.lcmpFrom b.lcmpDone)

/-- The raster-list entry that acts next: its place in the list in force, the entry and whether R184 skips it. -/
def Mach.nextEntry (cfg : Cfg) (m : Mach) : Option (Nat × RlEntry × Bool) :=
  let md := modeOf cfg.mode
  let l := rlSkips cfg md (m.rl.inForce.getD []) none
  match rlNext md m.cur.inForce l with
  | none => none
  | some k => (l[k]?).map fun p => (k, p)

/-- The vc of each happening in the present context state; none where it is not to come. -/
def Mach.dueVc (cfg : Cfg) (m : Mach) : Due → Option Nat
  | .latch => some (latchVc (modeOf cfg.mode) m.cur.latch)
  | .blockCommit => if m.au.samples = 48 * (m.au.blocks + 1) then some (m.au.samples * (modeOf cfg.mode).vcSample) else none
  | .commitTaken =>
    if commitDue m.au (modeOf cfg.mode).vcSample then some (m.au.samples * (modeOf cfg.mode).vcSample) else none
  | .crossfadeEnd => if xfEnds m.au then some (m.au.samples * (modeOf cfg.mode).vcSample) else none
  | .sample => some (m.au.samples * (modeOf cfg.mode).vcSample)
  | .listCapture => let md := modeOf cfg.mode; some (m.cur.capture * md.frameVc + (md.vTot - 1) * md.lineVc)
  | .sprites => some (m.cur.sprite * (modeOf cfg.mode).lineVc)
  | .listEntry => (m.nextEntry cfg).map fun p => rlVc (modeOf cfg.mode) m.cur.inForce p.2.1
  | .hblank => some (commitVc (modeOf cfg.mode) m.cur.hblank)
  | .lineCommit => some (commitVc (modeOf cfg.mode) m.cur.commit)
  | .listInForce => some ((m.cur.inForce + 1) * (modeOf cfg.mode).frameVc - 1)
  | .blitStart => if m.bu.run.isNone then m.bu.nextVc else none
  | .blitRow => if m.bu.run.isSome then m.bu.nextVc else none
  | .tick n => (m.timer n).nextVc
  | .lineCompare => m.bm.nextCompare (modeOf cfg.mode)

/-- Every happening there is. -/
def allDues : List Due :=
  [.latch, .blockCommit, .commitTaken, .crossfadeEnd, .sample, .listCapture, .sprites, .listEntry, .hblank, .lineCommit, .listInForce, .blitStart,
    .blitRow, .tick 0, .tick 1, .tick 2, .tick 3, .lineCompare]

/-- The key of the next happening of the context; the input latch is always to come. -/
def Mach.nextKey (cfg : Cfg) (m : Mach) : Nat :=
  allDues.foldl (fun k d => match m.dueVc cfg d with | some t => min k (d.key t) | none => k)
    (Due.latch.key (latchVc (modeOf cfg.mode) m.cur.latch))

/-- The first vc in which the lane may not yet act. -/
def Mach.lim (cfg : Cfg) (m : Mach) : Nat := limOf (m.nextKey cfg)

/-- Every happening of the vc before `b` has acted: the boundary before vc `b` can be judged. -/
def Mach.settledTo (cfg : Cfg) (m : Mach) (b : Nat) : Bool := decide (32 * b ≤ m.nextKey cfg)

end Sys2Proof.Machine
end

