-- ==== Sys2Proof/Machine/Entry.lean ====
section
/-! DEFINITION. Taking an exception or interrupt (R125 to R128), the boundary order of R124, and checked loads and stores. -/
namespace Sys2Proof.Machine

/-! ### Frames and gate records (R125) -/

/-- The place of an area of `n` bytes that R125 permits a frame or record to occupy. -/
def areaLoc (prof f n : Nat) : Option Loc :=
  if f % 4 ≠ 0 then none
  else if f + n ≤ 0x2000 then some (.fast f)
  else if 0x01000000 ≤ f ∧ f + n ≤ 0x01000000 + workSize prof then some (.ram .work (f - 0x01000000))
  else none

/-- R125: the area may be written. -/
def frameOk (e : Env) (m : Mach) (f n : Nat) : Bool :=
  match areaLoc e.cfg.prof f n with
  | none => false
  | some (.ram _ off) => (m.guardedByte off n).isNone
  | some _ => true

/-- R125: the area may be read back: it also holds no unwritten word. -/
def frameReadable (e : Env) (m : Mach) (f n : Nat) : Bool :=
  frameOk e m f n && match areaLoc e.cfg.prof f n with
    | some (.fast off) => (List.range (n / 4)).all fun i => (tabGet m.mem.fast (off / 4 + i)).isSome
    | _ => true

/-- The lowest byte of an area that lies in poisoned data (R501). -/
def poisonByte (e : Env) (m : Mach) (f n : Nat) (l : Loc) : Option Nat :=
  ((List.range n).find? fun i => poisonedAt e m 1 (l.plus i)).map fun i => f + i

/-- Store words from address `f` on, in a place that R125 permits. -/
def putWords (e : Env) (m : Mach) (f : Nat) (ws : List Word) (t : Nat) : Mach :=
  match areaLoc e.cfg.prof f (4 * ws.length) with
  | some (.fast off) => { m with mem := { m.mem with fast := ws.zipIdx.foldl (fun l w => tabPut l (off / 4 + w.2) { val := w.1 }) m.mem.fast } }
  | some (.ram r off) => m.putRam e r off (ws.flatMap fun w => leBytes 4 w.toNat) t
  | _ => m

/-- Word `k` of an area. -/
def areaWord (e : Env) (m : Mach) (f n k : Nat) : Word :=
  match areaLoc e.cfg.prof f n with
  | some l => BitVec.ofNat 32 (readPlace e m (l.plus (4 * k)) 4)
  | none => 0

/-! ### Checked loads and stores -/

/-- The HBM data that address `a` names. -/
def hbmAt (e : Env) (m : Mach) (a : Nat) : Option HbmAt :=
  (if inView a then viewLoc m a else mapLoc e.cfg.prof m.img.len a).bind Loc.hbm?

/-- A vector-12 access has consumed poison at `a` (R499, R509). -/
def noteConsumed (e : Env) (m : Mach) (vec a : Nat) : Mach :=
  if vec = 12 then m.emit (.consumed (hbmAt e m a)) else m

/-- A load of `n` bytes at `a` that retires in vc `t`. -/
def loadAt (e : Env) (m : Mach) (a n t : Nat) : Except (Nat × Word) (Nat × Mach) :=
  match checkAccess e m .read a n with
  | .error x => .error x
  | .ok (.io off) => let r := ioRead e m off t; .ok (r.1.toNat, r.2)
  | .ok l => .ok (readPlace e m l n, noteRead e m l n)

/-- A store of the low `n` bytes of `v` at `a` that retires in vc `t`. -/
def storeAt (e : Env) (m : Mach) (a n : Nat) (v : Word) (t : Nat) : Except (Nat × Word) Mach :=
  match checkAccess e m .write a n with
  | .error x => .error x
  | .ok (.io off) => .ok (ioWrite e m off v t)
  | .ok (.fast off) => .ok { m with mem := { m.mem with fast := putFast m.mem.fast off (leBytes n v.toNat) } }
  | .ok (.ram r off) => .ok (m.putRam e r off (leBytes n v.toNat) t)
  | .ok (.image _) => .ok m

/-- The place an address names without regard to EN of a queue and to any check (R33, R53). -/
def rawLoc (e : Env) (m : Mach) (a : Nat) : Option Loc :=
  if inView a then some (.ram .work ((m.oqOf ((a - 0x08000000) / 0x100000)).base.toNat + a % 0x100000)) else mapLoc e.cfg.prof m.img.len a

/-- The read of a load whose checks its first vc has passed (R82, R532), in its retiring vc `t`. Where the image that a resumption latch in between
has put in force is shorter, so that the address names nothing, the load gives 0 (DESIGN CHOICE, log entry 76: R43 and R74 state no value there). -/
def loadRaw (e : Env) (m : Mach) (a n t : Nat) : Nat × Mach :=
  match rawLoc e m a with
  | some (.io off) => let r := ioRead e m off t; (r.1.toNat, r.2)
  | some l => (readPlace e m l n, noteRead e m l n)
  | none => (0, m)

/-- The store of a word whose checks an earlier vc has passed (R106), in vc `t`. -/
def storeRaw (e : Env) (m : Mach) (a n : Nat) (v : Word) (t : Nat) : Mach :=
  match rawLoc e m a with
  | some (.io off) => ioWrite e m off v t
  | some (.fast off) => { m with mem := { m.mem with fast := putFast m.mem.fast off (leBytes n v.toNat) } }
  | some (.ram r off) => m.putRam e r off (leBytes n v.toNat) t
  | _ => m

/-- The same checks and reads at supervisor level (R120, R134). -/
def loadSup (e : Env) (m : Mach) (a n t : Nat) : Except (Nat × Word) (Nat × Mach) :=
  match loadAt e (m.setPsw (setField m.cpu.psw 10 2 1)) a n t with
  | .error x => .error x
  | .ok r => .ok (r.1, r.2.setPsw m.cpu.psw)

/-! ### Entry (R126, R127) -/

/-- CAUSE (R123). -/
def causeWord (vec kind fromLv : Nat) (nest : Bool) (orig : Nat) : Word :=
  BitVec.ofNat 32 (vec + kind * 2 ^ 8 + fromLv * 2 ^ 10 + nest.toNat * 2 ^ 12 + orig * 2 ^ 16)

/-- ACCX as read: copies of bit 47 above bit 15 (R70). -/
def accxRead (a : BitVec 48) : Word := (a.extractLsb' 32 16).signExtend 32

def loopWords (c : Cpu) : List Word := c.loops.toList.flatMap fun l => [l.start, l.lend, l.count]

/-- The sixteen words of a frame (R126). -/
def frameWords (c : Cpu) (pc psw cause info : Word) : List Word :=
  [pc, psw, cause, info] ++ loopWords c ++ [c.acc.setWidth 32, accxRead c.acc, 0]

/-- R126 after the frame is written: levels, stack pointers, PSW, HOLD window and handler address. `sp` is the address of the frame,
`vec` the vector entered, `e8` the vc in which the handler's first instruction issues. A descriptor that cannot be read stops the
context (R121). No instruction issues in an entry, so `afterRete` stays (R124). -/
def enterHandler (e : Env) (m : Mach) (vec : Nat) (sp cause info : Word) (prio : Nat) (e8 : Nat) : Mach :=
  let old := m.cpu.psw
  let usp := if pswLV old = 0 then m.reg spReg else m.cpu.usp
  let psw := setField (setField (setField old 10 2 1) 4 1 0) 12 2 0
  let psw := if vec < 32 then setField psw 5 1 0 else setField psw 6 3 prio
  match loadSup e m ((m.cpu.vbr.toNat + 4 * vec) % 2 ^ 32) 4 (e8 - 1) with
  | .error x => (noteConsumed e { m with vc := e8, cpu := { m.cpu with entry := none } } x.1 x.2.toNat).emit (.faulted (x.1 = 12))
  | .ok (d, m) =>
    let c := m.cpu
    let c := { c with
      usp := usp, psw := psw, regs := c.regs.set spReg sp, cause := cause, info := info
      hold := if bitOf d 23 then some (e8 + bitsOf d 31 24 + 1) else none
      pc := BitVec.ofNat 32 (c.vbr.toNat + bitsOf d 22 1 * 2)
      begun := false, entry := none, blk := none, word := [], idle := none, at12 := decide (vec = 12) }
    { m with cpu := c, vc := e8 }

/-- Entry for an exception or interrupt that begins in vc `t0` (R126); an area that R125 refuses gives the emergency entry of R127. -/
def enter (e : Env) (m : Mach) (x : Exc) (t0 : Nat) : Mach :=
  let t := t0 + 7
  let old := m.pswAt t
  let lv := pswLV old
  let sp := if lv = 0 then m.cpu.ssp else m.reg spReg
  let f := sp - 64
  let cause := causeWord x.vec x.kind lv false 0
  let prio := bitsOf x.info.toNat 10 8
  let words := frameWords m.cpu x.pc old cause x.info
  if frameOk e m f.toNat 64 then
    let m := putWords e m f.toNat words t
    let m := if x.vec < 32 then m else { m with ic := { m.ic with pend := m.ic.pend.clear (BitVec.ofNat 32 (2 ^ (x.vec - 32))) t } }
    enterHandler e m x.vec f cause x.info prio (t0 + 8)
  else
    let m := putWords e m 0x1FC0 words t
    enterHandler e m 6 0x1FC0 (causeWord 6 1 lv true x.vec) f prio (t0 + 8)

/-- The entry in progress goes on: it is made once every happening before its eighth vc has acted, and the lane has come to that vc meanwhile
(R126). -/
def goOn (e : Env) (m : Mach) : Mach :=
  match m.cpu.entry with
  | none => m
  | some (x, t0) => if t0 + 7 < m.lim e.cfg then enter e m x t0 else { m with reach := max m.reach (t0 + 7) }

/-- An exception or interrupt whose entry begins in vc `t0`. -/
def beginEntry (e : Env) (m : Mach) (x : Exc) (t0 : Nat) : Mach :=
  goOn e { m with vc := t0, cpu := { m.cpu with begun := false, entry := some (x, t0), blk := none, word := [], idle := none } }

/-- An exception whose entry begins in vc `t0`; consumed poison is noted (R499). -/
def raiseExc (e : Env) (m : Mach) (x : Exc) (t0 : Nat) : Mach := beginEntry e (noteConsumed e m x.vec x.info.toNat) x t0

/-! ### Boundaries (R63, R124) -/

/-- R63 for source `s` at a boundary before vc `b`. -/
def deliverable (m : Mach) (b s : Nat) : Bool :=
  m.ic.ready (pswIPL m.cpu.psw) s && decide (m.ic.from_ s ≤ b) && pswIE m.cpu.psw && !m.holdOpen b

/-- The interrupt R64 chooses at a boundary before vc `b`. -/
def chosen (m : Mach) (b : Nat) : Option Nat := bestSource m.ic (deliverable m b)

def bpMatch (bp pc : Word) : Bool := bp.getLsbD 0 && decide (bp.toNat / 2 = pc.toNat / 2)

/-- R124: a comparator matches the next instruction's address, and that instruction is not the first to issue after a RETE. -/
def comparator (m : Mach) : Bool := !m.cpu.afterRete && (bpMatch m.dbg.bp0 m.cpu.pc || bpMatch m.dbg.bp1 m.cpu.pc)

def comparatorExc (m : Mach) : Exc := { vec := 9, info := m.cpu.pc ||| 1#32, pc := m.cpu.pc }

/-! ### The boundary at which the lane stands (R77) -/

/-- The vc in which a SYNC retires whose blits have all ended: the last vc of the last of them, or its first vc (R108); none while a blit is
accepted and not ended. -/
def syncRetire (m : Mach) : Option Nat := if m.bu.outstanding = 0 then some (max m.vc (m.bu.freeVc - 1)) else none

/-- The first boundary of a SYNC wait at which an interrupt is deliverable (R63, R108): a source is pending and enabled, IE is 1 and no HOLD window
is open. -/
def syncInterrupt (m : Mach) : Option Nat :=
  if pswIE m.cpu.psw then (m.ic.firstReady (pswIPL m.cpu.psw)).map fun b => max m.vc (max b (m.cpu.hold.getD 0)) else none

/-- The boundary at which interrupts are considered now: before the next issue, at the chunk boundary of a block instruction (R105), in a SYNC
wait the first at which one is deliverable before SYNC retires (R108). None inside an instruction, and none in a SLEEP, which retires first
(R107). -/
def boundaryNow (m : Mach) : Option Nat :=
  if m.cpu.begun || !m.cpu.word.isEmpty then none
  else match m.cpu.idle, m.cpu.blk with
    | some true, _ => none
    | some false, _ =>
      match syncInterrupt m, syncRetire m with
      | some b, some r => if b ≤ r then some b else none
      | b, _ => b
    | none, some n => if 0 < n ∧ n % 16 = 0 then some m.vc else none
    | none, none => some m.vc

/-- The interrupt that is taken next, with its boundary. -/
def interruptNow (m : Mach) : Option (Nat × Nat) :=
  match boundaryNow m with
  | none => none
  | some b => (chosen m b).map fun k => (k, b)

/-! ### How far the lane has come -/

/-- The last vc up to which happenings may act before the lane does: that of its work in progress; in a SLEEP the vc in which it retires, without
bound while no source wakes it (R107); in a SYNC wait the first of its retirement and an interrupt (R108). -/
def Mach.reaches (m : Mach) (v : Nat) : Bool :=
  match m.cpu.idle with
  | none => decide (v ≤ max m.vc m.reach)
  | some true => match m.ic.firstReady (pswIPL m.cpu.psw) with
    | some b => decide (v ≤ max m.vc (b - 1))
    | none => true
  | some false =>
    (match syncRetire m with | some r => decide (v ≤ r) | none => true) && (match syncInterrupt m with | some b => decide (v ≤ b) | none => true)

/-- Happening `d`, due in vc `t`, acts next: no other comes before it, and the lane has come to it. -/
def Mach.turn (cfg : Cfg) (m : Mach) (d : Due) (t : Nat) : Bool := decide (m.nextKey cfg = d.key t) && m.reaches (limOf (d.key t))

/-- The context state as a happening of vc `t` finds it: a lane that waits in SLEEP or SYNC has come to that vc (R107, R108). -/
def Mach.seen (m : Mach) (t : Nat) : Mach := if m.cpu.idle.isSome then { m with vc := max m.vc t } else m

/-! ### Loop check (R92) -/

/-- The loop registers, LD and next address after an instruction that retires without transfer of control and whose following
address is `a`; `k` bounds the levels that can close. Bit 0 of the PC is always 0 (R72), so a loop whose LSTARTk an MSR or a frame has made odd
continues at the even address below. -/
def loopCheck : Nat → Cpu → Word → Cpu × Word
  | 0, c, a => (c, a)
  | k + 1, c, a =>
    match pswLD c.psw with
    | 0 => (c, a)
    | ld + 1 =>
      if h : ld < 3 then
        let l := c.loops[ld]
        if l.lend ≠ a then (c, a)
        else if 1 < l.count.toNat then ({ c with loops := c.loops.set ld { l with count := l.count - 1 } }, l.start &&& 0xFFFFFFFE#32)
        else loopCheck k { c with loops := c.loops.set ld { l with count := 0 }, psw := setField c.psw 12 2 ld } a
      else (c, a)

/-! ### Return from exception (R132) -/

/-- What an instruction's work leads to. `seq` continues at the following address under the loop check, `jump` transfers control,
`exc` raises an exception, `stay` leaves the instruction unretired. The number is the cost in vc. -/
inductive Next where
  | seq
  | jump (a : Word)
  | exc (x : Exc)
  | stay
  deriving DecidableEq, Repr

structure Ret where
  m : Mach
  cost : Nat
  next : Next

/-- The words of a frame or record of `n` bytes: its first vc reads them (DEDUCED, log entry 76: the checks and what they let through are one read),
and work that goes on in a later vc uses what it has read. -/
def keptWords (e : Env) (m : Mach) (f n : Nat) : List Word :=
  if m.cpu.begun then m.cpu.word else (List.range (n / 4)).map (areaWord e m f n)

/-- RETE (R132). Whether the frame can be read is checked in its first vc (`begun` says that it has been); the other checks are on the words read. Poison
in any of the frame's 64 bytes takes vector 12, in words 2, 3 and 15 too, which R132 does not read (DESIGN CHOICE, log entry 81: R500's row names the frame
read by RETE and does not say which words count). -/
def rete (e : Env) (m : Mach) (pc : Word) : Ret :=
  let f := m.reg spReg
  let first := !m.cpu.begun
  let err (x : Exc) : Ret := ⟨m, 1, .exc x⟩
  if first && !frameReadable e m f.toNat 64 then err { vec := 6, kind := 0, info := f, pc := pc }
  else
    let l := (areaLoc e.cfg.prof f.toNat 64).getD (.fast 0)
    match if first then poisonByte e m f.toNat 64 l else none with
    | some a => err { vec := 12, kind := 0, info := BitVec.ofNat 32 a, pc := pc }
    | none =>
      let ws := keptWords e m f.toNat 64
      let w (k : Nat) : Word := ws.getD k 0
      if m.lv < pswLV (w 1) then err { vec := 7, info := w 1, pc := pc }
      else if (w 0).getLsbD 0 then err { vec := 3, info := w 0, pc := pc }
      else
        let up := f + 64
        let c := m.cpu
        let acc : BitVec 48 := ((w 14).setWidth 16 : BitVec 16) ++ (w 13)
        let c := { c with
          loops := Vector.ofFn fun i => ⟨w (4 + 3 * i.val), w (5 + 3 * i.val), w (6 + 3 * i.val)⟩
          acc := acc, psw := w 1 &&& 0x3DFF#32, hold := none, word := ws
          ssp := if pswLV (w 1) = 0 then up else c.ssp
          regs := c.regs.set spReg (if pswLV (w 1) = 0 then c.usp else up) }
        ⟨noteRead e { m with cpu := c } l 64, 6, .jump (w 0)⟩

end Sys2Proof.Machine
end

