-- ==== Sys2Proof/Machine/Flags.lean ====
section
/-! DEFINITION. Every flag computation of R83 to R86: results and flags of the ALU operations as data. -/
namespace Sys2Proof.Machine

/-- A result with the flags it sets; a flag that is `none` is unchanged (R83). -/
structure AluRes where
  val : Word
  n : Option Bool := none
  z : Option Bool := none
  c : Option Bool := none
  v : Option Bool := none
  deriving DecidableEq, Repr

/-- Put the flags of a result into PSW. -/
def AluRes.psw (r : AluRes) (p : Word) : Word :=
  setFlags p (r.n.getD (pswN p)) (r.z.getD (pswZ p)) (r.c.getD (pswC p)) (r.v.getD (pswV p))

/-- N and Z of a value (R84). -/
def resNZ (v : Word) : AluRes := { val := v, n := some v.msb, z := some (decide (v = 0)) }

/-- x + y + carry: C is the carry out of bit 31, V a signed result that does not fit (R84). -/
def addRes (x y : Word) (cin : Bool) : AluRes :=
  let u := x.toNat + y.toNat + cin.toNat
  let i := x.toInt + y.toInt + (cin.toNat : Int)
  let v := BitVec.ofNat 32 u
  { resNZ v with c := some (decide (2 ^ 32 ≤ u)), v := some (decide (i < -2147483648 ∨ 2147483647 < i)) }

/-- x − y − borrow, the borrow being 1 − cin: C is 1 when no borrow occurs (R84). -/
def subRes (x y : Word) (cin : Bool) : AluRes :=
  let b := 1 - cin.toNat
  let i := x.toInt - y.toInt - (b : Int)
  let v := x - y - BitVec.ofNat 32 b
  { resNZ v with c := some (decide (y.toNat + b ≤ x.toNat)), v := some (decide (i < -2147483648 ∨ 2147483647 < i)) }

/-- R85: LSL by n. -/
def lslRes (x : Word) (n : Nat) : AluRes :=
  if n = 0 then resNZ x
  else { resNZ (x <<< n) with c := some (decide (n ≤ 32) && x.getLsbD (32 - n)) }

/-- R85: LSR by n. -/
def lsrRes (x : Word) (n : Nat) : AluRes :=
  if n = 0 then resNZ x
  else { resNZ (x >>> n) with c := some (x.getLsbD (n - 1)) }

/-- R85: ASR by n. -/
def asrRes (x : Word) (n : Nat) : AluRes :=
  if n = 0 then resNZ x
  else { resNZ (x.sshiftRight n) with c := some (if 32 ≤ n then x.msb else x.getLsbD (n - 1)) }

/-- R85: ROR by n mod 32; C equals bit 31 of the result. -/
def rorRes (x : Word) (n : Nat) : AluRes :=
  if n % 32 = 0 then resNZ x
  else let v := x.rotateRight (n % 32); { resNZ v with c := some v.msb }

/-- MULH and MULHU (R83). -/
def mulhRes (x y : Word) : AluRes := resNZ (BitVec.ofInt 32 (x.toInt * y.toInt / 2 ^ 32))
def mulhuRes (x y : Word) : AluRes := resNZ (BitVec.ofNat 32 (x.toNat * y.toNat / 2 ^ 32))

/-- The one signed division that overflows (R86). -/
def divOverflow (x y : Word) : Bool := x = 0x80000000#32 && y = 0xFFFFFFFF#32

def divRes (x y : Word) : AluRes :=
  { resNZ (if divOverflow x y then 0x80000000#32 else BitVec.ofInt 32 (x.toInt.tdiv y.toInt)) with v := some (divOverflow x y) }

def divuRes (x y : Word) : AluRes := { resNZ (BitVec.ofNat 32 (x.toNat / y.toNat)) with v := some false }

def remRes (x y : Word) : AluRes :=
  { resNZ (if divOverflow x y then 0 else BitVec.ofInt 32 (x.toInt.tmod y.toInt)) with v := some (divOverflow x y) }

def remuRes (x y : Word) : AluRes := { resNZ (BitVec.ofNat 32 (x.toNat % y.toNat)) with v := some false }

/-- R88. -/
def condHolds (p : Word) : Cond → Bool
  | .eq => pswZ p
  | .ne => !pswZ p
  | .cs => pswC p
  | .cc => !pswC p
  | .mi => pswN p
  | .pl => !pswN p
  | .vs => pswV p
  | .vc => !pswV p
  | .hi => pswC p && !pswZ p
  | .ls => !pswC p || pswZ p
  | .ge => pswN p == pswV p
  | .lt => pswN p != pswV p
  | .gt => !pswZ p && (pswN p == pswV p)
  | .le => pswZ p || (pswN p != pswV p)
  | .al => true

end Sys2Proof.Machine
end

