-- ==== Sys2Proof/Machine/Operands.lean ====
section
/-! DEFINITION. Operand forms (R78, R79, R81): which registers an instruction reads and writes, and the effective addresses. -/
namespace Sys2Proof.Machine

/-- Destination, first operand x and second operand y of a register ALU form (R83): in the 16-bit form x is rd and y is rs. -/
def aluDest : AluForm → Reg
  | .r16 rd _ => rd
  | .r32 rd _ _ => rd

def aluX (m : Mach) : AluForm → Word
  | .r16 rd _ => m.reg rd
  | .r32 _ ra _ => m.reg ra

def aluY (m : Mach) : AluForm → Word
  | .r16 _ rs => m.reg rs
  | .r32 _ _ rb => m.reg rb

/-- Destination, value and count of a shift (R85). -/
def shiftDest : ShiftForm → Reg
  | .reg f => aluDest f
  | .imm _ rd => rd

def shiftX (m : Mach) : ShiftForm → Word
  | .reg f => aluX m f
  | .imm _ rd => m.reg rd

def shiftN (m : Mach) : ShiftForm → Nat
  | .reg f => (aluY m f).toNat % 256
  | .imm n _ => n.val

def rorDest : RorForm → Reg
  | .imm _ rd => rd
  | .x32 rd _ _ => rd

def rorX (m : Mach) : RorForm → Word
  | .imm _ rd => m.reg rd
  | .x32 _ ra _ => m.reg ra

def rorN (m : Mach) : RorForm → Nat
  | .imm n _ => n.val
  | .x32 _ _ rb => (m.reg rb).toNat % 32

def addImmDest : AddImm → Reg
  | .i8 rd _ => rd
  | .i16 rd _ _ => rd

def addImmX (m : Mach) : AddImm → Word
  | .i8 rd _ => m.reg rd
  | .i16 _ ra _ => m.reg ra

def addImmY : AddImm → Word
  | .i8 _ imm => imm.signExtend 32
  | .i16 _ _ imm => imm.signExtend 32

def cmpImmX (m : Mach) : CmpImm → Word
  | .i8 rd _ => m.reg rd
  | .i16 ra _ => m.reg ra

def cmpImmY : CmpImm → Word
  | .i8 _ imm => imm.signExtend 32
  | .i16 _ imm => imm.signExtend 32

/-- Effective address for an access of `size` bytes (R81). -/
def eaAddr (m : Mach) (size : Nat) : Ea → Word
  | .base16 rb off => m.reg rb + BitVec.ofNat 32 (size * off.toNat)
  | .stack16 off => m.reg spReg + BitVec.ofNat 32 (4 * off.toNat)
  | .disp32 ra imm => m.reg ra + imm.signExtend 32
  | .scaled ra rb => m.reg ra + BitVec.ofNat 32 size * m.reg rb
  | .postInc ra => m.reg ra
  | .preDec ra => m.reg ra - BitVec.ofNat 32 size
  | .postReg ra _ => m.reg ra

/-- The register write-back changes, with its new value (R81). -/
def eaBack (m : Mach) (size : Nat) : Ea → Option (Reg × Word)
  | .postInc ra => some (ra, m.reg ra + BitVec.ofNat 32 size)
  | .preDec ra => some (ra, m.reg ra - BitVec.ofNat 32 size)
  | .postReg ra rb => some (ra, m.reg ra + m.reg rb)
  | _ => none

def writeBack (m : Mach) (b : Option (Reg × Word)) : Mach :=
  match b with
  | some (r, v) => m.setReg r v
  | none => m

/-- The operand forms the tables admit (R80): the forms a load or store may not take give vector 1. `word` says that the operation
is LDW or STW, `kind16` that it has a 16-bit base form at all. -/
def eaOk (word base16 load : Bool) (rd : Reg) : Ea → Bool
  | .base16 _ off => word || (base16 && decide (off.toNat < 4))
  | .stack16 _ => word
  | .postInc ra => !(load && rd = ra)
  | .preDec ra => !(load && rd = ra)
  | .postReg ra _ => !(load && rd = ra)
  | _ => true

end Sys2Proof.Machine
end

