-- ==== Sys2Proof/Machine/Issue.lean ====
section
/-! DEFINITION. Issue, retirement and the boundary of one instruction (R72 to R77, R92, R116, R124), over the context state alone. -/
namespace Sys2Proof.Machine

/-- What an instruction does: environment, state, vc of issue, its own address and the following address. -/
abbrev Body := Env → Mach → Nat → Word → Word → Ret

/-- R73, R532: fetch checks of the halfwords of an instruction of `n` bytes. -/
def fetchCheck (e : Env) (m : Mach) (pc : Word) (n : Nat) : Except (Nat × Word) Unit :=
  match checkAccess e m .fetch pc.toNat 2 with
  | .error x => .error x
  | .ok _ =>
    if n = 2 then .ok ()
    else match checkAccess e m .fetch (pc + 2).toNat 2 with
      | .error x => .error x
      | .ok _ => .ok ()

/-- Retire to address `pc` at the boundary before vc `m.vc`; `traced` says that the instruction issued with T set (R116). What else R124 considers
at that boundary is considered when the next command comes to it. -/
def retireTo (e : Env) (m : Mach) (pc at_ : Word) (traced : Bool) : Mach :=
  let m := { m with cpu := { m.cpu with pc := pc, begun := false, blk := none, word := [], idle := none } }
  if traced then raiseExc e m { vec := 10, info := at_, pc := pc } m.vc else m

/-- Put the outcome of an instruction's work into the state. -/
def finish (e : Env) (m0 : Mach) (r : Ret) (nxt : Word) : Mach :=
  let m := { r.m with vc := m0.vc + r.cost }
  let traced := pswT m0.cpu.psw
  match r.next with
  | .seq => let l := loopCheck 4 m.cpu nxt; retireTo e { m with cpu := l.1 } l.2 m0.cpu.pc traced
  | .jump a => retireTo e m a m0.cpu.pc traced
  | .exc x => raiseExc e m x m.vc
  | .stay => m

/-- The outcome of an instruction's work acts in its last vc once every happening before it has acted (R74): a block instruction has seen to
that word by word, and work that only waits takes no effect. Until then the instruction has begun, with its first vc's checks passed and what it has
read kept, and the lane has come to that vc. -/
def conclude (e : Env) (m m0 : Mach) (r : Ret) (nxt : Word) : Mach :=
  if r.m.cpu.blk.isSome || r.next = .stay || decide (m.vc + r.cost - 1 < m.lim e.cfg) then finish e m0 r nxt
  else { m with reach := max m.reach (m.vc + r.cost - 1), fx := m0.fx, cpu := { m.cpu with begun := true, word := r.m.cpu.word } }

/-- The corrections of the fetch of the instruction of `n` bytes at `pc` (R496, R509). -/
def fetchFixes (e : Env) (m : Mach) (pc : Word) (n : Nat) : List Fx :=
  match accessLoc e m .fetch pc.toNat with
  | some l => fixes e m l n
  | none => []

/-- The work of the instruction at the PC: its fetch is checked in its first vc (R73, R532). -/
def issue (e : Env) (m : Mach) (len : Nat) (body : Body) : Mach :=
  let pc := m.cpu.pc
  let nxt := pc + BitVec.ofNat 32 len
  let m0 := { m with cpu := { m.cpu with afterRete := false, at12 := false } }
  if m.cpu.begun || m.cpu.blk.isSome || m.cpu.idle.isSome then conclude e m m0 (body e m0 m.vc pc nxt) nxt
  else match fetchCheck e m pc len with
  | .error x =>
    if x.1 = 12 && m.cpu.at12 then ({ m0 with vc := m.vc + 1 }.emit (.consumed (hbmAt e m x.2.toNat))).emit (.faulted true)
    else raiseExc e m0 { vec := x.1, kind := 2, info := x.2, pc := pc } (m.vc + 1)
  | .ok _ =>
    let m0 := { m0 with fx := m0.fx ++ fetchFixes e m pc len }
    conclude e m m0 (body e m0 m.vc pc nxt) nxt

/-- One command of the lane for an instruction of `len` bytes. An entry in progress goes on first. Nothing acts while a happening of the boundary's
vc, or of the vc in which the lane would act, is still to come (R3), nor where an interrupt is deliverable, which INTERRUPT_ENTRY takes. A comparator
match is entered in the instruction's place (R124). -/
def runCore (e : Env) (m : Mach) (len : Nat) (body : Body) : Mach :=
  if m.cpu.entry.isSome then goOn e m
  else if !m.settledTo e.cfg m.vc || (interruptNow m).isSome then m
  else if !m.cpu.begun && m.cpu.blk.isNone && m.cpu.idle.isNone && comparator m then raiseExc e m (comparatorExc m) m.vc
  else if m.lim e.cfg ≤ m.vc then m
  else issue e m len body

/-- An exception that costs the instruction `cost` vc and changes nothing. -/
def fail (m : Mach) (cost : Nat) (vec kind : Nat) (info pc : Word) : Ret := ⟨m, cost, .exc { vec := vec, kind := kind, info := info, pc := pc }⟩

/-- R80: an encoding that the tables do not assign, LOOP at LD = 3. -/
def illegal (m : Mach) (bits pc : Word) : Ret := fail m 1 1 3 bits pc

/-- An ALU operation that writes its destination. -/
def aluBody (cost : Nat) (rd : Reg) (f : Mach → AluRes) : Body := fun _ m _ _ _ =>
  let r := f m
  ⟨(m.setReg rd r.val).setPsw (r.psw m.cpu.psw), cost, .seq⟩

/-- An operation that writes flags alone (CMP, TST, CMPI). -/
def flagBody (f : Mach → AluRes) : Body := fun _ m _ _ _ => ⟨m.setPsw ((f m).psw m.cpu.psw), 1, .seq⟩

/-- Divisions take vector 8 on a zero divisor (R86). -/
def divBody (bits : Word) (rd ra rb : Reg) (f : Word → Word → AluRes) : Body := fun e m t pc nxt =>
  if m.reg rb = 0 then fail m 1 8 3 bits pc else aluBody 18 rd (fun m => f (m.reg ra) (m.reg rb)) e m t pc nxt

/-- Extension of a loaded value (R82). -/
inductive Ext where
  | zero | sign
  deriving DecidableEq, Repr

def extend (x : Ext) (n v : Nat) : Word :=
  match x with
  | .zero => BitVec.ofNat 32 v
  | .sign => BitVec.ofInt 32 (signedOf (8 * n) v)

/-- A load of `n` bytes, with write-back where the access succeeds (R81, R82): checked in its first vc, read in its second. -/
def loadBody (bits : Word) (x : Ext) (n : Nat) (ok : Bool) (rd : Reg) (ea : Ea) : Body := fun e m t pc _ =>
  if !ok then illegal m bits pc
  else if m.cpu.begun then
    let r := loadRaw e m (eaAddr m n ea).toNat n (t + 1)
    ⟨(writeBack r.2 (eaBack m n ea)).setReg rd (extend x n r.1), 2, .seq⟩
  else match loadAt e m (eaAddr m n ea).toNat n (t + 1) with
    | .error (v, i) => fail m 1 v 0 i pc
    | .ok (v, m') => ⟨(writeBack m' (eaBack m n ea)).setReg rd (extend x n v), 2, .seq⟩

/-- A store of `n` bytes (R81, R82). -/
def storeBody (bits : Word) (n : Nat) (ok : Bool) (rd : Reg) (ea : Ea) : Body := fun e m t pc _ =>
  if !ok then illegal m bits pc
  else match storeAt e m (eaAddr m n ea).toNat n (m.reg rd) t with
    | .error (v, i) => fail m 1 v 1 i pc
    | .ok m' => ⟨writeBack m' (eaBack m n ea), 1, .seq⟩

end Sys2Proof.Machine
end

