-- ==== Sys2Proof/Machine/Crypto.lean ====
section
/-! DEFINITION. The published algorithms that the spec names (R147, R287, R409, R411, R412, R417, R433): SHA-384 (FIPS 180-4), HMAC and HKDF
(RFC 2104, RFC 5869), AES-256 (FIPS 197), GCM (SP 800-38D), XTS (IEEE 1619), CTR_DRBG with the derivation function (SP 800-90A), P-384 (SP 800-186)
and ECDSA with deterministic k (RFC 6979). Each is written from its standard (PRESUMED, log entry 72). A digest, key, scalar or coordinate is the
number that its bytes spell, the first byte the least significant, but for coordinates, scalars and signatures, which are big-endian (R411). -/
namespace Sys2Proof.Machine

/-- `n` bytes of a number, most significant first. -/
def be (n x : Nat) : List Byte := (leBytes n x).reverse

/-- The number that big-endian bytes spell. -/
def beNat (bs : List Byte) : Nat := leNat bs.reverse

/-! ### SHA-384 -/

def sha512K : List Nat :=
  [
   0x428A2F98D728AE22, 0x7137449123EF65CD, 0xB5C0FBCFEC4D3B2F, 0xE9B5DBA58189DBBC,
   0x3956C25BF348B538, 0x59F111F1B605D019, 0x923F82A4AF194F9B, 0xAB1C5ED5DA6D8118,
   0xD807AA98A3030242, 0x12835B0145706FBE, 0x243185BE4EE4B28C, 0x550C7DC3D5FFB4E2,
   0x72BE5D74F27B896F, 0x80DEB1FE3B1696B1, 0x9BDC06A725C71235, 0xC19BF174CF692694,
   0xE49B69C19EF14AD2, 0xEFBE4786384F25E3, 0x0FC19DC68B8CD5B5, 0x240CA1CC77AC9C65]
  ++[
   0x2DE92C6F592B0275, 0x4A7484AA6EA6E483, 0x5CB0A9DCBD41FBD4, 0x76F988DA831153B5,
   0x983E5152EE66DFAB, 0xA831C66D2DB43210, 0xB00327C898FB213F, 0xBF597FC7BEEF0EE4,
   0xC6E00BF33DA88FC2, 0xD5A79147930AA725, 0x06CA6351E003826F, 0x142929670A0E6E70,
   0x27B70A8546D22FFC, 0x2E1B21385C26C926, 0x4D2C6DFC5AC42AED, 0x53380D139D95B3DF,
   0x650A73548BAF63DE, 0x766A0ABB3C77B2A8, 0x81C2C92E47EDAEE6, 0x92722C851482353B]
  ++[
   0xA2BFE8A14CF10364, 0xA81A664BBC423001, 0xC24B8B70D0F89791, 0xC76C51A30654BE30,
   0xD192E819D6EF5218, 0xD69906245565A910, 0xF40E35855771202A, 0x106AA07032BBD1B8,
   0x19A4C116B8D2D0C8, 0x1E376C085141AB53, 0x2748774CDF8EEB99, 0x34B0BCB5E19B48A8,
   0x391C0CB3C5C95A63, 0x4ED8AA4AE3418ACB, 0x5B9CCA4F7763E373, 0x682E6FF3D6B2B8A3,
   0x748F82EE5DEFB2FC, 0x78A5636F43172F60, 0x84C87814A1F0AB72, 0x8CC702081A6439EC]
  ++[
   0x90BEFFFA23631E28, 0xA4506CEBDE82BDE9, 0xBEF9A3F7B2C67915, 0xC67178F2E372532B,
   0xCA273ECEEA26619C, 0xD186B8C721C0C207, 0xEADA7DD6CDE0EB1E, 0xF57D4F7FEE6ED178,
   0x06F067AA72176FBA, 0x0A637DC5A2C898A6, 0x113F9804BEF90DAE, 0x1B710B35131C471B,
   0x28DB77F523047D84, 0x32CAAB7B40C72493, 0x3C9EBE0A15C9BEBC, 0x431D67C49C100D4C,
   0x4CC5D4BECB3E42B6, 0x597F299CFC657E2A, 0x5FCB6FAB3AD6FAEC, 0x6C44198C4A475817]

def sha384Iv : List Nat := [
   0xCBBB9D5DC1059ED8, 0x629A292A367CD507, 0x9159015A3070DD17, 0x152FECD8F70E5939,
   0x67332667FFC00B31, 0x8EB44A8768581511, 0xDB0C2E0D64F98FA7, 0x47B5481DBEFA4FA4]

def rotr64 (x n : Nat) : Nat := (x >>> n ||| x <<< (64 - n)) % 2 ^ 64

/-- One round: the eight working variables, the sixteen words of the schedule that come next. -/
def shaRound (r : List Nat × List Nat) (k : Nat) : List Nat × List Nat :=
  match r with
  | ([a, b, c, d, e, f, g, h], w :: ws) =>
    let t1 := (h + (rotr64 e 14 ^^^ rotr64 e 18 ^^^ rotr64 e 41) + (e &&& f ^^^ (2 ^ 64 - 1 - e) &&& g) + k + w) % 2 ^ 64
    let t2 := (rotr64 a 28 ^^^ rotr64 a 34 ^^^ rotr64 a 39) + (a &&& b ^^^ a &&& c ^^^ b &&& c)
    let x := ws.getD 0 0
    let y := ws.getD 13 0
    let next := (w + (rotr64 x 1 ^^^ rotr64 x 8 ^^^ x >>> 7) + ws.getD 8 0 + (rotr64 y 19 ^^^ rotr64 y 61 ^^^ y >>> 6)) % 2 ^ 64
    ([(t1 + t2) % 2 ^ 64, a, b, c, (d + t1) % 2 ^ 64, e, f, g], ws ++ [next])
  | _ => r

/-- `n`-byte pieces of a list, the last one as it is. -/
def pieces {α : Type} (n : Nat) : Nat → List α → List (List α)
  | 0, _ => []
  | k + 1, bs => if bs.isEmpty then [] else bs.take n :: pieces n k (bs.drop n)

def shaBlock (h : List Nat) (blk : List Byte) : List Nat :=
  let r := sha512K.foldl shaRound (h, (pieces 8 16 blk).map beNat)
  (h.zip r.1).map fun p => (p.1 + p.2) % 2 ^ 64

/-- The message with its padding. -/
def shaPad (bs : List Byte) : List Byte :=
  bs ++ [0x80] ++ List.replicate ((239 - bs.length % 128) % 128) 0 ++ be 16 (8 * bs.length)

/-- SHA-384: 48 bytes. -/
@[irreducible] def sha384Bytes (bs : List Byte) : List Byte :=
  let p := shaPad bs
  (((pieces 128 p.length p).foldl shaBlock sha384Iv).take 6).flatMap (be 8)

/-- SHA-384 as a number. -/
@[irreducible] def sha384 (bs : List Byte) : Nat := leNat (sha384Bytes bs)

/-! ### HMAC and HKDF -/

/-- HMAC-SHA-384. -/
@[irreducible] def hmac (key msg : List Byte) : List Byte :=
  let k := if 128 < key.length then sha384Bytes key else key
  let k := k ++ List.replicate (128 - k.length) 0
  sha384Bytes (k.map (· ^^^ 0x5C) ++ sha384Bytes (k.map (· ^^^ 0x36) ++ msg))

/-- HKDF expansion: `n` more blocks after T(i) = `t`. -/
def hkdfBlocks (prk info : List Byte) : Nat → Nat → List Byte → List Byte
  | 0, _, _ => []
  | n + 1, i, t =>
    let u := hmac prk (t ++ info ++ [BitVec.ofNat 8 i])
    u ++ hkdfBlocks prk info n (i + 1) u

/-- HKDF with SHA-384: `len` bytes. No salt is 48 zero bytes. -/
@[irreducible] def hkdf (salt ikm info : List Byte) (len : Nat) : List Byte :=
  let prk := hmac (if salt.isEmpty then List.replicate 48 0 else salt) ikm
  (hkdfBlocks prk info ((len + 47) / 48) 1 []).take len

/-! ### AES-256 -/

/-- The S-box, byte i being its value at i. -/
def aesSbox : Nat :=
  0xC072A49CAFA2D4ADF04759FA7DC982CA76ABD7FE2B670130C56F6BF27B777C63 |||
    0x75B227EBE28012079A059618C323C7041531D871F1E5A534CCF73F362693FDB7 <<< 256 |||
    0xCF584C4A39BECB6A5BB1FC20ED00D153842FE329B3D63B52A05A6E1B1A2C8309 <<< 512 |||
    0xD2F3FF1021DAB6BCF5389D928F40A351A89F3C507F02F94585334D43FBAAEFD0 <<< 768 |||
    0xDB0B5EDE14B8EE4688902A22DC4F816073195D643D7EA7C41744975FEC130CCD <<< 1024 |||
    0x08AE7A65EAF4566CA94ED58D6D37C8E779E4959162ACD3C25C2406490A3A32E0 <<< 1280 |||
    0x9E1DC186B95735610EF6034866B53E708A8BBD4B1F74DDE8C6B4A61C2E2578BA <<< 1536 |||
    0x16BB54B00F2D99416842E6BF0D89A18CDF2855CEE9871E9B948ED9691198F8E1 <<< 1792

def subByte (b : Nat) : Nat := aesSbox >>> (8 * b) % 256

/-- Multiplication by x in GF(2^8). -/
def xtime (b : Nat) : Nat := 2 * b ^^^ (if 128 ≤ b then 0x11B else 0)

def xorBytes (a b : List Byte) : List Byte := List.zipWith (· ^^^ ·) a b
def xorNats (a b : List Nat) : List Nat := List.zipWith (· ^^^ ·) a b

/-- Key expansion: the next `n` words after the eight of `w`, round constant `rc`. -/
def aesWords : Nat → Nat → Nat → List (List Nat) → List (List Nat)
  | 0, _, _, _ => []
  | n + 1, i, rc, w =>
    let t := w.getLastD []
    let t := if i % 8 = 0 then xorNats ((t.drop 1 ++ t.take 1).map subByte) [rc, 0, 0, 0] else if i % 8 = 4 then t.map subByte else t
    let u := xorNats (w.headD []) t
    u :: aesWords n (i + 1) (if i % 8 = 0 then xtime rc else rc) (w.drop 1 ++ [u])

/-- The fifteen round keys of 16 bytes. -/
def aesKeys (key : List Byte) : List (List Nat) :=
  let w := pieces 4 8 (key.map fun b => b.toNat)
  pieces 16 15 (w ++ aesWords 52 8 1 w).flatten

/-- SubBytes and ShiftRows: byte r of column c comes from column c + r. -/
def subShift (s : List Nat) : List Nat :=
  (List.range 16).map fun i => subByte (s.getD ((i + i % 4 * 4) % 16) 0)

def mixColumn : List Nat → List Nat
  | [a, b, c, d] =>
    let t := a ^^^ b ^^^ c ^^^ d
    [a ^^^ t ^^^ xtime (a ^^^ b), b ^^^ t ^^^ xtime (b ^^^ c), c ^^^ t ^^^ xtime (c ^^^ d), d ^^^ t ^^^ xtime (d ^^^ a)]
  | l => l

/-- AES-256 of one block under expanded keys. -/
def aesRounds : List (List Nat) → List Nat → List Nat
  | [], s => s
  | [k], s => xorNats (subShift s) k
  | k :: ks, s => aesRounds ks (xorNats ((pieces 4 4 (subShift s)).flatMap mixColumn) k)

def aesWith (ks : List (List Nat)) (blk : List Byte) : List Byte :=
  match ks with
  | k :: ks => (aesRounds ks (xorNats (blk.map fun b => b.toNat) k)).map (BitVec.ofNat 8)
  | [] => blk

@[irreducible] def aes (key blk : List Byte) : List Byte := aesWith (aesKeys key) blk

/-! ### GCM -/

/-- Multiplication in GF(2^128), the most significant bit of a big-endian block being the coefficient of 1. -/
def gmul (x y : Nat) : Nat :=
  ((List.range 128).foldl (fun (r : Nat × Nat) i =>
    (if x.testBit (127 - i) then r.1 ^^^ r.2 else r.1, r.2 >>> 1 ^^^ (if r.2 % 2 = 1 then 0xE1 <<< 120 else 0))) (0, y)).1

/-- GHASH of whole blocks. -/
def ghash (h : Nat) (bs : List Byte) : Nat := (pieces 16 bs.length bs).foldl (fun y b => gmul (y ^^^ beNat b) h) 0

def padded (bs : List Byte) : List Byte := bs ++ List.replicate ((16 - bs.length % 16) % 16) 0

/-- Counter mode: the keystream from counter block `iv` ‖ `c` on, over the pieces of the text. -/
def gctr (ks : List (List Nat)) (iv : List Byte) : Nat → List (List Byte) → List Byte
  | _, [] => []
  | c, b :: bs => xorBytes b (aesWith ks (iv ++ be 4 c)) ++ gctr ks iv (c + 1) bs

@[irreducible] def gctrText (key iv bs : List Byte) : List Byte := gctr (aesKeys key) iv 2 (pieces 16 bs.length bs)

/-- The tag of a ciphertext under a 96-bit IV. -/
@[irreducible] def gcmTag (key iv aad ct : List Byte) : List Byte :=
  let ks := aesKeys key
  let h := beNat (aesWith ks (List.replicate 16 0))
  xorBytes (be 16 (ghash h (padded aad ++ padded ct ++ be 8 (8 * aad.length) ++ be 8 (8 * ct.length)))) (aesWith ks (iv ++ be 4 1))

/-- AES-256-GCM: ciphertext, then the 16-byte tag. -/
@[irreducible] def gcmSeal (key iv aad pt : List Byte) : List Byte :=
  let ct := gctrText key iv pt
  ct ++ gcmTag key iv aad ct

/-- The plaintext of a ciphertext, whatever its tag, and whether its tag verifies. -/
@[irreducible] def gcmOpen (key iv aad ct tag : List Byte) : List Byte × Bool := (gctrText key iv ct, gcmTag key iv aad ct = tag)

/-! ### XTS -/

/-- Multiplication by α of a little-endian 128-bit tweak. -/
def xtsAlpha (t : Nat) : Nat := (2 * t) % 2 ^ 128 ^^^ (if t.testBit 127 then 0x87 else 0)

/-- XTS-AES-256 encryption of whole blocks under a 512-bit key and a unit number. -/
@[irreducible] def xts (key : List Byte) (unit : Nat) (bs : List Byte) : List Byte :=
  let k1 := aesKeys (key.take 32)
  let step (r : List Byte × Nat) (b : List Byte) : List Byte × Nat :=
    (r.1 ++ xorBytes (aesWith k1 (xorBytes b (leBytes 16 r.2))) (leBytes 16 r.2), xtsAlpha r.2)
  ((pieces 16 bs.length bs).foldl step ([], leNat (aes (key.drop 32) (leBytes 16 unit)))).1

/-! ### CTR_DRBG -/

/-- The working state: Key and V. -/
abbrev DrbgState := List Byte × Nat

/-- `n` output blocks after V. -/
def drbgBlocks (ks : List (List Nat)) : Nat → Nat → List Byte
  | 0, _ => []
  | n + 1, v => aesWith ks (be 16 ((v + 1) % 2 ^ 128)) ++ drbgBlocks ks n (v + 1)

/-- CTR_DRBG_Update with 48 bytes. -/
def drbgUpdate (data : List Byte) (d : DrbgState) : DrbgState :=
  let t := xorBytes (drbgBlocks (aesKeys d.1) 3 d.2) data
  (t.take 32, beNat (t.drop 32))

/-- BCC over whole blocks. -/
def bcc (ks : List (List Nat)) (bs : List Byte) : List Byte :=
  (pieces 16 bs.length bs).foldl (fun c b => aesWith ks (xorBytes c b)) (List.replicate 16 0)

/-- `n` blocks of the derivation function's output. -/
def dfOut (ks : List (List Nat)) : Nat → List Byte → List Byte
  | 0, _ => []
  | n + 1, x => let y := aesWith ks x; y ++ dfOut ks n y

/-- Block_Cipher_df to 48 bytes. -/
def drbgDf (input : List Byte) : List Byte :=
  let s := padded (be 4 input.length ++ be 4 48 ++ input ++ [0x80])
  let ks := aesKeys ((List.range 32).map (BitVec.ofNat 8))
  let t := (List.range 3).flatMap fun i => bcc ks (be 4 i ++ List.replicate 12 0 ++ s)
  dfOut (aesKeys (t.take 32)) 3 (t.drop 32)

/-- Instantiation from the entropy input and the personalisation string, with no nonce. -/
@[irreducible] def drbgInit (entropy person : List Byte) : DrbgState := drbgUpdate (drbgDf (entropy ++ person)) (List.replicate 32 0, 0)

/-- One generate request of `n` bytes, at most 16, without additional input. -/
@[irreducible] def drbgGen (n : Nat) (d : DrbgState) : List Byte × DrbgState :=
  let out := drbgBlocks (aesKeys d.1) 1 d.2
  (out.take n, drbgUpdate (List.replicate 48 0) (d.1, (d.2 + 1) % 2 ^ 128))

/-! ### P-384 -/

def p384 : Nat := 2 ^ 384 - 2 ^ 128 - 2 ^ 96 + 2 ^ 32 - 1
def p384n : Nat := 0xFFFFFFFFFFFFFFFFFFFFFFFFFFFFFFFFFFFFFFFFFFFFFFFFC7634D81F4372DDF581A0DB248B0A77AECEC196ACCC52973
def p384b : Nat := 0xB3312FA7E23EE7E4988E056BE3F82D19181D9C6EFE8141120314088F5013875AC656398D8A2ED19D2A85C8EDD3EC2AEF
def p384gx : Nat := 0xAA87CA22BE8B05378EB1C71EF320AD746E1D3B628BA79B9859F741E082542A385502F25DBF55296C3A545E3872760AB7
def p384gy : Nat := 0x3617DE4A96262C6F5D9E98BF9292DC29F8F41DBD289A147CE9DA3113B5F0B8C00A60B1CE1D7E819D7A431D7C90EA0E5F

/-- Square and multiply over the bits of an exponent of 384 bits. -/
def powMod (m b e : Nat) : Nat := (List.range 384).foldl (fun r i => (if e.testBit (383 - i) then r * r % m * b else r * r) % m) 1

/-- The inverse modulo a prime. -/
def invMod (m a : Nat) : Nat := powMod m a (m - 2)

/-- A point in Jacobian coordinates; Z = 0 is the point at infinity. -/
abbrev JPoint := Nat × Nat × Nat

def subP (a b : Nat) : Nat := (a + (p384 - b % p384)) % p384

def jDouble (q : JPoint) : JPoint :=
  let (x, y, z) := q
  let d := z * z % p384
  let g := y * y % p384
  let b := x * g % p384
  let a := 3 * (subP x d) * (x + d) % p384
  let x3 := subP (a * a % p384) (8 * b)
  (x3, subP (a * subP (4 * b) x3) (8 * g * g), 2 * y * z % p384)

def jAdd (q r : JPoint) : JPoint :=
  let (x1, y1, z1) := q
  let (x2, y2, z2) := r
  if z1 = 0 then r else if z2 = 0 then q
  else
    let z11 := z1 * z1 % p384
    let z22 := z2 * z2 % p384
    let u1 := x1 * z22 % p384
    let u2 := x2 * z11 % p384
    let s1 := y1 * z2 * z22 % p384
    let s2 := y2 * z1 * z11 % p384
    if u1 = u2 then (if s1 = s2 then jDouble q else (1, 1, 0))
    else
      let h := subP u2 u1
      let i := 4 * h * h % p384
      let j := h * i % p384
      let w := 2 * subP s2 s1 % p384
      let v := u1 * i % p384
      let x3 := subP (subP (w * w) j) (2 * v)
      (x3, subP (w * subP v x3) (2 * s1 * j), 2 * z1 * z2 * h % p384)

/-- k times a point. -/
def jMul (k : Nat) (q : JPoint) : JPoint :=
  (List.range 384).foldl (fun r i => let d := jDouble r; if k.testBit (383 - i) then jAdd d q else d) (1, 1, 0)

/-- Affine coordinates; (0, 0) for the point at infinity. -/
def affine (q : JPoint) : Nat × Nat :=
  let i := invMod p384 q.2.2
  let i2 := i * i % p384
  (q.1 * i2 % p384, q.2.1 * i2 * i % p384)

/-- The uncompressed form of a public key, 97 bytes, and its point where it lies on the curve. -/
def pubBytes (q : Nat × Nat) : List Byte := 0x04 :: be 48 q.1 ++ be 48 q.2

@[irreducible] def pubPoint (bs : List Byte) : Option (Nat × Nat) :=
  let x := beNat ((bs.drop 1).take 48)
  let y := beNat ((bs.drop 49).take 48)
  let on := decide (y * y % p384 = (x * x * x + p384b + (p384 - 3) * x) % p384)
  if bs.length = 97 && bs.head? = some 0x04 && decide (x < p384) && decide (y < p384) && on then some (x, y) else none

/-- The public key of a private scalar. -/
@[irreducible] def pubOf (d : Nat) : List Byte := pubBytes (affine (jMul d (p384gx, p384gy, 1)))

/-- The 48-byte X coordinate of the ECDH product. -/
@[irreducible] def ecdh (d : Nat) (pub : Nat × Nat) : List Byte := be 48 (affine (jMul d (pub.1, pub.2, 1))).1

/-! ### ECDSA -/

/-- RFC 6979 with SHA-384: the first candidate in [1, n - 1], within `fuel` tries. -/
def rfcK : Nat → List Byte → List Byte → Nat
  | 0, _, _ => 1
  | n + 1, k, v =>
    let v := hmac k v
    let t := beNat v
    if 0 < t ∧ t < p384n then t
    else
      let k := hmac k (v ++ [0])
      rfcK n k (hmac k v)

def detK (d : Nat) (h : List Byte) : Nat :=
  let seed := be 48 d ++ be 48 (beNat h % p384n)
  let v := List.replicate 48 0x01
  let k := hmac (List.replicate 48 0) (v ++ [0] ++ seed)
  let v := hmac k v
  let k := hmac k (v ++ [1] ++ seed)
  rfcK 8 k (hmac k v)

/-- r ‖ s over the SHA-384 of the message, 96 bytes. -/
@[irreducible] def ecdsaSign (d : Nat) (msg : List Byte) : List Byte :=
  let h := sha384Bytes msg
  let k := detK d h
  let r := (affine (jMul k (p384gx, p384gy, 1))).1 % p384n
  let s := invMod p384n k * (beNat h + r * d) % p384n
  be 48 r ++ be 48 s

/-- The signature verifies under the public key. -/
@[irreducible] def ecdsaVerify (pub : List Byte) (msg sig : List Byte) : Bool :=
  let r := beNat (sig.take 48)
  let s := beNat (sig.drop 48)
  match pubPoint pub with
  | none => false
  | some q =>
    if r = 0 ∨ s = 0 ∨ p384n ≤ r ∨ p384n ≤ s ∨ sig.length ≠ 96 then false
    else
      let w := invMod p384n s
      let a := jAdd (jMul (beNat (sha384Bytes msg) * w % p384n) (p384gx, p384gy, 1)) (jMul (r * w % p384n) (q.1, q.2, 1))
      a.2.2 ≠ 0 && (affine a).1 % p384n = r

end Sys2Proof.Machine
end

