-- ==== Sys2Proof/Machine/Keys.lean ====
section
/-! DEFINITION. The device's keys and identity (R408 to R412, R447), and what arrives sealed: key envelopes (R417 to R419), sealed images (R414,
R415), inbound messages (R421), certificates and tickets (R411, R424, R426) and export objects (R427, R428). -/
namespace Sys2Proof.Machine

/-! ### Bytes -/

/-- Bytes of a number of `n` bytes (R7). -/
abbrev le (n x : Nat) : List Byte := leBytes n x

def zeros (n : Nat) : List Byte := List.replicate n 0

/-- Bytes padded with zeros, or cut, to `n`. -/
def fit (n : Nat) (bs : List Byte) : List Byte := (bs ++ zeros n).take n

/-- The number of a 48-byte digest as its bytes, the least significant first (DESIGN CHOICE, log entry 8: digests are numbers). -/
def digest (x : Nat) : List Byte := le 48 x

/-- `n` bytes of a list from `off` on, and the number they spell. -/
def bytesAt (bs : List Byte) (off n : Nat) : List Byte := (bs.drop off).take n
def numAt (bs : List Byte) (off n : Nat) : Nat := leNat (bytesAt bs off n)

/-! ### Derivation (R409, R410, R447) -/

/-- An info string that begins "LV8K-". -/
def lv8k (rest : List Byte) : List Byte := [0x4C, 0x56, 0x38, 0x4B, 0x2D] ++ rest

def Ident.derive (i : Ident) (info : List Byte) (n : Nat) : List Byte := hkdf [] (le 32 i.dus) info n

/-- A private scalar from 56 output bytes. -/
def scalarOf (c : List Byte) : Nat := beNat c % (p384n - 1) + 1

/-- DIK, DXK and FWK: private scalars; DDK: 64 bytes (R408, R409). -/
def Ident.dik (i : Ident) : Nat := scalarOf (i.derive (lv8k [0x44, 0x49, 0x4B]) 56)
def Ident.dxk (i : Ident) : Nat := scalarOf (i.derive (lv8k [0x44, 0x58, 0x4B]) 56)
def Ident.fwk (i : Ident) : Nat := scalarOf (i.derive (lv8k ([0x46, 0x57, 0x4B] ++ digest i.fwmeas ++ le 4 i.fwsvn)) 56)
def Ident.ddk (i : Ident) : List Byte := i.derive (lv8k [0x44, 0x44, 0x4B]) 64

/-- The MAC stored with a half of the chip tag (R447). R409 gives its key no length; 48 bytes (DESIGN CHOICE, log entry 72). -/
def Ident.tagMac (i : Ident) (half : List Byte) : List Byte := hmac (i.derive (lv8k [0x54, 0x41, 0x47]) 48) half

/-- A half of the chip tag with its MAC (R447). -/
def Ident.tagWith (i : Ident) (bytes : List Byte) : TagHalf := { bytes := bytes, mac := i.tagMac bytes }

/-- The half holds the erased state of the flash (R447). -/
def TagHalf.erased (t : TagHalf) : Bool := t.bytes.all (fun b => b = 0xFF) && t.mac.all fun b => b = 0xFF

/-- The half as read: zeros where it was never written or its MAC has failed (R447). -/
def TagHalf.read (t : TagHalf) : List Byte := if t.bad || t.erased then zeros 256 else t.bytes

/-- DEVID and FWKID (R410, R422). -/
def Ident.devid (i : Ident) : Nat := sha384 (pubOf i.dik)
def Ident.fwkid (i : Ident) : Nat := sha384 (pubOf i.fwk)

/-- A signature as the number of its 96 bytes (R411). -/
def signBy (d : Nat) (msg : List Byte) : Nat := leNat (ecdsaSign d msg)

/-! ### Encryption of HBM (R412) -/

/-- What a 64-byte unit of HBM holds: data of a context, a loaded image, or data of the device. -/
inductive HbmOwner where
  | ctx (num : Nat)
  | image (hash : Nat)
  | device
  deriving DecidableEq, Repr

/-- The memory key of a unit, none once it is destroyed. -/
def hbmKey (s : State) : HbmOwner → Option (List Byte)
  | .ctx c => (s.ctx? c).map fun x => le 64 x.memKey
  | .image h => (s.images.find? fun i => i.hash = h).map fun i => le 64 i.memKey
  | .device => some s.ident.ddk

/-- The unit as HBM holds it: its device physical address divided by 64 is the tweak. -/
def hbmUnit (s : State) (o : HbmOwner) (addr : Nat) (plain : List Byte) : Option (List Byte) := (hbmKey s o).map fun k => xts k (addr / 64) plain

/-! ### Key envelopes (R417, R418) -/

/-- The wrapping key under a private exchange key: Z by ECDH with EPUB, then HKDF; none where EPUB is no point of the curve. -/
def wrapKey (d : Nat) (epub info : List Byte) : Option (List Byte) := (pubPoint epub).map fun q => hkdf epub (ecdh d q) info 32

/-- Plaintext and verdict of what is sealed under a key that may be absent. -/
def openSealed (key : Option (List Byte)) (iv : List Byte) (e : Sealed) : List Byte × Bool :=
  match key with
  | some k => gcmOpen k iv e.head e.ct e.tag
  | none => ([], false)

/-- Plaintext and verdict of a key envelope of a kind. -/
def openEnv (i : Ident) (kind : Byte) (e : Sealed) : List Byte × Bool :=
  openSealed (wrapKey i.dxk (bytesAt e.head 56 97) (lv8k [0x4B, 0x45] ++ [kind])) (bytesAt e.head 156 12) e

def sealedLen (e : Sealed) : Nat := e.head.length + e.ct.length + e.tag.length

/-- MAGIC "LVKE", VER and KIND of an envelope (R417; DESIGN CHOICE, log entry 72: a wrong KIND fails as a wrong VER does). -/
def envFormat (kind : Byte) (e : Sealed) : Bool := e.head.take 4 = [0x4C, 0x56, 0x4B, 0x45] && bytesAt e.head 4 2 = [0x01, kind]

/-- An image-key envelope as the device finds it (R417 to R419). -/
def imgEnvOf (i : Ident) (e : Sealed) : ImgEnv :=
  let p := openEnv i 0x01 e
  { formatOk := envFormat 0x01 e, lenOk := numAt e.head 6 2 = sealedLen e && e.ct.length = 128, tdevOk := numAt e.head 8 48 = i.devid, tagOk := p.2
    imgHash := numAt p.1 0 48, key := numAt p.1 48 32, seed := numAt p.1 80 48 }

/-- A queue-key envelope as the device finds it; a payload that does not hold one key for each QMASK bit fails as LEN does (DESIGN CHOICE, log
entry 72). -/
def keyEnvOf (i : Ident) (e : Sealed) : KeyEnv :=
  let p := openEnv i 0x02 e
  let mask := numAt p.1 112 2
  let n := ((List.range 16).filter fun q => bitOf mask q).length
  { formatOk := envFormat 0x02 e, lenOk := numAt e.head 6 2 = sealedLen e && (!p.2 || e.ct.length = 120 + 32 * n), tdevOk := numAt e.head 8 48 = i.devid
    tagOk := p.2, imgHash := numAt p.1 0 48, tag := numAt p.1 48 64, qmask := BitVec.ofNat 16 mask, sid := BitVec.ofNat 32 (numAt p.1 116 4)
    keys := (List.range n).map fun k => numAt p.1 (120 + 32 * k) 32 }

/-! ### Sealed images (R414, R415) -/

/-- A sealed image opened with an image key. -/
def sealedImgOf (key : Nat) (e : Sealed) : SealedImg :=
  let p := gcmOpen (le 32 key) (bytesAt e.head 16 12) e.head e.ct e.tag
  let z (off n : Nat) : Bool := (bytesAt e.head off n).all fun b => b = 0
  { magicOk := e.head.take 4 = [0x4C, 0x56, 0x53, 0x49], ver := e.head.getD 4 0, rsvdOk := z 5 3 && z 12 4 && z 28 4, imgLen := numAt e.head 8 4
    bulkLen := sealedLen e, tagOk := p.2, hash := sha384 p.1, bytes := p.1 }

/-! ### Inbound messages (R421) -/

/-- An input record of 16 bytes (R50). -/
def inRecOf (b : List Byte) : InRec :=
  { target := BitVec.ofNat 32 (numAt b 0 4), port := b.getD 4 0, kind := b.getD 5 0, btn := BitVec.ofNat 32 (numAt b 8 4)
    ax0 := BitVec.ofNat 16 (numAt b 12 2), ax1 := BitVec.ofNat 16 (numAt b 14 2) }

/-- The plaintext of a message of queue `q`. -/
def bodyOf (q : Nat) (p : List Byte) : InBody :=
  if q = 1 then .input ((pieces 16 (p.length / 16) p).map inRecOf)
  else if q = 7 then .debug (p.getD 0 0) ((p.drop 1).all fun b => b = 0)
  else .side (BitVec.ofNat 32 (numAt p 0 4)) ((bytesAt p 4 4).all fun b => b = 0) (p.drop 8)

/-- A message of queue `q` under its key: the nonce has 0x01 in byte 5 (R421). -/
def inMsgOf (key : Option Nat) (q : Nat) (e : Sealed) (hostErr : Bool) : InMsg :=
  let sid := bytesAt e.head 6 4
  let ctr := bytesAt e.head 10 6
  let p := openSealed (key.map (le 32)) (sid ++ [BitVec.ofNat 8 q, 0x01] ++ ctr.reverse) e
  { mlen := numAt e.head 0 4, queue := (e.head.getD 4 0).toNat, ver := e.head.getD 5 0, sid := BitVec.ofNat 32 (leNat sid), ctr := leNat ctr
    tagOk := p.2, hostErr := hostErr, body := bodyOf q p.1 }

/-! ### Certificates, tickets and export objects (R411, R424 to R428) -/

/-- The signature of a compact certificate verifies under a public key. -/
def certSigned (pub cert : List Byte) : Bool := cert.length = 304 && ecdsaVerify pub (cert.take 208) (cert.drop 208)

/-- KIND and VER of a compact certificate, and the device that it certifies. -/
def certIs (kind : Byte) (devid : Nat) (cert : List Byte) : Bool := cert.take 2 = [kind, 0x01] && numAt cert 8 48 = devid

/-- PUB of a compact certificate. -/
def certPub (cert : List Byte) : List Byte := bytesAt cert 56 97

/-- All parameters of CHIP.ENROL are zero (R424). -/
def enrolZero (p : EnrolP) : Bool := p.domain = 0 && p.chipNo = 0 && (p.dpub ++ p.cert).all fun b => b = 0

/-- DEVID, CHIPNO and DOMAIN of the membership certificate are this device's and the parameters' (R424). -/
def enrolMatch (p : EnrolP) (i : Ident) : Bool :=
  certIs 0x12 i.devid p.cert && numAt p.cert 2 2 = p.chipNo.toNat && numAt p.cert 156 16 = p.domain

/-- It verifies under the domain key. -/
def enrolSigned (p : EnrolP) : Bool := certSigned p.dpub p.cert

/-- The target of an export: DEVID by its device certificate's key, FWSVN, the ticket's nonce, the DXK public key (R426, R427). -/
def targetDevid (p : ExportP) : Nat := sha384 p.tdik
def targetSvn (p : ExportP) : Nat := numAt p.fwk 4 4
def ticketNonce (p : ExportP) : Nat := numAt p.ticket 56 48
def targetDxk (p : ExportP) : List Byte := certPub p.dxk

/-- The DXK and FWK certificates verify under the target DIK and name its DEVID (R426). -/
def targetCerts (p : ExportP) : Bool :=
  certIs 0x11 (targetDevid p) p.dxk && certIs 0x10 (targetDevid p) p.fwk && certSigned p.tdik p.dxk && certSigned p.tdik p.fwk

/-- The membership certificate verifies under the source's domain key and names its DOMAIN (R426). -/
def memberSigned (p : ExportP) (i : Ident) : Bool :=
  p.member.take 2 = [0x12, 0x01] && numAt p.member 156 16 = i.domain && certSigned (le 97 i.domKey) p.member

/-- The ticket verifies under the target FWK and names the same DEVID and DOMAIN (R425, R426). -/
def ticketSigned (p : ExportP) (i : Ident) : Bool :=
  p.ticket.length = 224 && p.ticket.take 2 = [0x13, 0x01] && numAt p.ticket 8 48 = targetDevid p && numAt p.ticket 104 16 = i.domain
    && ecdsaVerify (certPub p.fwk) (p.ticket.take 128) (p.ticket.drop 128)

/-- The key of an export object under a private or the matching public exchange key (R427). -/
def exportInfo : List Byte := lv8k [0x43, 0x58]

/-- MAGIC "LVCX" and VER; TDEVID; the nonce of the ticket (R427, R428). -/
def objFormat (p : ImportP) : Bool := p.obj.head.take 4 = [0x4C, 0x56, 0x43, 0x58] && p.obj.head.getD 4 0 = 0x01
def objTdevid (p : ImportP) : Nat := numAt p.obj.head 64 48
def objTnonce (p : ImportP) : Nat := numAt p.obj.head 112 48

/-- SIG verifies under the FWK of the chain that came with the command, which names SDEVID (R428). -/
def objSigned (p : ImportP) : Bool :=
  (p.sdik.any fun k => numAt p.obj.head 16 48 = sha384 k && certIs 0x10 (sha384 k) p.sfwk && certSigned k p.sfwk)
    && ecdsaVerify (certPub p.sfwk) (p.obj.head ++ p.obj.ct ++ p.obj.tag) p.sig

/-- Plaintext and verdict of an export object on its target. -/
def openObj (p : ImportP) (i : Ident) : List Byte × Bool :=
  openSealed (wrapKey i.dxk (bytesAt p.obj.head 176 97) exportInfo) (bytesAt p.obj.head 276 12) p.obj

end Sys2Proof.Machine
end

