-- ==== Sys2Proof/Machine/Audit.lean ====
section
/-! DEFINITION. Events (R397 to R401, R468), the Almanac (R434, R435), meters and statements (R439 to R445), and device time (R437). -/
namespace Sys2Proof.Machine

/-! ### Functions and time -/

/-- Device time as records carry it: 0 when not set (R434). -/
def State.timeNow (s : State) : Nat := s.audit.time.getD 0

/-- The functions that exist: port B only on a bifurcated link (R376). -/
def State.ports (s : State) : List Nat := if s.gpio.bifurc then [0, 1] else [0]

def State.func (s : State) (p : Nat) : Func := s.funcs[p % 2]

def State.setFunc (s : State) (p : Nat) (f : Func) : State := { s with funcs := s.funcs.set (p % 2) f (Nat.mod_lt _ (by decide)) }

/-- A field of the vote store is written: all three copies of its words are as written again (R507). -/
def State.storeVote (s : State) (f : VoteField) : State := { s with votes := s.votes.filter fun v => !decide (v.1.field = f) }

/-- Every clock runs: neither Frost nor a thermal trip has stopped those of the fabric, the engines and HBM (R480, R488). -/
def State.clocked (s : State) : Bool := !s.power.frost && !s.gpio.thermtrip

/-- A context of a device whose clocks run. -/
def State.liveCtx? (s : State) (c : Nat) : Option Ctx := if s.clocked then s.ctx? c else none

/-! ### Events and MSI-X (R397, R400, R401) -/

def evBit (e : Nat) : BitVec 256 := BitVec.ofNat 256 (2 ^ e)

/-- Send the message of vector `e`, or note it in the PBA while the vector is masked, MSI-X is off, Bus Master Enable is 0 or the function is in D3hot
(R376, R397). -/
def signal (s : State) (p e : Nat) : State :=
  let f := s.func p
  if f.mask.getLsbD e || !f.busMaster || !f.msixEn || f.d3hot then s.setFunc p { f with pba := f.pba ||| evBit e }
  else { s with wire := s.wire ++ [.msix p e] }

/-- Vector `e` is no longer held back: a pending one is signalled if its H_EVPEND bit is still 1 (R397). -/
def unhold (s : State) (p e : Nat) : State :=
  let f := s.func p
  if f.pba.getLsbD e && !f.mask.getLsbD e && f.busMaster && f.msixEn && !f.d3hot then
    let s := s.setFunc p { f with pba := f.pba &&& ~~~ evBit e }
    if f.evpend.getLsbD e then signal s p e else s
  else s

/-- Every vector is looked at after a condition of the whole function has ended (R397). -/
def unholdAll (s : State) (p : Nat) : State := (List.range 256).foldl (fun s e => unhold s p e) s

/-- Source `e` becomes pending on the function of port `p`; an occurrence while the bit is 1 merges (R397). -/
def setEvent (s : State) (p e : Nat) : State :=
  let f := s.func p
  if f.evpend.getLsbD e then s else signal (s.setFunc p { f with evpend := f.evpend ||| evBit e }) p e

/-- Every occurrence enters the chip-wide log of the latest 4,096 (R468). -/
def logEvent (s : State) (e unit fn : Nat) : State :=
  let l := s.audit.events ++ [⟨s.audit.uptime, e, unit, fn⟩]
  { s with audit := { s.audit with events := l.drop (l.length - 4096), evSeq := s.audit.evSeq + 1 } }

/-- An event routed to every function (R401). -/
def raiseAll (s : State) (e unit : Nat) : State := s.ports.foldl (fun s p => setEvent s p e) (logEvent s e unit 0xFF)

/-- An event routed to the function of one port (R401). -/
def raiseOn (s : State) (p e unit : Nat) : State := setEvent (logEvent s e unit p) p e

/-- An event of a context, on the function of its port (R401). -/
def raiseCtx (s : State) (x : Ctx) (e : Nat) : State := raiseOn s x.cfg.port e x.num

/-! ### The Almanac (R434 to R436) -/

/-- Bytes 0 to 79 of a record (R434). -/
def recBody (r : AlmRec) : List Byte :=
  le 8 r.seq ++ le 4 r.boot ++ zeros 4 ++ le 8 r.uptime ++ le 8 r.time ++ le 2 r.opcode.toNat ++ [r.status, r.master, r.role, r.kind]
    ++ le 2 r.ctx ++ le 4 r.session.toNat ++ zeros 4 ++ fit 32 r.detail

/-- Put a record at the end of the ring with the next SEQ and CHAIN, which go into the vote store; the newest 524,288 are kept (R434 to R436). -/
def chainRec (s : State) (r : AlmRec) : State :=
  let a := s.audit
  let r := { r with seq := a.seq }
  let chain := sha384 (digest a.chain ++ recBody r)
  let l := a.recs ++ [{ r with chain := chain }]
  { s.storeVote .head with audit := { a with seq := a.seq + 1, chain := chain, recs := l.drop (l.length - 524288) } }

/-- Append a record: BOOT and the two times are the device's. In Frost records are held, 256 of them at most (R482). -/
def appendRec (s : State) (opcode : Half) (status master role kind : Byte) (ctx : Nat) (session : Word) (detail : List Byte) : State :=
  let a := s.audit
  let r : AlmRec := { seq := a.seq, boot := s.ident.boot, uptime := a.uptime, time := s.timeNow, opcode := opcode, status := status
                      master := master, role := role, kind := kind, ctx := ctx, session := session, detail := fit 32 detail, chain := 0 }
  if s.power.frost then
    if a.held.length < 256 then { s with audit := { a with held := a.held ++ [r] } } else { s with audit := { a with heldMore := a.heldMore + 1 } }
  else chainRec s r

/-- A device record names the source its happening raises, or 0xFFFF, then content where a rule gives it (R467). -/
def deviceRec (s : State) (ctx source : Nat) (more : List Byte) : State :=
  appendRec s 0xFFFF 0 0xFF 0xFF 2 ctx 0 (le 2 source ++ more)

/-- R435: one KIND 3 record for a master's rejections beyond the first 1,000 of the second that ends. -/
def rejectSummary (s : State) (m : Nat) : State :=
  let n := s.audit.rejNow[m % 3]
  let s := if 1000 < n then appendRec s 0xFFFF 0 (BitVec.ofNat 8 m) 0 3 0xFFFF 0 (le 4 (n - 1000)) else s
  { s with audit := { s.audit with
      rejNow := s.audit.rejNow.set (m % 3) 0 (Nat.mod_lt _ (by decide))
      rejAt := s.audit.rejAt.set (m % 3) (s.audit.uptime / 1000000) (Nat.mod_lt _ (by decide)) } }

/-- A rejected command of master `m`: its own record among the first 1,000 of a second, else only counted (R435). -/
def rejectRec (s : State) (m : Nat) (opcode : Half) (status role : Byte) (ctx : Nat) (session : Word) (detail : List Byte) : State :=
  let s := if s.audit.rejAt[m % 3] ≠ s.audit.uptime / 1000000 then rejectSummary s m else s
  let n := s.audit.rejNow[m % 3] + 1
  let s := { s with audit := { s.audit with rejNow := s.audit.rejNow.set (m % 3) n (Nat.mod_lt _ (by decide)) } }
  if n ≤ 1000 then appendRec s opcode status (BitVec.ofNat 8 m) role 1 ctx session detail else s

/-! ### Power state (R480) -/

/-- Codes of R494: 0 Full, 1 Trim, 2 Idle, 3 Frost. -/
def powerState (s : State) : Nat :=
  if s.power.frost then 3
  else if s.ctxs.any fun x => x.orr.lane.isSome then (if s.power.step.toList.all fun k => k = 0 then 0 else 1)
  else 2

/-- A change of power state from `old` raises source 246 (R480). -/
def notePower (old s : State) : State := if powerState old ≠ powerState s then raiseAll s 246 0xFFFF else s

/-! ### Meters and statements (R439 to R445) -/

/-- Add to meter `k` of a context (R439). -/
def Ctx.addMeter (x : Ctx) (k n : Nat) : Ctx :=
  { x with meters := x.meters.set (k % 32) ((x.meters[k % 32] + n) % 2 ^ 64) (Nat.mod_lt _ (by decide)) }

/-- The increase of each meter over the span (R441). -/
def Ctx.counts (x : Ctx) : List Nat := (x.meters.toList.zip x.metersBase.toList).map fun p => (p.1 + 2 ^ 64 - p.2) % 2 ^ 64

/-- The bytes of a statement before its signature (R441). -/
def stmtBody (s : State) (t : Stmt) : List Byte :=
  [0x04, 0x01, BitVec.ofNat 8 (t.final.toNat + t.merged.toNat * 2 + t.tstep.toNat * 4), 32] ++ le 2 t.ctx ++ le 2 t.chipNo
    ++ le 8 t.sseq ++ le 4 t.epoch ++ le 4 t.minutes ++ le 8 t.min0 ++ le 8 t.tstart ++ le 8 t.tend ++ le 8 t.almSeq
    ++ le 16 t.domain ++ digest s.ident.devid ++ digest t.imgHash ++ le 64 t.tag ++ digest t.prev
    ++ t.counts.flatMap (le 8) ++ zeros 8

/-- The statement of a context's span up to now, but for what closing it adds (R441). -/
def stmtOf (s : State) (x : Ctx) (final : Bool) : Stmt :=
  let minutes := s.audit.minute + 1 - x.minBase
  { sseq := 0, ctx := x.num, final := final, merged := decide (1 < minutes), tstep := x.tstep, epoch := s.ident.meterEpoch, minutes := minutes
    min0 := x.minBase, tstart := x.spanStart, tend := s.timeNow, almSeq := 0, imgHash := x.m.img.hash, tag := x.cfg.tag, prev := x.prevStmt
    counts := x.counts, sig := 0 }

/-- Close a statement: a fresh SSEQ, the last Almanac SEQ and the signature (R441, R442). -/
def issueStmt (s : State) (t : Stmt) : State × Stmt :=
  let t := { t with sseq := s.audit.sseq, almSeq := s.audit.seq - 1, chipNo := s.ident.chipNo, domain := s.ident.domain }
  let t := { t with sig := signBy s.ident.fwk (stmtBody s t) }
  ({ s.storeVote .sseq with audit := { s.audit with sseq := s.audit.sseq + 1, stmts := s.audit.stmts ++ [t] } }, t)

/-- Close a statement of a context in the context's chain (R442). The new span begins where it ends. -/
def closeStmt (s : State) (x : Ctx) (final : Bool) : State :=
  let r := issueStmt s (stmtOf s x final)
  let hash := sha384 (stmtBody s r.2 ++ le 96 r.2.sig)
  r.1.putCtx { x with metersBase := x.meters, minBase := s.audit.minute + 1, prevStmt := hash, spanStart := s.timeNow, tstep := false }

/-- The statement store holds 65,536 (R443). -/
def stmtRoom : Nat := 65536

/-- The final statement of a context that was charged (R441). -/
def finalStmt (s : State) (c : Nat) : State :=
  match s.ctx? c with
  | some x => if x.orr.charged then closeStmt s x true else s
  | none => s

/-- R445: a device record notes a deferral. -/
def deferStmts (s : State) : State := deviceRec s 0xFFFF 0xFFFF []

/-- MINUTE_CLOSE: a statement for every context charged in the minute that ends, or none where the store lacks room or in Frost (R441, R445,
R482); source 198. The minutes of an epoch count from its READY (R440, R442). -/
def execMinuteClose (s : State) : Host.Outcome State Fault Refusal :=
  if s.audit.uptime < s.audit.readyAt + 60000000 * (s.audit.minute + 1) then .next s
  else
    let due := s.ctxs.filter fun x => x.orr.charged
    let s := if s.power.frost then s
      else if stmtRoom < s.audit.stmts.length + due.length then deferStmts s
      else
        let s := due.foldl (fun s x => closeStmt s x false) s
        if due.isEmpty then s else raiseAll s 198 0xFFFF
    .next { s with audit := { s.audit with minute := s.audit.minute + 1 } }

/-- REJECTION_SUMMARY at the end of a second in which a master had more than 1,000 rejections (R435). -/
def execRejectionSummary (m : Nat) (s : State) : Host.Outcome State Fault Refusal :=
  if s.audit.rejAt[m % 3] < s.audit.uptime / 1000000 && decide (1000 < s.audit.rejNow[m % 3]) then .next (rejectSummary s m) else .next s

end Sys2Proof.Machine
end

