-- ==== Sys2Proof/Machine/Mailbox.lean ====
section
/-! DEFINITION. Mailbox rings and replies (R448 to R453), the answer of a command with its Almanac record (R435, R467), sessions
(R433) and ownership (R460 to R464). -/
namespace Sys2Proof.Machine

/-! ### Status codes (R457) -/

def eOpcode : Nat := 0x01
def eLength : Nat := 0x02
def eParam : Nat := 0x03
def eRole : Nat := 0x04
def eOwner : Nat := 0x05
def eState : Nat := 0x06
def eNomem : Nat := 0x07
def eBudget : Nat := 0x08
def eBusy : Nat := 0x09
def eAuth : Nat := 0x0A
def eIntegrity : Nat := 0x0B
def eLocked : Nat := 0x0C
def eFault : Nat := 0x0D
def eRange : Nat := 0x0E
def eVersion : Nat := 0x0F

/-! ### The reply ring (R449) -/

def State.box (s : State) (m : Nat) : Mailbox := s.mgmt.boxes[m % 3]

def State.setBox (s : State) (m : Nat) (b : Mailbox) : State :=
  { s with mgmt := { s.mgmt with boxes := s.mgmt.boxes.set (m % 3) b (Nat.mod_lt _ (by decide)) } }

/-- Where `n` units go in a ring of `size` units, after a pad where they do not fit before its end. -/
def ringStart (size pos n : Nat) : Nat := if size < pos + n then 0 else pos

/-- Units a packet takes from the producer on, its pad included. -/
def ringCost (size pos n : Nat) : Nat := if size < pos + n then size - pos + n else n

/-- Free units of the reply ring, one kept free. -/
def Mailbox.free (b : Mailbox) : Nat := (b.rcons + 2047 - b.rprod) % 2048

def Reply.units (r : Reply) : Nat := 1 + (r.payload.length + 15) / 16 + r.trailer.toNat

/-- The bytes of a reply with its trailer (R452, R433); where the packet's handle names no session there is no key, and the trailer is a free value. -/
def Reply.bytes (r : Reply) : List Byte :=
  let body := le 2 r.op.toNat ++ [r.status, 0x01] ++ le 2 r.tag.toNat ++ le 2 r.units ++ le 4 r.sh.toNat ++ le 4 r.result
    ++ fit ((r.payload.length + 15) / 16 * 16) r.payload
  if !r.trailer then body
  else body ++ match r.key with | some k => (hmac (le 48 k) body).take 16 | none => fit 16 (Config.trailer r.sh.toNat body)

/-- A reply pad fills the ring's end (R449). -/
def padBytes (units : Nat) : List Byte := fit (16 * units) ([0, 0, 0, 0x01, 0, 0] ++ le 2 units)

/-- Put one reply into the ring and raise source 192 on the function that has the mailbox (R401, R449). -/
def ringReply (s : State) (m : Nat) (r : Reply) : State :=
  let b := s.box m
  let n := r.units
  let at_ := ringStart 2048 b.rprod n
  let mem := if at_ = b.rprod then b.mem else memPutAll b.mem (0x8000 + 16 * b.rprod) (padBytes (2048 - b.rprod))
  let mem := memPutAll mem (0x8000 + 16 * at_) r.bytes
  let s := s.setBox m { b with rprod := (at_ + n) % 2048, mem := mem, replies := b.replies ++ [{ r with pos := at_ }] }
  if m < 2 then raiseOn s m 192 0xFFFF else s

/-- Replies that wait go into the ring while it has room, oldest first. -/
def flushReplies : Nat → State → Nat → State
  | 0, s, _ => s
  | k + 1, s, m =>
    let b := s.box m
    match b.waiting with
    | [] => s
    | r :: rest =>
      if ringCost 2048 b.rprod r.units ≤ b.free then flushReplies k (ringReply (s.setBox m { b with waiting := rest }) m r) m else s

/-- Post a reply, or let it wait for room. -/
def postReply (s : State) (m : Nat) (r : Reply) : State :=
  let b := s.box m
  let s := s.setBox m { b with waiting := b.waiting ++ [r] }
  flushReplies (b.waiting.length + 1) s m

/-- A write of MB_RCONS: the replies before it are consumed, and waiting ones follow. -/
def rconsWrite (s : State) (m v : Nat) : State :=
  let b := s.box m
  let k := (v + 2048 - b.rcons) % 2048
  let ends (r : Reply) : Nat := (r.pos + r.units + 2047 - b.rcons) % 2048 + 1
  let s := s.setBox m { b with rcons := v, replies := b.replies.filter fun r => decide (k < ends r) }
  flushReplies b.waiting.length s m

/-! ### Sessions (R432, R433) -/

def State.session? (s : State) (sh : Word) : Option Session := s.mgmt.sessions.find? fun x => x.sh = sh

def State.setSession (s : State) (x : Session) : State :=
  { s with mgmt := { s.mgmt with sessions := s.mgmt.sessions.map fun y => if y.sh = x.sh then x else y } }

def closeSession (s : State) (sh : Word) : State :=
  { s with mgmt := { s.mgmt with sessions := s.mgmt.sessions.filter fun y => y.sh ≠ sh } }

/-- R433: the sessions of a master close at a port fault of its port. -/
def closeSessionsOf (s : State) (m : Nat) : State :=
  { s with mgmt := { s.mgmt with sessions := s.mgmt.sessions.filter fun y => y.master ≠ m } }

/-! ### Ownership (R460 to R464) -/

/-- The owner changes, `o` = 3 for vacant; source 193 on every function (R464). The owner state is kept in the vote store (R468). -/
def setOwner (s : State) (o : Nat) : State :=
  let s := { s.storeVote .claim with mgmt := { s.mgmt with owner := o, leaseEnd := if o = 3 then 0 else s.audit.uptime + s.mgmt.lease * 1000000 } }
  raiseAll s 193 0xFFFF

/-- R462: ownership lapses; the offer is withdrawn and a device record written. -/
def lapse (s : State) : State :=
  let s := { s with mgmt := { s.mgmt with offer := none } }
  deviceRec (setOwner s 3) 0xFFFF 193 []

/-- R462: an accepted command of the owner restarts its lease. -/
def renewLease (s : State) (m : Nat) : State :=
  if s.mgmt.owner = m then { s with mgmt := { s.mgmt with leaseEnd := s.audit.uptime + s.mgmt.lease * 1000000 } } else s

/-! ### Answers -/

/-- The commands marked ‡ (R467). -/
def daggerOps : List Nat := [0x0121, 0x0201, 0x0202, 0x0210, 0x0307, 0x0309, 0x0401, 0x0403, 0x0C01]

/-- R467: DETAIL of a command record. -/
def detailOf (h : Hdr) : List Byte :=
  if daggerOps.contains h.op.toNat then fit 32 (digest (sha384 (h.params ++ h.input))) else fit 32 h.params

/-- The reply to a command (R452). -/
def replyTo (h : Hdr) (status result : Nat) (payload : List Byte) : Reply :=
  { op := h.op, status := BitVec.ofNat 8 status, tag := h.tag, sh := h.sh, result := result, payload := payload, trailer := h.sh ≠ 0, key := h.key, pos := 0 }

/-- An accepted command is recorded where it changes state, then answered (R435); `detail` is its DETAIL. -/
def accept (s : State) (h : Hdr) (role : Byte) (ctx : Nat) (changes : Bool) (detail : List Byte) (result : Nat) (payload : List Byte) : State :=
  let s := if changes then appendRec s h.op 0 (BitVec.ofNat 8 h.master) role 0 ctx h.sh detail else s
  postReply (renewLease s h.master) h.master (replyTo h 0 result payload)

/-- A rejected command leaves its record, where it is no query, and its reply (R435, R457). -/
def reject (s : State) (h : Hdr) (role : Byte) (ctx : Nat) (query : Bool) (status result : Nat) : State :=
  let s := if query then s else rejectRec s h.master h.op (BitVec.ofNat 8 status) role ctx h.sh (detailOf h)
  postReply s h.master (replyTo h status result [])

/-- The pending command `p` leaves the list. -/
def dropPend (s : State) (p : Pend) : State := { s with mgmt := { s.mgmt with pend := s.mgmt.pend.erase p } }

/-- A pending command is accepted at the completion of its effect (R458, R459). -/
def acceptPend (s : State) (p : Pend) (ctx result : Nat) (payload : List Byte) : State :=
  accept (dropPend s p) p.h p.role ctx true (detailOf p.h) result payload

/-- A pending command is answered with a rejection (R459). -/
def rejectPend (s : State) (p : Pend) (status result : Nat) : State := reject (dropPend s p) p.h p.role p.ctx false status result

/-- Pending commands on a context are answered `status` (R459). -/
def rejectPendsOf (s : State) (c status : Nat) : State :=
  (s.mgmt.pend.filter fun p => p.on = some c).foldl (fun s p => rejectPend s p status 0) s

end Sys2Proof.Machine
end

