-- ==== Sys2Proof/Machine/Faults.lean ====
section
/-! DEFINITION. Queue abandonment and faults: context faults (R404, R459, R500, R502), port faults (R405), chip-level faults (R405,
R465, R466). -/
namespace Sys2Proof.Machine

/-! ### Queues (R380, R403) -/

def State.queue? (s : State) (qid : Nat) : Option Queue := s.queues.find? fun q => q.qid = qid

def State.putQueue (s : State) (q : Queue) : State := { s with queues := s.queues.map fun p => if p.qid = q.qid then q else p }

/-- R403: the descriptors return to the host without write-back; FHEAD and TAIL go to CHEAD. -/
def Queue.abandon (q : Queue) : Queue := { q with fhead := q.chead, tail := q.chead, fetched := [], waits := [], kept := false }

/-- The channels that carry a message of a queue that `p` names give it up (R403). -/
def dropCarried (s : State) (p : Nat → Bool) : State :=
  { s with dmas := s.dmas.map fun d => if d.busy && p d.qid then { d with busy := false, pre := false, left := 0 } else d }

/-- Abandon every queue of the contexts that `p` names. -/
def abandonWhere (s : State) (p : Nat → Bool) : State :=
  { dropCarried s (fun qid => p (qid / 16)) with queues := s.queues.map fun q => if p (q.qid / 16) then q.abandon else q }

/-! ### Context faults -/

/-- R404: what the context has not sent or taken is discarded, the sheaves with it (R25). -/
def discardTraffic (x : Ctx) : Ctx :=
  { x with
    rend := { x.rend with lines := [], sheaf := none, slots := [], slotWait := false }
    outp := { x.outp with msgs := [], slices := [], blocks := [], held := [], debugQ := [] }
    inb := { x.inb with waiting := [], staged := [], attestPend := [], attestDone := [] } }

/-- A context fault: FAULTED, 16 queues abandoned, traffic discarded, source 197, charges ended, pending commands answered E_FAULT.
Where consumed poison is the cause (`rule500`), source 210, the count CTXF and a device record; every context fault leaves a device
record and closes the final statement (R404, R435, R441, R502, R509). -/
def contextFault (s : State) (c : Nat) (rule500 : Bool) : State :=
  match s.ctx? c with
  | none => s
  | some x =>
    if x.stat = .faulted then s
    else
      let s := s.putCtx (discardTraffic { x with stat := .faulted, hold := {} })
      let s := raiseCtx (abandonWhere s fun n => n = c) x 197
      let s := if rule500 then { raiseAll s 210 c with ras := { s.ras with ctxf := (s.ras.ctxf + 1) % 2 ^ 32 } } else s
      let s := deviceRec s c (if rule500 then 210 else 197) []
      let s := rejectPendsOf (finalStmt s c) c eFault
      match s.ctx? c with
      | some x => s.putCtx { x with orr := { x.orr with charged := false, grant := none, newcomer := false } }
      | none => s

/-! ### Port and chip-level faults -/

/-- R405, R433, R462: the queues of the port's contexts are abandoned, its master's sessions close and its ownership lapses. Messages not
completed stay whole. -/
def portFault (s : State) (p : Nat) : State :=
  let s := abandonWhere s fun n => s.ctxs.any fun x => x.num = n && x.cfg.port = p
  let s := closeSessionsOf s p
  if s.mgmt.owner = p then lapse s else s

/-- Every context leaves its lane, and none waits for a certain one. -/
def leaveLanes (s : State) : State :=
  { s with ctxs := s.ctxs.map fun x => { x with orr := { x.orr with lane := none, grant := none, newcomer := false } } }

/-- R466: the device enters HALTED, and every context stops. -/
def halted (s : State) : State :=
  notePower s { leaveLanes s with mgmt := { s.mgmt with devstate := 4, elect := none, faultAt := none } }

/-- R405, R465, R466: a chip-level fault in uptime `s.audit.uptime`. An uncorrectable error raises source 211 and counts in CHIPF
(R503, R509). -/
def chipFault (s : State) (cause : ChipCause) : State :=
  if s.mgmt.devstate = 4 then s
  else
    let s := s.ports.foldl portFault s
    let had := s.mgmt.owner ≠ 3
    let s := { s with mgmt := { s.mgmt with devstate := 3, sessions := [], offer := none, elect := none, faultAt := some s.audit.uptime } }
    let s := if had then setOwner s 3 else s
    let s := match cause with
      | .firmware => deviceRec s 0xFFFF 0xFFFF []
      | .uncorrectable =>
        deviceRec { raiseAll s 211 0xFFFF with ras := { s.ras with chipf := (s.ras.chipf + 1) % 2 ^ 32 } } 0xFFFF 211 []
    let again := match s.mgmt.lastFault with
      | some t => decide (s.audit.uptime < t + 600000000)
      | none => false
    let s := { s with mgmt := { s.mgmt with lastFault := some s.audit.uptime } }
    if again then halted s else s

/-- CHIP_LEVEL_FAULT (R405, R465, R466). -/
def execChipLevelFault (cause : ChipCause) (s : State) : Host.Outcome State Fault Refusal := .next (chipFault s cause)

end Sys2Proof.Machine
end

