-- ==== Sys2Proof/Machine/Effects.lean ====
section
/-! DEFINITION. What a step of a context does outside its context state: squash (R224 to R229, R236), page versions and the snapshot
allowance (R336, R338), held side outputs (R348), error counts (R497, R509), context faults (R404), and the physical waits that hold
a lane (R19, R51, R231, R241, R298, R323). -/
namespace Sys2Proof.Machine

/-! ### Effect lines and squash -/

/-- The line index (R234) of the effect line of a write with effect point `eff` (R224). -/
def effectLine (md : ModeT) (eff : Nat) : Nat :=
  let idx := eff / md.lineVc
  let l := idx % md.vTot
  let d := dotOf md eff
  if l < md.vAct ∧ d < md.hAct then idx
  else if l + 1 < md.vAct then idx + 1
  else (idx / md.vTot + 1) * md.vTot

/-- The lines that stay, and the number discarded, of a squash from line `e0` by a write stamped `s` (R225, R226): the lines at or
after `e0` with K_L below `s`, where `kL` is K_L + 1; for a VRAM page, from the first of them that read it. -/
def squashLines (lines : List RLine) (s e0 : Nat) (page : Option Nat) : List RLine × Nat :=
  let hit (r : RLine) : Bool := decide (e0 ≤ r.idx) && decide (r.kL ≤ s)
  let from_ := match page with
    | none => some e0
    | some p => (lines.find? fun r => hit r && r.foot.contains p).map fun r => r.idx
  match from_ with
  | none => (lines, 0)
  | some f =>
    let gone (r : RLine) : Bool := hit r && decide (f ≤ r.idx)
    (lines.filter fun r => !gone r, (lines.filter gone).length)

/-- The sheaf of a line index (R218). -/
def sheafOf (md : ModeT) (idx : Nat) : Nat := idx / md.vTot * 64 + idx % md.vTot / 8

/-- Sheaf `k` has lost a line of `gone` and has none left, rendered or committed: it is wholly discarded (R228). -/
def sheafGone (md : ModeT) (commit : Nat) (gone lines : List RLine) (k : Nat) : Bool :=
  gone.any (fun l => sheafOf md l.idx = k) && !lines.any (fun l => sheafOf md l.idx = k) && decide (commit ≤ k / 64 * md.vTot + k % 64 * 8)

/-- The slot of a wholly discarded sheaf is freed (R25, R228). -/
def freeSlots (md : ModeT) (commit : Nat) (gone : List RLine) (r : Rend) : Rend :=
  let dead (k : Nat) : Bool := sheafGone md commit gone r.lines k
  { r with slots := r.slots.filter fun k => !dead k.1, sheaf := r.sheaf.filter fun k => !dead k }

/-- A stamped write of the processor or block unit reaches the line engines (R225, R226, R229, R236). A line that was rendered in a replay and is then
discarded counts as chaff as well (DESIGN CHOICE, log entry 69: R229 exempts lines that are rendered again, and says nothing of their discard). -/
def squash (x : Ctx) (w : VWrite) : Ctx :=
  let md := modeOf x.cfg.mode
  let e0 := effectLine md w.effect
  let page := match w.target with | .reg _ => none | .byte a => some (a / 4096)
  let q := squashLines x.rend.lines w.stamp e0 page
  let haz := match w.target with | .reg _ => true | .byte _ => decide (0 < q.2)
  let entry := (e0 / md.vTot, e0 % md.vTot)
  let gone := x.rend.lines.filter fun l => !q.1.contains l
  let r := { x.rend with lines := q.1, chaff := x.rend.chaff + q.2
                         haz := if haz && !x.rend.haz.contains entry then x.rend.haz ++ [entry] else x.rend.haz }
  ({ x with rend := freeSlots md x.m.cur.commit gone r }.addMeter 7 q.2).addMeter 8 (q.2 * md.hAct)

/-! ### Snapshot allowance (R336 to R338) -/

/-- Pages in use: 8 for each live snapshot, one for each version, and the held copies of side outputs. -/
def heldPages (h : Held) : Nat :=
  match h.kind with
  | .posting _ copy _ => (copy.length + 4095) / 4096
  | .debugMsg copy => (copy.length + 4095) / 4096
  | .attest _ => 1

def Ctx.pagesUsed (x : Ctx) : Nat :=
  (x.snaps.map fun p => 8 + p.pages.length).sum + (x.outp.held.map heldPages).sum

/-- The poisoned block lies in this page. -/
def PoisonBlk.inPage (b : PoisonBlk) (r : Ram) (p : Nat) : Bool := decide (b.ram = r) && b.blk / 256 = p

/-- The first store to a page in the epoch of the newest snapshot copies its previous contents, with the poison `old` in them (R336). -/
def touchPage (x : Ctx) (old : List PoisonBlk) (r : Ram) (p : Nat) : Ctx :=
  match x.snaps.reverse with
  | [] => x
  | s :: rest =>
    if s.pages.contains (r, p) then x
    else
      let s := { s with pages := s.pages ++ [(r, p)], bad := s.bad ++ old.filter fun b => b.inPage r p }
      { x with snaps := (s :: rest).reverse }

/-! ### Epochs (R324, R325) -/

/-- The epoch of a vc: the number of input latches at or before it. -/
def epochOf (md : ModeT) (t : Nat) : Nat :=
  let l := md.vAct * md.lineVc
  if t < l then 0 else (t - l) / md.frameVc + 1

/-- Epoch `n` is final: targets 1 to n are confirmed. -/
def Ctx.isFinal (x : Ctx) (n : Nat) : Bool := decide (n < x.log.closed)

/-- A message joins those that wait, with the next number. -/
def Outp.push (o : Outp) (m : OutMsg) : Outp := { o with msgs := o.msgs ++ [{ m with num := o.msgNum }], msgNum := o.msgNum + 1 }

/-- A side output of epoch `ep` is handed on (R348): a posting to the DMA, a debug message towards queue 8, an ATTEST request to the signer. -/
def handOn (x : Ctx) (ep : Nat) (k : HeldKind) : Ctx :=
  match k with
  | .posting q copy id => { x with outp := x.outp.push { queue := q, plain := copy, src := some (id, 0, 0) } }
  | .debugMsg copy => { x with outp := { x.outp with debugQ := x.outp.debugQ ++ [(ep, copy)] } }
  | .attest id => { x with inb := { x.inb with attestPend := x.inb.attestPend ++ [id] } }

/-- A side output produced in vc `t`: handed on at once where its epoch is final or nothing is held, and held otherwise (R348). -/
def produce (x : Ctx) (t : Nat) (k : HeldKind) : Ctx :=
  let ep := epochOf (modeOf x.cfg.mode) t
  if !x.cfg.rben || x.isFinal ep then handOn x ep k
  else { x with outp := { x.outp with held := x.outp.held ++ [⟨ep, t, k⟩] } }

/-- R148: a marker of vc `t` goes on the posting's message where it still waits or is held. -/
def markPosting (x : Ctx) (t q id : Nat) : Ctx :=
  { x with outp := { x.outp with
      marks := if x.outp.msgs.any (fun o => o.queue = q && o.src.any (fun i => i.1 = id)) || x.outp.held.any (fun h =>
          match h.kind with | .posting p _ j => p = q && j = id | _ => false) then x.outp.marks ++ [(q, id, epochOf (modeOf x.cfg.mode) t)] else x.outp.marks } }

/-! ### Effects on the device -/

/-- Count a correction in stack `st` (R497, R509, R510): source 208 once per stack and hour, when its threshold is reached. -/
def countHbm (s : State) (st : Fin 4) : State :=
  let r := s.ras
  let n := r.hourHbm[st] + 1
  let hit := decide (r.thHbm ≤ n) && !r.saidHbm[st]
  let s := { s with ras := { r with
    hbmce := r.hbmce.set st ((r.hbmce[st] + 1) % 2 ^ 64), hourHbm := r.hourHbm.set st n, saidHbm := r.saidHbm.set st (r.saidHbm[st] || hit) } }
  if hit then raiseAll s 208 st.val else s

/-- Count a correction on chip, which `f` adds to its counter (R509, R510): source 209 once per hour. -/
def countChip (s : State) (f : Ras → Ras) : State :=
  let r := f s.ras
  let n := r.hourChip + 1
  let hit := decide (r.thChip ≤ n) && !r.saidChip
  let s := { s with ras := { r with hourChip := n, saidChip := r.saidChip || hit } }
  if hit then raiseAll s 209 0xFFFF else s

/-- A corrected fast-RAM read (R509). -/
def countFast (s : State) : State := countChip s fun r => { r with frce := (r.frce + 1) % 2 ^ 32 }

/-- Number of a memory for `Config.place`. -/
def ramCode : Ram → Nat
  | .work => 1
  | .vram => 2
  | .audio => 3

/-- The stack in which a physical address lies. -/
def stackAt (p : Nat) : Fin 4 := ⟨p / stackBytes % 4, Nat.mod_lt _ (by decide)⟩

/-- The stack of the lane-state record, the predictor history and the queue-table entries of a context (R23, R24). -/
def homeStack (c : Nat) : Fin 4 := ⟨c / 2 ^ 14 % 4, Nat.mod_lt _ (by decide)⟩

/-- The stack of an item of a context: its home stack, that of the slot of a line's sheaf (R25), or one that is left open (R24). -/
def storeAt? (x : Ctx) (k : CtxStore) : Fin 4 :=
  match k with
  | .lane => homeStack x.num
  | .predictor => homeStack x.num
  | .line n => ⟨((x.rend.slots.find? fun p => p.1 = sheafOf (modeOf x.cfg.mode) n).map fun p => p.2).getD 0 % 4, Nat.mod_lt _ (by decide)⟩
  | .snapshot _ => ⟨Config.storeStack x.num k % 4, Nat.mod_lt _ (by decide)⟩
  | .version _ _ _ => ⟨Config.storeStack x.num k % 4, Nat.mod_lt _ (by decide)⟩
  | .log _ => ⟨Config.storeStack x.num k % 4, Nat.mod_lt _ (by decide)⟩
  | .latch _ => ⟨Config.storeStack x.num k % 4, Nat.mod_lt _ (by decide)⟩
  | .staged _ _ => ⟨Config.storeStack x.num k % 4, Nat.mod_lt _ (by decide)⟩
  | .outbound _ => ⟨Config.storeStack x.num k % 4, Nat.mod_lt _ (by decide)⟩

/-- The place in the order of arrival of the oldest message of queue `q` that is staged (R58). -/
def Ctx.firstStaged (x : Ctx) (q : Nat) : Nat := x.inb.arrived[q % 16] - (x.inb.staged.filter fun p => p.1 = q).length

/-- The item exists, so that an error can strike it: a record is in HBM while the lane has none of it, a line while its sheaf holds a slot, a message
where the device keeps its bytes (R24, R25, R57, R337, R339). -/
def hasStore (x : Ctx) : CtxStore → Bool
  | .lane => x.orr.lane.isNone
  | .predictor => true
  | .line n => x.rend.slots.any fun p => p.1 = sheafOf (modeOf x.cfg.mode) n
  | .snapshot f => x.snaps.any fun p => p.frame = f
  | .version f r k => x.snaps.any fun p => p.frame = f && p.pages.any fun q => ramCode q.1 = r && q.2 = k
  | .log t => x.log.recs.any fun r => r.target = t
  | .latch f => x.log.recsKept.any fun r => r.frame = f
  | .staged q n => decide (x.firstStaged q ≤ n) && decide (n < x.inb.arrived[q % 16])
  | .outbound n => x.outp.msgs.any fun o => o.num = n && (o.sealed.isSome || !o.plain.isEmpty)

/-- The context's item `k` holds poison (R500). -/
def Ctx.badStore (x : Ctx) (k : CtxStore) : Bool := x.bad.contains k

/-- The stack of HBM data that a context uses: tenant memory and images may lie in any (R27). -/
def hbmStack (x : Ctx) : HbmAt → Fin 4
  | .ram r off => stackAt (Config.place x.num (ramCode r) (off / 64))
  | .image off => stackAt (Config.placeImage x.m.img.hash (off / 64))

/-- The physical address of a bit error (R22, R27). -/
def UpAt.phys : UpAt → Nat
  | .ram c r a => Config.place c (ramCode r) (a / 64) + a % 64
  | .image h a => Config.placeImage h (a / 64) + a % 64
  | .store _ _ st off => st % 4 * stackBytes + off % stackBytes
  | .record n off => reservedBase + almanacBase + n % 524288 * almanacRec + off
  | .reserved st off => st % 4 * stackBytes + reservedBase + off

/-- The 64-bit word of a bit error (R495): its first byte. -/
def UpAt.word : UpAt → UpAt
  | .ram c r a => .ram c r (a / 8 * 8)
  | .image h a => .image h (a / 8 * 8)
  | .store c k st off => .store c k st (off / 8 * 8)
  | .record n off => .record n (off / 8 * 8)
  | .reserved st off => .reserved st (off / 8 * 8)

/-- The error lies in the 64-byte units that `n` bytes at `off` of memory `r` of context `c` touch. -/
def UpAt.under (u : UpAt) (c : Nat) (r : Ram) (off n : Nat) : Bool :=
  match u with
  | .ram d q a => d = c && decide (q = r) && decide (off / 64 ≤ a / 64) && decide (a / 64 ≤ (off + n - 1) / 64)
  | _ => false

/-- A correction of the 64-bit word of `u` counts unless its stack's list of the last 64 holds the word (R497). -/
def correctHbm (s : State) (u : Upset) : State :=
  let st := stackAt u.loc.phys
  let key := u.loc.word
  if s.ras.seen.contains key then s
  else
    let seen := s.ras.seen ++ [key]
    let mine := seen.filter fun k => stackAt k.phys = st
    countHbm { s with ras := { s.ras with seen := if 64 < mine.length then seen.erase (mine.headD key) else seen } } st

/-- The single-bit errors that stand in HBM and that `p` names are met by a read of the device (R496, R497). -/
def correctWhere (s : State) (p : UpAt → Bool) : State := (s.ras.upsets.filter fun u => !u.double && p u.loc).foldl correctHbm s

/-- A correctable error is met by a read of context `c`: in fast RAM, or in HBM (R496, R497, R509). -/
def noteUpset (s : State) (c : Nat) : Option HbmAt → State
  | none => countFast s
  | some p => correctWhere s fun u => u.hits c (match s.ctx? c with | some x => x.m.img.hash | none => 0) p

/-- The damaged copies of vote-store word `w`, and whether some word that `p` names has no two copies left that agree (R507, R508). -/
def State.badCopies (s : State) (w : VoteWord) : List (VoteWord × Fin 3) := s.votes.filter fun v => decide (v.1 = w)
def State.voteLost (s : State) (p : VoteField → Bool) : Bool := s.votes.any fun v => p v.1.field && decide (2 ≤ (s.badCopies v.1).length)

/-- The damaged copy of vote-store word `w` is rewritten with the majority value, and counted (R507). -/
def voteFixed (s : State) (w : VoteWord) : State :=
  raiseAll { s with votes := s.votes.filter fun v => !decide (v.1 = w), ras := { s.ras with votec := (s.ras.votec + 1) % 2 ^ 32 } } 212 0xFFFF

/-- A read of vote-store word `w`: a copy that differs from the other two is rewritten and counted, source 212; where no two agree the device enters
HALTED (R507, R508). Two damaged copies never agree with each other (DESIGN CHOICE, log entry 78). -/
def voteRead (s : State) (w : VoteWord) : State :=
  if (s.badCopies w).length = 0 then s
  else if 2 ≤ (s.badCopies w).length then halted s
  else voteFixed s w

/-- A read of every word of the fields that `p` names (R507). -/
def readVotes (s : State) (p : VoteField → Bool) : State := (((s.votes.filter fun v => p v.1.field).map fun v => v.1).eraseDups).foldl voteRead s

/-- The 64 bytes of the queue-table entry of queue `qid` hold the place: the entries of a stack lie in the order of their QIDs (R23; DESIGN CHOICE, log
entry 77). -/
def entryHolds (qid : Nat) : UpAt → Bool
  | .reserved st off =>
    let base := queuesBase st + qid % 262144 * 64
    decide (st = qid / 262144) && decide (base ≤ off) && decide (off < base + 64)
  | _ => false

/-- Record `seq` of the Almanac lies in slot `k` of its ring, which begins with record 0 (R22, R434; DESIGN CHOICE, log entry 77). -/
def inSlot (seq k : Nat) : Bool := seq % 524288 = k

/-- The error lies in item `k` of context `c`. -/
def UpAt.inItem (u : UpAt) (c : Nat) (k : CtxStore) : Bool := match u with | .store d q _ _ => d = c && decide (q = k) | _ => false

/-- The device reads item `k` of context `c`: the correctable errors in it are met (R496). -/
def readStore (s : State) (c : Nat) (k : CtxStore) : State := correctWhere s fun u => u.inItem c k

/-- The errors at the places that `p` names are gone: their words have been written, or hold no data any more (R496, R498). -/
def dropUpsets (s : State) (p : UpAt → Bool) : State := { s with ras := { s.ras with upsets := s.ras.upsets.filter fun u => !p u.loc } }

/-- The device writes item `k` of context `c` anew: every error in it is gone (R496, R498). -/
def writeStore (s : State) (c : Nat) (k : CtxStore) : State :=
  let t := dropUpsets s fun u => u.inItem c k
  { t with ctxs := s.ctxs.map fun x => if x.num = c then { x with bad := x.bad.filter fun q => !decide (q = k) } else x }

/-- The errors in items that are there no more are gone with them, for the contexts that `p` names (R498). -/
def dropBadStores (s : State) (p : Nat → Bool) : State :=
  let t := dropUpsets s fun u => match u with | .store c k _ _ => p c && !(s.ctx? c).any fun x => hasStore x k | _ => false
  { t with ctxs := s.ctxs.map fun x => if p x.num then { x with bad := x.bad.filter (hasStore x) } else x }

/-- The word of the error has been rewritten by a store to the place: a single-bit error with the L2 lines that the store makes dirty, whose eviction
writes them with fresh check bits, an uncorrectable one once its block is no longer poisoned (R496, R498). -/
def rewritten (s : State) (c : Nat) (r : Ram) (off n : Nat) (u : Upset) : Bool :=
  u.loc.under c r off n && (!u.double || match u.loc with
    | .ram _ q a => !(s.ctx? c).any fun x => x.m.blkPoisoned q (a / 16)
    | _ => false)

/-- A store of `n` bytes has been made (R496, R498). -/
def repair (s : State) (c : Nat) (r : Ram) (off n : Nat) : State :=
  { s with ras := { s.ras with upsets := s.ras.upsets.filter fun u => !rewritten s c r off n u } }

/-- One effect of a step of context `x`, whose step retired in vc `t` and began with the poison `old`. -/
def applyCtxFx (old : List PoisonBlk) (x : Ctx) (t : Nat) : Fx → Ctx
  | .stamped w => squash x w
  | .touched r p => touchPage x old r p
  | .posted q id base len copy =>
    if x.cfg.rben then produce x t (.posting q copy id)
    else { x with outp := x.outp.push { queue := q, src := some (id, base, len) } }
  | .marked q id => markPosting x t q id
  | .debugMsg b => produce x t (.debugMsg b)
  | .attestReq id => produce x t (.attest id)
  | _ => x

/-- Consumed poison in HBM counts in its stack (R509). -/
def countUe (s : State) (st : Fin 4) : State := { s with ras := { s.ras with hbmue := s.ras.hbmue.set st ((s.ras.hbmue[st] + 1) % 2 ^ 32) } }

/-- Consumed poison at `p` of context `x` counts (R509): in fast RAM on chip, in an image in HBM; in work RAM, VRAM or audio RAM on chip where the block
then stands in a cache, in HBM otherwise. Which of the two holds, and in which stack the data lie (R27), the spec leaves open: free values (log
entry 10). -/
def countConsumed (s : State) (x : Ctx) (p : Option HbmAt) : State :=
  let chip (s : State) : State := { s with ras := { s.ras with onue := (s.ras.onue + 1) % 2 ^ 32 } }
  match p with
  | none => chip s
  | some (.image off) => countUe s (hbmStack x (.image off))
  | some (.ram r off) => if s.takeFree.1 % 2 = 0 then countUe s.takeFree.2 (hbmStack x (.ram r off)) else chip s.takeFree.2

/-- Device-wide effects: counters and context faults. -/
def applyDevFx (s : State) (c : Nat) : Fx → State
  | .corrected p => noteUpset s c p
  | .wrote r off n => repair s c r off n
  | .consumed p => match s.ctx? c with
    | some x => countConsumed s x p
    | none => s
  | .faulted rule500 => contextFault s c rule500
  | _ => s

/-- The lane has gone on from vc `o`: VC counts the increase of the greatest vc reached, REPLAY_VC what runs again below it (R344,
R439). -/
def noteVc (x : Ctx) (o : Nat) : Ctx :=
  let n := x.m.vc; let g := x.log.maxVc
  let y := { x with log := { x.log with maxVc := max g n } }.addMeter 0 (n - g)
  y.addMeter 11 (min n g - min o g)

/-- Poison in item `k` that the device keeps for context `x` is consumed: it counts in the item's stack; for a snapshot-pool page, the input log,
outbound messages and staged data the spec names none, and it is a free value (R24, R509; log entry 10). -/
def countItem (s : State) (x : Ctx) (k : CtxStore) : State :=
  let at_ := s.ras.upsets.findSome? fun u => match u.loc with
    | .store c q st _ => if u.double && c = x.num && decide (q = k) then some st else none
    | _ => none
  countUe s ⟨at_.getD (storeAt? x k).val % 4, Nat.mod_lt _ (by decide)⟩

/-- The poison is that of an item whose use is a context fault (R500). -/
def storeFault (s : State) (x : Ctx) (k : CtxStore) : State := contextFault (countItem s x k) x.num true

/-- The device uses the items `l` of context `x`: the first poisoned one faults it, else `go` follows, with their correctable errors met (R496, R499,
R500). -/
def useItems (s : State) (x : Ctx) (l : List CtxStore) (go : State → State) : State :=
  match l.find? x.badStore with
  | some k => storeFault s x k
  | none => go (l.foldl (fun s k => readStore s x.num k) s)

/-- The predictor restarts in the frame of the line to commit next (R238). -/
def restartPredictor (x : Ctx) : Ctx :=
  { x with rend := { x.rend with depth := 1, hist := [], first := true, firstFrame := x.m.cur.commit / (modeOf x.cfg.mode).vTot + 1, haz := [] } }

/-- The device reads the predictor history of a context: consumed poison counts, and the predictor restarts with a new history (R238, R500, R509). -/
def useHistory (s : State) (x : Ctx) : State :=
  if x.badStore .predictor then writeStore ((countItem s x .predictor).putCtx (restartPredictor x)) x.num .predictor
  else readStore s x.num .predictor

/-- The state of queue `qid` is used: a queue with a doorbell or device work has it in the on-chip cache of 65,536. A miss reads the queue-table entry,
and the least recently used state leaves, its entry written anew (R23, R382, R496, R498). -/
def touchQueue (s : State) (qid : Nat) : State :=
  let s := if s.qcache.contains qid then s else correctWhere s (entryHolds qid)
  let l := s.qcache.erase qid ++ [qid]
  let out := l.take (l.length - 65536)
  let s := { s with qcache := l.drop (l.length - 65536) }
  if out.isEmpty then s
  else { s with ras := { s.ras with upsets := s.ras.upsets.filter fun u => !out.any fun q => entryHolds q u.loc } }

/-- Messages of queue `n` that wait in context `x`. -/
def Ctx.queued (x : Ctx) (n : Nat) : Nat := (x.outp.msgs.filter fun o => o.queue = n).length

/-- Context `x` has become `y`: a queue that has got a message has device work (R382). -/
def noteWork (s : State) (x y : Ctx) : State :=
  ((List.range 16).filter fun n => decide (x.queued n < y.queued n)).foldl (fun s n => touchQueue s (16 * x.num + n)) s

/-- The queue's state is poisoned and is used: a context fault (R500). It counts on chip where the state is in the cache, in the stack of its entry
otherwise (R23, R509). -/
def queueFault (s : State) (x : Ctx) (q : Queue) : State :=
  let s := if s.qcache.contains q.qid then { s with ras := { s.ras with onue := (s.ras.onue + 1) % 2 ^ 32 } } else countUe s (homeStack x.num)
  contextFault s x.num true

/-- What may make the lane wait for the snapshot allowance: a store or a POST (R338), and never a DEBUGOUT (R148). -/
def Fx.needsPage : Fx → Bool
  | .touched _ _ => true
  | .posted _ _ _ _ _ => true
  | _ => false

/-- Put the new context state `m` of context `x` into the state with all its effects, then `g` on the context; nothing happens where the
lane waits for the snapshot allowance (R338). The held copy of a DEBUGOUT or an ATTEST counts, but waits for no room (DEDUCED, log entry 65). -/
def settleWith (s : State) (x : Ctx) (m : Mach) (g : Ctx → Ctx) : State :=
  let fx := m.fx
  let t := m.vc - 1
  let y := fx.foldl (fun y f => applyCtxFx x.m.mem.poison y t f) { x with m := { m with fx := [] } }
  let y := g (noteVc y x.m.vc)
  if x.cfg.rben && fx.any Fx.needsPage && decide (x.cfg.allow < y.pagesUsed) && decide (x.pagesUsed < y.pagesUsed) then s
  else fx.foldl (fun s f => applyDevFx s x.num f) (noteWork (s.putCtx y) x y)

def settle (s : State) (x : Ctx) (m : Mach) : State := settleWith s x m id

/-! ### Physical waits of a lane -/

/-- The lane may act in vc `r`: every happening of its virtual time that comes before has taken place: the latch (R51), commits (R231), sprite
selections (R241), samples (R295, R297, R298) and blocks (R323), raster-list entries (R186), blit rows (R257), ticks (R152) and the beam's events
(R171). -/
def laneMayPass (x : Ctx) (r : Nat) : Bool := decide (r < x.m.lim x.cfg)

/-- The context executes: RUNNING, resident, not held, and in an epoch that has been released (R19, R149, R357, R473). -/
def Ctx.active (x : Ctx) : Bool :=
  x.stat = .running && x.orr.lane.isSome && !x.hold.halted && !x.hold.exporting && decide (x.m.cur.latch < x.orr.released)

/-- One instruction of context `c` whose bits are `enc`. Where the context does not execute, or the lane has to wait, nothing
happens yet. -/
def coreStep (s : State) (c : Nat) (enc : Encoding) (body : Body) : Host.Outcome State Fault Refusal :=
  match s.ctx? c with
  | none => .next s
  | some x =>
    if !x.active then .next s
    else
      .next (settle s x (runCore (s.env x) x.m (if enc.long then 4 else 2) body))

/-- The vc the lane has reached: that of its next instruction, or, where it waits in SLEEP or SYNC, the vc it has come to. -/
def Ctx.now (x : Ctx) : Nat := x.m.vc

/-- Happening `d` of context `x`, due in vc `t`, acts next. -/
def hasCome (x : Ctx) (d : Due) (t : Nat) : Bool := x.m.turn x.cfg d t

/-- An event of context `c`: `f` gives the new context state and what changes beside it, or none where the event does not occur. -/
def ctxEventWith (s : State) (c : Nat) (f : Env → Ctx → Option (Mach × (Ctx → Ctx))) : Host.Outcome State Fault Refusal :=
  match s.ctx? c with
  | none => .next s
  | some x =>
    if !x.active then .next s
    else match f (s.env x) x with
      | none => .next s
      | some r => .next (settleWith s x r.1 r.2)

/-- An event that changes the context state alone. -/
def ctxEvent (s : State) (c : Nat) (f : Env → Ctx → Option Mach) : Host.Outcome State Fault Refusal :=
  ctxEventWith s c fun e x => (f e x).map fun m => (m, id)

/-- Happening `d` of context `c` in its vc `t`: `f` acts on the context as it stands in that vc; none where the happening does not occur. -/
def ctxDueWith (s : State) (c : Nat) (d : Due) (f : Env → Ctx → Nat → Option (Mach × (Ctx → Ctx))) : Host.Outcome State Fault Refusal :=
  ctxEventWith s c fun e x =>
    match x.m.dueVc x.cfg d with
    | none => none
    | some t => if hasCome x d t then f e { x with m := x.m.seen t } t else none

/-- One that changes the context state alone. -/
def ctxDue (s : State) (c : Nat) (d : Due) (f : Env → Mach → Nat → Option Mach) : Host.Outcome State Fault Refusal :=
  ctxDueWith s c d fun e x t => (f e x.m t).map fun m => (m, id)

/-- A register access that is a row of its own acts in the vc of the next issue, once every happening before it has acted. -/
def ctxAccess (s : State) (c : Nat) (f : Env → Ctx → Option Mach) : Host.Outcome State Fault Refusal :=
  ctxEvent s c fun e x => if laneMayPass x x.m.vc then f e x else none

end Sys2Proof.Machine
end

