-- ==== Sys2Proof/Machine/Alu.lean ====
section
/-! DEFINITION. Register ALU operations, shifts and the extended ALU (R83 to R86). -/
namespace Sys2Proof.Machine

/-- MOV: y, no flag. -/
def execMov (c : Nat) (f : AluForm) (s : State) : Host.Outcome State Fault Refusal :=
  coreStep s c (encodingOf (.mov c f)) (aluBody 1 (aluDest f) fun m => { val := aluY m f })

/-- ADD: x + y. -/
def execAdd (c : Nat) (f : AluForm) (s : State) : Host.Outcome State Fault Refusal :=
  coreStep s c (encodingOf (.add c f)) (aluBody 1 (aluDest f) fun m => addRes (aluX m f) (aluY m f) false)

/-- ADC: x + y + C. -/
def execAdc (c : Nat) (f : AluForm) (s : State) : Host.Outcome State Fault Refusal :=
  coreStep s c (encodingOf (.adc c f)) (aluBody 1 (aluDest f) fun m => addRes (aluX m f) (aluY m f) (pswC m.cpu.psw))

/-- SUB: x − y. -/
def execSub (c : Nat) (f : AluForm) (s : State) : Host.Outcome State Fault Refusal :=
  coreStep s c (encodingOf (.sub c f)) (aluBody 1 (aluDest f) fun m => subRes (aluX m f) (aluY m f) true)

/-- SBC: x − y − (1 − C). -/
def execSbc (c : Nat) (f : AluForm) (s : State) : Host.Outcome State Fault Refusal :=
  coreStep s c (encodingOf (.sbc c f)) (aluBody 1 (aluDest f) fun m => subRes (aluX m f) (aluY m f) (pswC m.cpu.psw))

/-- AND. -/
def execAnd (c : Nat) (f : AluForm) (s : State) : Host.Outcome State Fault Refusal :=
  coreStep s c (encodingOf (.and c f)) (aluBody 1 (aluDest f) fun m => resNZ (aluX m f &&& aluY m f))

/-- OR. -/
def execOr (c : Nat) (f : AluForm) (s : State) : Host.Outcome State Fault Refusal :=
  coreStep s c (encodingOf (.or c f)) (aluBody 1 (aluDest f) fun m => resNZ (aluX m f ||| aluY m f))

/-- XOR. -/
def execXor (c : Nat) (f : AluForm) (s : State) : Host.Outcome State Fault Refusal :=
  coreStep s c (encodingOf (.xor c f)) (aluBody 1 (aluDest f) fun m => resNZ (aluX m f ^^^ aluY m f))

/-- NEG: 0 − y. -/
def execNeg (c : Nat) (f : AluForm) (s : State) : Host.Outcome State Fault Refusal :=
  coreStep s c (encodingOf (.neg c f)) (aluBody 1 (aluDest f) fun m => subRes 0 (aluY m f) true)

/-- NOT y. -/
def execNot (c : Nat) (f : AluForm) (s : State) : Host.Outcome State Fault Refusal :=
  coreStep s c (encodingOf (.not c f)) (aluBody 1 (aluDest f) fun m => resNZ (~~~ aluY m f))

/-- MUL: low 32 bits of the product. -/
def execMul (c : Nat) (f : AluForm) (s : State) : Host.Outcome State Fault Refusal :=
  coreStep s c (encodingOf (.mul c f)) (aluBody 2 (aluDest f) fun m => resNZ (aluX m f * aluY m f))

/-- In major 0x00, CMP and TST require rd = 0 (R83). -/
def cmpFormOk : AluForm → Bool
  | .r16 _ _ => true
  | .r32 rd _ _ => rd = 0

/-- CMP and TST write flags alone; a nonzero rd in the 32-bit form is illegal (R80). -/
def cmpBody (bits : Word) (f : AluForm) (g : Mach → AluRes) : Body := fun e m t pc nxt =>
  if cmpFormOk f then flagBody g e m t pc nxt else illegal m bits pc

/-- CMP: x − y, flags alone. -/
def execCmp (c : Nat) (f : AluForm) (s : State) : Host.Outcome State Fault Refusal :=
  let enc := encodingOf (.cmp c f)
  coreStep s c enc (cmpBody enc.bits f fun m => subRes (aluX m f) (aluY m f) true)

/-- TST: x AND y, flags alone. -/
def execTst (c : Nat) (f : AluForm) (s : State) : Host.Outcome State Fault Refusal :=
  let enc := encodingOf (.tst c f)
  coreStep s c enc (cmpBody enc.bits f fun m => resNZ (aluX m f &&& aluY m f))

/-- LSL (R85). -/
def execLsl (c : Nat) (f : ShiftForm) (s : State) : Host.Outcome State Fault Refusal :=
  coreStep s c (encodingOf (.lsl c f)) (aluBody 1 (shiftDest f) fun m => lslRes (shiftX m f) (shiftN m f))

/-- LSR (R85). -/
def execLsr (c : Nat) (f : ShiftForm) (s : State) : Host.Outcome State Fault Refusal :=
  coreStep s c (encodingOf (.lsr c f)) (aluBody 1 (shiftDest f) fun m => lsrRes (shiftX m f) (shiftN m f))

/-- ASR (R85). -/
def execAsr (c : Nat) (f : ShiftForm) (s : State) : Host.Outcome State Fault Refusal :=
  coreStep s c (encodingOf (.asr c f)) (aluBody 1 (shiftDest f) fun m => asrRes (shiftX m f) (shiftN m f))

/-- ROR by n mod 32 (R85). -/
def execRor (c : Nat) (f : RorForm) (s : State) : Host.Outcome State Fault Refusal :=
  coreStep s c (encodingOf (.ror c f)) (aluBody 1 (rorDest f) fun m => rorRes (rorX m f) (rorN m f))

/-- MULH. -/
def execMulh (c : Nat) (rd ra rb : Reg) (s : State) : Host.Outcome State Fault Refusal :=
  coreStep s c (encodingOf (.mulh c rd ra rb)) (aluBody 3 rd fun m => mulhRes (m.reg ra) (m.reg rb))

/-- MULHU. -/
def execMulhu (c : Nat) (rd ra rb : Reg) (s : State) : Host.Outcome State Fault Refusal :=
  coreStep s c (encodingOf (.mulhu c rd ra rb)) (aluBody 3 rd fun m => mulhuRes (m.reg ra) (m.reg rb))

/-- MIN, signed. -/
def execMin (c : Nat) (rd ra rb : Reg) (s : State) : Host.Outcome State Fault Refusal :=
  coreStep s c (encodingOf (.min c rd ra rb)) (aluBody 1 rd fun m => resNZ (if (m.reg rb).toInt < (m.reg ra).toInt then m.reg rb else m.reg ra))

/-- MAX, signed. -/
def execMax (c : Nat) (rd ra rb : Reg) (s : State) : Host.Outcome State Fault Refusal :=
  coreStep s c (encodingOf (.max c rd ra rb)) (aluBody 1 rd fun m => resNZ (if (m.reg ra).toInt < (m.reg rb).toInt then m.reg rb else m.reg ra))

/-- MINU, unsigned. -/
def execMinu (c : Nat) (rd ra rb : Reg) (s : State) : Host.Outcome State Fault Refusal :=
  coreStep s c (encodingOf (.minu c rd ra rb)) (aluBody 1 rd fun m => resNZ (if (m.reg rb).toNat < (m.reg ra).toNat then m.reg rb else m.reg ra))

/-- MAXU, unsigned. -/
def execMaxu (c : Nat) (rd ra rb : Reg) (s : State) : Host.Outcome State Fault Refusal :=
  coreStep s c (encodingOf (.maxu c rd ra rb)) (aluBody 1 rd fun m => resNZ (if (m.reg ra).toNat < (m.reg rb).toNat then m.reg rb else m.reg ra))

/-- DIV, truncated toward zero (R86). -/
def execDiv (c : Nat) (rd ra rb : Reg) (s : State) : Host.Outcome State Fault Refusal :=
  let enc := encodingOf (.div c rd ra rb)
  coreStep s c enc (divBody enc.bits rd ra rb divRes)

/-- DIVU (R86). -/
def execDivu (c : Nat) (rd ra rb : Reg) (s : State) : Host.Outcome State Fault Refusal :=
  let enc := encodingOf (.divu c rd ra rb)
  coreStep s c enc (divBody enc.bits rd ra rb divuRes)

/-- REM, sign of x (R86). -/
def execRem (c : Nat) (rd ra rb : Reg) (s : State) : Host.Outcome State Fault Refusal :=
  let enc := encodingOf (.rem c rd ra rb)
  coreStep s c enc (divBody enc.bits rd ra rb remRes)

/-- REMU (R86). -/
def execRemu (c : Nat) (rd ra rb : Reg) (s : State) : Host.Outcome State Fault Refusal :=
  let enc := encodingOf (.remu c rd ra rb)
  coreStep s c enc (divBody enc.bits rd ra rb remuRes)

/-- SXTB. -/
def execSxtb (c : Nat) (rd ra : Reg) (s : State) : Host.Outcome State Fault Refusal :=
  coreStep s c (encodingOf (.sxtb c rd ra)) (aluBody 1 rd fun m => resNZ (((m.reg ra).setWidth 8).signExtend 32))

/-- SXTH. -/
def execSxth (c : Nat) (rd ra : Reg) (s : State) : Host.Outcome State Fault Refusal :=
  coreStep s c (encodingOf (.sxth c rd ra)) (aluBody 1 rd fun m => resNZ (((m.reg ra).setWidth 16).signExtend 32))

/-- ZXTB. -/
def execZxtb (c : Nat) (rd ra : Reg) (s : State) : Host.Outcome State Fault Refusal :=
  coreStep s c (encodingOf (.zxtb c rd ra)) (aluBody 1 rd fun m => resNZ (((m.reg ra).setWidth 8).setWidth 32))

/-- ZXTH. -/
def execZxth (c : Nat) (rd ra : Reg) (s : State) : Host.Outcome State Fault Refusal :=
  coreStep s c (encodingOf (.zxth c rd ra)) (aluBody 1 rd fun m => resNZ (((m.reg ra).setWidth 16).setWidth 32))

end Sys2Proof.Machine
end

