-- ==== Sys2Proof/Machine/Events.lean ====
section
/-! DEFINITION. Events of virtual time: interrupt entry, HOLD windows, timers (05), beam events (06), raster lists (R181 to R187), and
the register accesses that are rows of their own. -/
namespace Sys2Proof.Machine

/-! ### Interrupt entry and HOLD windows (R63, R64, R128) -/

/-- The interrupt of source `k` at the boundary before vc `b`: the frame PC is the next instruction, or the block instruction or SYNC stopped in its
work (R105, R108, R122). -/
def takeInterrupt (e : Env) (m : Mach) (k b : Nat) : Mach :=
  beginEntry e m { vec := 32 + k, info := BitVec.ofNat 32 (k + m.ic.prioOf k * 256), pc := m.cpu.pc } b

/-- INTERRUPT_ENTRY: the source R64 chooses enters, once every happening before its boundary has acted; an entry in progress goes on. -/
def execInterruptEntry (c : Nat) (s : State) : Host.Outcome State Fault Refusal :=
  ctxEvent s c fun e x =>
    if x.m.cpu.entry.isSome then some (goOn e x.m)
    else match interruptNow x.m with
      | some (k, b) => if x.m.settledTo e.cfg b then some (takeInterrupt e x.m k b) else none
      | none => none

/-- HOLD_WINDOW_END: from the vc after the window's last, PSW.HOLD reads 0 (R128). -/
def execHoldWindowEnd (c : Nat) (s : State) : Host.Outcome State Fault Refusal :=
  ctxEvent s c fun _ x =>
    match x.m.cpu.hold with
    | some h => if h ≤ x.m.vc then some { x.m with cpu := { x.m.cpu with hold := none } } else none
    | none => none

/-! ### Timers (R152 to R159) -/

/-- The counter's next value (R152). -/
def tickNext (x : Timer) : Word := if x.reload.toNat ≤ x.count.toNat then 0 else x.count + 1

/-- A tick of timer `n` whose events belong to vc `t`; `k` bounds the chain above it (R152, R156, R157). -/
def tick : Nat → Mach → Nat → Nat → Mach
  | 0, m, _, _ => m
  | k + 1, m, n, t =>
    let x := m.timer n
    let v := tickNext x
    let isM := decide (v = x.cmp)
    let isW := decide (v = 0)
    let m := m.setTimer n { x with
      count := v, matches_ := if isM then x.matches_ + 1 else x.matches_, wraps := if isW then x.wraps + 1 else x.wraps }
    let m := if isM then m.raise (4 + n) t else m
    if isW then
      let m := m.raise (8 + n) t
      let y := m.timer (n + 1)
      if n < 3 ∧ y.chain ∧ (y.en ∨ y.offAt = some t) ∧ y.phase0 < t then tick k m (n + 1) t else m
    else m

/-- TIMER_TICK: the phase of an unchained timer expires (R152); a tick due in the vc of the write that clears EN still occurs (R153). -/
def execTimerTick (c : Nat) (n : Fin 4) (s : State) : Host.Outcome State Fault Refusal :=
  ctxDue s c (.tick n) fun _ m t => some (tick 4 (m.setTimer n { m.timer n with phase0 := t, offAt := none }) n t)

/-- The vc in which a register-access row acts: that of the next issue. -/
def accessVc (x : Ctx) : Nat := x.m.vc

/-- TM_COUNT_READ (R159). -/
def execTmCountRead (c : Nat) (n : Fin 4) (s : State) : Host.Outcome State Fault Refusal :=
  ctxAccess s c fun _ x => let r := tmCountRead x.m n; some { r.2 with ioData := r.1 }

/-- TM_CTL_WRITE (R151, R153). -/
def execTmCtlWrite (c : Nat) (n : Fin 4) (v : Word) (s : State) : Host.Outcome State Fault Refusal :=
  ctxAccess s c fun _ x => some (tmCtlWrite x.m n v (accessVc x))

/-- TM_COUNT_WRITE (R154). -/
def execTmCountWrite (c : Nat) (n : Fin 4) (v : Word) (s : State) : Host.Outcome State Fault Refusal :=
  ctxAccess s c fun _ x => some (tmCountWrite x.m n v (accessVc x))

/-- The vc of the latch at which a halt or park took effect and at which the context resumes (R149, R161). -/
def haltVc (x : Ctx) : Nat := latchVc (modeOf x.cfg.mode) (x.m.cur.latch - 1)

/-- R161: an enabled, unchained timer takes part in a halt. -/
def haltTimers (m : Mach) : List Nat := (List.range 4).filter fun n => (m.timer n).en && !(m.timer n).chain

/-- R161: at the start of the halt acc is P × 1,000. -/
def haltStart (m : Mach) (v : Nat) : Mach :=
  (haltTimers m).foldl (fun m n => m.setTimer n { m.timer n with acc := (v - 1 - (m.timer n).phase0) * 1000 }) m

/-- R161: at resumption P is acc / 1,000. -/
def haltEnd (m : Mach) (v : Nat) : Mach :=
  (haltTimers m).foldl (fun m n => m.setTimer n { m.timer n with acc := 0, phase0 := v - 1 - (m.timer n).acc / 1000 }) m

/-- One CLK_TICK edge of the native behaviour (R162). -/
def haltTick (khz : Nat) (m : Mach) (v : Nat) : Mach :=
  (haltTimers m).foldl (fun m n =>
    let x := m.timer n
    let q := 1000 * 2 ^ x.psc
    let a := x.acc + khz
    (List.range (a / q)).foldl (fun m _ => tick 4 m n v) (m.setTimer n { x with acc := a % q })) m

/-- advance (R163). -/
def advance (c reload k : Nat) : Nat × Nat :=
  if k = 0 then (c, 0)
  else
    let excess := decide (reload < c)
    let c := if excess then 0 else c
    let k := if excess then k - 1 else k
    let p := reload + 1
    ((c + k) % p, excess.toNat + (c + k) / p)

/-- R163: timer `n` advances by `k` ticks at once, and the timers chained to it by its wraps. -/
def compatAdvance : Nat → Mach → Nat → Nat → Nat → Mach
  | 0, m, _, _, _ => m
  | f + 1, m, n, k, v =>
    let x := m.timer n
    let r := advance x.count.toNat x.reload.toNat k
    let y := { x with count := BitVec.ofNat 32 r.1 }
    let isM := decide (0 < k) && y.count = y.cmp
    let isW := decide (0 < r.2)
    let m := m.setTimer n { y with matches_ := if isM then y.matches_ + 1 else y.matches_, wraps := if isW then y.wraps + 1 else y.wraps }
    let m := if isM then m.raise (4 + n) v else m
    let m := if isW then m.raise (8 + n) v else m
    if n < 3 ∧ (m.timer (n + 1)).en ∧ (m.timer (n + 1)).chain then compatAdvance f m (n + 1) r.2 v else m

/-- TIMER_RESUME_ADVANCE: `d` is the elapsed time in µs (R163). -/
def compatResume (khz d : Nat) (m : Mach) (v : Nat) : Mach :=
  (haltTimers m).foldl (fun m n =>
    let x := m.timer n
    let q := 1000 * 2 ^ x.psc
    let a := x.acc + d * khz
    compatAdvance 4 (m.setTimer n { x with acc := a % q }) n (a / q) v) m

/-- The context stands in a debug halt or a park. -/
def Ctx.held (x : Ctx) : Bool := x.hold.halted || x.stat = .parked

/-- TIMER_HALT_TICK: one CLK_TICK edge of a halt or park in native behaviour (R161, R162): it counts the edges of uptime since the hold began, one
at a time. Where the hold ends in an export, the counts go on from where these edges left them (DESIGN CHOICE, log entry 76). -/
def execTimerHaltTick (c : Nat) (s : State) : Host.Outcome State Fault Refusal :=
  match s.ctx? c with
  | none => .next s
  | some x =>
    if x.held && !x.cfg.tcompat && decide (x.hold.since + x.hold.ticks < s.audit.uptime) then
      .next (s.putCtx { x with m := haltTick (modeOf x.cfg.mode).khz x.m (haltVc x), hold := { x.hold with ticks := x.hold.ticks + 1 } })
    else .next s

/-- `n` edges of the native behaviour (R162). -/
def haltTicks (khz v : Nat) : Nat → Mach → Mach
  | 0, m => m
  | n + 1, m => haltTicks khz v n (haltTick khz m v)

/-! ### Register accesses that are rows of their own -/

/-- BM_FRAMEL_READ (R169). -/
def execBmFramelRead (c : Nat) (s : State) : Host.Outcome State Fault Refusal :=
  ctxAccess s c fun e x => let r := bmFramelRead e x.m (accessVc x); some { r.2 with ioData := r.1 }

/-- IC_RAISE (R61). -/
def execIcRaise (c : Nat) (v : Word) (s : State) : Host.Outcome State Fault Refusal :=
  ctxAccess s c fun _ x => some (icRaise x.m v (accessVc x))

/-- OQ_CTL_WRITE (R54). -/
def execOqCtlWrite (c : Nat) (q : Fin 16) (v : Word) (s : State) : Host.Outcome State Fault Refusal :=
  ctxAccess s c fun e x => some (oqCtlWrite e.cfg.prof x.m q v)

/-- AU_COMMIT (R314, R315). -/
def execAuCommit (c : Nat) (v : Word) (s : State) : Host.Outcome State Fault Refusal :=
  ctxAccess s c fun _ x => some (auCommitWrite x.m v (accessVc x))

/-- BU_GO (R247, R248). -/
def execBuGo (c : Nat) (v : Word) (s : State) : Host.Outcome State Fault Refusal :=
  ctxAccess s c fun _ x => some (buGo x.m v (accessVc x))

/-! ### Beam events (R171 to R173) -/

/-- HBALL as it governs an HBLANK position in vc `t` (R172). -/
def hballAt (b : Bm) (t : Nat) : Bool := (if b.ctlFrom < t then b.ctl else b.ctlOld).getLsbD 0

/-- HBLANK_START of the next line (R171, R172). -/
def execHblankStart (c : Nat) (s : State) : Host.Outcome State Fault Refusal :=
  ctxDue s c .hblank fun e m t =>
    let idx := m.cur.hblank
    let m := { m with cur := { m.cur with hblank := idx + 1 } }
    some (if idx % e.mode.vTot < e.mode.vAct || hballAt m.bm t then m.raise 2 t else m)

/-- LINE_COMPARE (R173). -/
def execLineCompare (c : Nat) (s : State) : Host.Outcome State Fault Refusal :=
  ctxDue s c .lineCompare fun _ m t => some ({ m with bm := { m.bm with lcmpDone := t + 1 } }.raise 3 t)

/-! ### Raster lists (R182 to R187) -/

/-- RASTER_LIST_CAPTURE at (V_TOTAL − 1, 0) (R182). -/
def execRasterListCapture (c : Nat) (s : State) : Host.Outcome State Fault Refusal :=
  ctxDue s c .listCapture fun e m _ =>
    let m := { m with cur := { m.cur with capture := m.cur.capture + 1 } }
    let n := m.rl.count.toNat
    let base := m.rl.base.toNat
    if !m.rl.ctl.getLsbD 0 || n = 0 then some { m with rl := { m.rl with captured := none, range := false } }
    else if vramSize e.cfg.prof < base + 8 * n then some { m with rl := { m.rl with captured := none, range := true } }
    else match (List.range (8 * n)).find? fun i => poisonedAt e m 1 (.ram .vram (base + i)) with
    | some i => some (({ m with rl := { m.rl with range := false } }.emit (.consumed (some (.ram .vram (base + i))))).emit (.faulted true))
    | none =>
      let rd (o : Nat) : Word := BitVec.ofNat 32 (memNat m.mem.vram o 4)
      let l : List RlEntry := (List.range n).map fun k => ⟨rd (base + 8 * k), rd (base + 8 * k + 4), false⟩
      some (noteRead e { m with rl := { m.rl with captured := some l, range := false } } (.ram .vram base) (8 * n))

/-- One entry is counted: DONE, RL_SKIP where it is skipped, and source 21 where DONE reaches CAPT (R184, R187). -/
def rlCount (m : Mach) (skipped : Bool) (t : Nat) : Mach :=
  let rl := m.rl
  let m := { m with rl := { rl with doneCnt := rl.doneCnt + 1, skip := if skipped then rl.skip + 1 else rl.skip } }
  if m.rl.doneCnt = m.rl.capt then m.raise 21 t else m

/-- LIST_IN_FORCE in the last vc of a frame, after every entry of the frame's list has acted (R185): the entries without a position are counted, then
the captured list comes into force (R182, R184). -/
def execListInForce (c : Nat) (s : State) : Host.Outcome State Fault Refusal :=
  ctxDue s c .listInForce fun e m t =>
    let m := ((m.rl.inForce.getD []).filter fun r => !rlInFrame e.mode r && !r.done).foldl (fun m _ => rlCount m true t) m
    some { m with
      cur := { m.cur with inForce := m.cur.inForce + 1 }
      rl := { m.rl with inForce := m.rl.captured, captured := none, capt := (m.rl.captured.getD []).length, doneCnt := 0 } }

/-- The write of an entry (R185): stamped at its vc, before any processor store of that vc (R186). -/
def rlWriteReg (e : Env) (m : Mach) (r : RlEntry) (t : Nat) : Mach :=
  match vidMask e.cfg (rlOff r) with
  | none => m
  | some k =>
    let off := rlOff r
    let w : VWrite := { stamp := t, effect := vidEffect e.mode off t, target := .reg off, val := r.w1 &&& k, list := true }
    { m with vid := { m.vid with log := m.vid.log ++ [w], regs := tabPut m.vid.regs off (r.w1 &&& k) } }

/-- RASTER_ENTRY_ACTION (R184 to R187). -/
def execRasterEntryAction (c : Nat) (s : State) : Host.Outcome State Fault Refusal :=
  ctxDue s c .listEntry fun e m t =>
    match m.nextEntry e.cfg with
    | none => none
    | some (k, r, skipped) =>
      let m := if skipped then m else rlWriteReg e m r t
      let done := (m.rl.inForce.getD []).zipIdx.map fun q => if q.2 = k then { q.1 with done := true } else q.1
      some (rlCount { m with rl := { m.rl with inForce := some done } } skipped t)

end Sys2Proof.Machine
end

