-- ==== Sys2Proof/Machine/Picture.lean ====
section
/-! DEFINITION. The picture of a line (07): the state in effect at a position (R178, R193), the layers, their order, colour math and
fade, and the VRAM pages a line's fetches touch (R223, R242). -/
namespace Sys2Proof.Machine

/-- What a line is drawn from: the writes taken into account (R221) over the values in effect before them. -/
structure Pic where
  md : ModeT
  vsize : Nat
  regs : List (Nat × Word)
  vram : List Host.Cell
  writes : List VWrite

/-- Write `b` wins over `a` by R178: later effect point, later stamp, processor over raster list, later in the log. -/
def vBeats (a b : VWrite) : Bool :=
  if a.effect ≠ b.effect then decide (a.effect < b.effect)
  else if a.stamp ≠ b.stamp then decide (a.stamp < b.stamp)
  else !(b.list && !a.list)

def vBest (ws : List VWrite) (t : VTarget) (p : Nat) : Option VWrite :=
  ws.foldl (fun b w => if w.target = t && decide (w.effect ≤ p) then
    (match b with | none => some w | some a => if vBeats a w then some w else some a) else b) none

/-- The value of a register in effect at vc `p` (R178). -/
def Pic.reg (c : Pic) (off p : Nat) : Word :=
  match vBest c.writes (.reg off) p with
  | some w => w.val
  | none => regOf c.regs off

/-- The VRAM byte in effect at vc `p`, its address taken modulo the size (R178, R192). -/
def Pic.byte (c : Pic) (a p : Nat) : Nat :=
  let a := a % c.vsize
  match vBest c.writes (.byte a) p with
  | some w => w.val.toNat % 256
  | none => (memGet c.vram a).toNat

def Pic.num (c : Pic) (a n p : Nat) : Nat := leNat ((List.range n).map fun i => BitVec.ofNat 8 (c.byte (a + i) p))

/-- The VRAM offset of a fetch (R192); its page enters the footprint (R223). -/
def Pic.page (c : Pic) (a : Nat) : Nat := a % c.vsize

/-- A colour with its alpha. -/
structure Px where
  r : Nat
  g : Nat
  b : Nat
  a : Nat
  deriving DecidableEq, Repr

/-- Widening by bit replication (R200). -/
def widen5 (c : Nat) : Nat := c * 8 + c / 4
def widen6 (c : Nat) : Nat := c * 4 + c / 16

/-- A palette word (R207, R208). -/
def palPx (c15 : Bool) (w : Nat) : Px :=
  if c15 then ⟨widen5 (bitsOf w 14 10), widen5 (bitsOf w 9 5), widen5 (bitsOf w 4 0), 255⟩
  else ⟨bitsOf w 23 16, bitsOf w 15 8, bitsOf w 7 0, bitsOf w 31 24⟩

/-- Palette entry (bank, index) at vc `p` (R207). -/
def Pic.pal (c : Pic) (bank index p : Nat) : Px :=
  palPx ((c.reg 0x6800 p).getLsbD 0) (c.reg (0x6000 + bank * 0x400 + index * 4) p).toNat

/-- Pixel (fx, fy) of a tile or pattern whose rows take `row` bytes, at 4 or 8 bpp (R194). -/
def Pic.texel (c : Pic) (base row fx fy : Nat) (bpp8 : Bool) (p : Nat) : Nat × Nat :=
  if bpp8 then let a := base + fy * row + fx; (c.byte a p, c.page a)
  else let a := base + fy * row + fx / 2; (c.byte a p / (if fx % 2 = 0 then 1 else 16) % 16, c.page a)

/-- A layer's pixel at a dot, none where transparent, and the offsets that its map, tile and bitmap fetches touch. -/
structure LayerPx where
  px : Option Px
  pages : List Nat

/-- From "e = map entry" on (R196); `flip` says whether HF and VF act. -/
def Pic.tilePx (c : Pic) (p0 ps pl px py : Nat) (flip : Bool) : LayerPx :=
  let ctl := (c.reg (0x4000 + pl * 0x20) p0).toNat
  let t := if bitOf ctl 1 then 16 else 8
  let bpp8 := bitOf ctl 2
  let mw := 16 * 2 ^ bitsOf ctl 5 4
  let ea := (c.reg (0x4004 + pl * 0x20) p0).toNat + (py / t * mw + px / t) * 4
  let e := c.num ea 4 ps
  let fx := if flip && bitOf e 14 then t - 1 - px % t else px % t
  let fy := if flip && bitOf e 15 then t - 1 - py % t else py % t
  let row := if bpp8 then t else t / 2
  let i := c.texel ((c.reg (0x4008 + pl * 0x20) p0).toNat + bitsOf e 13 0 * (t * row)) row fx fy bpp8 ps
  let index := if bpp8 then i.1 else bitsOf e 19 16 * 16 + i.1
  let bank := bitsOf (c.reg 0x6400 ps).toNat (2 * pl + 1) (2 * pl)
  ⟨if i.1 = 0 then none else some (c.pal bank index ps), [c.page ea, i.2]⟩

/-- LS of plane `pl` at line `l` as an unsigned 16-bit value, and the offset of its entry (R197). -/
def Pic.lineScroll (c : Pic) (p0 pl l : Nat) : Nat × List Nat :=
  if (c.reg (0x4000 + pl * 0x20) p0).getLsbD 3 then
    let a := (c.reg (0x4010 + pl * 0x20) p0).toNat + 2 * l
    (c.num a 2 p0, [c.page a])
  else (0, [])

/-- Affine parameters A, B, C, D, MX, MY of line `l` (R199). -/
def Pic.affine (c : Pic) (p0 l : Nat) : List Int × List Nat :=
  let ctl := (c.reg 0x4090 p0).toNat
  if bitOf ctl 0 then
    let a := bitsOf ctl 20 4 * 16 + 16 * l
    ([signedOf 16 (c.num a 2 p0), signedOf 16 (c.num (a + 2) 2 p0), signedOf 16 (c.num (a + 4) 2 p0), signedOf 16 (c.num (a + 6) 2 p0),
      signedOf 32 (c.num (a + 8) 4 p0), signedOf 32 (c.num (a + 12) 4 p0)], [c.page a])
  else
    let ab := (c.reg 0x4080 p0).toNat; let cd := (c.reg 0x4084 p0).toNat
    ([signedOf 16 ab, signedOf 16 (ab / 65536), signedOf 16 cd, signedOf 16 (cd / 65536), signedOf 32 (c.reg 0x4088 p0).toNat, signedOf 32 (c.reg 0x408C p0).toNat], [])

/-- Plane 0 affine at dot (x, l) (R198). -/
def Pic.affinePx (c : Pic) (p0 ps x l : Nat) : LayerPx :=
  let ctl := (c.reg 0x4000 p0).toNat
  let t := if bitOf ctl 1 then 16 else 8
  let mw : Nat := 16 * 2 ^ bitsOf ctl 5 4 * t
  let mh : Nat := 16 * 2 ^ bitsOf ctl 7 6 * t
  let af := c.affine p0 l
  let k (i : Nat) : Int := af.1.getD i 0
  let piv := (c.reg 0x4094 p0).toNat
  let dx : Int := x - signedOf 11 piv
  let dy : Int := l - signedOf 11 (piv / 65536)
  let px := (k 4 + k 0 * dx + k 1 * dy) / 256
  let py := (k 5 + k 2 * dx + k 3 * dy) / 256
  if (c.reg 0x4090 p0).getLsbD 1 && (decide (px < 0) || decide ((mw : Int) ≤ px) || decide (py < 0) || decide ((mh : Int) ≤ py)) then ⟨none, []⟩
  else
    c.tilePx p0 ps 0 (px % (mw : Int)).toNat (py % (mh : Int)).toNat false

/-- A 16-bit pixel by format (R200, R246): its channels and alpha. -/
def px16 (fmt v : Nat) : Px :=
  match fmt with
  | 1 => ⟨widen5 (bitsOf v 14 10), widen5 (bitsOf v 9 5), widen5 (bitsOf v 4 0), if bitOf v 15 then 255 else 0⟩
  | 2 => ⟨bitsOf v 11 8 * 17, bitsOf v 7 4 * 17, bitsOf v 3 0 * 17, bitsOf v 15 12 * 17⟩
  | _ => ⟨widen5 (bitsOf v 15 11), widen6 (bitsOf v 10 5), widen5 (bitsOf v 4 0), 255⟩

/-- Plane 3 as a bitmap (R200). -/
def Pic.bitmapPx (c : Pic) (p0 ps x l : Nat) : LayerPx :=
  let g := (c.reg 0x4074 p0).toNat
  let sc := (c.reg 0x406C p0).toNat
  let ls := c.lineScroll p0 3 l
  let px := (x + sc % 65536 + ls.1) % 65536
  let py := (l + sc / 65536) % 65536
  let pitch := bitsOf g 8 0
  if pitch * 8 ≤ px ∨ bitsOf g 25 16 ≤ py then ⟨none, []⟩
  else
    let a := (c.reg 0x4064 p0).toNat + py * pitch * 16 + px * 2
    let v := c.num a 2 ps
    ⟨if bitsOf g 10 9 = 1 && !bitOf v 15 then none else some (px16 (bitsOf g 10 9) v), [c.page a, c.page (a + 1)]⟩

/-- The layer pixel of plane `pl` at dot (x, l); `p0` is the vc of (l, 0), `ps` that of the span (R196 to R200). -/
def Pic.planePx (c : Pic) (p0 ps pl x l : Nat) : LayerPx :=
  let ctl := (c.reg (0x4000 + pl * 0x20) p0).toNat
  if pl = 0 && bitOf ctl 10 then c.affinePx p0 ps x l
  else if pl = 3 && bitOf ctl 11 then c.bitmapPx p0 ps x l
  else
    let t := if bitOf ctl 1 then 16 else 8
    let sc := (c.reg (0x400C + pl * 0x20) p0).toNat
    let ls := c.lineScroll p0 pl l
    c.tilePx p0 ps pl ((x + sc % 65536 + ls.1) % (16 * 2 ^ bitsOf ctl 5 4 * t)) ((l + sc / 65536) % (16 * 2 ^ bitsOf ctl 7 6 * t)) true

/-! ### Sprites (R202 to R205) -/

structure Sprite where
  x : Int
  y : Int
  pat : Nat
  w : Nat
  h : Nat
  hf : Bool
  vf : Bool
  bpp8 : Bool
  en : Bool
  pline : Nat
  bank : Nat
  prio : Nat
  math : Bool
  deriving DecidableEq, Repr

/-- Entry `k` of the sprite table as in effect at vc `p0` (R193, R202). -/
def Pic.sprite (c : Pic) (p0 k : Nat) : Sprite :=
  let a := (c.reg 0x5004 p0).toNat + 16 * k
  let w0 := c.num a 4 p0; let w1 := c.num (a + 4) 4 p0; let w2 := c.num (a + 8) 4 p0
  { x := signedOf 11 w0, y := signedOf 11 (w0 / 65536), pat := bitsOf w1 15 0, w := 8 * 2 ^ bitsOf w1 17 16, h := 8 * 2 ^ bitsOf w1 19 18
    hf := bitOf w1 20, vf := bitOf w1 21, bpp8 := bitOf w1 22, en := bitOf w1 23
    pline := bitsOf w2 3 0, bank := bitsOf w2 5 4, prio := bitsOf w2 7 6, math := bitOf w2 8 }

/-- The checked words of the sprite table, which sprite evaluation reads (R203, R204, R495). -/
def Pic.tableWords (c : Pic) (p0 : Nat) : List Nat :=
  if (c.reg 0x5000 p0).getLsbD 0 then
    (List.range 256).flatMap fun k => [c.page ((c.reg 0x5004 p0).toNat + 16 * k), c.page ((c.reg 0x5004 p0).toNat + 16 * k + 8)]
  else []

/-- The entries that qualify on line `l`, in ascending order (R204). -/
def Pic.qualifying (c : Pic) (p0 l : Nat) : List Nat :=
  if (c.reg 0x5000 p0).getLsbD 0 then
    (List.range 256).filter fun k => let s := c.sprite p0 k; s.en && decide (s.y ≤ l) && decide ((l : Int) ≤ s.y + s.h - 1)
  else []

/-- The pixel of a sprite at dot (x, l), none outside it (R203). -/
def Pic.spriteTexel (c : Pic) (p0 ps : Nat) (s : Sprite) (x l : Nat) : Option (Nat × Nat) :=
  let cx := (x : Int) - s.x; let cy := (l : Int) - s.y
  if 0 ≤ cx ∧ cx < s.w ∧ 0 ≤ cy ∧ cy < s.h then
    let cx := if s.hf then s.w - 1 - cx.toNat else cx.toNat
    let cy := if s.vf then s.h - 1 - cy.toNat else cy.toNat
    some (c.texel ((c.reg 0x5008 p0).toNat + s.pat * 32) (if s.bpp8 then s.w else s.w / 2) cx cy s.bpp8 ps)
  else none

/-- The sprite layer pixel (R205): the lowest-numbered sprite that covers the dot with a non-transparent pixel. -/
def Pic.spritePx (c : Pic) (p0 ps x l : Nat) (sel : List Sprite) : Option (Px × Sprite) :=
  sel.findSome? fun s =>
    match c.spriteTexel p0 ps s x l with
    | some (i, _) => if i = 0 then none else some (c.pal s.bank (if s.bpp8 then i else s.pline * 16 + i) ps, s)
    | none => none

/-! ### Windows (R209, R210) -/

def Pic.inWin (c : Pic) (p0 n x l : Nat) : Bool :=
  let h := (c.reg (0x7100 + 8 * n) p0).toNat; let v := (c.reg (0x7104 + 8 * n) p0).toNat
  decide (bitsOf h 9 0 ≤ x) && decide (x ≤ bitsOf h 25 16) && decide (bitsOf v 9 0 ≤ l) && decide (l ≤ bitsOf v 25 16)

/-- The window function of slot `k` (R210). -/
def Pic.winFn (c : Pic) (p0 k x l : Nat) : Bool :=
  bitOf (c.reg (0x7110 + 4 * k) p0).toNat ((c.inWin p0 0 x l).toNat + 2 * (c.inWin p0 1 x l).toNat)

/-! ### Order and colour math (R211 to R214) -/

/-- A shown pixel: colour, effective mode, α. -/
structure Shown where
  px : Px
  mode : Nat
  alpha : Nat
  deriving DecidableEq, Repr

/-- Effective mode and α (R212): codes 5 to 7 and slot 5 act as OPAQUE, PPA takes the pixel's own alpha. -/
def shownOf (px : Px) (mode const : Nat) (opaque_ : Bool) : Shown :=
  let mode := if opaque_ || decide (4 < mode) then 0 else mode
  ⟨px, mode, if mode = 2 then px.a else const⟩

def mixCh (mode α c s : Nat) : Nat :=
  match mode with
  | 1 | 2 => (s * α + c * (255 - α) + 127) / 255
  | 3 => min 255 (c + (s * α + 127) / 255)
  | 4 => c - (s * α + 127) / 255
  | _ => s

def mixPx (c : Px) (s : Shown) : Px :=
  ⟨mixCh s.mode s.alpha c.r s.px.r, mixCh s.mode s.alpha c.g s.px.g, mixCh s.mode s.alpha c.b s.px.b, 255⟩

/-- CM_FADE (R214). -/
def fadeCh (w c : Nat) : Nat :=
  let lv := bitsOf w 7 0
  if bitOf w 8 then c + ((255 - c) * lv + 127) / 255 else c - (c * lv + 127) / 255

def planeEn (c : Pic) (p0 pl : Nat) : Bool := (c.reg (0x4000 + pl * 0x20) p0).getLsbD 0
def planePrio (c : Pic) (p0 pl : Nat) : Nat := bitsOf (c.reg (0x4000 + pl * 0x20) p0).toNat 9 8

/-- The shown pixels of a dot from front to back (R211), each with its layer: 0 to 3 the planes, 4 the sprite layer. -/
def Pic.shown (c : Pic) (p0 ps x l : Nat) (sel : List Sprite) : List (Nat × Shown) :=
  let w5 := c.winFn p0 5 x l
  let cm := (c.reg 0x7000 ps).toNat
  let al := (c.reg 0x7004 ps).toNat
  let spr := if c.winFn p0 4 x l then none else c.spritePx p0 ps x l sel
  let plane (pl : Nat) : List (Nat × Shown) :=
    if planeEn c p0 pl && !c.winFn p0 pl x l then
      match (c.planePx p0 ps pl x l).px with
      | some q => [(pl, shownOf q (bitsOf cm (4 * pl + 2) (4 * pl)) (bitsOf al (8 * pl + 7) (8 * pl)) w5)]
      | none => []
    else []
  [3, 2, 1, 0].flatMap fun prio =>
    (match spr with
      | some (q, s) => if s.prio = prio then
          [(4, shownOf q (if s.math then bitsOf cm 18 16 else 0) (bitsOf (c.reg 0x7008 ps).toNat 7 0) w5)] else []
      | none => [])
    ++ ((List.range 4).filter fun pl => planePrio c p0 pl = prio).flatMap plane

/-- The colour of a dot (R191, R213, R214). -/
def Pic.dot (c : Pic) (p0 ps x l : Nat) (sel : List Sprite) : Px :=
  let b := (c.reg 0x6000 ps).toNat
  let back := palPx ((c.reg 0x6800 ps).getLsbD 0) b
  let q := (c.shown p0 ps x l sel).foldr (fun s acc => mixPx acc s.2) back
  let f := (c.reg 0x700C ps).toNat
  ⟨fadeCh f q.r, fadeCh f q.g, fadeCh f q.b, 255⟩

/-- A layer in front of layer `k` covers the dot (R215). -/
def coveredBefore (l : List (Nat × Shown)) (k : Nat) : Bool :=
  match l with
  | [] => false
  | (j, s) :: r => if j = k then false else (s.mode = 0) || coveredBefore r k

/-- Whether layer `k` is hidden by its window at every dot of the span from `x0` (R242). -/
def Pic.spanHidden (c : Pic) (p0 k x0 l : Nat) : Bool := (List.range 8).all fun i => c.winFn p0 k (x0 + i) l

/-- The dots of a span at which an opaque plane with PRIO above `pr`, in front of a sprite of priority `pr`, covers (R211, R215). -/
def Pic.planeCovers (c : Pic) (p0 ps x l pr : Nat) (sel : List Sprite) : Bool :=
  (c.shown p0 ps x l sel).any fun q => q.2.mode = 0 && decide (q.1 < 4) && decide (pr < planePrio c p0 q.1)

/-- The greatest priority that the sprite layer pixel of a dot can have: that of the sprites whose boxes hold the dot, none where no sprite's does. -/
def Pic.spriteTop (c : Pic) (p0 ps x l : Nat) (sel : List Sprite) : Option Nat :=
  (sel.filterMap fun s => (c.spriteTexel p0 ps s x l).map fun _ => s.prio).foldl (fun b p => some (max (b.getD 0) p)) none

/-- The offsets that the map, tile, bitmap and pattern fetches of one span touch (R223, R242). A plane that shows nothing at a dot is taken as behind
every shown pixel of higher place. Which sprite gives the pixel of a dot only the patterns show (R205), so the sprite layer's patterns are left out as a
whole, where at every dot of the span an opaque plane covers whatever sprite pixel it could have: skipping changes no colour (R215, R242). -/
def Pic.spanPages (c : Pic) (p0 ps x0 l : Nat) (sel : List Sprite) : List Nat :=
  let dots := (List.range 8).map fun i => x0 + i
  let plane (pl : Nat) : List Nat :=
    let front (x : Nat) : Bool := (c.shown p0 ps x l sel).any fun q => q.2.mode = 0 && q.1 ≠ pl &&
      (let pr := planePrio c p0 pl
       if q.1 = 4 then (match c.spritePx p0 ps x l sel with | some (_, s) => decide (pr ≤ s.prio) | none => false)
       else decide (pr < planePrio c p0 q.1) || (planePrio c p0 q.1 = pr && decide (q.1 < pl)))
    if planeEn c p0 pl && !c.spanHidden p0 pl x0 l && dots.any (fun x => !front x) then
      dots.flatMap fun x => (c.planePx p0 ps pl x l).pages
    else []
  let behind (x : Nat) : Bool := match c.spriteTop p0 ps x l sel with | some pr => c.planeCovers p0 ps x l pr sel | none => true
  let spr := if c.spanHidden p0 4 x0 l || dots.all behind then [] else
    sel.flatMap fun s => dots.filterMap fun x => (c.spriteTexel p0 ps s x l).map fun q => q.2
  (List.range 4).flatMap plane ++ spr

/-- The vc of the first dot of the span that begins at dot `x0` of the line that begins in vc `p0`. -/
def Pic.spanVc (c : Pic) (p0 x0 : Nat) : Nat := p0 + x0 * c.md.dotdiv

/-- The line-scroll and affine entries that line `l` reads (R197, R199, R223): those of every enabled plane that its window does not hide over the whole
line. R242 and R268 name only map, tile, bitmap and pattern data as what is skipped, so that neither a plane in front nor the Reticle skips them
(DEDUCED, log entry 70). -/
def Pic.entryPages (c : Pic) (p0 l : Nat) : List Nat :=
  (List.range 4).flatMap fun pl =>
    if planeEn c p0 pl && (List.range (c.md.hAct / 8)).any fun s => !c.spanHidden p0 pl (8 * s) l then
      (if pl = 0 && (c.reg 0x4000 p0).getLsbD 10 then (c.affine p0 l).2 else (c.lineScroll p0 pl l).2)
    else []

/-- Line `l` that begins in vc `p0`: its colours, the offsets that its sprite evaluation and its line entries read, and those that each span's fetches
take (R180, R191, R223). -/
def Pic.line (c : Pic) (p0 l : Nat) : List Px × List Nat × List (List Nat) :=
  let sel := ((c.qualifying p0 l).take 64).map (c.sprite p0)
  let px := (List.range c.md.hAct).map fun x => c.dot p0 (c.spanVc p0 (x / 8 * 8)) x l sel
  (px, c.tableWords p0 ++ c.entryPages p0 l, (List.range (c.md.hAct / 8)).map fun s => c.spanPages p0 (c.spanVc p0 (8 * s)) (8 * s) l sel)

/-! ### The state a line is drawn from (R221) -/

/-- The writes still to come of a raster list that serves frame `f` (R186, R221); those that have acted are in the log. -/
def listWrites (cfg : Cfg) (md : ModeT) (f : Nat) (l : List RlEntry) : List VWrite :=
  (rlSkips cfg md l none).filterMap fun p =>
    match vidMask cfg (rlOff p.1) with
    | some k => if p.2 || p.1.done then none else
        let t := rlVc md f p.1
        some { stamp := t, effect := vidEffect md (rlOff p.1) t, target := .reg (rlOff p.1), val := p.1.w1 &&& k, list := true }
    | none => none

/-- The picture state for frame `f` as it is known: every logged write, which has retired, a blit row's with it, and every write of a raster list, those
of the list in force that have not yet acted and, for the frame after it, those of the captured list (R180, R186, R221, R261). -/
def picOf (e : Env) (m : Mach) (f : Nat) : Pic :=
  let md := e.mode
  let g := m.cur.inForce
  let next := if g < f then listWrites e.cfg md (g + 1) (m.rl.captured.getD []) else []
  { md := md, vsize := vramSize e.cfg.prof, regs := m.vid.shownRegs, vram := m.vid.shownVram
    writes := m.vid.log ++ listWrites e.cfg md g (m.rl.inForce.getD []) ++ next }

/-- Writes of the log whose effect point is at or before vc `p` become the values in effect before the log; no line is drawn from a
state before that any more. -/
def foldLog (v : Vid) (p : Nat) : Vid :=
  let c : Pic := { md := modeOf 0, vsize := 0x200000, regs := v.shownRegs, vram := v.shownVram, writes := v.log }
  let old := v.log.filter fun w => decide (w.effect ≤ p)
  let regs := old.foldl (fun r w => match w.target with | .reg off => tabPut r off (c.reg off p) | .byte _ => r) v.shownRegs
  let vr := old.foldl (fun r w => match w.target with | .byte a => memPut r a (BitVec.ofNat 8 (c.byte a p)) | .reg _ => r) v.shownVram
  { v with shownRegs := regs, shownVram := vr, log := v.log.filter fun w => decide (p < w.effect) }

end Sys2Proof.Machine
end

