-- ==== Sys2Proof/Machine/Blit.lean ====
section
/-! DEFINITION. The block unit (09): checks at start, order, rows and their results (R245 to R261). -/
namespace Sys2Proof.Machine

/-- First and last byte of the byte span (R245). -/
def Rect.lo (r : Rect) : Nat := r.row 0
def Rect.hi (r : Rect) : Nat := r.row (r.h - 1) + r.w * r.b - 1

/-- The span lies wholly within one of the memories a side may use (R250). -/
def spanOk (e : Env) (m : Mach) (r : Rect) (src : Bool) : Bool :=
  match mapLoc e.cfg.prof m.img.len r.lo, mapLoc e.cfg.prof m.img.len r.hi with
  | some (.ram a _), some (.ram b _) => decide (a = b)
  | some (.image _), some (.image _) => src
  | _, _ => false

/-- The windows that a level 0 blit needs over its span (R117, R250). -/
def spanWin (m : Mach) (r : Rect) (acc : Acc) : Bool :=
  (List.range (r.hi / 4096 + 1 - r.lo / 4096)).all fun i => m.winOk acc ((r.lo / 4096 + i) * 4096)

/-- RANGE conditions of one surface; those that depend on b only where the format has one (R250). -/
def rectRange (e : Env) (m : Mach) (r : Rect) (src : Bool) (lv : Nat) : Bool :=
  r.pitch = 0 ||
  (r.b ≠ 0 && (decide (r.pitch * 16 / r.b < r.x + r.w) || r.base % r.b ≠ 0 || !spanOk e m r src
    || (lv = 0 && !spanWin m r (if src then .read else .write))))

/-- The spans share a byte (R251). -/
def overlaps (a b : Rect) : Bool := decide (a.lo ≤ b.hi) && decide (b.lo ≤ a.hi)

/-- The two bases differ by a whole number of rows of equal pitch and format (R251). -/
def oneSurface (s d : Rect) : Bool :=
  s.pitch = d.pitch && s.fmt = d.fmt && (max s.base d.base - min s.base d.base) % (s.pitch * 16) = 0

/-- BU_ERR bits of R250: ALIAS 1, RANGE 2, FMT 4. -/
def blitErrors (e : Env) (m : Mach) (c : BlitCmd) : Nat :=
  let op := blitOp c
  let s := srcRect c; let d := dstRect c
  let two := op = 0 ∨ op = 2 ∨ op = 3
  let fmt : Bool := decide (4 < d.fmt) || decide (3 < op) || (decide two && (decide (4 < s.fmt) || (op = 0 && s.fmt ≠ d.fmt)
    || (op ≠ 0 && (s.fmt = 3 || d.fmt = 3))))
  let range : Bool := rectRange e m d false c.lv || (decide two && rectRange e m s true c.lv)
  let alias_ : Bool := decide two && s.b ≠ 0 && d.b ≠ 0 && overlaps s d && !oneSurface s d
  alias_.toNat + 2 * range.toNat + 4 * fmt.toNat

/-- ORDER (R252): bit 0 rows bottom-up, bit 1 columns right-to-left. It is 0 too for a blit that R250 refuses and R252 does not cover, one whose rectangles
overlap on two surfaces or whose FMT or OP is reserved (DESIGN CHOICE, log entry 81). -/
def blitOrder (c : BlitCmd) : Nat :=
  let s := srcRect c; let d := dstRect c
  if (blitOp c = 0 ∨ blitOp c = 2 ∨ blitOp c = 3) ∧ s.b ≠ 0 ∧ overlaps s d ∧ oneSurface s d then
    let rows (a b : Rect) : Nat := (a.base - min a.base b.base) / (a.pitch * 16)
    (decide (s.y + rows s d ≤ d.y + rows d s)).toNat + 2 * (decide (s.x ≤ d.x)).toNat
  else 0

/-- The destination row of the next row in processing order. -/
def nextRow (r : BlitRun) : Nat := if r.bottomUp then blitHm1 r.cmd - r.rows else r.rows

/-! ### Pixels (R246, R255) -/

def pxOfFmt (fmt v : Nat) : Px := if fmt = 4 then ⟨bitsOf v 23 16, bitsOf v 15 8, bitsOf v 7 0, bitsOf v 31 24⟩ else px16 fmt v

def narrow (n c : Nat) : Nat := (c * (2 ^ n - 1) + 127) / 255

def packFmt (fmt : Nat) (p : Px) : Nat :=
  match fmt with
  | 0 => narrow 5 p.r * 2048 + narrow 6 p.g * 32 + narrow 5 p.b
  | 1 => (decide (128 ≤ p.a)).toNat * 32768 + narrow 5 p.r * 1024 + narrow 5 p.g * 32 + narrow 5 p.b
  | 2 => narrow 4 p.a * 4096 + narrow 4 p.r * 256 + narrow 4 p.g * 16 + narrow 4 p.b
  | _ => p.a * 16777216 + p.r * 65536 + p.g * 256 + p.b

/-- BLEND and BLENDP of one pixel (R255). -/
def blendPx (op k : Nat) (s d : Px) : Px :=
  let al := if op = 2 then k else (s.a * k + 127) / 255
  let ch (x y : Nat) : Nat := (x * al + y * (255 - al) + 127) / 255
  ⟨ch s.r d.r, ch s.g d.g, ch s.b d.b, al + (d.a * (255 - al) + 127) / 255⟩

/-- `n` bytes from address `a` on, which R250 has found in the map. Where a resumption has put a shorter image in force since then (R43), so that `a` is in
the map no longer, they read as zeros, as do bytes past its end (DESIGN CHOICE, log entry 81). -/
def spanBytes (e : Env) (m : Mach) (a n : Nat) : List Byte :=
  match mapLoc e.cfg.prof m.img.len a with
  | some l => (List.range n).map fun i => byteAt e m (l.plus i)
  | none => zeros n

/-- Groups of `b` bytes as numbers. -/
def pixelsOf (b : Nat) (bs : List Byte) : List Nat := (List.range (bs.length / b)).map fun i => leNat ((bs.drop (i * b)).take b)

/-- The bytes that destination row `k` takes (R253 to R255). -/
def rowBytes (e : Env) (m : Mach) (c : BlitCmd) (k : Nat) : List Byte :=
  let s := srcRect c; let d := dstRect c
  match blitOp c with
  | 1 => (List.replicate d.w (leBytes d.b c.fill.toNat)).flatten
  | 0 => spanBytes e m (s.row k) (s.w * s.b)
  | op =>
    let sp := pixelsOf s.b (spanBytes e m (s.row k) (s.w * s.b))
    let dp := pixelsOf d.b (spanBytes e m (d.row k) (d.w * d.b))
    (sp.zip dp).flatMap fun p => leBytes d.b (packFmt d.fmt (blendPx op (blitAlpha c) (pxOfFmt s.fmt p.1) (pxOfFmt d.fmt p.2)))

/-- The reads of a row: its ranges of the source and, for a blend, of the destination. -/
def rowReads (c : BlitCmd) (k : Nat) : List (Nat × Nat) :=
  let s := srcRect c; let d := dstRect c
  match blitOp c with
  | 1 => []
  | 0 => [(s.row k, s.w * s.b)]
  | _ => [(s.row k, s.w * s.b), (d.row k, d.w * d.b)]

/-- A row's reads use poisoned data: the first such byte (R499). -/
def readsPoison (e : Env) (m : Mach) (rs : List (Nat × Nat)) : Option (Option HbmAt) :=
  rs.findSome? fun r => match mapLoc e.cfg.prof m.img.len r.1 with
    | some l => ((List.range r.2).find? fun i => poisonedAt e m 1 (l.plus i)).map fun i => (l.plus i).hbm?
    | none => none

/-- Note the checked 64-bit words that a row's reads touch (R496). -/
def noteReads (e : Env) (m : Mach) (rs : List (Nat × Nat)) : Mach :=
  rs.foldl (fun m r => match mapLoc e.cfg.prof m.img.len r.1 with
    | some l => noteRead e m l r.2
    | none => m) m

/-! ### Start and rows (R249 to R259) -/

/-- The running blit ends in vc `t` (R249). -/
def blitEnd (m : Mach) (t : Nat) : Mach := { m with bu := { m.bu with run := none, freeVc := t + 1 } }

/-- An error ends the blit in vc `t` (R250, R258). -/
def blitError (m : Mach) (c : BlitCmd) (bits t : Nat) : Mach :=
  blitEnd ({ m with bu := { m.bu with err := m.bu.err.set (BitVec.ofNat 32 bits) t, errSeq := c.seq } }.raise 14 t) t

/-- BLIT_START: the oldest accepted blit is checked and ordered in its start vc (R249 to R252). -/
def execBlitStart (c : Nat) (s : State) : Host.Outcome State Fault Refusal :=
  ctxDue s c .blitStart fun e m t =>
    match m.bu.queue with
    | [] => none
    | b :: rest =>
      let err := blitErrors e m b
      let order := blitOrder b
      let run : BlitRun := { cmd := b, start := t, bottomUp := order % 2 = 1 }
      let m := { m with bu := { m.bu with queue := rest, run := some run, order := order, rowsDone := 0 } }
      some (if err = 0 then m else blitError m b err t)

/-- The work of a row that no protected byte and no poison stops (R253, R258, R259). -/
def blitRowDone (e : Env) (m : Mach) (r : BlitRun) (t : Nat) (mem : Ram) (off : Nat) : Mach :=
  let k := nextRow r
  let hm1 := blitHm1 r.cmd
  let m := (noteReads e m (rowReads r.cmd k)).putRam e mem off (rowBytes e m r.cmd k) t
  let w := min (bitsOf r.cmd.mer.toNat 9 0) hm1
  let mer := blitMen r.cmd && !r.merDone && (if r.bottomUp then r.rows = hm1 else r.rows = w)
  let m := { m with bu := { m.bu with run := some { r with rows := r.rows + 1, merDone := r.merDone || mer }, rowsDone := r.rows + 1 } }
  let m := if mer then m.raise 13 t else m
  if r.rows = hm1 then blitEnd (m.raise 12 t) t else m

/-- BLIT_ROW: one destination row in its row vc (R253 to R260). A row that would write a protected byte ends the blit with PROT, whatever its reads meet
(DESIGN CHOICE, log entry 81: R258 does not order the check and poison in the reads). -/
def execBlitRow (c : Nat) (s : State) : Host.Outcome State Fault Refusal :=
  ctxDueWith s c .blitRow fun e x t =>
    let m := x.m
    match m.bu.run with
    | none => none
    | some r =>
      let d := dstRect r.cmd
      match mapLoc e.cfg.prof m.img.len (d.row (nextRow r)) with
      | some (.ram mem off) =>
        let n := d.w * d.b
        if mem = .work && (m.guardedByte off n).isSome then some (blitError m r.cmd 8 t, id)
        else match readsPoison e m (rowReads r.cmd (nextRow r)) with
          | some q => some ((m.emit (.consumed q)).emit (.faulted true), id)
          | none => some (blitRowDone e m r t mem off, fun x => x.addMeter 30 n)
      | _ => none

/-- The first vc that the line engines do not yet know through: that of the next instruction, or of the blitter's next row or start (R220). -/
def Ctx.knownVc (x : Ctx) : Nat :=
  match x.m.bu.nextVc with
  | some t => min x.now t
  | none => x.now

end Sys2Proof.Machine
end

