-- ==== Sys2Proof/Machine/Olc.lean ====
section
/-! DEFINITION. The OLC coding of slice payloads (R278 to R283): the decoder that every valid payload satisfies, the coding of literals alone,
and the payload the device chooses. A colour is a number of 24 bits with red in its top byte. -/
namespace Sys2Proof.Machine

/-- The three bytes of a committed colour: red, green, blue (R270, R280, R283). -/
def rgbBytes (p : Nat) : List Nat := [bitsOf p 23 16, bitsOf p 15 8, bitsOf p 7 0]

/-- The colour that three bytes give. -/
def rgbOf (r g b : Byte) : Nat := r.toNat * 65536 + g.toNat * 256 + b.toNat

/-- RAW payload (R283). -/
def rawPayload (lines : List (List Nat)) : List Byte := (lines.flatMap fun l => l.flatMap rgbBytes).map (BitVec.ofNat 8)

/-! ### The decoder (R278 to R282) -/

/-- The state of the decoder: colour table, cursor, finished lines, pixels of the line in work. At the start of a slice the table is black and the
cursor 0 (R279). -/
structure OlcSt where
  table : List Nat := List.replicate 256 0
  cursor : Nat := 0
  done : List (List Nat) := []
  cur : List Nat := []
  deriving DecidableEq, Repr

/-- Each pixel of a LITERAL goes to the table entry at the cursor (R281). -/
def OlcSt.write (d : OlcSt) (px : List Nat) : OlcSt :=
  px.foldl (fun d p => { d with table := d.table.set d.cursor p, cursor := (d.cursor + 1) % 256 }) d

/-- The pixels of an operation join the line; a full line is finished (R278). -/
def OlcSt.put (d : OlcSt) (w : Nat) (px : List Nat) : OlcSt :=
  let l := d.cur ++ px
  if l.length = w then { d with done := d.done ++ [l], cur := [] } else { d with cur := l }

/-- The colours of a LITERAL of `n` pixels, and the bytes after it (R280). -/
def literalPx : Nat → List Byte → Option (List Nat × List Byte)
  | 0, bs => some ([], bs)
  | n + 1, r :: g :: b :: bs => (literalPx n bs).map fun q => (rgbOf r g b :: q.1, q.2)
  | _ + 1, _ => none

/-- One operation with op byte `b` (R280): the decoder after it and the bytes left, none where R282 makes it invalid. -/
def olcOp (w : Nat) (d : OlcSt) (b : Byte) (bs : List Byte) : Option (OlcSt × List Byte) :=
  let n := b.toNat % 64 + 1
  if w < d.cur.length + n then none
  else match b.toNat / 64 with
    | 0 => d.done.getLast?.map fun up => (d.put w ((up.drop d.cur.length).take n), bs)
    | 1 => d.cur.getLast?.map fun p => (d.put w (List.replicate n p), bs)
    | 2 => match bs with
      | [] => none
      | i :: bs => some (d.put w (List.replicate n (d.table.getD i.toNat 0)), bs)
    | _ => (literalPx n bs).map fun q => ((d.write q.1).put w q.1, q.2)

/-- Operations until `h` lines are complete and no byte is left; `k` bounds their number. -/
def olcRun (w h : Nat) : Nat → OlcSt → List Byte → Option (List (List Nat))
  | 0, _, _ => none
  | k + 1, d, bs =>
    if d.done.length = h then (if bs.isEmpty then some d.done else none)
    else match bs with
      | [] => none
      | b :: bs => match olcOp w d b bs with
        | none => none
        | some r => olcRun w h k r.1 r.2

/-- The lines that a payload of `h` lines of `w` pixels codes; none where it is invalid (R282). -/
def decodeOlc (w h : Nat) (bs : List Byte) : Option (List (List Nat)) := olcRun w h (bs.length + 1) {} bs

/-! ### The device's payload -/

/-- A line coded in LITERAL operations of up to 64 pixels; `k` bounds their number. -/
def literalLine : Nat → List Nat → List Byte
  | 0, _ => []
  | _ + 1, [] => []
  | k + 1, p :: l => BitVec.ofNat 8 (0xC0 + (((p :: l).take 64).length - 1)) :: (((p :: l).take 64).flatMap rgbBytes).map (BitVec.ofNat 8)
      ++ literalLine k ((p :: l).drop 64)

/-- The OLC form of a slice: the valid stream that the codec engines choose (R282), `Config.olc` where that is one, else the coding in literals. -/
def olcForm (lines : List (List Nat)) : List Byte :=
  let w := (lines.headD []).length
  if decodeOlc w lines.length (Config.olc lines) = some lines then Config.olc lines else lines.flatMap fun l => literalLine l.length l

end Sys2Proof.Machine
end

