-- ==== Sys2Proof/Machine/Egress.lean ====
section
/-! DEFINITION. Sealing of outbound messages (R286 to R288) and the room a queue has for them (R277, R289, R291, R388). -/
namespace Sys2Proof.Machine

def Ctx.qkey (x : Ctx) (q : Nat) : QKey := x.keys[q % 16]

def Ctx.setQkey (x : Ctx) (q : Nat) (k : QKey) : Ctx := { x with keys := x.keys.set (q % 16) k (Nat.mod_lt _ (by decide)) }

/-- R288: valid from installation until CTR would pass 2^48 - 1. -/
def QKey.valid (k : QKey) : Bool := k.key.isSome && decide (k.ctr < 2 ^ 48)

/-- The 16-byte envelope (R286). -/
def envelopeOf (q n : Nat) (k : QKey) : List Byte := le 4 n ++ [BitVec.ofNat 8 (q % 16), 0x01] ++ le 4 k.sid.toNat ++ le 6 k.ctr

/-- The 96-bit nonce: SID, queue, 0x00, CTR most significant byte first (R287). -/
def nonceOf (q : Nat) (k : QKey) : List Byte := le 4 k.sid.toNat ++ [BitVec.ofNat 8 (q % 16), 0x00] ++ (le 6 k.ctr).reverse

/-- Envelope, ciphertext and tag of a message (R286, R287). -/
def sealBytes (k : QKey) (q : Nat) (plain : List Byte) : List Byte :=
  let env := envelopeOf q plain.length k
  env ++ gcmSeal (le 32 (k.key.getD 0)) (nonceOf q k) env plain

/-- Seal the plaintext of one message: CTR increases by one (R288). -/
def sealMsg (x : Ctx) (o : OutMsg) (plain : List Byte) : OutMsg × Ctx :=
  let k := x.qkey o.queue
  ({ o with sealed := some (k.sid, k.ctr, sealBytes k o.queue plain) }, x.setQkey o.queue { k with ctr := k.ctr + 1 })

/-! ### Descriptors -/

/-- A descriptor as its 32 bytes spell it, little-endian (R7, R383): ADDR at 0, LEN at 8, CTL at 23. -/
def descOf (b : RawDesc) : Desc :=
  let ctl := numAt b 23 1
  { addr := numAt b 0 8, len := BitVec.ofNat 32 (numAt b 8 4), own := ctl % 2 = 1, last := ctl / 2 % 2 = 1, rsvd := decide (4 ≤ ctl) }

/-- R383, R384: LEN 0 or a reserved bit set. -/
def badDesc (d : Desc) : Bool := d.len = 0 || decide (2 ^ 24 ≤ d.len.toNat) || d.rsvd

/-- Lay `n` bytes into descriptors in order, leaving out BADDESC ones: each with the bytes it takes, and the rest; none where they do
not hold them (R388). -/
def fillDescs : List Desc → Nat → Option (List (Desc × Nat) × List Desc)
  | ds, 0 => some ([], ds)
  | [], _ + 1 => none
  | d :: ds, n => if badDesc d then (fillDescs ds n).map fun r => ((d, 0) :: r.1, r.2)
    else (fillDescs ds (n - min n d.len.toNat)).map fun r => ((d, min n d.len.toNat) :: r.1, r.2)

def Queue.en (q : Queue) : Bool := q.opt.getLsbD 0
def Queue.raw (q : Queue) : Bool := q.opt.getLsbD 3
def Queue.holdConfirmed (q : Queue) : Bool := q.opt.getLsbD 4

/-- DMA of a port runs: it is not stopped (R376, R402), and no thermal trip has stopped its clock (R488). -/
def portUp (s : State) (p : Nat) : Bool := !(s.func p).dis && (s.func p).busMaster && !(s.func p).d3hot && !s.gpio.thermtrip

/-- The queue of a context that carries messages now: enabled, its port's DMA running, its context not FAULTED, and for queues 9 to 15
its own EN set (R380, R386, R404). -/
def liveQueue (s : State) (x : Ctx) (q : Nat) : Option Queue :=
  match s.queue? (16 * x.num + q) with
  | some k => if k.en && portUp s x.cfg.port && x.stat ≠ .faulted && (q < 9 || (x.m.oqOf q).en) then some k else none
  | none => none

/-- Bytes in host memory of a message (R388). -/
def OutMsg.total (o : OutMsg) : Nat :=
  match o.sealed, o.src with
  | some b, _ => b.2.2.length
  | none, some (_, _, n) => (if o.plain.isEmpty then n else o.plain.length) + 32
  | none, none => o.plain.length + 32

/-- The descriptors left for a new message after those that wait on the queue. -/
def descsLeft (x : Ctx) (k : Queue) (q : Nat) : Option (List Desc) :=
  (x.outp.msgs.filter fun o => o.queue = q).foldl (fun ds o => match ds with
    | some l => (fillDescs l o.total).map fun r => r.2
    | none => none) (some k.fetched)

/-- Queue `q` can accept a message whose plaintext has `n` bytes (R277, R289, R291). -/
def canAccept (s : State) (x : Ctx) (q n : Nat) : Bool :=
  match liveQueue s x q with
  | none => false
  | some k => (x.qkey q).valid && match descsLeft x k q with
    | none => false
    | some l => (fillDescs l (n + 32)).isSome

/-- Queue 4 counts as set up (R277). -/
def queueSetUp (s : State) (x : Ctx) (q : Nat) : Bool :=
  match s.queue? (16 * x.num + q) with
  | some k => k.en && (x.qkey q).valid
  | none => false

/-- The hold-confirmed option keeps an output of epoch `n` until it is final (R347). -/
def heldBack (s : State) (x : Ctx) (q n : Nat) : Bool :=
  match s.queue? (16 * x.num + q) with
  | some k => k.holdConfirmed && x.cfg.rben && !x.isFinal n
  | none => false

/-- Seal a message with revision `rev` and queue it; messages with REV above 0 count in REEMIT (R353, R439). -/
def emitMsg (x : Ctx) (q rev : Nat) (plain : List Byte) : Ctx :=
  let r := sealMsg x { queue := q, plain := plain, rev := rev } plain
  let x := { r.2 with outp := r.2.outp.push r.1 }
  if 0 < rev then x.addMeter 15 1 else x

/-- Egress back-pressure on queue `q`: source 195 at the first output that waits, and again only after one has gone without waiting (R32, R291,
R323). -/
def pressure (s : State) (x : Ctx) (q : Nat) : State :=
  let s := touchQueue s (16 * x.num + q)
  if x.outp.pressed then s else raiseCtx (s.putCtx { x with outp := { x.outp with pressed := true } }) x 195

/-- The epoch of an audio block, that of its last sample (R347). -/
def blockEpoch (md : ModeT) (b : Nat) : Nat := epochOf md ((48 * b + 47) * md.vcSample)

end Sys2Proof.Machine
end

