-- ==== Sys2Proof/Machine/Output.lean ====
section
/-! DEFINITION. Line engines ahead of the beam (08) and the output stage (10): sprite selection, sheaves, rendering with the Reticle,
commit, watched regions, spectator lines, slices and their encoding. -/
namespace Sys2Proof.Machine

/-- The active line after line index `idx` (R234). -/
def succLine (md : ModeT) (idx : Nat) : Nat := if idx % md.vTot + 1 < md.vAct then idx + 1 else (idx / md.vTot + 1) * md.vTot

/-- The line to render next: after the frontier, or the line to commit next (R222). -/
def Ctx.nextLine (x : Ctx) : Nat :=
  match x.rend.lines.getLast? with
  | some l => succLine (modeOf x.cfg.mode) l.idx
  | none => x.m.cur.commit

/-- The beam line (R234). -/
def Ctx.beamLine (x : Ctx) : Nat := x.now / (modeOf x.cfg.mode).lineVc

/-- A hazard line at or before line `n`, of its frame or the one before, has not been reached (R237). -/
def Ctx.heldLine (x : Ctx) (n : Nat) : Bool :=
  let md := modeOf x.cfg.mode
  let f := n / md.vTot
  (x.rend.hist.flatten).any fun h => [f, f - 1].any fun g =>
    decide (x.beamLine < g * md.vTot + h) && decide (g * md.vTot + h ≤ n)

/-! ### Sprite selection (R204) -/

/-- OB_OVF after an overflow of line `l` (R204, R206). -/
def ovfAdd (w : Word) (l : Nat) : Word :=
  let w := if w.getLsbD 15 then w else setField (w ||| 0x8000#32) 0 10 l
  setField w 16 10 (bitsOf w.toNat 25 16 + 1)

/-- SPRITE_EVALUATION at (L, 0): the selection from state known to the vc before, the overflow of a 65th sprite, the clear of OB_OVF at
(0, 0) (R204, R241). -/
def execSpriteEvaluation (c : Nat) (s : State) : Host.Outcome State Fault Refusal :=
  ctxDueWith s c .sprites fun e x t =>
    let md := e.mode
    let m := x.m
    let idx := m.cur.sprite
    let l := idx % md.vTot
    let p := picOf e m (idx / md.vTot)
    let tab := p.tableWords t
    let m := match tab.find? fun a => m.blkPoisoned .vram (a / 16) with
      | some a => (m.emit (.consumed (some (.ram .vram a)))).emit (.faulted true)
      | none => noteBytes e m .vram tab
    let q := p.qualifying t l
    let ovf := if l = 0 then 0 else m.vid.ovf
    let excess := decide (64 < q.length)
    let m := { m with
      vid := { m.vid with sprites := q.take 64, spriteLine := idx, ovf := if excess then ovfAdd ovf l else ovf }
      cur := { m.cur with sprite := succLine md idx } }
    some (if excess then m.raise 20 t else m, fun y => { y with rend := { y.rend with held := y.heldLine y.nextLine } })

/-! ### Sheaves (R218, R219, R234) -/

/-- Slots of a stack in use (R25). -/
def slotsUsed (s : State) (stack : Nat) : Nat := (s.ctxs.map fun x => (x.rend.slots.filter fun k => k.2 = stack).length).sum

/-- The stack of a lane's quadrant: 2,048 lanes each (R13, R17). -/
def stackOf (x : Ctx) : Nat := x.orr.lane.getD 0 / 2048

/-- The predictor history is read for a context that executes (R237, R500). -/
def readHistory (s : State) (c : Nat) : State :=
  match s.ctx? c with
  | some x => if x.active then useHistory s x else s
  | none => s

/-- The conditions of R234 on the sheaf of the next line, its slot apart. -/
def sheafMayBegin (x : Ctx) : Bool :=
  let md := modeOf x.cfg.mode
  let n := x.nextLine
  let first := n / md.vTot * md.vTot + n % md.vTot / 8 * 8
  decide (first ≤ x.beamLine + 8 * x.rend.depth) && decide (n / md.vTot ≤ x.m.cur.capture) && !x.heldLine n

/-- SHEAF_BEGIN: an engine takes the next sheaf and a slot of its quadrant's stack; with no slot free it waits (R219, R234, R241). Whether the predictor
holds a line is read from its history (R237). -/
def execSheafBegin (c : Nat) (s : State) : Host.Outcome State Fault Refusal :=
  let s := readHistory s c
  match s.ctx? c with
  | none => .next s
  | some x =>
    let md := modeOf x.cfg.mode
    let k := sheafOf md x.nextLine
    if !x.active || !sheafMayBegin x || x.rend.slots.any (fun p => p.1 = k) then .next s
    else if slotsUsed s (stackOf x) < 32768 then
      .next (s.putCtx { x with rend := { x.rend with slots := x.rend.slots ++ [(k, stackOf x)], sheaf := some k, slotWait := false, held := false } })
    else .next (s.putCtx { x with rend := { x.rend with slotWait := true } })

/-- LANE_WAIT_END: the wait for a slot ends once one is free (R32, R241). -/
def execLaneWaitEnd (c : Nat) (s : State) : Host.Outcome State Fault Refusal :=
  match s.ctx? c with
  | none => .next s
  | some x =>
    if x.rend.slotWait && decide (slotsUsed s (stackOf x) < 32768) then .next (s.putCtx { x with rend := { x.rend with slotWait := false } })
    else .next s

/-! ### Reticle (R264 to R268) -/

/-- The output set that governs frame `f` (R267). -/
def Outp.setFor (o : Outp) (f : Nat) : OutSet := ((o.sets.filter fun k => k.frame ≤ f).getLast?).getD {}

/-- A placement's image pixel at dot (x, l): its colour and α (R265, R266). -/
def placePx (imgs : List RetImg) (p : Placement) (x l : Nat) : Option (Px × Nat) :=
  if !p.en then none
  else match imgs.find? fun i => i.handle = p.image.toNat with
  | none => none
  | some i =>
    let dx := (x : Int) - signedOf 16 p.x.toNat
    let dy := (l : Int) - signedOf 16 p.y.toNat
    if 0 ≤ dx ∧ dx < i.width ∧ 0 ≤ dy ∧ dy < i.height then
      let q := pxOfFmt 4 (leNat ((i.px.drop ((dy.toNat * i.width + dx.toNat) * 4)).take 4))
      some (q, (q.a * p.alpha.toNat + 127) / 255)
    else none

/-- The committed colour of a dot (R266). -/
def reticleDot (imgs : List RetImg) (plc : List Placement) (x l : Nat) (c : Px) : Px :=
  plc.foldl (fun c p => match placePx imgs p x l with
    | some (q, al) =>
      let ch (s d : Nat) : Nat := (s * al + d * (255 - al) + 127) / 255
      ⟨ch q.r c.r, ch q.g c.g, ch q.b c.b, 255⟩
    | none => c) c

/-- R268: some enabled placement gives α = 255 at the dot. -/
def reticleCovers (imgs : List RetImg) (plc : List Placement) (x l : Nat) : Bool :=
  plc.any fun p => match placePx imgs p x l with | some (_, al) => al = 255 | none => false

def rgb (p : Px) : Nat := p.r * 65536 + p.g * 256 + p.b

/-- The next line may be drawn: its sheaf has a slot, the raster list of its frame is captured, and the predictor does not hold it (R221, R234, R237). -/
def mayRender (x : Ctx) : Bool :=
  let md := modeOf x.cfg.mode
  let n := x.nextLine
  x.rend.slots.any (fun p => p.1 = sheafOf md n) && decide (n / md.vTot ≤ x.m.cur.capture) && !x.heldLine n

/-- The next line is about to be written into its slot: what errors stood there for an earlier rendering are gone (R25, R498). -/
def clearLine (s : State) (c : Nat) : State :=
  match s.ctx? c with
  | some x => if x.active && mayRender x then writeStore s c (.line x.nextLine) else s
  | none => s

/-- LINE_RENDER: the next line is drawn from the state known so far, with the Reticle over it (R221 to R223, R231, R266). -/
def execLineRender (c : Nat) (s : State) : Host.Outcome State Fault Refusal :=
  ctxEventWith (clearLine (readHistory s c) c) c fun e x =>
    let md := e.mode
    let n := x.nextLine
    let f := n / md.vTot; let l := n % md.vTot
    if !mayRender x then none
    else
      let k := x.knownVc
      let plc := (x.outp.setFor f).plc
      let r := (picOf e x.m f).line (n * md.lineVc) l
      let px := r.1.zipIdx.map fun q => rgb (reticleDot s.reticle plc q.2 l q.1)
      let hidden (i : Nat) : Bool := (List.range 8).all fun d => reticleCovers s.reticle plc (8 * i + d) l
      let fetched := r.2.1 ++ (r.2.2.zipIdx.flatMap fun q => if hidden q.2 then [] else q.1)
      let foot := ((r.2.1 ++ r.2.2.flatten).map fun a => a / 4096).eraseDups
      let m := match fetched.find? fun a => x.m.blkPoisoned .vram (a / 16) with
        | some a => (x.m.emit (.consumed (some (.ram .vram a)))).emit (.faulted true)
        | none => noteBytes e x.m .vram fetched
      some (m, fun y => { y with rend := { y.rend with lines := y.rend.lines ++ [⟨n, k, foot, px⟩], sheaf := some (sheafOf md n) } })

/-! ### Watched regions (R269 to R272) -/

/-- One bit-reflected step of CRC-32C (R270). -/
def crcByte (c : Nat) (b : Nat) : Nat :=
  (List.range 8).foldl (fun c _ => if c % 2 = 1 then (c / 2) ^^^ 0x82F63B78 else c / 2) (c ^^^ b)

def crc32c (bs : List Nat) : Nat := (bs.foldl crcByte 0xFFFFFFFF) ^^^ 0xFFFFFFFF

/-- The signature of a region over the lines of its frame (R270). -/
def signature (lines : List (List Nat)) (r : Region) : Word :=
  BitVec.ofNat 32 (crc32c ((((lines.drop r.top).take (r.bottom + 1 - r.top)).flatMap fun l =>
    ((l.drop r.left).take (r.right + 1 - r.left)).flatMap rgbBytes)))

/-- R271: an enabled placement's rectangle, clipped to the active area, shares a dot with the region. -/
def regionCovered (md : ModeT) (imgs : List RetImg) (plc : List Placement) (r : Region) : Bool :=
  plc.any fun p => p.en && match imgs.find? fun i => i.handle = p.image.toNat with
    | none => false
    | some i =>
      let x := signedOf 16 p.x.toNat; let y := signedOf 16 p.y.toNat
      let l := max x r.left; let rr := min (min (x + i.width - 1) r.right) (md.hAct - 1)
      let t := max y r.top; let b := min (min (y + i.height - 1) r.bottom) (md.vAct - 1)
      decide (l ≤ rr) && decide (t ≤ b)

/-- The record after an evaluation in frame `f`, and whether an alarm is raised (R271, R272). -/
def evalRegion (st : RegStat) (r : Region) (f : Nat) (covered : Bool) (sig : Word) : RegStat × Bool :=
  if covered then ({ st with frame := f, result := 3, midx := 0, evald := some f }, false)
  else
    let hit := (r.sigs.take r.nsig).findIdx? fun g => g = sig
    let same := st.prev = some sig
    let still := if same then min 65535 (st.still + 1) else 0
    let miss := match hit with | some _ => 0 | none => min 65535 (st.miss + 1)
    let alarm := (r.missMax ≠ 0 && miss = r.missMax && miss ≠ st.miss) || (r.stillMax ≠ 0 && still = r.stillMax && still ≠ st.still)
    ({ st with
        frame := f, result := if hit.isSome then 1 else 2, midx := hit.getD 0, miss := miss, still := still
        matches_ := if hit.isSome then (st.matches_ + 1) % 2 ^ 32 else st.matches_, prev := some sig, evald := some f }, alarm)

def Outp.stat (o : Outp) (k : Nat) : RegStat := o.stats[k % 4]
def Outp.setStat (o : Outp) (k : Nat) (r : RegStat) : Outp := { o with stats := o.stats.set (k % 4) r (Nat.mod_lt _ (by decide)) }

/-- The regions whose BOTTOM is line `l` of frame `f`, on the first revision that commits it (R271). -/
def evalRegions (s : State) (c f l : Nat) : State :=
  (List.range 4).foldl (fun s k => match s.ctx? c with
    | none => s
    | some x =>
      let o := x.outp
      let set := o.setFor f
      match set.regs[k]? with
      | none => s
      | some r =>
        let first := match (o.stat k).evald with | some g => decide (g < f) | none => true
        if r.en && r.bottom = l && first then
          let md := modeOf x.cfg.mode
          let v := evalRegion (o.stat k) r f (regionCovered md s.reticle set.plc r) (signature o.flines r)
          let x := { x with outp := o.setStat k v.1 }
          if v.2 then raiseCtx (s.putCtx x) x 196 else s.putCtx x
        else s) s

/-! ### Slices (R263, R274 to R277, R284) -/

/-- Revision of a frame (R345). -/
def Outp.revOf (o : Outp) (f : Nat) : Nat := (tabGet o.frameRevs f).getD 0

/-- Slices of a picture of `h` lines. -/
def nSlices (h : Nat) : Nat := (h + 15) / 16

/-- Lines and width of the picture of a kind: 1 video, 2 spectator (R274). -/
def picSize (md : ModeT) (set : OutSet) (kind : Nat) : Nat × Nat :=
  if kind = 1 then (md.hAct, md.vAct) else (md.hAct / set.fh, md.vAct / set.fv)

/-- The 32-byte slice header (R284). -/
def sliceHeader (x : Ctx) (b : Slice) (raw : Bool) (plen : Nat) : List Byte :=
  let set := x.outp.setFor b.frame
  let sz := picSize (modeOf x.cfg.mode) set b.kind
  [BitVec.ofNat 8 b.kind, BitVec.ofNat 8 (raw.toNat + b.lastSl.toNat * 2), BitVec.ofNat 8 x.cfg.mode, BitVec.ofNat 8 (nSlices sz.2)]
    ++ le 8 b.frame ++ le 2 b.rev ++ le 2 b.idx ++ le 2 b.first ++ le 2 b.lines.length ++ le 2 sz.1 ++ le 2 sz.2 ++ le 4 plen
    ++ [BitVec.ofNat 8 (if b.kind = 1 then 1 else set.fh), BitVec.ofNat 8 (if b.kind = 1 then 1 else set.fv), 0, 0]

/-- The plaintext of a slice: the OLC form, or RAW where the queue is set raw or the OLC form would be longer (R282 to R284). -/
def slicePlain (s : State) (x : Ctx) (b : Slice) : List Byte :=
  let raw := rawPayload b.lines
  let olc := olcForm b.lines
  let force := match s.queue? (16 * x.num + (if b.kind = 1 then 2 else 4)) with | some k => k.raw | none => false
  if force || decide (raw.length < olc.length) then sliceHeader x b true raw.length ++ raw else sliceHeader x b false olc.length ++ olc

/-- Spectator line from FV source lines (R275). -/
def specLine (w fh fv : Nat) (win : List (List Nat)) : List Nat :=
  (List.range w).map fun i =>
    let ps := win.flatMap fun l => (l.drop (i * fh)).take fh
    let mean (ch : Nat → Nat) : Nat := ((ps.map ch).sum + fh * fv / 2) / (fh * fv)
    mean (fun p => bitsOf p 23 16) * 65536 + mean (fun p => bitsOf p 15 8) * 256 + mean (fun p => bitsOf p 7 0)

/-- A produced spectator slice: held under the hold-confirmed option, emitted where queue 4 can accept it, or discarded (R276, R277,
R347). -/
def specEmit (s : State) (x : Ctx) (b : Slice) : State :=
  if heldBack s x 4 b.frame then s.putCtx { x with outp := { x.outp with slices := x.outp.slices ++ [b] } }
  else
    let plain := slicePlain s x b
    if canAccept s x 4 plain.length then noteWork (s.putCtx (emitMsg x 4 b.rev plain)) x (emitMsg x 4 b.rev plain) else s.putCtx (x.addMeter 18 1)

/-- The spectator line that source line `l` of frame `f` completes (R275, R276). A slice some of whose lines were not produced, while queue 4 was not
set up, is not emitted (DESIGN CHOICE, log entry 68: R277 says what is produced, not what becomes of the rest of such a slice). -/
def specStep (s : State) (c f l : Nat) : State :=
  match s.ctx? c with
  | none => s
  | some x =>
    let md := modeOf x.cfg.mode
    let set := x.outp.setFor f
    let sz := picSize md set 2
    let j := l / set.fv
    if !queueSetUp s x 4 then s.putCtx { x with outp := { x.outp with spart := [] } }
    else if (l + 1) % set.fv ≠ 0 ∨ sz.2 ≤ j then s
    else
      let line := specLine sz.1 set.fh set.fv ((x.outp.flines.drop (j * set.fv)).take set.fv)
      let part := (if j % 16 = 0 then [] else x.outp.spart) ++ [line]
      if part.length ≠ j % 16 + 1 then s.putCtx { x with outp := { x.outp with spart := [] } }
      else if j % 16 = 15 ∨ j + 1 = sz.2 then
        specEmit s { x with outp := { x.outp with spart := [] } }
          { kind := 2, frame := f, rev := x.outp.revOf f, idx := j / 16, first := j / 16 * 16, lines := part, lastSl := decide (j + 1 = sz.2) }
      else s.putCtx { x with outp := { x.outp with spart := part } }

/-- The video slice that line `l` of frame `f` completes; where queue 2 cannot take it, or an earlier slice still waits, it waits (R263, R291). -/
def videoStep (s : State) (c f l : Nat) : State :=
  match s.ctx? c with
  | none => s
  | some x =>
    let md := modeOf x.cfg.mode
    if l % 16 ≠ 15 ∧ l + 1 ≠ md.vAct then s
    else
      let b : Slice := { kind := 1, frame := f, rev := x.outp.revOf f, idx := l / 16, first := l / 16 * 16
                         lines := x.outp.flines.drop (l / 16 * 16), lastSl := decide (l + 1 = md.vAct) }
      let waits := !heldBack s x 2 f && (!canAccept s x 2 (slicePlain s x b).length || x.outp.slices.any fun k => k.kind = 1 && k.waited)
      let x := { x with outp := { x.outp with slices := x.outp.slices ++ [{ b with waited := waits }] } }
      if waits then pressure (s.putCtx x) x 2 else s.putCtx x

/-! ### The predictor (R236 to R239) -/

/-- The run-ahead hint of an image header, where it is valid (R238, R413). -/
def hintOf (im : Option Image) (vAct : Nat) : Option (List Nat) :=
  match im with
  | none => none
  | some i =>
    if (i.bytes.getD 5 0).getLsbD 2 then some ((List.range vAct).filter fun l => (i.bytes.getD (64 + l / 8) 0).getLsbD (l % 8)) else none

/-- The predictor at the end of frame `f` (R236, R238, R239). -/
def predict (im : Option Image) (md : ModeT) (f : Nat) (r : Rend) : Rend :=
  let hz := (r.haz.filter fun h => h.1 = f).map fun h => h.2
  let r' := { r with haz := r.haz.filter fun h => decide (f < h.1), chaff := 0 }
  if r.first then
    if f < r.firstFrame then { r' with hist := (hz :: r.hist).take 4 }
    else
      let base := match hintOf im md.vAct with | some h => [h, h, h, h] | none => r.hist
      { r' with first := false, depth := 4, hist := (hz :: base).take 4 }
  else
    let d := if r.chaff = 0 then min 4 (r.depth + 1) else if r.chaff ≤ md.vAct / 4 then r.depth else max 1 (r.depth / 2)
    { r' with depth := d, hist := (hz :: r.hist).take 4 }

/-! ### Commit (R230, R231, R262) -/

/-- The context after the commit of line `n` with colours `px`: the next line to commit, the values in effect, the lines of the frame,
the meters of first and replayed lines (R230, R353, R439). -/
def commitLine (x : Ctx) (n due : Nat) (px : List Nat) : Ctx :=
  let md := modeOf x.cfg.mode
  let l := n % md.vTot
  let m := x.m.seen due
  let y := noteVc { x with
    m := { m with cur := { m.cur with commit := succLine md n }, vid := foldLog m.vid due }
    rend := { x.rend with lines := x.rend.lines.drop 1 }
    outp := { x.outp with flines := (if l = 0 then [] else x.outp.flines) ++ [px], maxLine := max x.outp.maxLine (n + 1) } } x.m.vc
  if x.outp.maxLine ≤ n then y.addMeter 4 md.hAct else (y.addMeter 12 1).addMeter 13 md.hAct

/-- At the end of frame `f` the predictor takes its hazard lines, and its history is written anew (R238, R239). -/
def frameEnd (s : State) (c f : Nat) : State :=
  match s.ctx? c with
  | some x => writeStore (s.putCtx { x with rend := predict ((s.env x).image x.m) (modeOf x.cfg.mode) f x.rend }) c .predictor
  | none => s

/-- LINE_COMMIT at (L, H_ACTIVE): watched regions, spectator lines, the video slice, and at a frame's end the predictor (R230, R262,
R239). -/
def execLineCommit (c : Nat) (s : State) : Host.Outcome State Fault Refusal :=
  match s.ctx? c with
  | none => .next s
  | some x =>
    let md := modeOf x.cfg.mode
    let n := x.m.cur.commit
    let due := commitVc md n
    match x.rend.lines with
    | [] => .next s
    | r :: _ =>
      if !x.active || r.idx ≠ n || !hasCome x .lineCommit due then .next s
      else .next (useItems s x [.line n] fun s =>
        let f := n / md.vTot; let l := n % md.vTot
        let s := videoStep (specStep (evalRegions (s.putCtx (commitLine x n due r.px)) c f l) c f l) c f l
        if l + 1 = md.vAct then frameEnd (readHistory s c) c f else s)

/-- The slots of a slice's sheaves are freed once its last line is taken (R25, R228). -/
def freeSlice (b : Slice) (r : Rend) : Rend :=
  let k := b.frame * 64 + b.first / 8
  { r with slots := r.slots.filter fun p => p.1 ≠ k && p.1 ≠ k + 1 }

/-- The slice that goes next: a held spectator slice whose frame has become final, else the oldest video slice (R290, R347). -/
def nextSlice (s : State) (x : Ctx) : Option Slice :=
  match x.outp.slices.find? fun b => b.kind ≠ 1 && !heldBack s x 4 b.frame with
  | some b => some b
  | none => x.outp.slices.find? fun b => b.kind = 1

/-- The lines that the codec reads for a slice, where their sheaves still hold a slot: its own, or for a spectator slice those it is scaled from (R275,
R278). -/
def sliceItems (x : Ctx) (b : Slice) : List CtxStore :=
  let k := if b.kind = 1 then 1 else (x.outp.setFor b.frame).fv
  (List.range (b.lines.length * k)).map fun i => .line (b.frame * (modeOf x.cfg.mode).vTot + b.first * k + i)

/-- VIDEO_SLICE_ENCODE: the codec engines take the oldest waiting slice once its queue can take the message, encode and encrypt it
(R278 to R291, R347). One that is not held and cannot be taken waits, with its back-pressure event where it has not waited before. A spectator slice
that was held is emitted or discarded. Poison in the lines that the codec reads is a context fault (R499, R500). Where the engines' clock stands,
nothing is encoded (R480, R488). -/
def execVideoSliceEncode (c : Nat) (s : State) : Host.Outcome State Fault Refusal :=
  match s.liveCtx? c with
  | none => .next s
  | some x =>
    match nextSlice s x with
    | none => .next s
    | some b =>
      let y := { x with outp := { x.outp with slices := x.outp.slices.erase b } }
      if b.kind ≠ 1 then .next (useItems s x (sliceItems x b) fun s => specEmit s y b)
      else
        let plain := slicePlain s x b
        if heldBack s x 2 b.frame then .next s
        else if !canAccept s x 2 plain.length then
          if b.waited then .next s
          else
            let w := { x with outp := { x.outp with slices := x.outp.slices.map fun k => if k = b then { k with waited := true } else k } }
            .next (pressure (s.putCtx w) w 2)
        else
          let y := emitMsg y 2 b.rev plain
          .next (useItems s x (sliceItems x b) fun s =>
            noteWork (s.putCtx { y with rend := freeSlice b y.rend, outp := { y.outp with pressed := y.outp.pressed && b.waited } }) x y)

end Sys2Proof.Machine
end

