-- ==== Sys2Proof/Machine/Report.lean ====
section
/-! DEFINITION. Attestation reports (R422, R423), and the signing of ATTEST requests (R146, R348). -/
namespace Sys2Proof.Machine

/-- CHIPTAGD: the digest of the chip tag as CHIP.QUERY reads it (R422, R447). -/
def tagAsRead (s : State) : List Byte :=
  s.ident.tags[0].read ++ s.ident.tags[1].read

/-- The WATCH field: regions that govern frame `f` (R422). -/
def watchBytes (x : Ctx) (f : Nat) : List Byte :=
  ((List.range 4).map fun k => match (x.outp.setFor f).regs[k]? with
    | some r => le 2 r.left ++ le 2 r.top ++ le 2 r.right ++ le 2 r.bottom ++ [BitVec.ofNat 8 r.nsig, BitVec.ofNat 8 r.en.toNat, 0, 0]
    | none => zeros 12).flatten

/-- OPT and SID of the 16 queues (R422). -/
def qoptBytes (s : State) (c : Nat) : List Byte :=
  (List.range 16).map fun q => match s.queue? (16 * c + q) with | some k => k.opt | none => 0

def qsidBytes (x : Ctx) : List Byte := x.keys.toList.flatMap fun k => le 4 (if k.key.isSome then k.sid.toNat else 0)

/-- A report of 656 bytes (R422): `src` 1 for ATTEST and 2 for CTX.ATTEST, `frame` the last latch passed, `hash` the image hash when the values were
taken. -/
def reportBytes (s : State) (x : Ctx) (src nonce : Nat) (frame : Option Nat) (hash : Nat) : List Byte :=
  let i := s.ident
  let body := le 4 656 ++ [0x01, BitVec.ofNat 8 src, 0xB0, 0] ++ le 64 nonce ++ digest i.devid ++ digest i.fwkid ++ digest i.fwmeas
    ++ le 4 i.fwsvn ++ le 2 i.chipNo ++ zeros 2 ++ le 16 i.domain ++ digest (sha384 (tagAsRead s)) ++ digest hash
    ++ le 64 x.cfg.tag ++ le 2 x.num ++ [BitVec.ofNat 8 x.cfg.pmax, BitVec.ofNat 8 x.cfg.port] ++ le 4 (sysCfg x.cfg).toNat
    ++ le 4 x.cfg.allow ++ zeros 4 ++ qoptBytes s x.num ++ qsidBytes x ++ watchBytes x (match frame with | some f => f + 1 | none => 0)
    ++ le 8 (frame.getD (2 ^ 64 - 1)) ++ le 8 s.timeNow
  body ++ le 96 (signBy i.fwk body)

/-- ATTEST_SIGNED: the oldest request handed on is signed; its report is ready for the first latch the lane passes after that
(R146, R348, R423). -/
def execAttestSigned (c : Nat) (s : State) : Host.Outcome State Fault Refusal :=
  match s.ctx? c with
  | none => .next s
  | some x =>
    match x.inb.attestPend with
    | [] => .next s
    | id :: rest =>
      let done := match x.m.attest with
        | some r => if r.id = id then x.inb.attestDone ++ [(id, reportBytes s x 1 r.nonce r.frame r.imgHash)] else x.inb.attestDone
        | none => x.inb.attestDone
      .next (s.putCtx { x with inb := { x.inb with attestPend := rest, attestDone := done } })

end Sys2Proof.Machine
end

