-- ==== Sys2Proof/Machine/Input.lean ====
section
/-! DEFINITION. Input and the input latch: records, closing and prediction (R47 to R52, R325 to R334), side data at the latch (R54, R57
to R60), snapshots, rollback and replay (R335 to R350), halt and park (R149). -/
namespace Sys2Proof.Machine

/-! ### Records (R50, R52, R326) -/

/-- The 64-bit target whose low 32 bits are `t`, next to `c` (R50). -/
def extendTarget (c t : Nat) : Nat :=
  let k := (c + 2 ^ 32 - t) / 2 ^ 32
  let v := t + k * 2 ^ 32
  if c + 2 ^ 31 ≤ v then v - 2 ^ 32 else if v + 2 ^ 31 < c then v + 2 ^ 32 else v

/-- A record of KIND above 3 or PORT above 7 is discarded (R50). -/
def recOk (r : InRec) : Bool := decide (r.kind.toNat ≤ 3) && decide (r.port.toNat ≤ 7)

/-- One record applied to its port's state; PRESS and RELEASE gather over the latch (R52). -/
def applyRec (p : Port) (r : InRec) : Port :=
  match r.kind.toNat with
  | 0 =>
    let p := if p.present then p else { p with present := true, btn := 0, ax0 := 0, ax1 := 0 }
    { p with press := p.press ||| (r.btn &&& ~~~ p.btn), release := p.release ||| (p.btn &&& ~~~ r.btn), btn := r.btn, ax0 := r.ax0, ax1 := r.ax1 }
  | 1 => if p.present then p else { p with present := true, btn := 0, ax0 := 0, ax1 := 0 }
  | 2 => if p.present then { p with present := false, release := p.release ||| p.btn, btn := 0, ax0 := 0, ax1 := 0 } else p
  | _ => p

/-- The ports at the start of a latch. -/
def freshPorts (ps : Vector Port 8) : Vector Port 8 := ps.map fun p => { p with press := 0, release := 0 }

/-- One record applied to the port it names. -/
def applyAt (ps : Vector Port 8) (r : InRec) : Vector Port 8 :=
  ps.set (r.port.toNat % 8) (applyRec ps[r.port.toNat % 8] r) (Nat.mod_lt _ (by decide))

/-- The actual latch result from the port state before it (R327). -/
def applyRecs (ps : Vector Port 8) (rs : List InRec) : Vector Port 8 := rs.foldl applyAt (freshPorts ps)

/-- The bit of IN_PLUGEV that one record sets: its port becomes present, or absent (R52). -/
def plugBit (p : Port) (r : InRec) : Word :=
  let q := applyRec p r
  if !p.present && q.present then 1 <<< (r.port.toNat % 8) else if p.present && !q.present then 0x100 <<< (r.port.toNat % 8) else 0

/-- The bits of IN_PLUGEV that a latch sets: the ports that became present, or absent, at any of its records (R52, R327). -/
def plugBits (old : Vector Port 8) (rs : List InRec) : Word :=
  (rs.foldl (fun (q : Vector Port 8 × Word) r => (applyAt q.1 r, q.2 ||| plugBit q.1[r.port.toNat % 8] r)) (old, 0)).2

/-- The predicted latch result (R328). -/
def predictPorts (rb : Rb) (ps : Vector Port 8) : Vector Port 8 :=
  Vector.ofFn fun i =>
    let p := ps[i]
    if p.present then
      { p with btn := p.btn &&& rb.hold[i], press := 0, release := p.btn &&& ~~~ rb.hold[i]
               ax0 := if rb.axp[i].getLsbD 0 then p.ax0 else 0, ax1 := if rb.axp[i].getLsbD 1 then p.ax1 else 0 }
    else { present := false }

/-- Close further targets in ascending order, by CLOSE records and passed deadlines (R51, R325). -/
def closeMore : Nat → InLog → InLog
  | 0, l => l
  | k + 1, l => if l.closes.contains l.closed || decide (l.closed ≤ l.deadlines) then closeMore k { l with closed := l.closed + 1 } else l

def closeAll (l : InLog) : InLog :=
  let l := closeMore (l.closes.length + (l.deadlines + 1 - l.closed)) l
  { l with closes := l.closes.filter fun t => decide (l.closed ≤ t) }

/-- A record of a message enters the log (R50, R326); the second component counts discards. -/
def logRec (rben : Bool) (c : Nat) (q : InLog × Nat) (r : InRec) : InLog × Nat :=
  let t := extendTarget c r.target.toNat
  if !recOk r then (q.1, q.2 + 1)
  else if t < c then (if rben then (q.1, q.2 + 1) else ({ q.1 with recs := q.1.recs ++ [⟨c, true, r⟩] }, q.2))
  else if (if rben then c + 63 else c + 64) < t then (q.1, q.2 + 1)
  else ({ q.1 with recs := q.1.recs ++ [⟨t, false, r⟩], closes := if r.kind.toNat = 3 then q.1.closes ++ [t] else q.1.closes }, q.2)

def recsOf (l : InLog) (t : Nat) : List InRec := (l.recs.filter fun r => r.target = t).map fun r => r.r

/-! ### Confirmation and rollback (R325, R337, R340 to R348) -/

/-- What is kept of a latch result: the port states it left and the IN_PLUGEV bits it set (R327). -/
def resultAt (l : InLog) (t : Nat) : Option (List Port × Word) := tabGet l.applied t

/-- The port states before the latch for target `t`. -/
def portsBefore (l : InLog) (t : Nat) : Vector Port 8 :=
  match resultAt l (t - 1) with
  | some r => Vector.ofFn fun i => r.1.getD i.val {}
  | none => Vector.replicate 8 {}

/-- The actual result of a confirmed target (R327). -/
def actualResult (l : InLog) (t : Nat) : List Port × Word :=
  let old := portsBefore l t
  ((applyRecs old (recsOf l t)).toList, plugBits old (recsOf l t))

/-- The lowest of the latched targets from `lo` on whose actual result differs from the applied one (R340); `k` bounds the search to
the confirmed ones. -/
def firstDiff (l : InLog) : Nat → Nat → Option Nat
  | 0, _ => none
  | k + 1, t => match resultAt l t with
    | none => none
    | some r => if r = actualResult l t then firstDiff l k (t + 1) else some t

/-- Held outputs of final epochs are handed on, in the order of their vc (R348). -/
def releaseHeld (x : Ctx) : Ctx :=
  let fin := x.outp.held.filter fun h => x.isFinal h.epoch
  fin.foldl (fun x h => handOn x h.epoch h.kind) { x with outp := { x.outp with held := x.outp.held.filter fun h => !x.isFinal h.epoch } }

/-- Snapshots whose target is confirmed are released; so are records, kept results and staged messages that no replay needs
(R337, R339). -/
def releaseSnaps (x : Ctx) : Ctx :=
  let h := x.log.closed - 1
  let snaps := x.snaps.filter fun p => decide (h < p.frame + 1)
  let base := match snaps with | p :: _ => p.m | [] => x.m
  let log := { x.log with
    applied := x.log.applied.filter fun r => decide (h ≤ r.1)
    recs := x.log.recs.filter fun r => !(decide (r.target ≤ h) && decide (r.target ≤ x.m.cur.latch))
    recsKept := x.log.recsKept.filter fun r => decide (h < r.frame + 1) || decide (x.m.cur.latch ≤ r.frame) }
  let idx (q i : Nat) : Nat := x.inb.arrived[q % 16] - (x.inb.staged.filter fun p => p.1 = q).length + i
  let keep := (List.range 16).flatMap fun q =>
    ((x.inb.staged.filter fun p => p.1 = q).zipIdx.filter fun p => decide ((base.oqOf q).taken ≤ idx q p.2)).map fun p => p.1
  { x with snaps := snaps, log := log, inb := { x.inb with staged := x.inb.staged.filter fun p => keep.contains p } }

/-- A latch with these IN_PLUGEV bits made a port present (R333). -/
def makesPresent (plug : Word) : Bool := decide (plug.toNat % 256 ≠ 0)

/-- The port states that the actual result of the confirmed target `t` leaves: of a latch passed, or, where the lane has not come so far,
from the ports that stand through the records of the targets up to `t` (R327, R333). -/
def portsAfter (x : Ctx) (t : Nat) : Vector Port 8 :=
  let f := x.m.cur.latch
  if t < f then portsBefore x.log (t + 1)
  else (List.range (t - f)).foldl (fun ps i => applyRecs ps (recsOf x.log (f + 1 + i))) x.m.inp.ports

/-- The actual result of one of the targets `lo` to `hi - 1`, all confirmed, makes a port present (R333). -/
def portsAppear (x : Ctx) (lo hi : Nat) : Bool :=
  ((List.range (hi - lo)).foldl (fun (r : Vector Port 8 × Bool) i =>
    let rs := recsOf x.log (lo + i)
    (applyRecs r.1 rs, r.2 || makesPresent (plugBits r.1 rs))) (portsAfter x (lo - 1), false)).2

/-- A confirmed actual result that makes a port present opens a first-use period (R333). -/
def firstUseOn (x : Ctx) : Ctx := { x with log := { x.log with firstUse := some 0, pt := 0, winLatches := 0, winW := 0, winU := 0 } }

/-- Revisions of frames or blocks `lo` to `hi - 1` go up by one (R345). -/
def bumpRevs (l : List (Nat × Nat)) (lo hi : Nat) : List (Nat × Nat) :=
  (List.range (hi - lo)).foldl (fun l i => tabPut l (lo + i) ((tabGet l (lo + i)).getD 0 + 1)) l

/-- The poison that stands after a restore of `sn`: a page with versions tagged with its frame or later takes that of its oldest version, every other
page keeps what it has (R336). -/
def restoredPoison (x : Ctx) (sn : Snap) : List PoisonBlk :=
  let q := (x.snaps.filter fun p => decide (sn.frame ≤ p.frame)).foldl (fun (r : List (Ram × Nat) × List PoisonBlk) p =>
    (r.1 ++ p.pages, r.2 ++ p.bad.filter fun b => !r.1.any fun k => b.inPage k.1 k.2)) ([], [])
  (x.m.mem.poison.filter fun b => !q.1.any fun k => b.inPage k.1 k.2) ++ q.2

/-- The context state that a restore of `sn` leaves (R336, R340). -/
def restored (x : Ctx) (sn : Snap) : Mach := { sn.m with mem := { sn.m.mem with poison := restoredPoison x sn } }

/-- Roll back to the latch for target `t`: restore S_(t-1), drop every later snapshot and all work of the superseded history that has not
been encrypted, raise the revisions (R340, R343, R345, R348). The hazard lines recorded for the frames that the replay runs again are dropped, which
the replay records anew, while the chaff count stays (DESIGN CHOICE, log entry 69: R236 and R239 say nothing of a rollback). -/
def rollback (x : Ctx) (t : Nat) : Ctx :=
  match x.snaps.find? fun p => p.frame + 1 = t with
  | none => x
  | some sn =>
    let md := modeOf x.cfg.mode
    let v0 := latchVc md (t - 1)
    let commit := x.m.cur.commit
    let firstBlk := v0 / md.vcSample / 48
    let lost := x.outp.held.filter fun h => decide (t ≤ h.epoch)
    let lostIds := lost.filterMap fun h => match h.kind with | .posting q _ id => some (q, id) | _ => none
    let y := { x with
      m := restored x sn
      snaps := x.snaps.filter fun p => decide (p.frame + 1 < t)
      log := { x.log with applied := x.log.applied.filter (fun r => decide (r.1 < t)), waited := false }
      rend := { x.rend with lines := [], sheaf := none, slots := x.rend.slots.filter fun k => decide (k.1 / 64 < t)
                            haz := x.rend.haz.filter fun h => decide (h.1 < t) }
      outp := { x.outp with
        flines := [], spart := []
        slices := x.outp.slices.filter fun b => decide (b.frame < t)
        blocks := x.outp.blocks.filter fun b => decide ((48 * b.num + 47) * md.vcSample < v0)
        held := x.outp.held.filter fun h => decide (h.epoch < t)
        marks := x.outp.marks.filter fun k => !lostIds.contains (k.1, k.2.1) && decide (k.2.2 < t)
        frameRevs := bumpRevs x.outp.frameRevs t ((commit + md.vTot - 1) / md.vTot)
        blockRevs := bumpRevs x.outp.blockRevs firstBlk x.m.au.blocks } }
    (y.addMeter 10 1).addMeter 17 lost.length

/-- What follows new confirmations: a rollback where a result differs, else releases, and a first-use period where a port appears (R325,
R333, R337, R340, R348). -/
def confirmUpTo (x : Ctx) (old : Nat) : Ctx :=
  if !x.cfg.rben then x
  else
    let y := match firstDiff x.log (x.log.closed - old) old with
      | some t => rollback x t
      | none => x
    let y := if portsAppear x old x.log.closed then firstUseOn y else y
    releaseHeld (releaseSnaps y)

/-- The pages that a restore of the context state at the latch of frame `f` writes: those with a version tagged `f` or later (R336). -/
def restoredPages (x : Ctx) (f : Nat) : List (Ram × Nat) := (x.snaps.filter fun p => decide (f ≤ p.frame)).flatMap fun p => p.pages

/-- R148, R348: a debug message whose DEBUGOUT lies before a latch passed is queued for queue 8, 64 at most waiting; the others are discarded and
counted. -/
def flushDebug (s : State) (x : Ctx) : Ctx :=
  let ripe (b : Nat × List Byte) : Bool := decide (b.1 < x.m.cur.latch)
  (x.outp.debugQ.filter ripe).foldl (fun x b =>
    if queueSetUp s x 8 && decide ((x.outp.msgs.filter fun o => o.queue = 8).length < 64) then
      { x with outp := x.outp.push { queue := 8, plain := b.2 } }
    else x.addMeter 31 1) { x with outp := { x.outp with debugQ := x.outp.debugQ.filter fun b => !ripe b } }

/-- The parts of the input log that the comparison of the targets `old` to `closed - 1` with the applied results reads (R340). -/
def comparedItems (x : Ctx) (old : Nat) : List CtxStore :=
  if x.cfg.rben then ((List.range (x.log.closed - old)).filter fun i => (resultAt x.log (old + i)).isSome).map fun i => .log (old + i) else []

/-- What a restore of the snapshot of frame `f` reads: its machine-state copy, and of each page with a version tagged `f` or later the oldest one (R336). -/
def restoreItems (x : Ctx) (f : Nat) : List CtxStore :=
  .snapshot f :: ((x.snaps.filter fun p => decide (f ≤ p.frame)).foldl (fun (r : List (Ram × Nat) × List CtxStore) p =>
    (r.1 ++ p.pages, r.2 ++ (p.pages.filter fun k => !r.1.contains k).map fun k => .version p.frame (ramCode k.1) k.2)) ([], [])).2

/-- Put context `x`, whose targets from `old` on have just been confirmed, back as the confirmation left it (`y`). The comparison reads the input log, and
a restore its snapshot: poison in what they read is a context fault (R500). A restore writes its pages with fresh check bits, and the snapshots that it
drops take their errors with them (R336, R496, R498). -/
def putConfirmed (s : State) (old : Nat) (x y : Ctx) : State :=
  let y' := flushDebug s y
  let s := noteWork (s.putCtx y') x y'
  let back := decide (y.m.cur.latch < x.m.cur.latch)
  useItems s x (comparedItems x old ++ if back then restoreItems x y.m.cur.latch else []) fun s =>
    if back then dropBadStores ((restoredPages x y.m.cur.latch).foldl (fun s p => repair s x.num p.1 (4096 * p.2) 4096) s) (fun n => n = x.num) else s

/-- The oldest message of queue `q` that waits to be acted on, and the rest. -/
def takeMsg (x : Ctx) (p : InMsg → Bool) : Option (InMsg × Ctx) :=
  match x.inb.waiting.find? p with
  | none => none
  | some m => some (m, { x with inb := { x.inb with waiting := x.inb.waiting.erase m } })

/-- INPUT_MESSAGE: a queue 1 message completes; its records are extended against one value, logged, and then its CLOSE records act
(R50, R51, R326). -/
def execInputMessage (c : Nat) (s : State) : Host.Outcome State Fault Refusal :=
  match s.liveCtx? c with
  | none => .next s
  | some x => match takeMsg x fun m => match m.body with | .input _ => true | _ => false with
    | none => .next s
    | some (m, x) => match m.body with
      | .input rs =>
        let old := x.log.closed
        let l := rs.foldl (logRec x.cfg.rben old) (x.log, 0)
        let x := { x with log := closeAll l.1 }.addMeter 16 l.2
        .next (putConfirmed s old x (confirmUpTo x old))
      | _ => .next s

/-! ### Pacing times (R356) -/

/-- The CLK_AUD edges up to now: edge k falls at uptime k × 1000 / 48 µs (DEDUCED, log entry 19: edge 0 is that of READY). -/
def edgeNow (s : State) : Int := ((s.audit.uptime * 48 / 1000 : Nat) : Int)

/-- R(F): the release of epoch F, in edges (R356). -/
def releaseOf (x : Ctx) (f : Nat) : Int := x.orr.anchor + ((f * (modeOf x.cfg.mode).samples : Nat) : Int)

/-- Uptime has reached `us` µs after edge `k`. -/
def reachedAfter (s : State) (k : Int) (us : Nat) : Bool := decide (k * 1000 + us * 48 ≤ s.audit.uptime * 48)

/-! ### Pacing points (R357, R360) -/

/-- Uptime is past CLK_AUD edge `k`. -/
def pastEdge (s : State) (k : Int) : Bool := decide (k * 1000 < ((s.audit.uptime * 48 : Nat) : Int))

/-- The lane stands in its virtual time at the latch that begins the next epoch. -/
def atLatch (x : Ctx) : Bool := hasCome x .latch (latchVc (modeOf x.cfg.mode) x.m.cur.latch)

/-- R(e) becomes the first CLK_AUD edge strictly after now (R356, R360). -/
def anchorAt (s : State) (x : Ctx) (e : Nat) : Int := edgeNow s + 1 - ((e * (modeOf x.cfg.mode).samples : Nat) : Int)

/-- The lane comes to the pacing point of epoch `e`: more than 8 periods after R(e) it slips (R360). -/
def reachEpoch (s : State) (x : Ctx) (e : Nat) : Ctx :=
  let y := { x with orr := { x.orr with reach := some e } }
  if pastEdge s (releaseOf x (e + 8)) then { y.addMeter 6 1 with orr := { y.orr with anchor := anchorAt s x e, released := e } } else y

/-- The context as the lane's coming to a pacing point leaves it; none where it has come to no new one. Each pacing point is judged once, also where the
lane comes to it again after a rollback (DESIGN CHOICE, log entry 81: R360 does not say). -/
def reachMove (s : State) (x : Ctx) : Option Ctx :=
  let f := x.m.cur.latch
  if x.stat = .running && x.orr.lane.isSome && !x.hold.halted && decide (x.log.maxLatch ≤ f) && (x.orr.reach.all fun e => decide (e < f + 1)) && atLatch x
  then some (reachEpoch s x (f + 1)) else none

/-- What context `c` has come to is noted before anything reads its anchor. -/
def noteReach (s : State) (c : Nat) : State :=
  match s.ctx? c with
  | none => s
  | some x => match reachMove s x with
    | none => s
    | some y => s.putCtx y

/-- INPUT_DEADLINE of the next frame: its target closes (R358, R51, R325). -/
def execInputDeadline (c : Nat) (s : State) : Host.Outcome State Fault Refusal :=
  let s := noteReach s c
  match s.liveCtx? c with
  | none => .next s
  | some x =>
    let f := x.log.deadlines
    if x.stat ≠ .running || x.hold.halted || !reachedAfter s (releaseOf x (f + 1)) x.orr.grace then .next s
    else
      let old := x.log.closed
      let x := { x with log := closeAll { x.log with deadlines := f + 1 } }
      .next (putConfirmed s old x (confirmUpTo x old))

/-! ### Side data at the latch (R54, R57 to R60) -/

/-- R60: the value of OQ_qRPTR is accepted where it lies from the last accepted value forward to OQ_qWPTR. -/
def acceptRptr (o : Oq) : Oq :=
  let sz := o.size.toNat
  let span (a b : Nat) : Nat := if a ≤ b then b - a else b + sz - a
  if o.rptr < sz ∧ span o.rptrOk o.rptr ≤ span o.rptrOk o.wptr then { o with rptrOk := o.rptr } else { o with rptr := o.rptrOk }

/-- The header and padded payload of a ring message (R58). -/
def ringBytes (seq : Word) (p : List Byte) : List Byte := le 4 p.length ++ le 4 seq.toNat ++ fit ((p.length + 7) / 8 * 8) p

/-- Where a message of `n` bytes goes in the ring and whether a zero header comes first; none where it does not fit (R59). -/
def ringPlace (o : Oq) (n : Nat) : Option (Nat × Bool) :=
  let sz := o.size.toNat
  let wrap := decide (sz < o.wptr + n)
  let at_ := if wrap then 0 else o.wptr
  let used := if o.rptrOk ≤ o.wptr then o.wptr - o.rptrOk else o.wptr + sz - o.rptrOk
  let cost := if wrap then sz - o.wptr + n else n
  if used + cost + 8 ≤ sz then some (at_, wrap) else none

/-- Append one staged message to queue `q` (R58, R59): none where it does not fit now. -/
def appendOne (e : Env) (m : Mach) (q : Nat) (seq : Word) (p : List Byte) (t : Nat) : Option (Mach × Bool) :=
  let o := m.oqOf q
  let bs := ringBytes seq p
  let n := bs.length
  if o.size.toNat < n - 8 + 16 then some (m.setOq q { o with drop := o.drop + 1, taken := o.taken + 1 }, false)
  else match ringPlace o n with
    | none => none
    | some (at_, wrap) =>
      let m := if wrap then m.putRam e .work (o.base.toNat + o.wptr) (zeros 8) t else m
      let m := m.putRam e .work (o.base.toNat + at_) bs t
      let w := if at_ + n = o.size.toNat then 0 else at_ + n
      some (m.setOq q { o with wptr := w, taken := o.taken + 1 }, true)

/-- Append the messages of one queue until one does not fit. -/
def appendAll (e : Env) (q t : Nat) : List (Word × List Byte) → Mach → Bool → Mach × Bool
  | [], m, any => (m, any)
  | p :: l, m, any => match appendOne e m q p.1 p.2 t with
    | none => (m, any)
    | some (m, b) => appendAll e q t l m (any || b)

/-- The messages of queue `q` not yet appended, within the first `cut` arrivals (R58, R341). -/
def stagedFrom (x : Ctx) (q cut : Nat) : List (Word × List Byte) :=
  let l := x.inb.staged.filter fun p => p.1 = q
  let from_ := (x.m.oqOf q).taken
  ((l.drop (from_ - x.firstStaged q)).take (cut - from_)).map fun p => (p.2.1, p.2.2)

/-- Step 4 for one inbound queue; the second component says that a message was appended. -/
def latchIn (e : Env) (x : Ctx) (cut : Nat → Nat) (t : Nat) (r : Mach × Bool) (q : Nat) : Mach × Bool :=
  let o := r.1.oqOf q
  if sideQueue q && o.en && oqDir q o then
    appendAll e q t (stagedFrom x q (cut q)) (r.1.setOq q (acceptRptr o)) r.2
  else r

/-- Postings of one queue meet a latch: those that meet their second are released, and a waiting clear of EN acts at 0 (R54, R57). -/
def latchOut (r : Mach × Bool) (q : Nat) : Mach × Bool :=
  let o := r.1.oqOf q
  let ps := o.posts.map fun p => { p with latches := p.latches + 1 }
  let left := ps.filter fun p => decide (p.latches < 2)
  let o := { o with posts := left }
  let o := if o.clearWait && left.isEmpty then { o with en := false, clearWait := false } else o
  (r.1.setOq q o, r.2 || decide (left.length < ps.length))

/-- A posting due at this latch that the DMA has still to read, for a context without rollback (R57). -/
def postingUnread (x : Ctx) : Bool :=
  !x.cfg.rben && (List.range 16).any fun q => (x.m.oqOf q).posts.any fun p => decide (1 ≤ p.latches) &&
    x.outp.msgs.any fun o => o.queue = q && match o.src with | some (id, _, _) => id = p.id | none => false

/-- The ATTEST part of step 4: a ready report is written whole, no earlier than the second latch after the call (R146). -/
def latchAttest (e : Env) (x : Ctx) (ready : Bool) (m : Mach) (t : Nat) : Mach :=
  match m.attest with
  | none => m
  | some r =>
    let r := { r with latches := r.latches + 1 }
    match x.inb.attestDone.find? fun d => d.1 = r.id with
    | some d => if ready && decide (2 ≤ r.latches) then { m with attest := none }.putRam e .work r.buf d.2 t else { m with attest := some r }
    | none => { m with attest := some r }

/-! ### Halt and park at a latch (R149, R350) -/

/-- The timers are stopped where a halt or park takes hold (R161). -/
def takeHold (s : State) (x : Ctx) (v : Nat) : Ctx :=
  if x.held then x else { x with m := haltStart x.m v, hold := { x.hold with since := s.audit.uptime, ticks := 0 } }

/-- R149, R350: requested halts, parks and exports act at a latch whose epoch is final, or at once where the context is held there. -/
def holdsTake (s : State) (x : Ctx) (v : Nat) : State × Ctx :=
  let x := if x.hold.haltReq then { takeHold s x v with hold := { (takeHold s x v).hold with haltReq := false, halted := true, byHalt := true } } else x
  let x := match x.hold.exportBy with
    | some _ => { x with hold := { x.hold with exporting := true } }
    | none => x
  if x.hold.parkReq then
    let y := takeHold s x v
    let y := { y with stat := .parked, hold := { y.hold with parkReq := false, byPark := true } }
    let s := raiseCtx (s.putCtx y) y 197
    let p := s.mgmt.pend.find? fun p => match p.body with | .park c => c = x.num | _ => false
    (match p with | some p => acceptPend s p x.num 0 [] | none => s, y)
  else (s, x)

/-! ### The latch (R47, R48) -/

/-- The commands of step 2 as one output set from frame `f` on, with the status records to be zeroed (R49, R267, R269, R274). -/
def applyCmds (o : Outp) (f : Nat) : Outp :=
  if o.cmds.isEmpty then o
  else
    let cur := o.setFor f
    let pick {α : Type} (mask : Byte) (old new : List α) (d : α) : List α :=
      (List.range 4).map fun k => if mask.getLsbD k then new.getD k d else old.getD k d
    let p0 : Placement := ⟨0, 0, 0, 0, false, true, true⟩
    let r0 : Region := ⟨0, 0, 0, 0, 0, false, true, true, 0, 0, []⟩
    let set := o.cmds.foldl (fun (c : OutSet) k => match k with
      | .place mask plc => { c with plc := pick mask c.plc plc p0 }
      | .watch mask regs => { c with regs := pick mask c.regs regs r0 }
      | .spectator fh fv => { c with fh := if fh = 0 then c.fh else fh, fv := if fv = 0 then c.fv else fv }) cur
    let stats := Vector.ofFn fun (k : Fin 4) => if o.cmds.any fun c => match c with | .watch mask _ => mask.getLsbD k.val | _ => false
      then { evald := o.stats[k].evald } else o.stats[k]
    { o with sets := (o.sets.filter fun k => k.frame ≠ f) ++ [{ set with frame := f }], stats := stats, cmds := [] }

/-- The latch of frame `f` may be passed on prediction if the snapshot allowance has room: NOPRED, Pt and no halt, park or export (R331,
R332, R350). -/
def mayPredict (x : Ctx) (f : Nat) : Bool :=
  x.cfg.rben && !x.m.rb.ctl.getLsbD 0 && decide (1 ≤ x.log.pt) && decide (f + 2 - x.log.closed ≤ x.log.pt)
    && !x.hold.haltReq && !x.hold.parkReq && x.hold.exportBy.isNone

/-- Which result a latch may apply now (R51, R331): true for actual, false for predicted, none where the lane waits. -/
def latchInput (x : Ctx) (f : Nat) : Option Bool :=
  if f + 1 < x.log.closed then some true
  else if mayPredict x f && decide (x.pagesUsed + 8 ≤ x.cfg.allow) then some false
  else none

/-- The lane waits at the latch of frame `f`: for input, unless only the snapshot allowance keeps it from predicting (R331, R334, R338). -/
def waitAtLatch (x : Ctx) (f : Nat) : InLog :=
  let input := !mayPredict x f
  { x.log with waited := input, waitedAt := if input && decide (x.log.maxLatch ≤ f) then f + 1 else x.log.waitedAt }

/-- Steps 3 to 6 of R48 on the context state, the inbound queues in ascending order (DESIGN CHOICE, log entry 66: R58 orders the messages of one
queue only): `actual` the input decision, `rec` the latch record of a replay. -/
def latchMach (e : Env) (x : Ctx) (f : Nat) (actual : Bool) (rec? : Option LatchRec) (time : Option Nat) (t : Nat) : Mach :=
  let m := x.m
  let old := m.inp.ports
  let guess := predictPorts m.rb old
  let new := if actual then applyRecs old (recsOf x.log (f + 1)) else guess
  let plug := if actual then plugBits old (recsOf x.log (f + 1)) else 0
  let late := if x.cfg.rben then 0 else (x.log.recs.filter fun r => r.target = f + 1 && r.late).length
  let surprise := decide (new ≠ guess) || plug ≠ 0
  let m := { m with
    inp := { m.inp with frame := BitVec.ofNat 32 (f + 1), ports := new, late := m.inp.late + BitVec.ofNat 32 late
                        plugev := if plug = 0 then m.inp.plugev else m.inp.plugev.set plug t }
    rb := { m.rb with surp := if surprise then m.rb.surp + 1 else m.rb.surp } }
  let cut (q : Nat) : Nat := match rec? with | some r => (tabGet r.cuts q).getD 0 | none => x.inb.arrived[q % 16]
  let r := (List.range 16).foldl (latchIn e x cut t) (m, false)
  let p := (List.range 16).foldl latchOut (r.1, false)
  let ready := match rec? with | some k => k.attestReady | none => true
  let m := latchAttest e x ready p.1 t
  let m := { m with wall := match rec? with | some k => k.wall | none => time, cur := { m.cur with latch := f + 1 } }
  let m := (m.raise 0 t).raise 1 t
  let m := if r.2 then m.raise 17 t else m
  let m := if p.2 then m.raise 18 t else m
  let m := if plug ≠ 0 then m.raise 19 t else m
  if surprise then m.raise 22 t else m

/-- The bookkeeping of a latch passed for the first time: window, first-use count, FRAMES (R333, R334, R439). -/
def firstPass (x : Ctx) (f : Nat) : Ctx :=
  let l := x.log
  let noPred := x.m.rb.ctl.getLsbD 0
  let l := match l.firstUse with
    | some n => { l with firstUse := some (n + 1) }
    | none => { l with
        winLatches := l.winLatches + 1
        winW := if l.waitedAt = f + 1 && !noPred then l.winW + 1 else l.winW
        winU := if noPred then l.winU else max l.winU (f + 2 - l.closed) }
  { x with log := { l with maxLatch := f + 1 } }.addMeter 3 1

/-- The context as the latch of frame `f` leaves it, with the new context state and its effects, but for what the latch releases (R48, R335, R339,
R341). -/
def latchCtx (s : State) (x : Ctx) (f : Nat) (actual : Bool) : Ctx × Mach :=
  let t := latchVc (modeOf x.cfg.mode) f
  let fresh := decide (x.log.maxLatch ≤ f)
  let rec? := x.log.recsKept.find? fun r => r.frame = f
  let unconf := decide (x.log.closed ≤ f + 1)
  let m := latchMach (s.env x) { x with m := x.m.seen t } f actual rec? s.audit.time t
  let cuts := (List.range 16).map fun q => (q, x.inb.arrived[q % 16])
  let ready := match x.m.attest with | some r => x.inb.attestDone.any fun d => d.1 = r.id | none => false
  let kept := if x.cfg.rben && unconf && rec?.isNone then x.log.recsKept ++ [⟨f, cuts, ready, s.audit.time⟩] else x.log.recsKept
  let y := { x with
    m := { m with fx := [] }
    snaps := if x.cfg.rben && unconf then x.snaps ++ [{ frame := f, m := x.m.seen t }] else x.snaps
    outp := if fresh then applyCmds x.outp (f + 1) else x.outp
    log := { x.log with
      waited := false
      recsKept := kept
      recs := if x.cfg.rben then x.log.recs else x.log.recs.filter fun r => decide (f + 1 < r.target)
      applied := if x.cfg.rben then tabPut x.log.applied (f + 1) (m.inp.ports.toList, if actual then plugBits x.m.inp.ports (recsOf x.log (f + 1)) else 0)
        else [] } }
  (noteVc (m.fx.foldl (fun y k => applyCtxFx x.m.mem.poison y t k) y) x.m.vc, m)

/-- The snapshot allowance holds the snapshot of the latch and the pages its appends write (R338). -/
def latchFits (s : State) (x : Ctx) (f : Nat) (actual : Bool) : Bool :=
  !x.cfg.rben || decide (f + 1 < x.log.closed) || decide ((latchCtx s x f actual).1.pagesUsed ≤ x.cfg.allow)

/-- The staged messages of queue `q` that are read where the context state becomes `m`: those appended, not those dropped for their length (R58, R59). -/
def appendedItems (x : Ctx) (m : Mach) (q : Nat) : List CtxStore :=
  let n (i : Nat) : Nat := x.firstStaged q + i
  (((x.inb.staged.filter fun p => p.1 = q).zipIdx.filter fun p => decide ((x.m.oqOf q).taken ≤ n p.2) && decide (n p.2 < (m.oqOf q).taken)
    && decide ((ringBytes p.1.2.1 p.1.2.2).length + 8 ≤ (m.oqOf q).size.toNat)).map fun p => .staged q (n p.2))

/-- What the latch of frame `f` reads in HBM: the input log of its target where it applies actual input, the latch record of a replay, the staged messages
that it appends (R339, R341, R500). -/
def latchItems (x : Ctx) (f : Nat) (actual : Bool) (m : Mach) : List CtxStore :=
  (if actual then [.log (f + 1)] else []) ++ (if x.log.recsKept.any fun r => r.frame = f then [.latch f] else [])
    ++ (List.range 16).flatMap (appendedItems x m)

/-- INPUT_LATCH of the next frame (R47 to R51, R331, R335, R338, R339, R341, R357). -/
def execInputLatch (c : Nat) (s : State) : Host.Outcome State Fault Refusal :=
  let s := noteReach s c
  match s.ctx? c with
  | none => .next s
  | some x =>
    let f := x.m.cur.latch
    if !x.active || s.mgmt.devstate ≠ 2 || !atLatch x || decide (x.orr.released < f + 2) || postingUnread x then .next s
    else match latchInput x f with
    | none => .next (s.putCtx { x with log := waitAtLatch x f })
    | some actual =>
      if !latchFits s x f actual then .next (s.putCtx { x with log := { x.log with waited := false } })
      else
        let r := latchCtx s x f actual
        .next (useItems s x (latchItems x f actual r.2) fun s =>
          let y := if x.log.maxLatch ≤ f then firstPass r.1 f else r.1
          let y := if actual then y else y.addMeter 9 1
          let y := if x.cfg.rben then releaseHeld (releaseSnaps y) else releaseSnaps y
          let y := flushDebug s y
          let s := r.2.fx.foldl (fun s k => applyDevFx s c k) (noteWork (s.putCtx y) x y)
          if x.cfg.rben && decide (x.log.closed ≤ f + 1) then s
          else let h := holdsTake s y (latchVc (modeOf x.cfg.mode) f); h.1.putCtx h.2)

/-- DEPTH_ADJUST at the end of a window of 64 latches (R334). -/
def execDepthAdjust (c : Nat) (s : State) : Host.Outcome State Fault Refusal :=
  match s.ctx? c with
  | none => .next s
  | some x =>
    let l := x.log
    if !x.cfg.rben || l.firstUse.isSome || decide (l.winLatches < 64) then .next s
    else
      let pt := if 2 ≤ l.winW then min x.cfg.pmax (l.pt + 1) else if l.winW = 0 ∧ l.winU < l.pt then max 1 (l.pt - 1) else l.pt
      .next (s.putCtx { x with log := { l with pt := pt, winLatches := 0, winW := 0, winU := 0 } })

/-- FIRST_USE_END after 120 latches (R333). -/
def execFirstUseEnd (c : Nat) (s : State) : Host.Outcome State Fault Refusal :=
  match s.ctx? c with
  | none => .next s
  | some x => match x.log.firstUse with
    | some n => if 120 ≤ n then .next (s.putCtx { x with log := { x.log with firstUse := none, pt := 1, winLatches := 0, winW := 0, winU := 0 } }) else .next s
    | none => .next s

/-- SIDE_MESSAGE: a message of queue 6 or an inbound queue 9 to 15 is staged (R58). -/
def execSideMessage (c : Nat) (s : State) : Host.Outcome State Fault Refusal :=
  match s.liveCtx? c with
  | none => .next s
  | some x => match takeMsg x fun m => match m.body with | .side _ _ _ => true | _ => false with
    | none => .next s
    | some (m, x) => match m.body with
      | .side seq _ p =>
        let a := x.inb.arrived[m.queue % 16] + 1
        .next (s.putCtx { x with inb := { x.inb with
          staged := x.inb.staged ++ [(m.queue, seq, p)], arrived := x.inb.arrived.set (m.queue % 16) a (Nat.mod_lt _ (by decide)) } })
      | _ => .next s

/-! ### Debug halt and resumption (R149, R161 to R163, R360) -/

/-- The context resumes in the vc of the latch where it stands: timers, DBG_STAT, source 31, pending image replacements, the anchor, and
where an image changed the predictor restarts (R43, R149, R161, R238, R360): the hazard lines noted for the frame to come go with its history
(DESIGN CHOICE, log entry 76: R236 and R238 do not say whether they still count). The context is runnable from here on (R365). -/
def resumeCtx (s : State) (x : Ctx) : Ctx :=
  let md := modeOf x.cfg.mode
  let v := haltVc x
  let f := x.m.cur.latch - 1
  let fell := decide (releaseOf x (f + 1) ≤ edgeNow s)
  let edges := s.audit.uptime - x.hold.since
  let m := if x.cfg.tcompat then compatResume md.khz edges x.m v else haltTicks md.khz v (edges - x.hold.ticks) x.m
  let m := haltEnd m v
  let bits : Word := BitVec.ofNat 32 (x.hold.byHalt.toNat + x.hold.byPark.toNat * 2)
  let m := { m with dbg := { m.dbg with stat := m.dbg.stat.set bits v } }.raise 31 v
  let m := match x.hold.reimage.getLast? with | some i => { m with img := ⟨i.1, i.2⟩ } | none => m
  { x with
    m := m, stat := .running, hold := { x.hold with halted := false, reimage := [], since := 0, ticks := 0, byHalt := false, byPark := false }
    rend := if x.hold.reimage.isEmpty then x.rend else { x.rend with depth := 1, hist := [], first := true, firstFrame := f + 1, haz := [] }
    orr := { x.orr with
      released := f + 1, due := if fell then max x.orr.due (f + 1) else x.orr.due, anchor := anchorAt s x (f + 1), victim := false, unpassed := true
      newcomer := x.orr.newcomer || (x.orr.lane.isNone && x.orr.grant.isNone), fresh := true } }

/-- A queue 7 message with byte 0 = `op`. -/
def takeDebug (x : Ctx) (op : Nat) : Option Ctx :=
  (takeMsg x fun m => match m.body with | .debug b _ => b.toNat = op | _ => false).map fun r => r.2

/-- DEBUG_HALT_REQUEST (R149): no effect while one is requested or holds; at once where a park holds the context; else at the next latch, of a
context that has still to start as well. -/
def execDebugHaltRequest (c : Nat) (s : State) : Host.Outcome State Fault Refusal :=
  match s.liveCtx? c with
  | none => .next s
  | some x => match takeDebug x 1 with
    | none => .next s
    | some x =>
      if x.hold.haltReq || x.hold.halted then .next (s.putCtx x)
      else if x.stat = .parked then .next (s.putCtx { x with hold := { x.hold with halted := true, byHalt := true } })
      else .next (s.putCtx { x with hold := { x.hold with haltReq := true } })

/-- DEBUG_RESUME (R149): ends a halt, or cancels a request. -/
def execDebugResume (c : Nat) (s : State) : Host.Outcome State Fault Refusal :=
  match s.liveCtx? c with
  | none => .next s
  | some x => match takeDebug x 2 with
    | none => .next s
    | some x =>
      if x.hold.haltReq then .next (s.putCtx { x with hold := { x.hold with haltReq := false } })
      else if !x.hold.halted then .next (s.putCtx x)
      else if x.stat = .parked then .next (s.putCtx { x with hold := { x.hold with halted := false } })
      else .next (s.putCtx (resumeCtx s x))

end Sys2Proof.Machine
end

