-- ==== Sys2Proof/Machine/Orrery.lean ====
section
/-! DEFINITION. The Orrery (13): releases and late frames, lanes and swaps, budgets, egress by the second. -/
namespace Sys2Proof.Machine

/-! ### Budgets (R28 to R30, R293, R369, R370) -/

/-- The largest video rate of a mode (R292). -/
def videoRate (md : ModeT) : Nat := (3 * md.hAct * md.vAct + 64 * nSlices md.vAct) * md.rate

/-- The spectator rate at factors `fh`, `fv` (R370). -/
def specRate (md : ModeT) (fh fv : Nat) : Nat := (3 * (md.hAct / fh) * (md.vAct / fv) + 64 * nSlices (md.vAct / fv)) * md.rate

/-- What a context charges for its queues 2 and 4 (R370). -/
structure ClaimIn where
  eclaim : Nat
  raw2 : Bool
  en4 : Bool
  raw4 : Bool
  fh : Nat
  fv : Nat
  deriving DecidableEq, Repr

/-- The egress claim in bytes per second (R370). -/
def claimOf (md : ModeT) (c : ClaimIn) : Nat :=
  let v := videoRate md
  let video := if c.raw2 then v else c.eclaim * v / 16
  let vs := specRate md c.fh c.fv
  video + (if !c.en4 then 0 else if c.raw4 then vs else c.eclaim * vs / 16) + 256000

/-- Raw output in bytes per second, counted at 3 bytes per pixel (R293): that of queue 2, and that of queue 4 where it is enabled (DESIGN CHOICE, log
entry 76: R293 does not say whether a raw queue 4 that is not enabled counts). -/
def rawOf (md : ModeT) (c : ClaimIn) : Nat :=
  (if c.raw2 then 3 * md.charge else 0) + (if c.en4 && c.raw4 then 3 * (md.hAct / c.fh) * (md.vAct / c.fv) * md.rate else 0)

/-- The newest spectator factors of a context, those still to act at a latch included. -/
def factors (x : Ctx) : Nat × Nat :=
  let o := x.outp.sets.getLast?.getD {}
  x.outp.cmds.foldl (fun r c => match c with
    | .spectator a b => (if a = 0 then r.1 else a, if b = 0 then r.2 else b)
    | _ => r) (o.fh, o.fv)

def claimIn (s : State) (x : Ctx) : ClaimIn :=
  let q (n : Nat) : Queue := (s.queue? (16 * x.num + n)).getD { qid := 0 }
  { eclaim := x.orr.eclaim, raw2 := (q 2).raw, en4 := (q 4).en, raw4 := (q 4).raw, fh := (factors x).1, fv := (factors x).2 }

/-- The egress budget of a port (R370). -/
def egressBudget (s : State) : Nat := if s.gpio.bifurc then 25000000000 else 50000000000

/-- Every budget holds when context `x` charges `c` beside the other charged contexts (R29, R30, R293, R369). -/
def budgetsHold (s : State) (x : Ctx) (c : ClaimIn) : Bool :=
  let others := s.ctxs.filter fun y => y.orr.charged && y.num ≠ x.num
  let md (y : Ctx) : ModeT := modeOf y.cfg.mode
  decide ((others.map fun y => (md y).charge).sum + (md x).charge ≤ 115000000000)
    && decide ((others.length + 1) * 1536000 ≤ 16000000000)
    && decide (((others.filter fun y => y.cfg.port = x.cfg.port).map fun y => claimOf (md y) (claimIn s y)).sum + claimOf (md x) c ≤ egressBudget s)
    && decide ((others.map fun y => rawOf (md y) (claimIn s y)).sum + rawOf (md x) c ≤ 48000000000)

/-! ### Runnable contexts and lanes (R362 to R367) -/

/-- The lane holds at the latch that begins the next epoch, before its release (R357). -/
def holdsAtLatch (x : Ctx) : Bool := decide (x.m.cur.latch < x.orr.released) && decide (x.orr.released ≤ x.m.cur.latch + 1) && atLatch x

/-- The lane holds at a pacing point before its release: that of the epoch it is in, which it has still to begin, or the next (R357). -/
def holding (x : Ctx) : Bool := decide (x.orr.released ≤ x.m.cur.latch) || holdsAtLatch x

/-- R362. From CTX.START or a resumption up to the first release a context is runnable too: R365 has it become so there, though it holds (DEDUCED, log
entry 67). -/
def runnable (x : Ctx) : Bool := x.stat = .running && !x.hold.halted && (x.orr.fresh || !holding x)

/-- The next deadline: R(F + 1) of the epoch F that the context is in or at whose pacing point it holds (R365). -/
def nextDeadline (x : Ctx) : Int := releaseOf x (x.m.cur.latch + if holdsAtLatch x then 2 else 1)

/-- The lanes in use, with those that a victim has left for the context that follows it (R365). -/
def lanesUsed (s : State) : List Nat := s.ctxs.filterMap fun x => x.orr.lane <|> x.orr.grant

/-- Number of lanes (R13). -/
def laneCount : Nat := 8192

/-- Lanes of a cluster (R13). -/
def clusterLanes : Nat := 128

/-- The lane R363 chooses: the quadrant of lowest render charge, its cluster of fewest occupied lanes, the lowest lane. A context that has lost its
charge weighs on no quadrant (R369). Of quadrants with the same charge the lower-numbered is taken (DESIGN CHOICE, log entry 81: R363 is silent). -/
def chooseLane (s : State) : Option Nat :=
  let used := lanesUsed s
  let free := (List.range laneCount).filter fun l => !used.contains l
  let quad (l : Nat) : Nat :=
    ((s.ctxs.filter fun x => x.orr.charged && x.orr.lane.any fun k => k / 2048 = l / 2048).map fun x => (modeOf x.cfg.mode).charge).sum
  let clus (l : Nat) : Nat := (used.filter fun k => k / clusterLanes = l / clusterLanes).length
  free.foldl (fun b l => match b with
    | none => some l
    | some k => if quad l < quad k ∨ (quad l = quad k ∧ l / 2048 = k / 2048 ∧ clus l < clus k) then some l else some k) none

/-- Context `a` goes before `b` in swap-in order (R367). -/
def swapBefore (a b : Ctx) : Bool :=
  if a.orr.cls ≠ b.orr.cls then decide (b.orr.cls < a.orr.cls)
  else if nextDeadline a ≠ nextDeadline b then decide (nextDeadline a < nextDeadline b)
  else decide (a.num < b.num)

/-- A runnable context that waits for a lane, none of which is kept for it. -/
def waits (x : Ctx) : Bool := runnable x && x.orr.lane.isNone && x.orr.grant.isNone

/-- The first of the contexts that `p` names in swap-in order (R367). -/
def firstOf (s : State) (p : Ctx → Bool) : Option Ctx :=
  (s.ctxs.filter p).foldl (fun b x => match b with
    | none => some x
    | some y => if swapBefore x y then some x else some y) none

/-- The waiting context that comes first in swap-in order (R367). -/
def firstWaiting (s : State) : Option Ctx := firstOf s waits

/-- A resident context has stopped being runnable while others wait, and no waiting context has been taken for that yet; it may have lost its lane
meanwhile as a newcomer's victim (R367). -/
def stopped (x : Ctx) : Bool := x.orr.was && !runnable x

/-- The context for which a victim is taken: one that has become runnable (R365; of several, the first in swap-in order: DESIGN CHOICE, log
entry 67), or, where a resident context has stopped being runnable, the first waiting one (R367). -/
def served (s : State) : Option Ctx :=
  match firstOf s fun x => waits x && x.orr.newcomer with
  | some x => some x
  | none => if s.ctxs.any stopped then firstWaiting s else none

/-- Resident contexts that are parked, halted or faulted go before every other victim (R365). -/
def idleResident (x : Ctx) : Bool := x.stat = .parked || x.stat = .faulted || x.hold.halted

/-- Context `a` is a better victim than `b` (R365). -/
def victimBefore (a b : Ctx) : Bool :=
  if idleResident a ≠ idleResident b then idleResident a
  else if !idleResident a && a.orr.cls ≠ b.orr.cls then decide (a.orr.cls < b.orr.cls)
  else if nextDeadline a ≠ nextDeadline b then decide (nextDeadline b < nextDeadline a)
  else decide (b.num < a.num)

/-- The victim of R365; a runnable Pinned context is never chosen. -/
def victim (s : State) : Option Ctx :=
  (s.ctxs.filter fun x => x.orr.lane.isSome && !(x.orr.cls = 3 && runnable x)).foldl (fun b x => match b with
    | none => some x
    | some y => if victimBefore x y then some x else some y) none

/-- The lane `l` of victim `v` goes to context `w`; what made the Orrery take it is used up: `w` is no newcomer any more, or one resident context that
stopped, the victim before another, has been answered, and no second one (R365, R367). -/
def grantLane (s : State) (w v : Ctx) (l : Option Nat) : State :=
  if w.orr.newcomer then s.putCtx { w with orr := { w.orr with newcomer := false, grant := l } }
  else
    let s := match if stopped v then some v else s.ctxs.find? stopped with
      | some k => s.putCtx { k with orr := { k.orr with was := false } }
      | none => s
    s.putCtx { w with orr := { w.orr with grant := l } }

/-- SWAP_OUT: a resident context leaves its lane, as the victim taken for another where no lane is free (R364, R365, R367). A victim that holds at a
pacing point waits for no lane before its release; the pacing point it has come to is noted (R360), and its lane-state record is written anew
(R24, R498). -/
def execSwapOut (c : Nat) (s : State) : Host.Outcome State Fault Refusal :=
  let s := noteReach s c
  match served s, victim s with
  | some w, some x =>
    if x.num = c && decide (laneCount ≤ (lanesUsed s).length) && !s.power.frost && s.mgmt.devstate ≠ 4 then
      let s' := writeStore (grantLane s w x x.orr.lane) c .lane
      match s'.ctx? c with
      | some y => .next (notePower s (s'.putCtx { y.addMeter 20 1 with
          orr := { y.orr with lane := none, was := stopped y, newcomer := false, victim := x.stat = .running && !x.hold.halted && holding x } }))
      | none => .next s
    else .next s
  | _, _ => .next s

/-- The lane a context may take now: the one that its victim left, or the free one that R363 chooses for the first waiting context (R365, R367). -/
def laneFor (s : State) (x : Ctx) : Option Nat :=
  match x.orr.grant with
  | some l => if runnable x && x.orr.lane.isNone then some l else none
  | none => if (firstWaiting s).any fun w => w.num = x.num then chooseLane s else none

/-- Epoch 0 begins, for the first time and once, where the context has a lane and the epoch is released (R357, R439). So does any epoch at whose pacing
point the context has resumed: the lane passes it. -/
def beginFirst (x : Ctx) : Ctx :=
  let y := if !x.orr.begun && x.orr.lane.isSome && decide (0 < x.orr.released) then { x.addMeter 3 1 with orr := { x.orr with begun := true } } else x
  if x.orr.lane.isSome && decide (x.m.cur.latch < x.orr.released) then { y with orr := { y.orr with unpassed := false } } else y

/-- A lane would let the context pass the pacing point at which it started or resumed (R357, R465). -/
def wouldPass (x : Ctx) : Bool := x.orr.unpassed && decide (x.m.cur.latch < x.orr.released)

/-- The context on lane `l`: at its first swap-in it comes to the pacing point at which it was started (R360). -/
def onLane (s : State) (x : Ctx) (l : Nat) : Ctx :=
  let x := if x.orr.reach.isNone then reachEpoch s x x.m.cur.latch else x
  let x := x.addMeter 21 1
  beginFirst { x with orr := { x.orr with lane := some l, grant := none, newcomer := false, victim := false, was := true } }

/-- SWAP_IN: the context takes its lane (R363 to R367); poison in its lane-state record faults it (R500). After a chip-level fault none takes one on which
it would pass a pacing point (R465). -/
def execSwapIn (c : Nat) (s : State) : Host.Outcome State Fault Refusal :=
  match s.ctx? c with
  | none => .next s
  | some x => match laneFor s x with
    | some l =>
      if s.power.frost || s.mgmt.devstate = 4 || (s.mgmt.devstate ≠ 2 && wouldPass x) then .next s
      else .next (useItems s x [.lane] fun t => notePower s (t.putCtx (onLane s x l)))
    | none => .next s

/-- What the Orrery notes as a µs ends: the pacing points the lanes have come to (R360), which residents are runnable (R367), and that a newcomer
waits where there is no victim for it (R366). -/
def laneTick (s : State) : State :=
  let s := { s with ctxs := s.ctxs.map fun x => (reachMove s x).getD x }
  let some_ := s.ctxs.any waits
  let none_ := (victim s).isNone
  { s with ctxs := s.ctxs.map fun x => { x with orr := { x.orr with
      was := (some_ && stopped x) || (x.orr.lane.isSome && runnable x)
      newcomer := x.orr.newcomer && !(waits x && none_) } } }

/-! ### Releases (R356, R359) -/

/-- R359: the lane has reached the latch of frame F, and every slice of it is encrypted or held. -/
def onTime (s : State) (x : Ctx) (f : Nat) : Bool :=
  (decide (f < x.m.cur.latch) || (x.m.cur.latch = f && atLatch x))
    && !(x.outp.slices.any fun b => b.kind = 1 && b.frame = f && !heldBack s x 2 f)

/-- A context without a lane that becomes runnable at a release is a newcomer, unless it lost its lane while it held (R365, R367). -/
def releaseNew (x : Ctx) : Bool := x.orr.newcomer || (x.orr.lane.isNone && x.orr.grant.isNone && holding x && !x.orr.victim && !x.orr.fresh)

/-- EPOCH_RELEASE of the next epoch at R(F); the frame before it falls due, once (R356, R359). After a chip-level fault the lanes pass no pacing point,
the first one of a context that has started or resumed among them (R465). -/
def execEpochRelease (c : Nat) (s : State) : Host.Outcome State Fault Refusal :=
  let s := noteReach s c
  match s.ctx? c with
  | none => .next s
  | some x =>
    let e := x.orr.released
    if x.stat ≠ .running || x.hold.halted || s.mgmt.devstate = 4 || (s.mgmt.devstate ≠ 2 && e = x.m.cur.latch)
        || decide (edgeNow s < releaseOf x e) then .next s
    else
      let late := decide (1 ≤ e) && decide (x.orr.due < e) && !onTime s x (e - 1)
      let y := { x with orr := { x.orr with
        released := e + 1, due := max x.orr.due e, newcomer := releaseNew x, fresh := false, victim := x.orr.victim && !holding x } }
      let y := beginFirst y
      if late then .next (raiseCtx (s.putCtx (y.addMeter 5 1)) y 194) else .next (s.putCtx y)

/-- EGRESS_SECOND: at the end of each wall-clock second the bytes above the claim are counted (R371). -/
def execEgressSecond (c : Nat) (s : State) : Host.Outcome State Fault Refusal :=
  match s.ctx? c with
  | none => .next s
  | some x =>
    if s.audit.uptime < 1000000 * (x.orr.second + 1) then .next s
    else
      let excess := x.orr.egress - claimOf (modeOf x.cfg.mode) (claimIn s x)
      .next (s.putCtx { x.addMeter 25 excess with orr := { x.orr with egress := 0, second := s.audit.uptime / 1000000 } })

end Sys2Proof.Machine
end

