-- ==== Sys2Proof/Machine/Audio.lean ====
section
/-! DEFINITION. The sound system (11): sources, envelopes, filters, buses, limiter, commits and crossfades, output blocks. -/
namespace Sys2Proof.Machine

/-! ### Arithmetic -/

/-- Arithmetic shift right: floor. -/
def asr (x : Int) (k : Nat) : Int := x / (2 ^ k : Nat)

/-- Clamp to [-2^k, 2^k - 1]. -/
def satk (k : Nat) (x : Int) : Int := max (-(2 ^ k : Nat)) (min ((2 ^ k : Nat) - 1) x)

/-- lg (R308). -/
def lg (x : Nat) : Int := if x = 0 then 0 else ((256 * x.log2 + bitsOf (x * 2 ^ (31 - x.log2)) 30 23 : Nat) : Int)

/-- scale (R308). -/
def scale (x n : Int) : Int :=
  let i := asr n 8
  let t := x * ((256 + n % 256) * 256)
  satk 31 (if 0 ≤ i then asr (t * (2 ^ i.toNat : Nat)) 16 else asr t (16 + (-i).toNat))

/-- The envelope smoothing of R310. -/
def smooth (env tgt : Int) (up down : Nat) : Int :=
  if env < tgt then env + asr ((tgt - env) * up + 65535) 16 else env - asr ((env - tgt) * down + 65535) 16

/-- A step of the envelope from a rate field (R304). -/
def rateStep (r : Nat) : Nat := (16 + r % 16) * 2 ^ (r / 16 % 16)

/-! ### Sources (R299 to R301) -/

def VoiceSet.src (v : VoiceSet) : Nat := bitsOf v.ctl.toNat 2 0

/-- SRC 0, and 6 and 7 which act as 0 (R299). -/
def VoiceSet.off (v : VoiceSet) : Bool := v.src = 0 || 6 ≤ v.src

/-- Looping is on: LOOP = 1 and LOOP below END (R301, R302). -/
def VoiceSet.loops (v : VoiceSet) : Bool := v.ctl.getLsbD 3 && decide (v.loop.toNat < v.lend.toNat)

/-- Audio RAM as the engines read it: offsets modulo its size (R296). -/
structure AuRam where
  cells : List Host.Cell
  size : Nat
  deriving DecidableEq, Repr

def AuRam.byte (a : AuRam) (x : Nat) : Nat := (memGet a.cells (x % a.size)).toNat

/-- Nibble `i` of ADPCM data (R299). -/
def AuRam.nibble (a : AuRam) (addr i : Nat) : Nat := (a.byte (addr + i / 2) >>> (i % 2 * 4)) % 16

def adpcmMag (m : Nat) : Int := [1, 3, 5, 8, 12, 17, 24, 34].getD m 0
def adpcmAdj (m : Nat) : Int := [-3, -2, -1, 0, 1, 3, 5, 8].getD m 0

/-- The step size (R300). -/
def adpcmSize (k : Nat) : Nat := (16 + k % 16) * 2 ^ (k / 16) / 4

/-- Decode one nibble (R300). -/
def decodeNibble (d : Adpcm) (nib : Nat) : Adpcm :=
  let diff := asr ((adpcmSize d.k : Int) * adpcmMag (nib % 8) + 4) 3
  { pred := max (-32768) (min 32767 (if nib / 8 % 2 = 1 then d.pred - diff else d.pred + diff))
    k := (min 191 (max 0 ((d.k : Int) + adpcmAdj (nib % 8)))).toNat
    x := d.x + 1 }

/-- Decode the next `n` nibbles; the state after nibble LOOP - 1 is saved with its tag (R300). -/
def decodeRun (a : AuRam) (addr loop : Nat) : Nat → Adpcm × Option (Nat × Adpcm) → Adpcm × Option (Nat × Adpcm)
  | 0, r => r
  | n + 1, r =>
    let i := (r.1.x + 1).toNat
    let d := decodeNibble r.1 (a.nibble addr i)
    decodeRun a addr loop n (d, if i + 1 = loop then some (loop, d) else r.2)

/-- Element `i`, decoding up to it; for an element below the last one decoded the decoder returns to the key-on state and decodes from nibble 0
(R300). -/
def adpcmElem (a : AuRam) (addr loop i : Nat) (v : Voice) : Int × Voice :=
  let from_ (d : Adpcm) (n : Nat) : Int × Voice :=
    let r := decodeRun a addr loop n (d, v.saved)
    (r.1.pred, { v with dec := r.1, saved := r.2 })
  if v.dec.x ≤ i then from_ v.dec ((i : Int) - v.dec.x).toNat else from_ {} (i + 1)

/-- The state a loop jump restores (R300). -/
def jumpState (loop : Nat) (v : Voice) : Adpcm :=
  match v.saved with
  | some (t, d) => if t = loop ∧ loop ≠ 0 then d else {}
  | none => {}

/-- Element `i` of a source that is not NOISE (R299). -/
def elemAt (a : AuRam) (p : VoiceSet) (i : Nat) (v : Voice) : Int × Voice :=
  let addr := p.addr.toNat
  match p.src with
  | 1 => (signedOf 8 (a.byte (addr + i)) * 256, v)
  | 2 => (signedOf 16 (a.byte (addr / 2 * 2 + 2 * i) + 256 * a.byte (addr / 2 * 2 + 2 * i + 1)), v)
  | 4 => (signedOf 8 (a.byte (addr + i % 32)) * 256, v)
  | _ => adpcmElem a addr p.loop.toNat i v

/-- The element j of R301 with its value. At a loop end it is nibble LOOP decoded from the state that a loop jump would restore, and from the key-on state
too it is that nibble alone, with pred 0 and k 32 (DEDUCED, log entry 81: R300 also has skipped nibbles decoded in turn). -/
def nextElem (a : AuRam) (p : VoiceSet) (v : Voice) : Int × Voice :=
  if p.src = 4 then elemAt a p ((v.pos + 1) % 32) v
  else if v.pos + 1 < p.lend.toNat then elemAt a p (v.pos + 1) v
  else if p.loops then
    if p.src = 3 then ((decodeNibble (jumpState p.loop.toNat v) (a.nibble p.addr.toNat p.loop.toNat)).pred, v) else elemAt a p p.loop.toNat v
  else elemAt a p v.pos v

/-- s16 of this sample (R301). -/
def sampleOf (a : AuRam) (p : VoiceSet) (v : Voice) : Int × Voice :=
  if p.src = 5 then (if v.noise % 2 = 1 then 32767 else -32767, v)
  else
    let e := elemAt a p v.pos v
    let f := nextElem a p e.2
    (e.1 + asr ((f.1 - e.1) * v.frac) 16, f.2)

/-- The bytes of audio RAM that the sample reads, for poison and corrections (R496, R500). -/
def bytesRead (p : VoiceSet) (v : Voice) : List Nat :=
  let addr := p.addr.toNat
  match p.src with
  | 1 => [addr + v.pos, addr + (if v.pos + 1 < p.lend.toNat then v.pos + 1 else if p.loops then p.loop.toNat else v.pos)]
  | 2 => [v.pos, if v.pos + 1 < p.lend.toNat then v.pos + 1 else if p.loops then p.loop.toNat else v.pos].flatMap fun i =>
      [addr / 2 * 2 + 2 * i, addr / 2 * 2 + 2 * i + 1]
  | 4 => [addr + v.pos % 32, addr + (v.pos + 1) % 32]
  | 3 =>
    let top := if v.pos + 1 < p.lend.toNat then v.pos + 1 else v.pos
    let lo := if v.dec.x ≤ v.pos then (v.dec.x + 1).toNat else 0
    ((List.range (top + 1 - lo)).map fun i => addr + (lo + i) / 2) ++
      (if v.pos + 1 < p.lend.toNat ∨ !p.loops then [] else [addr + p.loop.toNat / 2])
  | _ => []

/-! ### One voice (R302 to R306) -/

/-- A voice ends (R302). -/
def endVoice (v : Voice) : Voice := { v with active := false, stage := .idle, env := 0 }

/-- The envelope of this sample, and whether release has reached 0 (R304). -/
def stepEnv (p : VoiceSet) (v : Voice) : Voice × Bool :=
  let r (hi lo : Nat) : Nat := rateStep (bitsOf p.env.toNat hi lo)
  match v.stage with
  | .attack =>
    let e := min 0xFFFFFF (v.env + r 7 0)
    ({ v with env := e, stage := if e = 0xFFFFFF then .decay else .attack }, false)
  | .decay =>
    let sl := bitsOf p.env.toNat 23 16 * 0x010101
    let e := max sl (v.env - r 15 8)
    ({ v with env := e, stage := if e = sl then .sustain else .decay }, false)
  | .release =>
    let e := v.env - r 31 24
    ({ v with env := e }, e = 0)
  | _ => (v, false)

/-- The state-variable filter (R305): y and the new state. -/
def filterStep (p : VoiceSet) (x : Int) (v : Voice) : Int × Voice :=
  let f : Int := (bitsOf p.filt.toNat 14 0 : Nat); let d : Int := (bitsOf p.filt.toNat 31 16 : Nat)
  let low := satk 27 (v.low + asr (f * v.band) 15)
  let high := satk 27 (x - low - asr (d * v.band) 14)
  let band := satk 27 (asr (f * high) 15 + v.band)
  let y := match bitsOf p.ctl.toNat 6 4 with
    | 1 => low
    | 2 => band
    | 3 => high
    | 4 => high + low
    | _ => x
  (satk 23 y, { v with low := low, band := band })

/-- One advance of the noise generator (R301). -/
def noiseStep (r : Nat) : Nat := if r % 2 = 1 then Nat.xor (r / 2) 0xB400 else r / 2

def noiseRun : Nat → Nat → Nat
  | 0, r => r
  | n + 1, r => noiseRun n (noiseStep r)

/-- The advance of the position, and whether the voice ends by it (R301, R302). The noise register advances with I while SRC is NOISE and stands
still otherwise (DESIGN CHOICE, log entry 76: R301 does not say whether it also advances for another source). -/
def advancePos (p : VoiceSet) (v : Voice) : Voice × Bool :=
  let t := v.pos * 65536 + v.frac + min p.pitch.toNat 0x100000
  let i := t / 65536 % 2 ^ 24
  let w := { v with pos := i, frac := t % 65536, noise := if p.src = 5 then noiseRun (t / 65536 - v.pos) v.noise else v.noise }
  let lend := p.lend.toNat; let loop := p.loop.toNat
  if p.src = 4 ∨ p.src = 5 ∨ i < lend then (w, false)
  else if p.loops then
    ({ w with pos := loop + (i - lend) % (lend - loop), dec := if p.src = 3 then jumpState loop w else w.dec }, false)
  else (w, true)

/-- One sample of an active voice: v, y, the new state, and whether it has ended. -/
def voiceStep (a : AuRam) (p : VoiceSet) (v : Voice) : Int × Int × Voice × Bool :=
  let e := stepEnv p v
  let q := sampleOf a p e.1
  let x := asr (q.1 * (e.1.env : Nat)) 16
  let f := filterStep p x q.2
  let m := advancePos p f.2
  if m.2 || e.2 then (x, f.1, endVoice m.1, true) else (x, f.1, m.1, false)

/-- A contribution: route, left, right (R306). -/
def contribution (route : Nat) (mix : Word) (x y : Int) : Option (Nat × Int × Int) :=
  if 4 < route then none
  else
    let w := if route = 4 then x else y
    let vol : Int := (min 256 (bitsOf mix.toNat 8 0) : Nat); let pan : Int := (min 256 (bitsOf mix.toNat 24 16) : Nat)
    some (route, asr (w * vol * (256 - pan)) 16, asr (w * vol * pan) 16)

/-- What voice `n` sends in sample `k` of a crossfade, or outside one (R306, R317). -/
def sends (au : Au) (n i : Nat) (x y : Int) : List (Nat × Int × Int) :=
  let cn := contribution (au.live.routeOf i) (au.live.voice i).mix x y
  match au.xf with
  | none => cn.toList
  | some (n0, olds) => match olds.find? fun o => o.n = i with
    | none => cn.toList
    | some o =>
      let k : Int := ((n - n0 + 1 : Nat) : Int)
      (cn.map fun c => (c.1, asr (c.2.1 * k) 6, asr (c.2.2 * k) 6)).toList ++
        ((contribution o.route o.mix x y).map fun c => (c.1, c.2.1 - asr (c.2.1 * k) 6, c.2.2 - asr (c.2.2 * k) 6)).toList

/-! ### Buses and limiter (R307 to R312) -/

/-- Per-channel sum of what is routed to `r` (R307). -/
def routed (l : List (Nat × Int × Int)) (r : Nat) : Int × Int :=
  ((l.map fun c => if c.1 = r then c.2.1 else 0).sum, (l.map fun c => if c.1 = r then c.2.2 else 0).sum)

/-- One channel of the equaliser: out, lpL, lpH (R309). -/
def eqStep (b : BusSet) (x lpL lpH : Int) : Int × Int × Int :=
  let c (w : Word) (hi lo : Nat) : Int := (bitsOf w.toNat hi lo : Nat)
  let l := lpL + asr (c b.eqf 15 0 * (x - lpL)) 16
  let h := lpH + asr (c b.eqf 31 16 * (x - lpH)) 16
  (satk 31 (asr (c b.eqg0 15 0 * l + c b.eqg0 31 16 * (h - l) + c b.eqg1 15 0 * (x - h)) 12), l, h)

/-- A bus: its output and new state (R309 to R311). -/
def busStep (p : BusSet) (b : Bus) (x : Int × Int) : (Int × Int) × Bus :=
  let l := eqStep p x.1 b.lpLL b.lpHL
  let r := eqStep p x.2 b.lpLR b.lpHR
  let xd := b.delay.headD (0, 0)
  let mk := signedOf 11 (bitsOf p.mkg.toNat 10 0)
  let env :=
    if p.mkg.getLsbD 16 then
      let excess := lg (max l.1.natAbs r.1.natAbs) - (bitsOf p.cth.toNat 12 0 : Nat)
      let tgt := max 0 (asr (excess * (min 256 (bitsOf p.cth.toNat 24 16) : Nat)) 8) * 65536
      smooth b.env tgt (bitsOf p.ctc.toNat 15 0) (bitsOf p.ctc.toNat 31 16)
    else 0
  let g := mk - asr env 16
  ((scale xd.1 g, scale xd.2 g),
    { lpLL := l.2.1, lpHL := l.2.2, lpLR := r.2.1, lpHR := r.2.2, delay := b.delay.drop 1 ++ [(l.1, r.1)], env := env })

/-- The limiter: output pair and envL (R312). -/
def limit (a : AuSet) (envL : Int) (x : Int × Int) : (Half × Half) × Int :=
  let mg := signedOf 13 (bitsOf a.mgain.toNat 12 0)
  let l := scale x.1 mg; let r := scale x.2 mg
  let env :=
    if a.limc.getLsbD 16 then
      smooth envL (max 0 (lg (max l.natAbs r.natAbs) - (bitsOf a.limc.toNat 12 0 : Nat)) * 65536)
        (bitsOf a.limt.toNat 15 0) (bitsOf a.limt.toNat 31 16)
    else 0
  let out (y : Int) : Half :=
    let y := satk 23 (if a.limc.getLsbD 16 then scale y (-(asr env 16)) else y)
    BitVec.ofInt 16 (satk 15 (asr (y + 128) 8))
  ((out l, out r), env)

/-! ### One sample (R295 to R298) -/

/-- Sample `n` of the sound system: the new state (R299 to R312). -/
def auSample (a : AuRam) (au : Au) (n t : Nat) : Au :=
  let vs := (List.range 32).map fun i =>
    let v := au.voice i
    if v.active then
      let r := voiceStep a (au.live.voice i) v
      (r.2.2.1, r.2.2.2, sends au n i r.1 r.2.1)
    else (v, false, [])
  let sent := vs.flatMap fun r => r.2.2
  let bus (k : Fin 4) : (Int × Int) × Bus := busStep (au.live.bus k) au.buses[k] (routed sent k)
  let ll := routed sent 4
  let sumL := (bus 0).1.1 + (bus 1).1.1 + (bus 2).1.1 + (bus 3).1.1 + ll.1
  let sumR := (bus 0).1.2 + (bus 1).1.2 + (bus 2).1.2 + (bus 3).1.2 + ll.2
  let o := limit au.live au.envL (sumL, sumR)
  let ended := BitVec.ofNat 32 ((vs.zipIdx.map fun r => if r.1.2.1 then 2 ^ r.2 else 0).sum)
  { au with
    voices := Vector.ofFn fun i => (vs[i.val]?.map fun r => r.1).getD {}
    buses := Vector.ofFn fun k => (bus k).2
    envL := o.2, out := au.out ++ [o.1], samples := n + 1
    vend := if ended = 0 then au.vend else au.vend.set ended t }

/-- Bytes of audio RAM that the active voices read in the next sample. -/
def auReads (au : Au) (size : Nat) : List Nat :=
  ((List.range 32).flatMap fun i => if (au.voice i).active then (bytesRead (au.live.voice i) (au.voice i)).map fun b => b % size else [])

/-- AUDIO_SAMPLE: the next sample at its boundary, from audio RAM as every earlier vc has left it (R294 to R312, R353); consumed poison is a
context fault (R500). -/
def execAudioSample (c : Nat) (s : State) : Host.Outcome State Fault Refusal :=
  ctxDueWith s c .sample fun e x t =>
    let au := x.m.au
    let n := au.samples
    let size := audioSize e.cfg.prof
    let rd := auReads au size
    match rd.find? fun b => x.m.blkPoisoned .audio (b / 16) with
    | some b => some ((x.m.emit (.consumed (some (.ram .audio b)))).emit (.faulted true), id)
    | none =>
      let m := { x.m with au := auSample ⟨x.m.mem.audio, size⟩ au n t }
      some (noteBytes e m .audio rd, fun y =>
        let y := { y with log := { y.log with maxSample := max y.log.maxSample (n + 1) } }
        if n < x.log.maxSample then y.addMeter 14 32 else y)

/-! ### Commits and crossfades (R314 to R318) -/

/-- Key-off and key-on of voice `i` under its live set (R303), after a voice whose SRC has become 0 has ended (R302). -/
def trigger (p : VoiceSet) (koff kon : Bool) (v : Voice) : Voice × Bool :=
  let ends := v.active && p.off
  let v := if ends then endVoice v else v
  let v := if koff && v.active && v.stage ≠ .release then { v with stage := .release } else v
  (if kon && !p.off then { active := true, stage := .attack } else v, ends)

/-- The boundary of the next sample takes the pending commit (R314 to R317). -/
def takeCommit (m : Mach) (t : Nat) : Mach :=
  let au := m.au
  let old := au.live
  let new := au.shadow
  let vs := (List.range 32).map fun i => trigger (new.voice i) (au.koff.getLsbD i) (au.kon.getLsbD i) (au.voice i)
  let ended := BitVec.ofNat 32 ((vs.zipIdx.map fun r => if r.1.2 then 2 ^ r.2 else 0).sum)
  let changed := (List.range 32).filter fun i => old.routeOf i ≠ new.routeOf i || (old.voice i).mix ≠ (new.voice i).mix
  let au := { au with
    live := new, kon := 0, koff := 0, commit := none, xfq := false
    voices := Vector.ofFn fun i => (vs[i.val]?.map fun r => r.1).getD {}
    vend := if ended = 0 then au.vend else au.vend.set ended t
    xf := if au.xfq then some (au.samples, changed.map fun i => ⟨i, old.routeOf i, (old.voice i).mix⟩) else au.xf }
  { m with au := au }.raise 15 t

/-- AUDIO_COMMIT_TAKEN (R314, R318). -/
def execAudioCommitTaken (c : Nat) (s : State) : Host.Outcome State Fault Refusal :=
  ctxDue s c .commitTaken fun _ m t => some (takeCommit m t)

/-- CROSSFADE_END at boundary n0 + 64 (R317). -/
def execCrossfadeEnd (c : Nat) (s : State) : Host.Outcome State Fault Refusal :=
  ctxDue s c .crossfadeEnd fun _ m t => some ({ m with au := { m.au with xf := none } }.raise 16 t)

/-! ### Output blocks (R320 to R323, R346, R347) -/

/-- The plaintext of a block (R321). -/
def blockPlain (x : Ctx) (b : ABlock) : List Byte :=
  let md := modeOf x.cfg.mode
  [0x03, 0, BitVec.ofNat 8 x.cfg.mode, 0] ++ le 8 b.num ++ le 2 b.rev ++ le 2 48 ++ le 8 (48 * b.num / md.samples) ++ le 2 (48 * b.num % md.samples)
    ++ zeros 6 ++ b.samples.flatMap fun p => le 2 p.1.toNat ++ le 2 p.2.toNat

/-- AUDIO_BLOCK_COMMIT at boundary 48(b + 1), while fewer than 16 blocks wait (R320, R323, R345). A block that queue 3 cannot take at
once waits, and the first one raises source 195. -/
def execAudioBlockCommit (c : Nat) (s : State) : Host.Outcome State Fault Refusal :=
  match s.ctx? c with
  | none => .next s
  | some x =>
    let md := modeOf x.cfg.mode
    let b := x.m.au.blocks
    let t := 48 * (b + 1) * md.vcSample
    if !x.active || x.m.au.samples ≠ 48 * (b + 1) || !hasCome x .blockCommit t || decide (16 ≤ x.outp.blocks.length) then .next s
    else
      let waits := (!canAccept s x 3 224 || !x.outp.blocks.isEmpty) && !heldBack s x 3 (blockEpoch md b)
      let k : ABlock := { num := b, rev := (tabGet x.outp.blockRevs b).getD 0, samples := x.m.au.out, waited := waits }
      let m := x.m.seen t
      let y := noteVc { x with
        m := { m with au := { m.au with blocks := b + 1, out := [] } }
        outp := { x.outp with blocks := x.outp.blocks ++ [k] } } x.m.vc
      .next (if waits then pressure (s.putCtx y) y 3 else s.putCtx y)

/-- AUDIO_BLOCK_SEND: the oldest waiting block that is not held goes to queue 3 once the queue can take it (R321 to R323, R347). One that is not held
and cannot be taken waits, with its back-pressure event where it has not waited before; only a slice re-arms that event (R291). Nothing is sent where
the clocks stand (R480, R488). -/
def execAudioBlockSend (c : Nat) (s : State) : Host.Outcome State Fault Refusal :=
  match s.liveCtx? c with
  | none => .next s
  | some x =>
    match x.outp.blocks with
    | [] => .next s
    | b :: rest =>
      if heldBack s x 3 (blockEpoch (modeOf x.cfg.mode) b.num) then .next s
      else if !canAccept s x 3 224 then
        if b.waited then .next s
        else
          let w := { x with outp := { x.outp with blocks := { b with waited := true } :: rest } }
          .next (pressure (s.putCtx w) w 3)
      else
        let y := emitMsg x 3 b.rev (blockPlain x b)
        .next (noteWork (s.putCtx { y with outp := { y.outp with blocks := rest } }) x y)

end Sys2Proof.Machine
end

