-- ==== Sys2Proof/Machine/Block.lean ====
section
/-! DEFINITION. The block instructions BMOV, BFILL and BCMP (R101 to R106). One command goes on for at most one chunk of 16 words, vc by vc, as far
as no other happening comes first: `Cpu.blk` counts the words since the entry and tells a continued instruction, which spends no entry cost, from
a new entry (R104); `Cpu.word` holds what the first vc of a word of two vc has read. -/
namespace Sys2Proof.Machine

inductive BlkOp where
  | mov | fill | cmp
  deriving DecidableEq, Repr

/-- What one vc of a word leads to: the word's first vc is over, the word is processed, a fault with vector, KIND and INFO, or a difference that
retires BCMP. -/
inductive WordRes where
  | half (m : Mach)
  | done (m : Mach)
  | bad (vec kind : Nat) (info : Word)
  | differ (m : Mach)

/-- The registers after a word: the pointers `op` uses advance by 4, w2 counts the word (R102). -/
def wordDone (m : Mach) (op : BlkOp) : Mach :=
  let m := m.setReg 0 (m.reg 0 + 4)
  let m := if op = .fill then m else m.setReg 1 (m.reg 1 + 4)
  (m.setReg 2 (m.reg 2 - 1)).clearWord

/-- R102: the first vc `v` of a word. Both accesses are checked in it before either acts (R106, R532); BFILL stores, BMOV and BCMP read. Both words
of BCMP are read in this vc (DESIGN CHOICE, log entry 64: R104 names no vc for either read). -/
def blkFirst (e : Env) (m : Mach) (op : BlkOp) (v : Nat) : WordRes :=
  let a := (m.reg 0).toNat; let b := (m.reg 1).toNat
  match op with
  | .fill => match storeAt e m a 4 (m.reg 1) v with
    | .error (x, i) => .bad x 1 i
    | .ok m => .done (wordDone m op)
  | .mov => match loadAt e m b 4 v with
    | .error (x, i) => .bad x 0 i
    | .ok (w, m) => match checkAccess e m .write a 4 with
      | .error (x, i) => .bad x 1 i
      | .ok _ => .half (m.setWord [BitVec.ofNat 32 w])
  | .cmp => match loadAt e m a 4 v with
    | .error (x, i) => .bad x 0 i
    | .ok (x, m1) => match loadAt e m1 b 4 v with
      | .error (y, i) => .bad y 0 i
      | .ok (y, m) => .half (m.setWord [BitVec.ofNat 32 x, BitVec.ofNat 32 y])

/-- R102, R103: the second vc `v` of a word, `a` and `b` being what the first has read, of BMOV, which stores, or of BCMP, which compares. -/
def blkSecond (e : Env) (m : Mach) (op : BlkOp) (a b : Word) (v : Nat) : WordRes :=
  match op with
  | .cmp => if a ≠ b then .differ (m.setPsw ((subRes a b true).psw m.cpu.psw)) else .done (wordDone m op)
  | _ => .done (wordDone (storeRaw e m (m.reg 0).toNat 4 a v) op)

/-- R103: BCMP at the end of its run. -/
def blkEnd (m : Mach) : BlkOp → Mach
  | .cmp => m.setPsw (setFlags m.cpu.psw false true true false)
  | _ => m

/-- At most `n` vc from vc `v` on, up to a chunk's end (R105); `t` is the vc in which the command began, `tot` the words done since the entry. A
happening that comes before the lane in vc `v` lets the instruction go on only after it. -/
def blkLoop (e : Env) (op : BlkOp) (t : Nat) (pc : Word) : Nat → Nat → Nat → Mach → Ret
  | 0, v, _, m => ⟨m, v - t, .stay⟩
  | n + 1, v, tot, m =>
    if m.lim e.cfg ≤ v then ⟨m, v - t, .stay⟩
    else match (match m.cpu.word with | [] => blkFirst e m op v | a :: bs => blkSecond e m op a (bs.headD 0) v) with
      | .bad x k i => ⟨m, v - t + 1, .exc { vec := x, kind := k, info := i, pc := pc }⟩
      | .differ m => ⟨m, v + 1 - t, .seq⟩
      | .half m => blkLoop e op t pc n (v + 1) tot m
      | .done m =>
        let m := m.setBlk (tot + 1)
        if m.reg 2 = 0 then ⟨blkEnd m op, v + 1 - t, .seq⟩
        else if (tot + 1) % 16 = 0 then ⟨m, v + 1 - t, .stay⟩
        else blkLoop e op t pc n (v + 1) (tot + 1) m

/-- R101, R104: the entry of 2 vc, alignment before any word, then a chunk of at most 32 vc. -/
def blkBody (op : BlkOp) : Body := fun e m t pc _ =>
  match m.cpu.blk with
  | some tot => blkLoop e op t pc 32 t tot m
  | none =>
    if m.reg 2 = 0 then ⟨blkEnd m op, 2, .seq⟩
    else if (m.reg 0).toNat % 4 ≠ 0 then fail m 1 3 (if op = .cmp then 0 else 1) (m.reg 0) pc
    else if op ≠ .fill && (m.reg 1).toNat % 4 ≠ 0 then fail m 1 3 0 (m.reg 1) pc
    else blkLoop e op t pc 32 (t + 2) 0 (m.setBlk 0)

/-- BMOV (R101, R102). -/
def execBmov (c : Nat) (s : State) : Host.Outcome State Fault Refusal := coreStep s c (encodingOf (.bmov c)) (blkBody .mov)
/-- BFILL (R101, R102). -/
def execBfill (c : Nat) (s : State) : Host.Outcome State Fault Refusal := coreStep s c (encodingOf (.bfill c)) (blkBody .fill)
/-- BCMP (R101 to R103). -/
def execBcmp (c : Nat) (s : State) : Host.Outcome State Fault Refusal := coreStep s c (encodingOf (.bcmp c)) (blkBody .cmp)

end Sys2Proof.Machine
end

