-- ==== Sys2Proof/Machine/Packets.lean ====
section
/-! DEFINITION. The parameters of command packets as bytes: the fields that the catalogue lists for each opcode (R453, R454, R468 to R472), whether a
packet spells a command with given operands, and the descriptors inside (R265, R269). -/
namespace Sys2Proof.Machine

/-! ### Fields (R453) -/

/-- A field of the parameters: a number of `n` bytes, bytes, reserved bytes, bytes of which nothing is asked here, a placement or a watched region,
the OP of RAS.SCRUB, an OUT byte of PIN.SET. -/
inductive Par where
  | num (n v : Nat)
  | raw (n : Nat) (l : List Byte)
  | rsvd (n : Nat)
  | any (n : Nat)
  | place (p : Placement)
  | region (g : Region)
  | scrubOp (k : Nat)
  | bit (b : Bool)
  deriving DecidableEq, Repr

def Par.size : Par → Nat
  | .num n _ => n
  | .raw n _ => n
  | .rsvd n => n
  | .any n => n
  | .place _ => 16
  | .region _ => 32
  | .scrubOp _ => 1
  | .bit _ => 1

/-- A placement descriptor (R265). -/
def placementOf (b : List Byte) : Placement :=
  { image := BitVec.ofNat 16 (numAt b 0 2), x := BitVec.ofNat 16 (numAt b 2 2), y := BitVec.ofNat 16 (numAt b 4 2), alpha := b.getD 6 0
    en := (b.getD 7 0).getLsbD 0, flagsOk := decide ((b.getD 7 0).toNat < 2), rsvdOk := (bytesAt b 8 8).all fun x => x = 0 }

/-- A watched-region descriptor (R269). -/
def regionOf (b : List Byte) : Region :=
  { left := numAt b 0 2, top := numAt b 2 2, right := numAt b 4 2, bottom := numAt b 6 2, nsig := numAt b 8 1, en := (b.getD 9 0).getLsbD 0
    flagsOk := decide ((b.getD 9 0).toNat < 2), rsvdOk := (bytesAt b 10 2).all fun x => x = 0, missMax := numAt b 12 2, stillMax := numAt b 14 2
    sigs := (List.range 4).map fun k => BitVec.ofNat 32 (numAt b (16 + 4 * k) 4) }

/-- The bytes of a field say what the operand says. The OP of a scrub row is its own, or one that is not assigned, which any of them can bring
(R472); OUT is bit 0 of its byte (DEDUCED, log entry 80: R472 names no code of OUT that fails). -/
def Par.says (p : Par) (b : List Byte) : Bool :=
  match p with
  | .num _ v => leNat b = v
  | .raw _ l => b = l
  | .rsvd _ => true
  | .any _ => true
  | .place q => placementOf b = q
  | .region g => regionOf b = g
  | .scrubOp k => (b.getD 0 0).toNat = k || decide (2 < (b.getD 0 0).toNat)
  | .bit v => (b.getD 0 0).getLsbD 0 = v

/-- The parameter bytes say what the operands say, as far as they reach. -/
def parsSay : List Par → List Byte → Bool
  | [], _ => true
  | p :: l, b => (decide (b.length < p.size) || p.says (b.take p.size)) && parsSay l (b.drop p.size)

/-- Bytes of all fields. -/
def parsSize (l : List Par) : Nat := (l.map Par.size).sum

/-- The offset of the first reserved field that is not zero, from `off` on (R452, R456). -/
def badRsvd : Nat → List Par → List Byte → Option Nat
  | _, [], _ => none
  | off, p :: l, b =>
    match p with
    | .rsvd n => if (b.take n).all fun x => x = 0 then badRsvd (off + n) l (b.drop n) else some off
    | _ => badRsvd (off + p.size) l (b.drop p.size)

/-! ### Bulk (R454) -/

/-- The bulk descriptor at the start of the parameters: INADDR, INLEN, OUTADDR, OUTLEN. -/
def inAddrOf (h : Hdr) : Nat := numAt h.params 0 8
def inLenOf (h : Hdr) : Nat := numAt h.params 8 8
def outAddrOf (h : Hdr) : Nat := numAt h.params 16 8
def outLenOf (h : Hdr) : Nat := numAt h.params 24 8

/-- An X.509 certificate with its length before it, at the start of a bulk input (R469): what follows it. -/
def afterCert (b : List Byte) : List Byte := b.drop (2 + numAt b 0 2)

/-- The bulk input of CTX.EXPORT: device certificate, DXK, FWK and membership certificates, ticket (R469). -/
def exportInput (p : ExportP) : List Byte := p.dxk ++ p.fwk ++ p.member ++ p.ticket

/-! ### The catalogue's fields (R468 to R472) -/

/-- What the catalogue says of a command's parameters: the fields after the bulk descriptor, whether only a bulk packet has its length, the OUTLEN that
its operands give, and whether the bulk input says what they say. -/
structure Lay where
  pars : List Par := []
  needsBulk : Bool := false
  outLen : Option Nat := none
  inOk : Bool := true
  deriving DecidableEq, Repr

def layBy (pars : List Par) : Lay := { pars := pars }

/-- CTX.CREATE's 128 bytes (R470). -/
def createPars (p : CreateP) : List Par :=
  [.num 48 p.imgHash, .num 64 p.tag, .num 1 p.mode.toNat, .num 1 p.prof.toNat, .num 1 p.opts.toNat, .num 1 p.pmax.toNat, .num 4 p.allow,
    .num 1 p.port.toNat, .num 1 p.cls.toNat, .rsvd 2, .num 4 p.grace]

/-- QUE.SETUP's fields (R471). -/
def quePars (p : QueSetupP) : List Par :=
  [.num 4 p.qid, .rsvd 4, .num 8 p.rbase, .num 1 p.log2n, .num 1 p.prio, .num 1 p.coal, .num 1 p.opt.toNat, .num 1 p.sfh, .num 1 p.sfv, .num 1 p.eclaim,
    .rsvd 9]

/-- A field of bytes. -/
def rawPar (l : List Byte) : Par := .raw l.length l

/-- An envelope with its ENVLEN. -/
def sealedAll (e : Sealed) : List Byte := e.head ++ e.ct ++ e.tag

/-- The fields of a command's packet (R468 to R472). -/
def layout : Instr → Lay
  | .chipEvents _ cursor => layBy [.num 8 cursor]
  | .chipHandover _ target => layBy [.num 1 target.toNat]
  | .chipTag _ off data _ => layBy [.num 2 off, .num 2 data.length, rawPar data]
  | .chipEnrol _ p => layBy [.num 16 p.domain, .num 2 p.chipNo.toNat, .rsvd 2, .raw 97 p.dpub, .rsvd 3, .raw 304 p.cert]
  | .chipSetclaim _ order m2addr lease => layBy [.raw 3 (order.map fun m => BitVec.ofNat 8 m), .num 1 m2addr, .num 4 lease]
  | .sesOpen _ role slot mnonce form mxy => layBy [.num 1 role, .num 1 slot, .rsvd 2, .num 32 mnonce, .num 1 form.toNat, .num 96 mxy]
  | .sesProve _ shandle cpub sig => layBy [.num 4 shandle.toNat, .raw 97 cpub, .raw 96 sig]
  | .roleSetcred _ slot d => layBy [.num 1 slot, .rsvd 15, .num 48 d]
  | .ctxCreate _ p => layBy (createPars p)
  | .ctxStart _ c => layBy [.num 2 c]
  | .ctxPark _ c => layBy [.num 2 c]
  | .ctxResume _ c => layBy [.num 2 c]
  | .ctxDestroy _ c => layBy [.num 2 c]
  | .ctxClass _ c cls grace => layBy [.num 2 c, .num 1 cls, .rsvd 1, .num 4 grace]
  | .ctxExport h c p => { pars := [.num 2 c, .rsvd 14], needsBulk := true, outLen := some p.outLen, inOk := !h.bulk || afterCert h.input = exportInput p }
  | .ctxImport h port cls grace head ct tag sig _ sfwk =>
    { pars := [.num 1 port, .num 1 cls, .rsvd 2, .num 4 grace], needsBulk := true
      inOk := !h.bulk || afterCert h.input = sfwk ++ head ++ ct ++ tag ++ sig }
  | .ctxAttest _ c nonce => layBy [.num 2 c, .rsvd 14, .num 64 nonce]
  | .ctxQuery _ c => layBy [.num 2 c]
  | .ctxReimage _ c imgHash => layBy [.num 2 c, .rsvd 14, .num 48 imgHash]
  | .imgLoad h env raw =>
    let e := (env.map sealedAll).getD []
    { pars := [.num 2 e.length, .rsvd 14, rawPar e], needsBulk := true, inOk := !h.bulk || h.input = sealedAll raw }
  | .imgUnload _ imgHash => layBy [.num 48 imgHash]
  | .imgKeys _ c env => layBy [.num 2 c, .num 2 (sealedAll env).length, .rsvd 12, rawPar (sealedAll env)]
  | .imgList _ start => layBy [.num 2 start]
  | .queSetup _ p => layBy (quePars p)
  | .queQuery _ qid => layBy [.num 4 qid]
  | .retUpload h w k px =>
    { pars := [.num 2 w, .num 2 k, .rsvd 12] ++ (if h.bulk then [] else [.raw (4 * w * k) px]), inOk := !h.bulk || h.input = px }
  | .retFree _ handle => layBy [.num 2 handle.toNat]
  | .retPlace _ c mask plc => layBy ([.num 2 c, .num 1 mask.toNat, .rsvd 13] ++ plc.map .place)
  | .retWatch _ c mask regs => layBy ([.num 2 c, .num 1 mask.toNat, .rsvd 13] ++ regs.map .region)
  | .retWatchq _ c => layBy [.num 2 c]
  | .mtrRead _ c => layBy [.num 2 c]
  | .mtrStatement _ sseq max => layBy [.num 8 sseq, .num 2 max]
  | .mtrAck _ upto => layBy [.num 8 upto]
  | .timeSet _ time => layBy [.num 8 time]
  | .pwrLimit _ watts => layBy [.num 2 watts]
  | .pwrStepcap _ cap => layBy [.num 1 cap]
  | .pwrThrottle _ tj => layBy [.num 1 tj]
  | .pinSet _ p => layBy [.num 1 p.pin, .num 1 p.func, .num 1 p.pull, .num 1 p.drive, .num 1 p.sleep, .bit p.out, .num 1 p.oe, .rsvd 9]
  | .pinLock _ mask => layBy [.num 8 mask]
  | .rasScrubStop _ period => layBy [.scrubOp 0, .rsvd 3, .num 4 period]
  | .rasScrubOnePass _ period => layBy [.scrubOp 1, .rsvd 3, .num 4 period]
  | .rasScrubContinuous _ period => layBy [.scrubOp 2, .rsvd 3, .num 4 period]
  | .rasThresh _ hbm onchip => layBy [.num 4 hbm, .num 4 onchip]
  | .almRead _ seq max => layBy [.num 8 seq, .num 2 max]
  | .almHead _ nonce => layBy [.num 48 nonce]
  | .fwUpdate _ _ _ => { needsBulk := true }
  | .fwDiag _ test => layBy [.num 2 test, .rsvd 14]
  | _ => {}

/-! ### A packet's bytes (R452, R453) -/

/-- Bytes of a packet's trailer: a session's packet has one, where its LEN leaves room. -/
def trailerLen (h : Hdr) : Nat := if h.sh ≠ 0 ∧ 2 ≤ h.len then 16 else 0

/-- The bytes of a packet before its trailer (R452). -/
def packetBytes (h : Hdr) : List Byte :=
  le 2 h.op.toNat ++ [h.flags, h.fver] ++ le 2 h.tag.toNat ++ le 2 h.len ++ le 4 h.sh.toNat ++ le 4 h.seq.toNat ++ h.params

/-- The parameters after the bulk descriptor (R454), and where they begin in the packet. -/
def fieldsOf (h : Hdr) : List Byte := if h.bulk then h.params.drop 32 else h.params
def fieldsAt (h : Hdr) : Nat := if h.bulk then 48 else 16

/-- LEN is the size that the opcode and the packet's own length fields give (R453). -/
def lenRight (y : Lay) (h : Hdr) : Bool :=
  (!y.needsBulk || h.bulk) && h.len = 1 + (fieldsAt h - 16 + parsSize y.pars + 15) / 16 + (if h.sh = 0 then 0 else 1)

/-- The packet has as many bytes as its LEN says, its parameters say what the operands say, and the bulk input has INLEN bytes and says what they
say (R452 to R454). -/
def spells (y : Lay) (h : Hdr) : Bool :=
  h.params.length + trailerLen h + 16 = 16 * h.len && h.trailer.length = trailerLen h && parsSay y.pars (fieldsOf h)
    && (if h.bulk then inLenOf h = h.input.length && (y.outLen.all fun n => outLenOf h = n) && y.inOk else h.input.isEmpty)

end Sys2Proof.Machine
end

