-- ==== Sys2Proof/Machine/Host.lean ====
section
/-! DEFINITION. The host attachment (14): doorbells and descriptors, outbound and inbound messages, DMA channels, coalescers, BAR0, port faults
and the restart after a chip-level fault (R465, R466). -/
namespace Sys2Proof.Machine

/-! ### Doorbells and the descriptor fetch (R385, R386) -/

/-- N, the ring's descriptors (R381). -/
def Queue.n (q : Queue) : Nat := 2 ^ q.log2n

/-- One refused doorbell (R385). -/
def refuseDoorbell (s : State) (p : Nat) : State :=
  let f := s.func p
  raiseOn (s.setFunc p { f with dberr := f.dberr + 1 }) p 214 0xFFFF

/-- A descriptor error (R384, R386): source 213, with H_DESCERR where `count`. -/
def descError (s : State) (p : Nat) (count : Bool) : State :=
  let f := s.func p
  raiseOn (if count then s.setFunc p { f with descerr := f.descerr + 1 } else s) p 213 0xFFFF

/-- Where descriptor `i` lies in host memory (R383). -/
def Queue.descAt (q : Queue) (i : Nat) : Nat := q.rbase + 32 * i

/-- Fetch at most `k` descriptors in order, each by a snooped read; OWN = 0 and a failing read stop the fetch (R386, R391; DESIGN CHOICE, log entry 71:
one read request a descriptor). -/
def fetchDescs (p : Nat) (readErr : Bool) : Nat → List Desc → Queue → State → State
  | 0, _, q, s => s.putQueue q
  | _ + 1, [], q, s =>
    if readErr then
      raiseOn (({ s with wire := s.wire ++ [.read q.qid (q.descAt q.fhead) 32 false] } : State).putQueue q) p 215 0xFFFF
    else s.putQueue q
  | k + 1, d :: ds, q, s =>
    let s := { s with wire := s.wire ++ [.read q.qid (q.descAt q.fhead) 32 false] }
    if d.own then fetchDescs p readErr k ds { q with fhead := (q.fhead + 1) % q.n, fetched := q.fetched ++ [d] } s
    else descError (s.putQueue q) p true

/-- TSTAMP of a write-back now (R383). -/
def tstamp (s : State) (p : Nat) (q : Queue) : Nat :=
  match (s.func p).ptm with
  | some o => if q.opt.getLsbD 5 && (s.func p).ptmEn then ((o + ((s.audit.uptime * 1000 : Nat) : Int)) % (2 ^ 64 : Nat)).toNat else 0
  | none => 0

/-- Data reads and writes of a queue carry No Snoop, its data writes and write-backs Relaxed Ordering, while the function's enable bit is 1
(R374, R391, R392). -/
def noSnoop (s : State) (p : Nat) (q : Queue) : Bool := q.opt.getLsbD 1 && (s.func p).nsEn
def relaxed (s : State) (p : Nat) (q : Queue) : Bool := q.opt.getLsbD 2 && (s.func p).roEn

/-- Bytes 16 to 31 of a descriptor as a write-back leaves them: OWN 0, END as the host set it (R383). -/
def backBytes (d : Desc) (xlen stat mflags ts : Nat) : List Byte :=
  le 4 xlen ++ le 2 stat ++ [BitVec.ofNat 8 mflags, BitVec.ofNat 8 (2 * d.last.toNat)] ++ le 8 ts

/-- The write-backs of a message's descriptors in ring order from CHEAD: XLEN, MFLAGS and STAT; a BADDESC one alone with STAT 0x01 and
source 213 (R383, R384, R390). H_DESCERR does not count it (DESIGN CHOICE, log entry 81: R384 does not say whether it does). -/
def writeBacks (p : Nat) (stat : Nat) (ds : List (Desc × Nat)) (q : Queue) (s : State) : State × Queue :=
  let good := (ds.zipIdx.filter fun d => !badDesc d.1.1).map fun d => d.2
  let ts := tstamp s p q
  ds.zipIdx.foldl (fun r d =>
    let i := r.2.chead
    let bad := badDesc d.1.1
    let fl := if bad then 0 else (decide (good.head? = some d.2)).toNat + (decide (good.getLast? = some d.2)).toNat * 2
    let b := backBytes d.1.1 (if bad then 0 else d.1.2) (if bad then 1 else stat) fl ts
    let s := { r.1 with wire := r.1.wire ++ [.writeback q.qid i (q.descAt i + 16) (relaxed s p q) b] }
    (if bad then descError s p false else s, { r.2 with chead := (i + 1) % q.n })) (s, q)

/-- BADDESC descriptors that the device has reached in ring order are written back alone (R384). -/
def dropBad (p : Nat) (q : Queue) (s : State) : State × Queue :=
  writeBacks p 1 ((q.fetched.takeWhile badDesc).map fun d => (d, 0)) { q with fetched := q.fetched.dropWhile badDesc } s

/-- The registers of a function answer: from READY on, and outside D3hot (R376, R528). -/
def barUp (s : State) (p : Nat) : Bool := s.ports.contains p && s.mgmt.devstate ≠ 1 && !(s.func p).d3hot

/-- The fetch up to the stored TAIL of what the ring reads, or TAIL kept while the context is FAULTED or the port's DMA is stopped (R386, R402). A
poisoned queue state faults the context (R500). -/
def startFetch (port : Nat) (readErr : Bool) (descs : List RawDesc) (q : Queue) (x : Ctx) (s : State) : State :=
  if q.bad then queueFault (s.putQueue q) x q
  else
  let s := touchQueue s q.qid
  if x.stat = .faulted || !portUp s port then s.putQueue { q with kept := true }
  else
    let q := { q with kept := false }
    let s := fetchDescs port readErr ((q.tail + q.n - q.fhead) % q.n) (descs.map descOf) q s
    match s.queue? q.qid with
    | some q => let r := dropBad port q s; r.1.putQueue r.2
    | none => s

/-- A queue of the port whose TAIL is kept is fetched with what its ring reads (R386). -/
def resumeOne (port : Nat) (rings : List Ring) (s : State) (qid : Nat) : State :=
  match s.queue? qid, s.ctx? (qid / 16) with
  | some q, some x =>
    if q.kept && x.cfg.port = port then
      match rings.find? fun r => r.qid = qid with
      | some r => startFetch port r.readErr r.descs q x s
      | none => startFetch port false [] q x s
    else s
  | _, _ => s

/-- The port's DMA may run again: every TAIL kept for it is acted on (R386). -/
def resumeFetch (port : Nat) (rings : List Ring) (s : State) : State :=
  ((s.queues.filter fun q => q.kept).map fun q => q.qid).foldl (resumeOne port rings) s

/-- DOORBELL (R385, R386): `descs` is what the ring reads from FHEAD on, `readErr` that the read after them fails. A thermal trip has stopped the clock of
what would take it (R488). -/
def execDoorbell (port qid : Nat) (v : Word) (descs : List RawDesc) (readErr : Bool) (s : State) : Host.Outcome State Fault Refusal :=
  let tail := v.toNat % 2 ^ 16
  if !barUp s port || s.gpio.thermtrip then .next s
  else
    match s.queue? qid, s.ctx? (qid / 16) with
    | some q, some x =>
      if x.cfg.port = port ∧ q.en ∧ tail < q.n then .next (startFetch port readErr descs { q with tail := tail } x s)
      else .next (refuseDoorbell s port)
    | _, _ => .next (refuseDoorbell s port)

/-! ### Completion (R383, R390, R398) -/

/-- Coalescer `c` counts a completed message (R398). -/
def coalCount (s : State) (c : Nat) : State :=
  if h : c < 192 then
    let k := s.coals[c]
    { s with coals := s.coals.set c { k with cnt := k.cnt + 1, first := if k.cnt = 0 then s.audit.uptime else k.first } }
  else s

/-! ### TLPs (R396) -/

/-- The requests for `n` bytes at a host address where none has more than `unit` bytes or crosses a multiple of it: address and length of
each (R396). 512 and 4,096 bytes are the greatest units, so none crosses a 4 KB boundary. -/
def tlps (unit : Nat) : Nat → Nat → Nat → List (Nat × Nat)
  | 0, _, _ => []
  | k + 1, addr, n => if n = 0 then [] else
    let m := min n (unit - addr % unit)
    (addr, m) :: tlps unit k (addr + m) (n - m)

/-- The header fields of a request for bytes `addr` to `addr + n - 1`: DW address, length in DW, first and last DW byte enables (R396). A request of
one DW has no last DW (PRESUMED of PCI Express, log entry 71). -/
def tlpHead (addr n : Nat) : Nat × Nat × Nat × Nat :=
  let a := addr / 4 * 4
  let dw := (addr + n - 1) / 4 - addr / 4 + 1
  let lo := 16 - 2 ^ (addr % 4)
  let hi := 2 ^ ((addr + n - 1) % 4 + 1) - 1
  (a, dw, if dw = 1 then lo &&& hi else lo, if dw = 1 then 0 else hi)

/-- Max_Payload_Size and Max_Read_Request_Size of a function, in bytes (R374). -/
def Func.payload (f : Func) : Nat := 128 * 2 ^ f.mps
def Func.readReq (f : Func) : Nat := 128 * 2 ^ f.mrrs

/-- The data writes of one buffer. -/
def bufWrites (qid unit : Nat) (ns ro : Bool) (addr : Nat) (bs : List Byte) : List Wire :=
  (tlps unit bs.length addr bs.length).map fun t => .data qid t.1 ns ro ((bs.drop (t.1 - addr)).take t.2)

/-- The data writes of an outbound message (R388, R391, R392, R396). -/
def dataWrites (s : State) (p : Nat) (q : Queue) (ds : List (Desc × Nat)) (bs : List Byte) : List Wire :=
  (ds.foldl (fun (r : List Wire × List Byte) d =>
    (r.1 ++ bufWrites q.qid (s.func p).payload (noSnoop s p q) (relaxed s p q) d.1.addr (r.2.take d.2), r.2.drop d.2)) ([], bs)).1

/-- The data reads of an inbound message (R389, R391, R396). -/
def dataReads (s : State) (p : Nat) (q : Queue) (ds : List Desc) : List Wire :=
  ds.flatMap fun d => if badDesc d then [] else
    (tlps (s.func p).readReq d.len.toNat d.addr d.len.toNat).map fun t => .read q.qid t.1 t.2 (noSnoop s p q)

/-- Count a completed message on its queue (R381, R398). -/
def countMsg (s : State) (q : Queue) (n : Nat) : State :=
  coalCount ((touchQueue s q.qid).putQueue { q with msgs := (q.msgs + 1) % 2 ^ 64, bytes := (q.bytes + n) % 2 ^ 64 }) q.coal

/-! ### Inbound and outbound messages that wait (R388, R389) -/

/-- The plaintext of a waiting message: its copy, or the posted range as the DMA reads it (R57). -/
def plainOf (x : Ctx) (o : OutMsg) : List Byte :=
  match o.src with
  | some (_, base, n) => if o.plain.isEmpty then memBytes x.m.mem.work base n else o.plain
  | none => o.plain

/-- The first poisoned byte that the DMA's read of a posting meets (R57, R500). -/
def plainPoison (s : State) (x : Ctx) (o : OutMsg) : Option HbmAt :=
  match o.src with
  | some (_, base, n) => if o.plain.isEmpty then
      ((List.range n).find? fun i => poisonedAt (s.env x) x.m 1 (.ram .work (base + i))).map fun i => .ram .work (base + i) else none
  | none => none

/-- An outbound message of the queue waits for descriptors, its own or those of the next slice or block of its context (R291, R323, R378, R388). -/
def waitd (s : State) (x : Ctx) (q : Queue) : Bool :=
  let n := q.qid % 16
  q.en && match x.outp.msgs.find? fun o => o.queue = n with
  | some o => (fillDescs q.fetched o.total).isNone
  | none =>
    if n = 2 then match x.outp.slices.find? fun b => b.kind = 1 with
      | some b => !heldBack s x 2 b.frame && (fillDescs q.fetched ((slicePlain s x b).length + 32)).isNone
      | none => false
    else if n = 3 then match x.outp.blocks with
      | b :: _ => !heldBack s x 3 (blockEpoch (modeOf x.cfg.mode) b.num) && (fillDescs q.fetched 256).isNone
      | [] => false
    else false

/-- The descriptors through the next valid one with END, and the rest (R389). -/
def splitMsg : List Desc → Option (List Desc × List Desc)
  | [] => none
  | d :: ds => if !badDesc d && d.last then some ([d], ds) else (splitMsg ds).map fun r => (d :: r.1, r.2)

def descTotal (ds : List Desc) : Nat := (ds.map fun d => if badDesc d then 0 else d.len.toNat).sum

/-- Payload bytes of a side message. -/
def sideLen (m : InMsg) : Nat := match m.body with | .side _ _ p => p.length | _ => 0

/-- Records of an input message. -/
def inRecs (m : InMsg) : Nat := match m.body with | .input rs => rs.length | _ => 0

/-- Staging can take `recs` records or `len` payload bytes more on queue `q` (R58, R389). -/
def stagingFits (x : Ctx) (q recs len : Nat) : Bool :=
  if q = 1 then decide (x.log.recs.length + (x.inb.waiting.map inRecs).sum + recs ≤ 4096)
  else if q = 6 ∨ 9 ≤ q then
    decide ((x.inb.staged.map fun p => p.2.2.length).sum + (x.inb.waiting.map sideLen).sum + len ≤ 2097152)
  else true

/-- Staging can take the message. -/
def stagingRoom (x : Ctx) (q : Nat) (m : InMsg) : Bool := stagingFits x q (inRecs m) (sideLen m)

/-- A message of `total` bytes in its descriptors is too long: it completes with STAT TOOLONG and needs no staging (R384, R421). -/
def tooLong (total : Nat) : Bool := decide (1048608 < total)

/-- The queue takes messages in (R380). -/
def inboundQueue (x : Ctx) (q : Nat) : Bool := q = 0 || q = 1 || q = 6 || q = 7 || (decide (9 ≤ q) && (x.m.oqOf q).dirIn)

/-! ### DMA channels (R371, R394, R395) -/

/-- The port that channel `c` serves (R394). -/
def chanPort (s : State) (c : Nat) : Nat := if s.gpio.bifurc then c / 32 else 0

def State.dma (s : State) (c : Nat) : Dma := s.dmas[c % 64]
def State.setDma (s : State) (c : Nat) (d : Dma) : State := { s with dmas := s.dmas.set (c % 64) d (Nat.mod_lt _ (by decide)) }

/-- The channels of a port, those of them that are free, and the one that carries a message of queue `qid`. -/
def chansOf (s : State) (p : Nat) : List Nat := (List.range 64).filter fun c => chanPort s c = p
def freeChans (s : State) (p : Nat) : List Nat := (chansOf s p).filter fun c => !(s.dma c).busy
def carrier (s : State) (p qid : Nat) : Option Nat := (chansOf s p).find? fun c => (s.dma c).busy && (s.dma c).qid = qid

/-- A bulk transfer of the pending command has requests of its port outstanding or in assembly: its reads until their completions have come, and the
writes of an export that is under way (R402, R454). -/
def bulkBusy (s : State) (q : Pend) : Bool :=
  q.asked || match q.body with
    | .export_ c => portUp s q.h.master && (s.ctx? c).any fun x => x.hold.exporting
    | _ => false

/-- No DMA request of the port is outstanding or in assembly, of a message or of a bulk transfer (R378, R402, R454). -/
def portIdle (s : State) (p : Nat) : Bool :=
  (chansOf s p).all (fun c => !(s.dma c).busy) && s.mgmt.pend.all fun q => !(q.h.master = p && bulkBusy s q)

/-- A message that waits for a channel: whether its context is above its egress claim (R371), the queue's PRIO, how long it has waited, its bytes. -/
structure Want where
  above : Bool
  prio : Nat
  wait : Nat
  qid : Nat
  len : Nat
  outb : Bool
  deriving DecidableEq, Repr

/-- Which of two messages goes first: higher PRIO, the longer wait (R394), the lower QID (DESIGN CHOICE, log entry 71: of equals). -/
def Want.before (a b : Want) : Bool :=
  if a.prio ≠ b.prio then decide (b.prio < a.prio)
  else if a.wait ≠ b.wait then decide (b.wait < a.wait)
  else decide (a.qid < b.qid)

/-- Of outbound messages, those of contexts within their claim go before those of contexts above it (R371). -/
def Want.outBefore (a b : Want) : Bool := if a.above ≠ b.above then b.above else a.before b

/-- The message that a free channel takes first (R394): the outbound one that R371 and R394 put first, or the first inbound one, which of the two goes
before the other by R394; R371 orders output alone (DESIGN CHOICE, log entry 71: how the two rules go together). -/
def nextWant (ws : List Want) : Option Want :=
  let outs := ws.filter fun w => w.outb
  let ins := ws.filter fun w => !w.outb
  match outs.find? fun w => outs.all fun v => !v.outBefore w, ins.find? fun w => ins.all fun v => !v.before w with
  | some a, some b => if b.before a then some b else some a
  | a, b => a <|> b

/-- The `k` messages that go first. -/
def firstWants : Nat → List Want → List Want
  | 0, _ => []
  | k + 1, ws => match nextWant ws with
    | some w => w :: firstWants k (ws.erase w)
    | none => []

/-- The context has sent more than its claim in the present second (R371). -/
def aboveClaim (s : State) (x : Ctx) : Bool := decide (claimOf (modeOf x.cfg.mode) (claimIn s x) < x.orr.egress)

/-- What an outbound message of `n` bytes wants of a channel, and what an inbound one does. -/
def outWant (s : State) (x : Ctx) (q : Queue) (n : Nat) : Want := ⟨aboveClaim s x, q.prio, q.waits.headD 0, q.qid, n, true⟩
def inWant (q : Queue) (n : Nat) : Want := ⟨false, q.prio, q.waits.headD 0, q.qid, n, false⟩

/-- The oldest message of a live queue that could start now: descriptors and a key for an outbound one, an END and staging for an inbound one
(R288, R388, R389). -/
def wantOf (s : State) (x : Ctx) (n : Nat) : Option Want :=
  match liveQueue s x n with
  | none => none
  | some q =>
    if (carrier s x.cfg.port q.qid).isSome then none
    else if inboundQueue x n then
      match splitMsg q.fetched with
      | some (ds, _) =>
        if tooLong (descTotal ds) || stagingFits x n ((descTotal ds - 32) / 16) (descTotal ds - 40) then some (inWant q (descTotal ds)) else none
      | none => none
    else match x.outp.msgs.find? fun o => o.queue = n with
      | some o => if (o.sealed.isSome || (x.qkey n).valid) && (fillDescs q.fetched o.total).isSome then some (outWant s x q o.total) else none
      | none => none

/-- The messages of a port that wait for a channel. -/
def wants (s : State) (p : Nat) : List Want :=
  s.ctxs.flatMap fun x => if x.cfg.port = p then (List.range 16).filterMap (wantOf s x) else []

/-- The message has a channel, or one is free for it after those that go before it (R394). -/
def dmaTurn (s : State) (p : Nat) (w : Want) : Bool :=
  (carrier s p w.qid).isSome || (firstWants (freeChans s p).length (w :: (wants s p).filter fun v => v.qid ≠ w.qid)).contains w

/-- The lowest free channel takes the message (DESIGN CHOICE, log entry 71: which one). -/
def takeChan (s : State) (p : Nat) (w : Want) : State :=
  match freeChans s p with
  | c :: _ => s.setDma c { s.dma c with busy := true, pre := false, prio := w.prio, outb := w.outb, qid := w.qid, left := w.len }
  | [] => s

/-- The channel that gets the port's next beat: of those with bytes to move the highest priority, and round-robin among equals after `last` (R395). -/
def beatOf (s : State) (p last : Nat) : Option Nat :=
  let busy := (chansOf s p).filter fun c => (s.dma c).busy && decide (0 < (s.dma c).left)
  let top := busy.filter fun c => busy.all fun d => decide ((s.dma d).prio ≤ (s.dma c).prio)
  match top.find? fun c => decide (last < c) with
  | some c => some c
  | none => top.head?

/-- One beat of 64 bytes: the channel that has it moves on, every other one with bytes to move is pre-empted and keeps its buffer (R395). -/
def beat (s : State) (p : Nat) : State :=
  match beatOf s p (s.func p).beat with
  | none => s
  | some c =>
    let dmas := Vector.ofFn fun (k : Fin 64) =>
      let d := s.dmas[k]
      if k.val = c then { d with pre := false, left := d.left - 64, bytes := (d.bytes + min 64 d.left) % 2 ^ 32 }
      else if chanPort s k.val = p && d.busy && decide (0 < d.left) then { d with pre := true } else d
    ({ s with dmas := dmas } : State).setFunc p { s.func p with beat := c }

/-- Beats until the channel that carries a message of `qid` has moved all of it. -/
def beats (p qid : Nat) : Nat → State → State
  | 0, s => s
  | k + 1, s => match carrier s p qid with
    | some c => if (s.dma c).left = 0 then s else beats p qid k (beat s p)
    | none => s

/-- Enough beats for everything that the port's channels hold. -/
def beatsLeft (s : State) (p : Nat) : Nat := ((chansOf s p).map fun c => ((s.dma c).left + 63) / 64).sum

/-- The message takes a channel where it has none, and its bytes are moved (R394, R395). -/
def carry (s : State) (p : Nat) (w : Want) : State :=
  let s := if (carrier s p w.qid).isSome then s else takeChan s p w
  beats p w.qid (beatsLeft s p) s

/-- After the last write-back the channel is free (R394). -/
def releaseChan (s : State) (p qid : Nat) : State :=
  match carrier s p qid with
  | some c => s.setDma c { s.dma c with busy := false, pre := false, left := 0 }
  | none => s

/-! ### Outbound messages (R388) -/

/-- The meter of a queue's bytes (R439). -/
def outMeter (q : Nat) : Nat := if q = 2 ∨ q = 4 then 26 else if q = 3 then 27 else 28

/-- What the device keeps in HBM of a message that the DMA takes: its bytes, but for a posting that the DMA reads in work RAM (R57, R286). -/
def msgItems (o : OutMsg) : List CtxStore := if o.sealed.isSome || !o.plain.isEmpty then [.outbound o.num] else []

/-- The DMA's read of a posting in work RAM meets the correctable errors in it (R57, R496). -/
def readPosting (s : State) (x : Ctx) (o : OutMsg) : State :=
  match o.src with
  | some (_, base, n) => if o.sealed.isNone && o.plain.isEmpty then
      correctWhere s fun u => (List.range n).any fun i => u.hits x.num x.m.img.hash (.ram .work (base + i)) else s
  | none => s

/-- The message as the DMA sends it: sealed before, or read and sealed now (R57, R287). -/
def sealNow (x : Ctx) (o : OutMsg) : OutMsg × Ctx := if o.sealed.isSome then (o, x) else sealMsg x o (plainOf x o)

/-- The context once message `o` has gone as `r`, with its meters and its egress: bytes of video, audio and spectator queues alone count against the claim
(R371, R439; DESIGN CHOICE, log entry 81: R370 charges those queues, and R371 does not name the bytes it measures). -/
def sentCtx (x : Ctx) (n : Nat) (o : OutMsg) (r : OutMsg × Ctx) (len : Nat) : Ctx :=
  { r.2.addMeter (outMeter n) len with
    outp := { r.2.outp with msgs := x.outp.msgs.erase o
                            marks := match o.src with | some (id, _, _) => r.2.outp.marks.filter fun k => !(k.1 = n && k.2.1 = id) | none => r.2.outp.marks }
    orr := { r.2.orr with egress := r.2.orr.egress + (if 2 ≤ n ∧ n ≤ 4 then len else 0) } }

/-- OUTBOUND_MESSAGE_WRITE: the oldest message of the queue is sealed where it is not yet, written into the fewest descriptors and
completed; with too few, or while no channel is free for it, it waits (R388 to R396). Poison that the DMA then reads is a context fault (R57, R500). -/
def execOutboundMessageWrite (qid : Nat) (s : State) : Host.Outcome State Fault Refusal :=
  match s.ctx? (qid / 16) with
  | none => .next s
  | some x =>
    let n := qid % 16
    match liveQueue s x n, x.outp.msgs.find? (fun o => o.queue = n) with
    | some q, some o =>
      if o.sealed.isNone && !(x.qkey n).valid then .next s
      else if q.bad then .next (queueFault s x q)
      else match fillDescs q.fetched o.total with
        | none => .next (touchQueue s qid)
        | some (ds, rest) =>
          let p := x.cfg.port
          if !dmaTurn s p (outWant s x q o.total) then .next (touchQueue s qid)
          else if o.sealed.isNone && (plainPoison s x o).isSome then
            .next (contextFault (applyDevFx s x.num (.consumed (plainPoison s x o))) x.num true)
          else .next (useItems s x (msgItems o) fun s =>
            let r := sealNow x o
            let bytes := match r.1.sealed with | some b => b.2.2 | none => []
            let s := carry (readPosting s x o) p (outWant s x q o.total)
            let s := { s.putCtx (sentCtx x n o r bytes.length) with wire := s.wire ++ dataWrites s p q ds bytes }
            let w := writeBacks p 0 ds { q with fetched := rest, waits := q.waits.drop 1 } s
            let b := dropBad p w.2 w.1
            releaseChan (countMsg b.1 b.2 bytes.length) p qid)
    | _, _ => .next s

/-! ### Inbound messages (R389, R421) -/

/-- R419: the status with which a queue-key envelope fails on a context; none where it passes. -/
def keyFail (x : Ctx) (e : KeyEnv) : Option Nat :=
  let named := (List.range 16).filter fun q => e.qmask.getLsbD q
  if !e.formatOk then some eVersion
  else if !e.lenOk then some eLength
  else if !e.tdevOk then some eParam
  else if !e.tagOk then some eAuth
  else if e.imgHash ≠ x.m.img.hash ∨ e.tag ≠ x.cfg.tag then some eAuth
  else if e.qmask.getLsbD 0 then some eParam
  else if named.any fun q => (x.qkey q).ever && decide (e.sid.toNat ≤ (x.qkey q).sid.toNat) then some eAuth
  else none

/-- Install the keys on every named queue at once (R288, R418, R419). -/
def installKeys (x : Ctx) (e : KeyEnv) : Ctx :=
  ((List.range 16).filter fun q => e.qmask.getLsbD q).zipIdx.foldl (fun x q =>
    x.setQkey q.1 { sid := e.sid, ever := true, key := some (e.keys.getD q.2 0), ctr := 0, inCtr := none }) x

/-- The plaintext keeps the rules of its queue (R421). -/
def bodyOk (q : Nat) (m : InMsg) : Bool :=
  match m.body with
  | .input rs => q = 1 && !rs.isEmpty && m.mlen = 16 * rs.length
  | .side _ ok p => (q = 6 || 9 ≤ q) && ok && m.mlen = 8 + p.length
  | .debug op ok => q = 7 && ok && m.mlen = 16 && (op.toNat = 1 || op.toNat = 2)
  | .keys _ => false

/-- STAT of an inbound message of `total` bytes on queue `q` (R384, R420, R421). A message that meets several conditions gets HOSTERR before TOOLONG before
AUTH (DESIGN CHOICE, log entry 81: R384 does not order them). -/
def inStat (x : Ctx) (q total : Nat) (m : InMsg) : Nat :=
  if m.hostErr then 4
  else if tooLong total then 2
  else if q = 0 then match m.body with | .keys e => if (keyFail x e).isSome then 3 else 0 | _ => 3
  else
    let k := x.qkey q
    let fresh := match k.inCtr with | some c => decide (c < m.ctr) | none => true
    if total = m.mlen + 32 && m.queue = q && m.ver = 1 && k.key.isSome && m.sid = k.sid && fresh && m.tagOk && bodyOk q m then 0 else 3

/-- A message of queue `n` as the device finds it: a queue-key envelope on queue 0 (R420), else what its key opens (R421). -/
def inboundOf (i : Ident) (x : Ctx) (n : Nat) (raw : Sealed) (hostErr : Bool) : InMsg :=
  let m := inMsgOf (x.qkey n).key n raw hostErr
  if n = 0 then { m with body := .keys (keyEnvOf i raw) } else m

/-- A read of a buffer failed: source 215, logged through AER as an advisory non-fatal error (R384). -/
def hostError (s : State) (p : Nat) : State := raiseOn (s.setFunc p { s.func p with advisory := true }) p 215 0xFFFF

/-- INBOUND_MESSAGE_READ: the message through the next END is read, checked, completed, and left for the row that acts on it
(R384, R389 to R393, R420, R421). One for which staging has no room waits, unless its length alone decides (R389, R421). -/
def execInboundMessageRead (qid : Nat) (a : Arrival) (s : State) : Host.Outcome State Fault Refusal :=
  match s.ctx? (qid / 16) with
  | none => .next s
  | some x =>
    let n := qid % 16
    let m := inboundOf s.ident x n a.raw a.hostErr
    match liveQueue s x n, inboundQueue x n with
    | some q, true => match splitMsg q.fetched with
      | none => .next s
      | some (ds, rest) =>
        let p := x.cfg.port
        let total := descTotal ds
        if !tooLong total && !stagingRoom x n m then .next s
        else if q.bad then .next (queueFault s x q)
        else if !dmaTurn s p (inWant q total) then .next (touchQueue s qid)
        else
        let st := inStat x n total m
        let k := x.qkey n
        let y := if n ≠ 0 && st = 0 then x.setQkey n { k with inCtr := some m.ctr } else x
        let y := if st = 0 then { y with inb := { y.inb with waiting := y.inb.waiting ++ [{ m with queue := n }] } } else y
        let y := y.addMeter 29 total
        let y := if st = 2 ∨ st = 3 then y.addMeter 19 1 else y
        let s := carry s p (inWant q total)
        let s := { s.putCtx y with wire := s.wire ++ dataReads s p q ds }
        let s := if st = 4 then hostError s p else s
        let s := if n = 0 && st = 3 then deviceRec s x.num 0xFFFF [] else s
        let w := writeBacks p st (ds.map fun d => (d, d.len.toNat)) { q with fetched := rest, waits := q.waits.drop 1 } s
        let b := dropBad p w.2 w.1
        .next (releaseChan (countMsg b.1 b.2 total) p qid)
    | _, _ => .next s

/-- KEY_ENVELOPE_MESSAGE: an accepted envelope of queue 0 acts as IMG.KEYS would, with its record (R420, R435). -/
def execKeyEnvelopeMessage (c : Nat) (s : State) : Host.Outcome State Fault Refusal :=
  match s.liveCtx? c with
  | none => .next s
  | some x => match takeMsg x fun m => match m.body with | .keys _ => true | _ => false with
    | none => .next s
    | some (m, y) => match m.body with
      | .keys e =>
        let fail := keyFail x e
        let s := s.putCtx (if fail.isSome then y else installKeys y e)
        .next (deviceRec s c 0xFFFF [])
      | _ => .next s

/-! ### Coalescers, probe, DMA control (R379, R398, R402) -/

/-- The port a coalescer belongs to (R399). -/
def coalPort (s : State) (k : Nat) : Nat := if s.gpio.bifurc then k / 96 else 0

/-- COALESCER_FIRE at its count or time limit, while its clock runs (R398, R480, R488). -/
def execCoalescerFire (k : Nat) (s : State) : Host.Outcome State Fault Refusal :=
  if h : k < 192 then
    let c := s.coals[k]
    if !s.clocked then .next s
    else if c.nm1 + 1 ≤ c.cnt ∨ (c.tus ≠ 0 ∧ 0 < c.cnt ∧ c.first + c.tus ≤ s.audit.uptime) then
      .next (raiseOn { s with coals := s.coals.set k { c with cnt := 0 } } (coalPort s k) k 0xFFFF)
    else .next s
  else .next s

/-- The probe registers for a queue; zeros for one of the other port (R378, R379). -/
def qprobe (s : State) (port : Nat) (v : Word) : State :=
  let qid := v.toNat % 2 ^ 20
  let f := s.func port
  let info : Word × Word × Word := match s.queue? qid, s.ctx? (qid / 16) with
    | some q, some x =>
      if x.cfg.port ≠ port then (0, 0, 0)
      else
        let n := qid % 16
        let outb := n = 2 || n = 3 || n = 4 || n = 5 || n = 8 || (decide (9 ≤ n) && !(x.m.oqOf n).dirIn)
        (BitVec.ofNat 32 (q.en.toNat + outb.toNat * 2 + (s.qcache.contains qid).toNat * 4 + (waitd s x q).toNat * 8 + (decide (x.stat = .faulted)).toNat * 16
          + q.prio * 32 + q.log2n % 16 * 256), BitVec.ofNat 32 (q.fhead + q.chead * 65536), BitVec.ofNat 32 q.tail)
    | _, _ => (0, 0, 0)
  s.setFunc port { f with qprobe := BitVec.ofNat 32 qid, qinfo := info.1, qhead := info.2.1, qtail := info.2.2 }

/-- H_QPROBE write (R379). -/
def execHQprobe (port : Nat) (v : Word) (s : State) : Host.Outcome State Fault Refusal :=
  if barUp s port then .next (qprobe s port v) else .next s

/-- R402: H_DMAnBYTES of the port's channels is undefined afterwards: free values. -/
def scrambleBytes (s : State) (port : Nat) : State :=
  (List.range 64).foldl (fun s n =>
    if chanPort s n = port then
      let r := s.takeFree
      r.2.setDma n { r.2.dma n with bytes := r.1 % 2 ^ 32 }
    else s) s

/-- The completions of bulk reads that are outstanding on the port will be discarded (R402, R454), as where its function is moved to D3hot before IDLE
(DESIGN CHOICE, log entry 81: R376 has software wait for IDLE). -/
def dropBulk (s : State) (port : Nat) : State :=
  { s with mgmt := { s.mgmt with pend := s.mgmt.pend.map fun q => if q.h.master = port && q.asked then { q with dropped := true } else q } }

/-- DMA stops on a port: a port fault (R402, R405). -/
def dmaStop (s : State) (port : Nat) : State := portFault (dropBulk (scrambleBytes s port) port) port

/-- A pending command has bulk input whose reads are not under way (R454). -/
def needsInput (q : Pend) : Bool := q.h.bulk && inLenOf q.h ≠ 0 && !q.asked

/-- The bulk reads of the port's master that DMA has still to make, or to make again, are issued where it runs (R402, R454; DESIGN CHOICE, log entry 81:
R402 does not say what becomes of the command whose reads were discarded, and R458 has every pending command complete). -/
def askBulk (s : State) (port : Nat) : State :=
  if !portUp s port then s
  else
    let mine (q : Pend) : Bool := q.h.master = port && needsInput q
    { s with
      wire := s.wire ++ (s.mgmt.pend.filter mine).map fun q => .bulkRead port q.h.tag (inAddrOf q.h) (inLenOf q.h)
      mgmt := { s.mgmt with pend := s.mgmt.pend.map fun q => if mine q then { q with asked := true } else q } }

/-- H_DMACTL write: DIS = 1 stops DMA; clearing it waits for IDLE (R402). -/
def dmactl (s : State) (port : Nat) (v : Word) : State :=
  let f := s.func port
  if v.getLsbD 0 then (if f.dis then s.setFunc port { f with disClear := false } else dmaStop (s.setFunc port { f with dis := true, disClear := false }) port)
  else if f.dis then s.setFunc port { f with disClear := true } else s

def execHDmactl (port : Nat) (v : Word) (s : State) : Host.Outcome State Fault Refusal :=
  if barUp s port then .next (dmactl s port v) else .next s

/-- DMA_DISABLE_CLEAR: a waiting clear of DIS takes effect when IDLE is 1 (R402), and what waited for it is fetched (R386). -/
def execDmaDisableClear (port : Nat) (rings : List Ring) (s : State) : Host.Outcome State Fault Refusal :=
  let f := s.func port
  if s.ports.contains port && f.disClear && portIdle s port then
    .next (askBulk (resumeFetch port rings (s.setFunc port { f with dis := false, disClear := false })) port)
  else .next s

/-- DL_DOWN (R405). -/
def execDlDown (port : Nat) (s : State) : Host.Outcome State Fault Refusal :=
  if s.ports.contains port then .next (portFault (s.setFunc port { s.func port with linkUp := false }) port) else .next s

/-- The BAR0 registers of a function at their Reset values, the link apart (R378, R405). Max_Payload_Size outlives a function-level reset (PRESUMED of
PCI Express, log entry 71). -/
def bar0Reset (s : State) (port : Nat) : State :=
  let f := s.func port
  let s := s.setFunc port { linkUp := f.linkUp, speed := f.speed, width := f.width, mps := f.mps }
  { s with
    coals := Vector.ofFn fun k => if coalPort s k.val = port then {} else s.coals[k]
    dmas := Vector.ofFn fun k => if chanPort s k.val = port then {} else s.dmas[k] }

/-- The ring positions of the function's mailbox at their Reset values: both rings are empty (R12, R448, R449). Replies that waited for ring room are
put into the emptied ring at once (DESIGN CHOICE, log entry 76: the spec does not say what becomes of them), so that MB_RPROD may be nonzero then. -/
def boxReset (s : State) (m : Nat) : State :=
  let b := s.box m
  flushReplies b.waiting.length (s.setBox m { b with cprod := 0, ccons := 0, rprod := 0, rcons := 0, replies := [] }) m

/-- FLR: a port fault that also resets the function (R12, R405). -/
def execFlr (port : Nat) (s : State) : Host.Outcome State Fault Refusal :=
  if s.ports.contains port then .next (boxReset (bar0Reset (portFault (dropBulk s port) port) port) port) else .next s

/-- BUS_MASTER_DISABLE (R402, R405). -/
def execBusMasterDisable (port : Nat) (s : State) : Host.Outcome State Fault Refusal :=
  if s.ports.contains port then .next (dmaStop (s.setFunc port { s.func port with busMaster := false }) port) else .next s

/-- BUS_MASTER_ENABLE (R386, R397, R402). -/
def execBusMasterEnable (port : Nat) (rings : List Ring) (s : State) : Host.Outcome State Fault Refusal :=
  if s.ports.contains port then
    .next (askBulk (resumeFetch port rings (unholdAll (s.setFunc port { s.func port with busMaster := true }) port)) port)
  else .next s

/-- Mask or unmask a vector (R397). -/
def setMask (s : State) (port vector : Nat) (masked : Bool) : State :=
  let f := s.func port
  if masked then s.setFunc port { f with mask := f.mask ||| evBit vector }
  else unhold (s.setFunc port { f with mask := f.mask &&& ~~~ evBit vector }) port vector

/-- MSIX_VECTOR_UNMASK (R397); vector 256 stands for the function's MSI-X enable (DESIGN CHOICE, log entry 48). -/
def execMsixVectorUnmask (port vector : Nat) (s : State) : Host.Outcome State Fault Refusal :=
  if !s.ports.contains port || decide (256 < vector) then .next s
  else if vector = 256 then .next (unholdAll (s.setFunc port { s.func port with msixEn := true }) port)
  else if barUp s port then .next (setMask s port vector false)
  else .next s

/-- LINK_UP: the trained link; source 216 below ×16 or 32 GT/s (R374, R400). -/
def execLinkUp (port speed width : Nat) (s : State) : Host.Outcome State Fault Refusal :=
  if s.ports.contains port then
    let s := s.setFunc port { s.func port with linkUp := true, speed := speed, width := width }
    .next (if width < 16 ∨ speed < 5 then raiseOn s port 216 0xFFFF else s)
  else .next s

/-- PTM_DIALOGUE: the local clock is on the Root's scale, where PTM is enabled (R374, R383). -/
def execPtmDialogue (port : Nat) (rootNs : Nat) (s : State) : Host.Outcome State Fault Refusal :=
  if s.ports.contains port && (s.func port).ptmEn then
    .next (s.setFunc port { s.func port with ptm := some ((rootNs : Int) - ((s.audit.uptime * 1000 : Nat) : Int)) })
  else .next s

/-- A write of a BAR0 register (R378). Bits [31:1] of an MSI-X Vector Control word are stored and read back as written (DESIGN CHOICE, log entry 76:
R378 says RW per PCIe and no more of them). -/
def bar0Write (s : State) (port off : Nat) (v : Word) : State :=
  let f := s.func port
  if off % 4 ≠ 0 then s
  else if off = 0xC then dmactl s port v
  else if off = 0x20 then qprobe s port v
  else if 0x100 ≤ off ∧ off < 0x120 then
    s.setFunc port { f with evpend := f.evpend &&& ~~~ (v.setWidth 256 <<< ((off - 0x100) * 8)) }
  else if 0x400 ≤ off ∧ off < 0xA00 ∧ off % 8 = 0 then
    let k := (off - 0x400) / 8
    if h : k < 192 then
      if coalPort s k = port then
        { s with coals := s.coals.set k { s.coals[k] with nm1 := bitsOf v.toNat 7 0, tus := bitsOf v.toNat 25 16 } }
      else s
    else s
  else if 0x10000 ≤ off ∧ off < 0x11000 then
    let s := s.setFunc port { f with msix := tabPut f.msix ((off - 0x10000) / 4) v }
    if off % 16 = 12 then setMask s port ((off - 0x10000) / 16) (v.getLsbD 0) else s
  else s

/-- H_LINK and H_DMAnSTAT (R378). -/
def hLink (s : State) (port : Nat) : Nat := s.gpio.bifurc.toNat + port * 2 + (s.func port).speed * 16 + (s.func port).width % 32 * 256
def dmaStat (d : Dma) : Nat := d.busy.toNat + d.pre.toNat * 2 + d.prio % 8 * 4 + d.outb.toNat * 32

/-- What a read of a BAR0 word answers from READY on (R8, R11, R378): zero for an unassigned offset and for a register of the other port. -/
def bar0Word (s : State) (port off : Nat) : Nat :=
  let f := s.func port
  if off = 0 then 0x800801B0
  else if off = 4 then s.mgmt.devstate
  else if off = 8 then hLink s port
  else if off = 0xC then f.dis.toNat
  else if off = 0x10 then (portIdle s port).toNat
  else if off = 0x14 then f.dberr.toNat
  else if off = 0x18 then f.descerr.toNat
  else if off = 0x20 then f.qprobe.toNat
  else if off = 0x24 then f.qinfo.toNat
  else if off = 0x28 then f.qhead.toNat
  else if off = 0x2C then f.qtail.toNat
  else if 0x100 ≤ off ∧ off < 0x120 then (f.evpend.toNat >>> ((off - 0x100) * 8)) % 2 ^ 32
  else if 0x400 ≤ off ∧ off < 0xA00 then
    let k := (off - 0x400) / 8
    if h : k < 192 then
      if coalPort s k ≠ port then 0 else if off % 8 = 0 then s.coals[k].nm1 + s.coals[k].tus * 65536 else s.coals[k].cnt % 512
    else 0
  else if 0x1000 ≤ off ∧ off < 0x1400 then
    let c := (off - 0x1000) / 16
    if chanPort s c ≠ port then 0
    else if off % 16 = 0 then dmaStat (s.dma c) else if off % 16 = 4 then (s.dma c).qid else if off % 16 = 8 then (s.dma c).bytes else 0
  else if 0x10000 ≤ off ∧ off < 0x11000 then
    let w := ((tabGet f.msix ((off - 0x10000) / 4)).getD 0).toNat
    if off % 16 = 12 then w / 2 * 2 + (f.mask.getLsbD ((off - 0x10000) / 16)).toNat else w
  else if 0x11000 ≤ off ∧ off < 0x11020 then (f.pba.toNat >>> ((off - 0x11000) * 8)) % 2 ^ 32
  else 0

/-- A read of a BAR0 word; before READY H_ID and H_DEVSTATE alone answer with more than zero (R528). -/
def bar0Read (s : State) (port off : Nat) : Nat :=
  if off % 4 ≠ 0 then 0 else if s.mgmt.devstate = 1 ∧ off ≠ 0 ∧ off ≠ 4 then 0 else bar0Word s port off

/-! ### Configuration space (R374, R375) -/

/-- The identity words of a function: Device and Vendor ID at 0, class code and Revision ID at 8 (R375). -/
def configWord (off : Nat) : Option Word :=
  if off = 0 then some 0x80081D8A else if off = 8 then some 0x120000B0 else none

/-- The Device Serial Number capability's word, the lower one first (R374). -/
def serialWord (port : Nat) (upper : Bool) : Word :=
  if upper then (Config.serial port).extractLsb' 32 32 else (Config.serial port).extractLsb' 0 32

/-- A write of Device Control: Enable Relaxed Ordering, Max_Payload_Size, Enable No Snoop, Max_Read_Request_Size (R374; the bits are PRESUMED of PCI
Express, log entry 71). A size that the function does not support leaves a free one. -/
def devCtlWrite (s : State) (port : Nat) (v : Word) : State :=
  let a := if bitsOf v.toNat 7 5 < 3 then (bitsOf v.toNat 7 5, s) else (s.takeFree.1 % 3, s.takeFree.2)
  let b := if bitsOf v.toNat 14 12 < 6 then (bitsOf v.toNat 14 12, a.2) else (a.2.takeFree.1 % 6, a.2.takeFree.2)
  b.2.setFunc port { b.2.func port with roEn := v.getLsbD 4, nsEn := v.getLsbD 11, mps := a.1, mrrs := b.1 }

/-- A write of PTM Control: enabling PTM starts without a dialogue (R374, R383). -/
def ptmCtlWrite (s : State) (port : Nat) (v : Word) : State :=
  let f := s.func port
  s.setFunc port { f with ptmEn := v.getLsbD 0, ptm := if v.getLsbD 0 && f.ptmEn then f.ptm else none }

/-- A write of MSI-X Message Control: MSI-X Enable, and Function Mask, which holds every vector back (R374, R397). -/
def msixCtlWrite (s : State) (port : Nat) (v : Word) : State :=
  let on := v.getLsbD 15 && !v.getLsbD 14
  let s := s.setFunc port { s.func port with msixEn := on }
  if on then unholdAll s port else s

/-- A write of the power-management control register: D0 or D3hot; no other state is supported (R374, R376). -/
def pmcsrWrite (s : State) (port : Nat) (v : Word) : State :=
  match bitsOf v.toNat 1 0 with
  | 0 => askBulk (unholdAll (s.setFunc port { s.func port with d3hot := false }) port) port
  | 3 => dropBulk (s.setFunc port { s.func port with d3hot := true }) port
  | _ => s

/-- A BAR access that is no aligned 32-bit one: an aligned 64-bit write of the MSI-X table acts, every other is ignored (R377). -/
def barOther (s : State) (port bar off size : Nat) (lo hi : Word) : State :=
  if bar = 0 ∧ size = 8 ∧ off % 8 = 0 ∧ 0x10000 ≤ off ∧ off < 0x11000 then bar0Write (bar0Write s port off lo) port (off + 4) hi else s

/-! ### Restart after a chip-level fault (R465, R466) -/

/-- What each READY does beside the device state: the Gleaner and its thresholds, the meter epoch, whose minutes count from this READY, the election
window (R440, R442, R460, R506, R510). A span that a firmware restart finds open goes on in minute 0 of the new epoch (DESIGN CHOICE, log entry 38). -/
def onReady (s : State) : State :=
  { s with
    mgmt := { s.mgmt with devstate := 2, owner := 3, elect := some (s.audit.uptime + 50000), order := s.mgmt.orderNext, faultAt := none }
    ident := { s.ident with meterEpoch := s.ident.meterEpoch + 1 }
    votes := (s.storeVote .epoch).votes
    audit := { s.audit with minute := 0, readyAt := s.audit.uptime }
    ctxs := s.ctxs.map fun x => { x with minBase := 0 }
    ras := { s.ras with gop := 2, gperiod := 24, gpos := 0, thHbm := 1000, thChip := 100 } }

/-- FIRMWARE_RESTART: Zarba has restarted within 2 s, the root PLL locked (R476): mailbox positions are 0, unanswered commands lost, a device record, READY
and a new election window (R465). The meter epoch is read in the vote store, and written (R442, R507, R508). -/
def execFirmwareRestart (s : State) : Host.Outcome State Fault Refusal :=
  match s.mgmt.devstate, s.mgmt.faultAt with
  | 3, some t =>
    if t + 2000000 ≤ s.audit.uptime || s.power.pllLost then .next s
    else
      let boxes := s.mgmt.boxes.map fun b => { b with cprod := 0, ccons := 0, rprod := 0, rcons := 0, replies := [], waiting := [] }
      let s := { s with
        mgmt := { s.mgmt with boxes := boxes, pend := [] }
        ctxs := s.ctxs.map fun x => { x with hold := { x.hold with parkReq := false, exportBy := none, exporting := false } } }
      let s := readVotes (deviceRec s 0xFFFF 0xFFFF []) fun f => f = .epoch
      if s.mgmt.devstate = 4 then .next s else .next (onReady s)
  | _, _ => .next s

/-- RESTART_TIMEOUT: no restart within 2 s (R466). -/
def execRestartTimeout (s : State) : Host.Outcome State Fault Refusal :=
  match s.mgmt.devstate, s.mgmt.faultAt with
  | 3, some t => if t + 2000000 ≤ s.audit.uptime then .next (halted s) else .next s
  | _, _ => .next s

end Sys2Proof.Machine
end

