-- ==== Sys2Proof/Machine/Pads.lean ====
section
/-! DEFINITION. The levels at the general pins and the events of their changes (R517, R518, R520, R524). -/
namespace Sys2Proof.Machine

/-- The number whose binary digits are the list, the lowest first. -/
def numOfBits : List Bool → Nat
  | [] => 0
  | b :: l => b.toNat + 2 * numOfBits l

/-! ### Pads (R517, R518, R524) -/

def Gpio.pin (g : Gpio) (n : Nat) : Pin := g.pins[n % 48]

def Gpio.setPin (g : Gpio) (n : Nat) (p : Pin) : Gpio := { g with pins := g.pins.set (n % 48) p (Nat.mod_lt _ (by decide)) }

/-- The set-up that governs pin `n`: in Frost the one at its entry, but for SLEEP, which acts at once (R524). -/
def govPin (s : State) (n : Nat) : Pin :=
  let p := s.gpio.pin n
  if s.power.frost then { s.gpio.asleep[n % 48]'(Nat.mod_lt _ (by decide)) with sleep := p.sleep, pad := p.pad } else p

/-- The level at pad `n` while the pins are awake: driven by the device where its function drives it, else as the board drives it. -/
def padAwake (s : State) (n : Nat) : Bool :=
  let p := govPin s n
  match p.func with
  | 0 => if p.oe then p.out else p.pad
  | 9 => s.gpio.syncOut
  | 10 => if s.power.alert then false else p.pad
  | _ => p.pad

/-- PAD: the latched strap under function 13, else the level at the pad, the sleep states of Frost included (R517, R518, R524). -/
def padOf (s : State) (n : Nat) : Bool :=
  let p := govPin s n
  if p.func = 13 then s.gpio.straps.testBit n
  else if s.power.frost && !(n < 4 && (p.func = 1 || p.func = 2)) && p.func ≠ 11 then
    match p.sleep with
    | 0 => false
    | 1 => true
    | 2 => p.pad
    | _ => s.gpio.kept[n % 48]
  else padAwake s n

/-- Every pin keeps the level that it shows, and its set-up governs it on (R518, R524). -/
def keepLevels (s : State) : Gpio := { s.gpio with kept := BitVec.ofNat 48 (numOfBits ((List.range 48).map (padOf s))), asleep := s.gpio.pins }

/-- Source 247 with the pin as UNIT (R520). -/
def pinEvent (s : State) (n : Nat) : State := raiseAll s 247 n

/-- Source 247 where PAD of pin `n`, an input of function 0, is another in `t` than in `s`, or has risen on a pin of function 8 (R520). -/
def padEvent (s t : State) (n : Nat) : State :=
  let p := govPin t n
  if (p.func = 0 && !p.oe && padOf s n != padOf t n) || (p.func = 8 && !padOf s n && padOf t n) then pinEvent t n else t

/-- So for every pin. -/
def padEvents (s t : State) : State := (List.range 48).foldl (padEvent s) t

end Sys2Proof.Machine
end

