-- ==== Sys2Proof/Machine/Power.lean ====
section
/-! DEFINITION. Frequency steps, power states, the power limit, thermal limits and ageing (17). -/
namespace Sys2Proof.Machine

/-! ### Demands (R478) -/

/-- The step that retired steps demand (R492). -/
def retiredDemand (p : Power) : Nat := if p.retired[1] then 2 else if p.retired[0] then 1 else 0

/-- The slowest step that anything demands of quadrant `q` (R478). -/
def demandOf (p : Power) (q : Fin 4) : Nat :=
  min 2 (max (max p.cap (if p.brake then 2 else 0)) (max (max p.thermDemand[q] p.powDemand[q]) (retiredDemand p)))

/-- The planned voltage of a step (R490). -/
def planned (p : Power) (step : Nat) : Nat := Config.baseVoltage step + 5 * p.g.toList.getD step 0

/-- The fastest step in use in any quadrant (R479). -/
def fastest (p : Power) : Nat := p.step.toList.foldl min 2

/-- The pins of the PMBus to the rail's regulator, SCL and SDA of group 1, have function 12 (R517). -/
def railPins (s : State) : Bool := (s.gpio.pin 4).func = 12 && (s.gpio.pin 5).func = 12

/-- The regulator is reached: in Frost the pins sleep (R517, R524). -/
def railBus (s : State) : Bool := !s.power.frost && railPins s

/-- The rail at the planned voltage of the fastest step in use, where the regulator is reached (R479, R490, R517). -/
def setRail (s : State) : State := if railBus s then { s with power := { s.power with rail := planned s.power (fastest s.power) } } else s

/-- Quadrant `q` runs at step `k` from now on; source 245 (R479). -/
def switchStep (s : State) (q : Fin 4) (k : Nat) : State :=
  notePower s (raiseAll (setRail { s with power := { s.power with step := s.power.step.set q k } }) 245 0xFFFF)

/-- A change of quadrant `q` to a faster step waits for the rail (R479). -/
def railPending (p : Power) (q : Fin 4) : Bool := !p.frost && decide (demandOf p q < p.step[q]) && p.railWait[q].isNone

/-- FREQUENCY_STEP_CHANGE: to a slower step at once; to a faster one when the rail has reached its target, unless a failed change still waits
for its retry (R478, R479). In Frost the dividers stand (R480). -/
def execFrequencyStepChange (q : Fin 4) (s : State) : Host.Outcome State Fault Refusal :=
  let k := demandOf s.power q
  if (!s.power.frost && decide (s.power.step[q] < k)) || (railPending s.power q && railBus s) then .next (switchStep s q k) else .next s

/-- The step that quadrant `q` takes at the exit from Frost (R494): a faster one needs the regulator, and a failed change waits for its retry (R479). -/
def exitStep (s : State) (q : Fin 4) : Nat :=
  let p := s.power
  if demandOf p q < p.step[q] && (!railPins s || p.railWait[q].isSome) then p.step[q] else demandOf p q

/-- The rail has not reached its target: a device record, a retry after 1 s (R479). -/
def railFail (s : State) (q : Fin 4) : State :=
  let s := deviceRec s 0xFFFF 0xFFFF []
  { s with power := { s.power with railWait := s.power.railWait.set q (some (s.audit.uptime + 1000000)) } }

/-- RAIL_TARGET_TIMEOUT: the rail has not reached the target of a faster step within 200 µs (R479). -/
def execRailTargetTimeout (q : Fin 4) (s : State) : Host.Outcome State Fault Refusal :=
  if railPending s.power q then .next (railFail s q) else .next s

/-- RAIL_RETRY: 1 s after the failure the change is tried again (R479). -/
def execRailRetry (q : Fin 4) (s : State) : Host.Outcome State Fault Refusal :=
  match s.power.railWait[q] with
  | some t => if t ≤ s.audit.uptime then .next { s with power := { s.power with railWait := s.power.railWait.set q none } } else .next s
  | none => .next s

/-! ### Power limit and brake (R484, R485) -/

/-- Card power P of R484 in 0.1 W: the mean of the last ten samples. -/
def meanPower (l : List Nat) : Nat := if l.isEmpty then 0 else l.sum / l.length

/-- The standing demand of R484 on each quadrant. -/
def powLevels (l : List Nat) : Vector Nat 4 :=
  Vector.ofFn fun q => (l.filterMap fun e => if e % 4 = q.val then some (e / 4) else none).foldl max 0

/-- The quadrant of highest power among those not at step 2. -/
def hottestQuad (p : Power) (quadPower : List Nat) : Option (Fin 4) :=
  (List.finRange 4).foldl (fun b q =>
    if 2 ≤ max p.step[q] (demandOf p q) then b
    else match b with
      | none => some q
      | some r => if quadPower.getD r.val 0 < quadPower.getD q.val 0 then some q else some r) none

/-- One pass of the loop of R484. -/
def powerLoop (s : State) (card : Nat) (quadPower : List Nat) : State :=
  let p := s.power
  let samples := (p.samples ++ [card]).drop (p.samples.length + 1 - 10)
  let mean := meanPower samples
  let p := { p with samples := samples, cardPower := mean }
  if p.limit * 10 < mean then
    match hottestQuad p quadPower with
    | none => { s with power := { p with lowMs := 0 } }
    | some q =>
      let age := p.powAge ++ [q.val + 4 * (max p.step[q] (demandOf p q) + 1)]
      let s' := { s with power := { p with lowMs := 0, powAge := age, powDemand := powLevels age } }
      if p.powAge.isEmpty then raiseAll s' 242 0xFFFF else s'
  else if mean * 100 ≤ p.limit * 10 * 95 then
    if p.lowMs + 1 < 100 then { s with power := { p with lowMs := p.lowMs + 1 } }
    else
      let age := match p.powAge with
        | [] => []
        | e :: _ => p.powAge.erase ((p.powAge.filter fun k => k % 4 = e % 4).foldl max e)
      { s with power := { p with lowMs := 0, powAge := age, powDemand := powLevels age } }
  else { s with power := { p with lowMs := 0 } }

/-- POWER_LIMIT_LOOP (R484). -/
def execPowerLimitLoop (cardDeciW : Nat) (quadPower : List Nat) (s : State) : Host.Outcome State Fault Refusal :=
  .next (powerLoop s cardDeciW quadPower)

/-- Function 11 pins that read low; they keep their function in Frost (R524). -/
def lowPins (s : State) : BitVec 48 := BitVec.ofNat 48 (numOfBits ((List.range 48).map fun n => (govPin s n).func = 11 && !(govPin s n).pad))

/-- One CLK_TICK edge of the brake input (R517). -/
def brakeTick (s : State) : Gpio := { s.gpio with low := lowPins s, lowTwice := lowPins s &&& s.gpio.low }

/-- The power brake is asserted while any function 11 pin reads low for two consecutive CLK_TICK edges (R485, R517). -/
def brakePin (s : State) : Bool := (List.finRange 48).any fun n => (govPin s n.val).func = 11 && s.gpio.lowTwice[n]

/-- POWER_BRAKE_ASSERT: step 2 is demanded of every quadrant; source 243 (R485). -/
def execPowerBrakeAssert (s : State) : Host.Outcome State Fault Refusal :=
  if s.power.brake || !brakePin s then .next s else .next (raiseAll { s with power := { s.power with brake := true } } 243 0xFFFF)

/-- POWER_BRAKE_DEASSERT (R485). -/
def execPowerBrakeDeassert (s : State) : Host.Outcome State Fault Refusal :=
  if s.power.brake && !brakePin s then .next { s with power := { s.power with brake := false } } else .next s

/-! ### Thermal limits (R486 to R488) -/

/-- A quadrant's junction temperature: the highest of its 16 cluster sensors (R486). -/
def junction (temps : List Int) (q : Nat) : Int := ((temps.drop (16 * q)).take 16).foldl max (-273)

/-- The thermal demand of quadrant `q` and its count of cool milliseconds after a sample (R487). -/
def thermStep (p : Power) (q : Fin 4) (tj th : Int) : Nat × Nat :=
  let d := p.thermDemand[q]
  if (p.throttle : Int) ≤ tj ∨ 95 ≤ th then (min 2 (max d p.step[q] + 1), 0)
  else if tj < (p.throttle : Int) - 5 ∧ th < 90 then
    if p.coolMs[q] + 1 < 100 then (d, p.coolMs[q] + 1) else (d - 1, 0)
  else (d, 0)

/-- THERMAL_SAMPLE each millisecond; a trip holds the alert (R486 to R488). -/
def execThermalSample (clusterTemps hbmTemps : List Int) (s : State) : Host.Outcome State Fault Refusal :=
  let p := s.power
  let r (q : Fin 4) : Nat × Nat := thermStep p q (junction clusterTemps q.val) (hbmTemps.getD q.val 0)
  let was := p.thermDemand.toList.any fun d => 0 < d
  let dem := Vector.ofFn fun q => (r q).1
  let is := dem.toList.any fun d => 0 < d
  let s := { s with power := { p with
    thermDemand := dem, coolMs := Vector.ofFn fun q => (r q).2, temps := clusterTemps, hbmTemps := hbmTemps
    alert := is || s.gpio.thermtrip } }
  .next (if is && !was then raiseAll s 240 0xFFFF else if was && !is then raiseAll s 241 0xFFFF else s)

/-- THERMAL_TRIP (R488): the device is HALTED, and THERMTRIP_N and the alert stay asserted; the device record follows at the next READY. -/
def execThermalTrip (s : State) : Host.Outcome State Fault Refusal :=
  let s := halted s
  .next { s with
    mgmt := { s.mgmt with tripped := true }
    power := { s.power with alert := true }
    gpio := { s.gpio with thermtrip := true } }

/-- PLL_LOCK_LOSS: a chip-level fault, from which Zarba restarts only after the PLL has locked again (R476). -/
def execPllLockLoss (s : State) : Host.Outcome State Fault Refusal := .next (chipFault { s with power := { s.power with pllLost := true } } .firmware)

/-- A PLL that has lost lock may lock again at any edge: when is a free value (R476). -/
def pllTick (s : State) : State :=
  if s.power.pllLost then
    let r := s.takeFree
    { r.2 with power := { r.2.power with pllLost := r.1 % 2 = 0 } }
  else s

/-! ### Roles that pins give up (R522) -/

/-- Position `pos` of a group has a role in the transfers of function `f` (R517). -/
def busRole (f pos : Nat) : Bool := (f = 1 && decide (pos < 3)) || (f = 2 && decide (pos < 2)) || f = 3 || f = 4 || f = 12

/-- Pin `n` ends a transfer of function `f`: the peripheral's error flag, GP_ABORT, source 247 (R520, R522). -/
def abandon (s : State) (n f : Nat) : State :=
  pinEvent { s with gpio := { s.gpio with abort := s.gpio.abort ||| 1#32 <<< (n / 4), perr := ((n / 4, f) :: s.gpio.perr).eraseDups } } n

/-- Pin `n` goes from function `f` to `k`. Where the peripheral had a transfer in progress, that is abandoned; a rail change in progress fails (R479, R522).
Whether any other transfer was in progress is a free value, since the commands show none; an M2 transfer that is cut off has changed no byte, and Zarba
repeats any other (R522). -/
def giveUp (s : State) (n f k : Nat) : State :=
  if f = k || !busRole f (n % 4) || (s.power.frost && !(n < 4 && (f = 1 || f = 2))) then s
  else
    let r := s.takeFree
    let qs := if f = 12 ∧ n / 4 = 1 ∧ railBus s then (List.finRange 4).filter fun q => railPending s.power q else []
    if qs.isEmpty && r.1 % 2 = 0 then r.2 else qs.foldl railFail (abandon r.2 n f)

/-! ### Frost (R481, R482) -/

/-- FROST_ENTRY, once every function is in D3hot and no context is RUNNING (R481). The contexts that still hold a lane leave it, so that the exit
reaches Idle (R480, R481). The Frost consumption that PWR reports until the next sample is a free value (R494); the pins sleep (R524). -/
def execFrostEntry (s : State) : Host.Outcome State Fault Refusal :=
  if s.power.frost || s.mgmt.devstate ≠ 2 || !(s.ports.all fun p => (s.func p).d3hot) || s.ctxs.any fun x => x.stat = .running then .next s
  else
    let r := s.takeFree
    let t := { leaveLanes r.2 with power := { r.2.power with frost := true, cardPower := r.1 % 2 ^ 16 }, gpio := keepLevels s }
    .next (padEvents s (notePower s t))

/-- The records held in Frost are appended, with one KIND 3 record for those beyond 256 (R482). -/
def flushHeld (s : State) : State :=
  let a := s.audit
  let s := a.held.foldl chainRec { s with audit := { a with held := [], heldMore := 0 } }
  if a.heldMore = 0 then s else appendRec s 0xFFFF 0 0xFF 0xFF 3 0xFFFF 0 (le 4 a.heldMore)

/-- The quadrants take their steps at the exit from Frost (R479, R494). -/
def exitSteps (s t : State) : State :=
  (List.finRange 4).foldl (fun t q => if t.power.step[q] = exitStep s q then t else switchStep t q (exitStep s q)) (setRail t)

/-- FROST_EXIT: a function is back in D0; the pins leave their sleep states under their present set-ups (R481, R524). -/
def execFrostExit (port : Nat) (s : State) : Host.Outcome State Fault Refusal :=
  if !s.power.frost || !s.ports.contains port then .next s
  else
    let u := (List.range 48).foldl (fun u n => giveUp u n (govPin s n).func (s.gpio.pin n).func) s
    let t := askBulk (unholdAll (u.setFunc port { u.func port with d3hot := false }) port) port
    .next (padEvents s (exitSteps s (notePower s (flushHeld { t with power := { t.power with frost := false } }))))

/-! ### Ageing (R489 to R493) -/

/-- The new guardband of a step with worst slack `sl` (R490). -/
def newG (g : Nat) (k : Nat) (sl : Int) : Nat := if 20 ≤ sl then g else g + ((20 - sl).toNat + k - 1) / k

/-- Remaining powered days of a step (R493). -/
def remaining (t g : Nat) : Nat := if g = 0 then 9999 else min 9999 (t * 24 ^ 4 / g ^ 4 - t)

/-- The forecast over the steps not retired (R493). -/
def forecast (p : Power) : Nat :=
  let t := p.ageHours / 24
  (List.finRange 3).foldl (fun b k => if p.retired[k] then b else min b (remaining t p.g[k])) 9999

/-- The worst slack of a step among those measured. -/
def slackOf (slacks : List Int) (k : Nat) : Int := slacks.getD k 20

/-- The guardbands, retired steps and forecast that a re-plan from the worst slacks of the three steps gives (R490, R492, R493). -/
def agePlan (s : State) (slacks : List Int) : Power :=
  let p := s.power
  let want (k : Fin 3) : Nat := if p.retired[k] then p.g[k] else newG p.g[k] (Config.slackPer5mV k.val) (slackOf slacks k.val)
  let q := { p with
    g := Vector.ofFn fun k => min 24 (want k)
    retired := Vector.ofFn fun (k : Fin 3) => p.retired[k] || (decide (24 < want k) && decide (k.val < 2))
    lastAge := s.audit.uptime, ageEnd := s.audit.uptime + 200000 }
  { q with forecastLow := decide (forecast q < 365) }

/-- The plan is in force: the rail follows it, and a step that it retires goes into the vote store (R490, R492, R507). -/
def putPlan (s : State) (q : Power) : State :=
  setRail { (if q.retired = s.power.retired then s else s.storeVote .retired) with power := q }

/-- A re-plan from the worst slacks of the three steps (R490 to R493). -/
def replan (s : State) (slacks : List Int) : State :=
  let p := s.power
  let q := agePlan s slacks
  let raises := q.forecastLow && !p.forecastLow
  let s := if raises then raiseAll (putPlan s q) 244 0xFFFF else putPlan s q
  if q.g = p.g then s
  else deviceRec s 0xFFFF (if raises then 244 else 0xFFFF)
    ((q.g.toList.map fun x => BitVec.ofNat 8 x) ++ (List.range 3).flatMap fun k => le 2 (natOfInt 16 (slackOf slacks k)))

/-- AGEING_REPLAN after 24 hours of uptime (R490). -/
def execAgeingReplan (slacks : List Int) (s : State) : Host.Outcome State Fault Refusal :=
  if s.audit.uptime < s.power.lastAge + 86400000000 then .next s else .next (replan s slacks)

/-- A measurement runs for 200 ms from its start; that of a start-up ends before READY (R490, R528). -/
def measuring (s : State) : Bool := decide (s.audit.uptime < s.power.ageEnd)

/-- An hour of powered time has passed (R489): the vote store's count is read and written, and the forecast looked at again, which rises with it (R493,
R507, R508). -/
def hourEnd (s : State) : State :=
  let s := readVotes s fun f => f = .hours
  if s.mgmt.devstate = 4 then s
  else
    let p := { s.power with ageHours := s.power.ageHours + 1 }
    { s.storeVote .hours with power := { p with forecastLow := p.forecastLow && decide (forecast p < 365) } }

/-- The 64 bytes of PWR.QUERY (R494). -/
def powerBytes (s : State) : List Byte :=
  let p := s.power
  let b (n : Nat) : Byte := BitVec.ofNat 8 n
  let i (n : Int) : Byte := BitVec.ofInt 8 n
  le 2 p.cardPower ++ le 2 p.limit ++ [b (powerState s), b p.cap, b p.brake.toNat,
      b (p.retired[0].toNat + p.retired[1].toNat * 2 + p.retired[2].toNat * 4)]
    ++ (List.finRange 4).map (fun q => b (if p.frost then exitStep s q else p.step[q]))
    ++ (List.range 4).map (fun q => i (junction p.temps q)) ++ (List.range 4).map (fun q => i (p.hbmTemps.getD q 0))
    ++ (List.finRange 4).map (fun q => b ((decide (0 < p.cap)).toNat + p.brake.toNat * 2 + (decide (0 < p.thermDemand[q])).toNat * 4
      + (decide (0 < p.powDemand[q])).toNat * 8 + (decide (0 < retiredDemand p)).toNat * 16))
    ++ [i (p.temps.foldl max (-273)), b p.throttle] ++ (p.g.toList.map b) ++ zeros 3
    ++ (List.range 3).flatMap (fun k => le 2 (planned p k)) ++ le 2 (forecast p) ++ le 4 (p.ageHours / 24) ++ zeros 4 ++ le 8 p.lastAge ++ zeros 8

end Sys2Proof.Machine
end

