-- ==== Sys2Proof/Machine/Pins.lean ====
section
/-! DEFINITION. General pins (R517 to R524) and the management transport registers: pin set-up, pads, locks, frame sync. -/
namespace Sys2Proof.Machine

/-- `GP_nCFG` (R518). -/
def pinWord (s : State) (n : Nat) : Word :=
  let p := s.gpio.pin n
  BitVec.ofNat 32 (p.func % 16 + p.pull % 4 * 16 + p.drive % 4 * 64 + p.sleep % 4 * 256 + p.out.toNat * 1024 + p.oe.toNat * 2048
    + p.lock.toNat * 4096 + (padOf s n).toNat * 8192)

/-- The board drives pad `n` to `level`: an input of function 0 raises source 247 at each change, one of function 8 at each rise (R520). -/
def padChange (s : State) (n : Nat) (level : Bool) : State :=
  let p := s.gpio.pin n
  if p.pad = level then s else padEvent s { s with gpio := s.gpio.setPin n { p with pad := level } } n

/-- GPIO_PAD_CHANGE (R520). -/
def execGpioPadChange (pin : Nat) (level : Bool) (s : State) : Host.Outcome State Fault Refusal :=
  if pin < 48 then .next (padChange s pin level) else .next s

/-- FRAME_SYNC_IN_EDGE: a rising edge on a function 8 pin (R520). -/
def execFrameSyncInEdge (pin : Nat) (s : State) : Host.Outcome State Fault Refusal :=
  if pin < 48 ∧ (govPin s pin).func = 8 then .next (padChange s pin true) else .next s

/-- CLK_AUD edges since READY. -/
def audEdges (s : State) : Nat := s.audit.uptime * 48 / 1000

/-- FRAME_SYNC_OUT_PULSE at an edge since READY whose count is a multiple of 800, once, in FAULT and HALTED too, where CLK_AUD runs on (R465, R488); the
outputs fall again 8 edges later (R517). -/
def execFrameSyncOutPulse (s : State) : Host.Outcome State Fault Refusal :=
  if s.mgmt.devstate ≠ 1 && audEdges s % 800 = 0 && decide (s.gpio.syncAt ≤ audEdges s) then
    .next { s with gpio := { s.gpio with syncOut := true, syncAt := audEdges s + 800 } }
  else .next s

/-- The end of a pulse (R517). -/
def syncFall (s : State) : State :=
  if s.gpio.syncOut && decide (8 ≤ audEdges s % 800) then { s with gpio := { s.gpio with syncOut := false } } else s

/-! ### Changing a pin (R521, R522) -/

/-- A pin that takes SLEEP 3 in Frost keeps the level that it shows (R524). -/
def keepLevel (s : State) (n : Nat) (p : Pin) : BitVec 48 :=
  if s.power.frost && p.sleep = 3 then (if padOf s n then s.gpio.kept ||| 1#48 <<< n else s.gpio.kept &&& ~~~ (1#48 <<< n)) else s.gpio.kept

/-- A pin takes a new set-up at one edge (R521, R522), which may change its PAD (R520); in Frost its role changes at the exit (R524). A rail that waited
for the bus takes its voltage when the function returns (R522). -/
def changePin (s : State) (n : Nat) (p : Pin) : State :=
  let t := if s.power.frost then s else giveUp s n (s.gpio.pin n).func p.func
  padEvent s (setRail { t with gpio := { t.gpio.setPin n p with kept := keepLevel s n p } }) n

/-! ### Registers of the GPIO block (R518, R523) -/

/-- Lock every pin of a mask (R523). -/
def lockPins (g : Gpio) (mask : Nat) : Gpio :=
  { g with pins := Vector.ofFn fun n => if mask.testBit n.val then { g.pins[n] with lock := true } else g.pins[n] }

/-- The lock mask as one number. -/
def Gpio.mask (g : Gpio) : Nat := g.maskL.toNat + g.maskH.toNat % 2 ^ 16 * 2 ^ 32

/-- A write of a register of the block; any write but 0xA5 right after 0x5A ends the sequence (R523). -/
def gpioWrite (s : State) (off : Nat) (v : Word) : State :=
  let g := s.gpio
  let d := { s with gpio := { g with armed := false } }
  if off = 0x110 then
    if v.toNat % 256 = 0x5A then { s with gpio := { g with armed := true } }
    else if v.toNat % 256 = 0xA5 && g.armed then { s with gpio := { lockPins g g.mask with armed := false } }
    else d
  else if off = 0x108 then { s with gpio := { g with armed := false, maskL := v } }
  else if off = 0x10C then { s with gpio := { g with armed := false, maskH := v &&& 0xFFFF#32 } }
  else if off = 0x11C then { s with gpio := { g with armed := false, abort := g.abort &&& ~~~ v } }
  else if off < 0xC0 ∧ off % 4 = 0 then
    let n := off / 4
    let p := g.pin n
    if p.lock then d
    else changePin d n { p with
      func := bitsOf v.toNat 3 0, pull := bitsOf v.toNat 5 4, drive := bitsOf v.toNat 7 6, sleep := bitsOf v.toNat 9 8, out := v.getLsbD 10
      oe := v.getLsbD 11 }
  else d

/-- PINLOCK: a write of the GPIO block as part of the key sequence (R523). -/
def execPinlockWrite (off : Nat) (v : Word) (s : State) : Host.Outcome State Fault Refusal := .next (gpioWrite s off v)

/-! ### Set-ups at start-up (R519) -/

/-- The default set-up (R519). -/
def defaultPins : Vector Pin 48 :=
  Vector.ofFn fun n => if n.val < 3 then { resetPins[n] with func := 1 } else if 4 ≤ n.val ∧ n.val < 8 then { resetPins[n] with func := 12 } else resetPins[n]

/-- Step 3 of start-up: the stored set-up, or the default one. Pads keep their levels, and no pin is locked. -/
def applyStore (g : Gpio) (ok : Bool) : Gpio :=
  let base : Vector Pin 48 := match g.store, ok with
    | some l, true => Vector.ofFn fun n => l.getD n.val defaultPins[n]
    | _, _ => defaultPins
  { g with pins := Vector.ofFn fun n => { base[n] with pad := g.pins[n].pad, lock := false } }

end Sys2Proof.Machine
end

