-- ==== Sys2Proof/Machine/Ras.lean ====
section
/-! DEFINITION. The Gleaner and the error hours (R504 to R506, R510). -/
namespace Sys2Proof.Machine

/-- The error lies in the 64-byte unit of HBM at `pos` (R504). -/
def inUnit (u : Upset) (pos : Nat) : Bool := u.loc.phys / 64 = pos / 64

/-- The word with an uncorrectable error is still as the error left it: its block or its item is poisoned (R498). -/
def stillBad (s : State) (u : Upset) : Bool :=
  match u.loc with
  | .ram c r a => (s.ctx? c).any fun x => x.m.blkPoisoned r (a / 16)
  | .image h a => s.images.any fun i => i.hash = h && i.poison.contains (a / 16)
  | .store c k _ _ => (s.ctx? c).any fun x => x.badStore k
  | .record _ _ => true
  | .reserved _ _ => true

/-- No Almanac record has been written over the word since the error (R434, R496). -/
def stands (s : State) (u : Upset) : Bool :=
  match u.loc with
  | .record n _ => s.audit.recs.any fun r => r.seq = n
  | .reserved st off => !(decide (partOf st off = .almanac) && s.audit.recs.any fun r => inSlot r.seq ((off - almanacBase) / almanacRec))
  | _ => true

/-- Read and rewrite one unit: single-bit errors are corrected and go, uncorrectable words count as latent, each once, and stay (R504). -/
def gleanHbm (s : State) (pos : Nat) : State :=
  let here := s.ras.upsets.filter fun u => inUnit u pos && stands s u
  let s := here.foldl (fun s u =>
    if u.double then
      if stillBad s u then
        let st := stackAt u.loc.phys
        { s with ras := { s.ras with hbmlat := s.ras.hbmlat.set st ((s.ras.hbmlat[st] + 1) % 2 ^ 32) } }
      else s
    else correctHbm s u) s
  { s with ras := { s.ras with upsets := s.ras.upsets.filter fun u => !(inUnit u pos && !u.double) } }

/-- Once in each pass the fast RAM of every resident lane is read and rewritten (R504). -/
def gleanFast (s : State) : State :=
  let n := (s.ctxs.map fun x => if x.orr.lane.isSome then (x.m.mem.fast.filter fun k => k.2.soft && !k.2.poisoned).length else 0).sum
  let clean (x : Ctx) : Ctx :=
    { x with m := { x.m with mem := { x.m.mem with fast := x.m.mem.fast.map fun k => if k.2.poisoned then k else (k.1, { k.2 with soft := false }) } } }
  (List.range n).foldl (fun s _ => countFast s) { s with ctxs := s.ctxs.map fun x => if x.orr.lane.isSome then clean x else x }

/-- Bytes of HBM (R22, R506). -/
def hbmBytes : Nat := 137438953472

/-- The end of a pass: source 217; a single pass stops the Gleaner (R506). -/
def passEnd (s : State) : State :=
  let r := s.ras
  raiseAll { s with ras := { r with gpasses := (r.gpasses + 1) % 2 ^ 32, gpos := 0, gop := if r.gop = 1 then 0 else r.gop } } 217 0xFFFF

/-- GLEANER_UNIT: the next 64-byte unit; fast RAM with the first unit of a pass (R504, R506). -/
def execGleanerUnit (s : State) : Host.Outcome State Fault Refusal :=
  if s.ras.gop = 0 || s.mgmt.devstate ≠ 2 || s.power.frost then .next s
  else
    let pos := s.ras.gpos
    let s := gleanHbm (if pos = 0 then gleanFast s else s) pos
    let s := { s with ras := { s.ras with gpos := pos + 64 } }
    .next (if hbmBytes ≤ pos + 64 then passEnd s else s)

/-- ERROR_HOUR_END: the threshold counts start again (R510). -/
def execErrorHourEnd (s : State) : Host.Outcome State Fault Refusal :=
  if s.audit.uptime < 3600000000 * (s.ras.hour + 1) then .next s
  else .next { s with ras := { s.ras with
    hour := s.ras.hour + 1, hourHbm := Vector.replicate 4 0, hourChip := 0, saidHbm := Vector.replicate 4 false, saidChip := false } }

/-- The 128 bytes of RAS.COUNTS (R509). -/
def rasBytes (r : Ras) : List Byte :=
  r.hbmce.toList.flatMap (le 8) ++ r.hbmue.toList.flatMap (le 4) ++ r.hbmlat.toList.flatMap (le 4) ++ r.hbmode.toList.flatMap (le 4)
    ++ le 4 r.frce ++ le 4 r.cachece ++ le 4 r.sramce ++ le 4 r.onue ++ le 4 r.votec ++ le 4 r.ctxf ++ le 4 r.chipf
    ++ [BitVec.ofNat 8 r.gop, 0, 0, 0] ++ le 4 r.gperiod ++ le 4 r.gpasses ++ le 8 r.gpos

end Sys2Proof.Machine
end

