-- ==== Sys2Proof/Machine/Mgmt.lean ====
section
/-! DEFINITION. How a command packet is taken, checked in the order of R456, recorded and answered (R449, R452 to R458). -/
namespace Sys2Proof.Machine

/-- R455. -/
inductive Kind where
  | query | ownership | controlled
  deriving DecidableEq, Repr

/-- A check with the status and the RESULT of its failure (R452, R456). -/
structure Chk where
  fails : Bool
  status : Nat
  at_ : Nat
  deriving DecidableEq, Repr

/-- What the catalogue says of an opcode (R467 to R472): `roles` the session roles that hold the right, `free` that ownership is enough,
`bulk` that BULK is allowed, `early` further checks of steps 6 and 7, `lay` its parameters, `votes` the fields of the vote store that it looks up. -/
structure Cmd where
  op : Nat
  kind : Kind := .controlled
  roles : List Nat := []
  free : Bool := false
  bulk : Bool := false
  ctx : Nat := 0xFFFF
  early : List Chk := []
  lay : Lay := {}
  votes : List VoteField := []
  deriving DecidableEq, Repr

def maker : Nat := 1
def installer : Nat := 2
def operator : Nat := 3

/-- The first check that fails. -/
def firstFail (l : List Chk) : Option Chk := l.find? fun c => c.fails

/-! ### Taking a packet (R449, R458) -/

/-- A mailbox of a master is reached: M1 only on a bifurcated link, M0 and M1 only while their function is not in D3hot (R376, R448). -/
def mailboxUp (s : State) (m : Nat) : Bool := m = 2 || (s.ports.contains m && !(s.func m).d3hot)

/-- The mailbox takes a command now: READY, or HALTED which answers too, with room for the reply (R449, R465, R466). -/
def takes (s : State) (m : Nat) : Bool :=
  mailboxUp s m && (s.mgmt.devstate = 2 || s.mgmt.devstate = 4) && (s.box m).waiting.isEmpty

/-- OPCODE and LEN of the header at position `p` of the command ring (R449, R452). -/
def hdrOp (b : Mailbox) (p : Nat) : Nat := memNat b.mem (0x1000 + 16 * p) 2
def hdrLen (b : Mailbox) (p : Nat) : Nat := memNat b.mem (0x1000 + 16 * p + 6) 2

/-- The header at `p` has LEN 0, or one that would carry the packet past the producer or past the end of the ring (R450). -/
def lenBad (b : Mailbox) (p : Nat) : Bool :=
  hdrLen b p = 0 || decide ((b.cprod + 1792 - p) % 1792 < hdrLen b p) || decide (1792 < p + hdrLen b p)

/-- The position after the pads that lie from `p` on (R449). -/
def skipPads : Nat → Mailbox → Nat → Nat
  | 0, _, p => p
  | k + 1, b, p => if p = b.cprod || hdrOp b p ≠ 0 || lenBad b p then p else skipPads k b ((p + hdrLen b p) % 1792)

/-- Where the next packet lies; the producer where there is none. -/
def headPos (b : Mailbox) : Nat := skipPads 1792 b b.ccons

/-- The next header is one of R450. -/
def headBad (b : Mailbox) : Bool := headPos b ≠ b.cprod && lenBad b (headPos b)

/-- The bytes of a packet with its trailer (R452). -/
def wholePacket (h : Hdr) : List Byte := packetBytes h ++ h.trailer

/-- The packet is the next one of its ring, or the ring is empty: a row on an empty ring stands for the master's writes of the packet, with the pad that
R449 asks for, and of MB_CPROD too (DESIGN CHOICE, log entry 80). -/
def atHead (s : State) (h : Hdr) : Bool :=
  let b := s.box h.master
  headPos b = b.cprod || (!headBad b && memBytes b.mem (0x1000 + 16 * headPos b) (16 * h.len) = wholePacket h)

/-- The packet is taken from the ring (R449). -/
def consume (s : State) (h : Hdr) : State :=
  let b := s.box h.master
  let p := headPos b
  if p ≠ b.cprod then s.setBox h.master { b with ccons := (p + h.len) % 1792 }
  else
    let at_ := ringStart 1792 p h.len
    let mem := if at_ = p then b.mem else memPutAll b.mem (0x1000 + 16 * p) (padBytes (1792 - p))
    let next := (at_ + h.len) % 1792
    s.setBox h.master { b with ccons := next, cprod := next, mem := memPutAll mem (0x1000 + 16 * at_) (wholePacket h) }

/-- The device takes the packet `h` as a command of opcode `op` with fields `y` (R449, R452 to R454). -/
def taken (s : State) (op : Nat) (y : Lay) (h : Hdr) : Bool := h.op.toNat = op && spells y h && atHead s h

/-! ### Checks 1 to 8 -/

/-- Step 1. -/
def headChecks (h : Hdr) : List Chk := [⟨h.fver ≠ 1, eVersion, 3⟩, ⟨h.rsvdFlags, eParam, 2⟩]

/-- The open session of the packet's master that its handle names (R433). -/
def openSession (s : State) (h : Hdr) : Option Session :=
  match s.session? h.sh with
  | some x => if x.isOpen && x.master = h.master then some x else none
  | none => none

/-- The trailer is the first 16 bytes of HMAC-SHA-384 under the session key over all the bytes before it (R433). -/
def trailerRight (s : State) (h : Hdr) : Bool :=
  (openSession s h).any fun x => decide (h.trailer = (hmac (le 48 x.key) (packetBytes h)).take 16)

/-- Step 3. -/
def authChecks (s : State) (h : Hdr) : List Chk :=
  if h.sh = 0 then []
  else match openSession s h with
    | none => [⟨true, eAuth, 8⟩]
    | some x => [⟨h.seq.toNat ≠ x.seq, eAuth, 12⟩, ⟨!h.trailerOk, eAuth, 16 * h.len - 16⟩]

/-- R433, R457: a passed check uses up the sequence number; after three failures in a row the session closes. -/
def noteSession (s : State) (h : Hdr) : State :=
  match openSession s h with
  | none => s
  | some x =>
    if h.sh = 0 then s
    else if (firstFail (authChecks s h)).isNone then s.setSession { x with seq := (x.seq + 1) % 2 ^ 32, bad := 0, last := s.audit.uptime }
    else if 2 ≤ x.bad then closeSession s x.sh
    else s.setSession { x with bad := x.bad + 1 }

/-- Role of the session that carries the packet; 0 without one (R434). -/
def roleOf (s : State) (h : Hdr) : Nat :=
  if h.sh = 0 then 0
  else match openSession s h with
    | some x => if (firstFail (authChecks s h)).isNone then x.role else 0
    | none => 0

/-- Steps 4 to 8, the last as far as it concerns every command. -/
def commonChecks (s : State) (c : Cmd) (h : Hdr) : List Chk :=
  [⟨!lenRight c.lay h, eLength, 6⟩,
   ⟨c.kind = .controlled && s.mgmt.owner ≠ h.master, eOwner, 0⟩,
   ⟨c.kind = .controlled && !c.free && !c.roles.contains (roleOf s h), eRole, 8⟩]
  ++ c.early
  ++ [⟨h.bulk && (!c.bulk || h.master = 2), eParam, 2⟩,
    ⟨(badRsvd (fieldsAt h) c.lay.pars (fieldsOf h)).isSome, eParam, (badRsvd (fieldsAt h) c.lay.pars (fieldsOf h)).getD 0⟩]

/-! ### The whole of a command -/

/-- The device reads the bulk input (R454). -/
def readInput (h : Hdr) (s : State) : State :=
  if h.bulk && inLenOf h ≠ 0 then { s with wire := s.wire ++ [.bulkRead h.master h.tag (inAddrOf h) (inLenOf h)] } else s

/-- The checks that come before those of the command's own pass (R456). -/
def passesCommon (c : Cmd) (h : Hdr) (s : State) : Bool := (firstFail (headChecks h ++ authChecks s h ++ commonChecks s c h)).isNone

/-- The command's own checks look at bulk input that cannot be read while the port's DMA is stopped (R402, R454, R456). -/
def inputWaits (c : Cmd) (h : Hdr) (s : State) : Bool := h.bulk && inLenOf h ≠ 0 && !portUp s h.master && passesCommon c h s

/-- What a command does that has passed or failed its checks: `rest` are the checks of steps 8 to 12 of its own, `act` its effect with its
record and reply, `onFail` what a failure leaves beside them. The bulk input is read for the command's own checks (R454, R456), and so are the fields of
the vote store that it looks up: where no two copies of a word agree, the device is HALTED from there on (R466, R507, R508). -/
def decide_ (c : Cmd) (h : Hdr) (rest : State → List Chk) (act : State → Byte → State) (onFail : Chk → State → State) (s : State) : State :=
  let query := decide (c.kind = .query)
  match firstFail (headChecks h) with
  | some f => reject s h 0 c.ctx query f.status f.at_
  | none =>
    let t := noteSession s h
    let role := BitVec.ofNat 8 (roleOf s h)
    match firstFail (authChecks s h ++ commonChecks s c h) with
    | some f => onFail f (reject t h role c.ctx query f.status f.at_)
    | none =>
      if s.voteLost c.votes.contains then reject (readVotes t c.votes.contains) h role c.ctx query eFault 0
      else
      let t := readVotes t c.votes.contains
      match firstFail (rest s) with
      | some f => onFail f (reject (readInput h t) h role c.ctx query f.status f.at_)
      | none => act (readInput h t) role

/-- The key of the session that a packet names (R432, R433). -/
def sessionKey (s : State) (h : Hdr) : Option Nat := if h.sh = 0 then none else (s.session? h.sh).map fun x => x.key

/-- The packet as the device takes it, as one of opcode `op`. -/
def takenHdr (s : State) (op : Nat) (h : Hdr) : Hdr :=
  { h with op := BitVec.ofNat 16 op, key := sessionKey s h, trailerOk := trailerRight s h }

/-- A command packet at the head of its master's ring (R449, R456, R466). Where its reply would find no room, or its bulk input cannot be read, it is not
taken yet (the latter a DESIGN CHOICE, log entry 81); where the ring holds another packet there, or the packet is not one with these operands, the row
does nothing. -/
def commandWith (c : Cmd) (h : Hdr) (rest : State → List Chk) (act : State → Hdr → Byte → State) (onFail : Chk → State → State)
    (s : State) : State :=
  if !takes s h.master || !taken s c.op c.lay h then s
  else
    let t := consume s h
    let h := takenHdr s c.op h
    if inputWaits c h t then s
    else
    let r := if s.mgmt.devstate = 4 && c.op ≠ 0x0101 then reject t h 0 c.ctx (decide (c.kind = .query)) eFault 0
      else decide_ c h rest (fun s role => act s h role) onFail t
    if (r.box h.master).waiting.isEmpty then r else s

def command (c : Cmd) (h : Hdr) (rest : State → List Chk) (act : State → Hdr → Byte → State) (s : State) : Host.Outcome State Fault Refusal :=
  .next (commandWith c h rest act (fun _ s => s) s)

/-- Accept with the usual DETAIL (R467). -/
def ok (s : State) (h : Hdr) (role : Byte) (ctx : Nat) (changes : Bool) (result : Nat) (payload : List Byte) : State :=
  accept s h role ctx changes (detailOf h) result payload

/-- An accepted command that changes state and returns nothing. -/
def done (s : State) (h : Hdr) (role : Byte) (ctx : Nat) : State := ok s h role ctx true 0 []

/-! ### Checks that several commands share -/

/-- R482: in Frost the state in HBM is out of reach. -/
def frostChk (s : State) : Chk := ⟨s.power.frost, eState, 0⟩

/-- R459: a command pends on the context. -/
def busyChk (s : State) (c : Nat) : Chk := ⟨s.mgmt.pend.any fun p => p.on = some c, eBusy, 16⟩

/-- The context is not defined (R456 step 8). -/
def definedChk (s : State) (c : Nat) : Chk := ⟨(s.ctx? c).isNone, eParam, 16⟩

/-- A condition on a context that exists. -/
def ctxChk (s : State) (c : Nat) (bad : Ctx → Bool) (status at_ : Nat) : Chk := ⟨(s.ctx? c).any bad, status, at_⟩

/-- R458: at most 16 commands of a master pend. -/
def pendChk (s : State) (m : Nat) : Chk := ⟨16 ≤ (s.mgmt.pend.filter fun p => p.h.master = m).length, eBusy, 0⟩

/-- The command pends until its effect completes (R458). -/
def pendOn (s : State) (h : Hdr) (role : Byte) (ctx : Nat) (body : PendBody) : State :=
  { s with mgmt := { s.mgmt with pend := s.mgmt.pend ++ [{ h := h, body := body, role := role, ctx := ctx, asked := h.bulk && inLenOf h ≠ 0 }] } }

end Sys2Proof.Machine
end

