-- ==== Sys2Proof/Machine/Chip.lean ====
section
/-! DEFINITION. The commands on the chip, ownership, sessions and credentials (R468, R460 to R464, R424, R431 to R433, R447). -/
namespace Sys2Proof.Machine

def b8 (n : Nat) : Byte := BitVec.ofNat 8 n

/-! ### Queries -/

/-- Milliseconds left of the owner's lease; 0 without an owner (R448, R468). -/
def leaseMs (s : State) : Nat := if s.mgmt.owner = 3 then 0 else (s.mgmt.leaseEnd - s.audit.uptime) / 1000

/-- The payload of CHIP.QUERY (R468). -/
def chipBytes (s : State) : List Byte :=
  let i := s.ident
  let flags := (decide (s.mgmt.creds[1] ≠ 0)).toNat + i.enrolled.toNat * 2 + i.tags[0].bad.toNat * 4 + i.tags[1].bad.toNat * 8
    + s.audit.time.isSome.toNat * 16 + s.mgmt.elect.isSome.toNat * 32
  [b8 s.mgmt.devstate, b8 s.mgmt.owner] ++ le 2 flags ++ le 2 i.chipNo ++ [0xB0, 0] ++ le 4 i.fwsvn ++ le 4 i.boot ++ digest i.devid
    ++ digest i.fwmeas ++ le 16 i.domain ++ le 4 s.ctxs.length ++ le 4 (s.ctxs.filter fun x => x.orr.charged).length ++ le 8 s.timeNow
    ++ le 8 s.audit.uptime ++ le 4 (leaseMs s) ++ zeros 4 ++ tagAsRead s

def execChipQuery (h : Hdr) (s : State) : Host.Outcome State Fault Refusal :=
  command { op := 0x0101, kind := .query } h (fun _ => []) (fun s h role => ok s h role 0xFFFF false 0 (chipBytes s)) s

/-- A compact certificate by DIK (R411): KIND, FWSVN, public key, MEAS, BOOT. -/
def compactCert (s : State) (kind fwsvn : Nat) (pub : List Byte) (meas boot : Nat) : List Byte :=
  let body := [b8 kind, 0x01, 0, 0] ++ le 4 fwsvn ++ digest s.ident.devid ++ fit 97 pub ++ zeros 3 ++ digest meas ++ le 4 boot
  body ++ le 96 (signBy s.ident.dik body)

/-- The device certificate (R410): X.509, with DEVID as the subject's serial number, certified key DIK, issued by the product CA; its other parts and
the text that X.509 gives the serial number are the maker's. -/
def deviceCert (i : Ident) : List Byte :=
  let body := Config.certPart 0 ++ Config.certSerial (digest i.devid) ++ Config.certPart 1 ++ pubOf i.dik ++ Config.certPart 2
  body ++ Config.certSig body

/-- The payload of CHIP.CERTS (R410, R468): the product CA's certificate, the device certificate, then the FWK, DXK and membership compact
certificates. -/
def certBytes (s : State) : List Byte :=
  let i := s.ident
  le 2 Config.caCert.length ++ Config.caCert ++ le 2 (deviceCert i).length ++ deviceCert i
    ++ compactCert s 0x10 i.fwsvn (pubOf i.fwk) i.fwmeas i.boot ++ compactCert s 0x11 0 (pubOf i.dxk) 0 0
    ++ (if i.enrolled then fit 304 i.mcert else zeros 304)

def execChipCerts (h : Hdr) (s : State) : Host.Outcome State Fault Refusal :=
  command { op := 0x0102, kind := .query, votes := [.boot] } h (fun _ => []) (fun s h role => ok s h role 0xFFFF false 0 (certBytes s)) s

/-- CHIP.EVENTS: the entries from `cursor` on, at most 1,000 (R468). -/
def eventsFrom (s : State) (cursor : Nat) : Nat × List Byte :=
  let a := s.audit
  let oldest := a.evSeq - a.events.length
  let start := min a.evSeq (max cursor oldest)
  let l := (a.events.drop (start - oldest)).take 1000
  (l.length, le 8 (start + l.length) ++ le 4 (oldest - cursor) ++ zeros 4
    ++ l.flatMap fun e => le 8 e.uptime ++ le 2 e.source ++ le 2 e.unit ++ le 1 e.func ++ zeros 3)

def execChipEvents (h : Hdr) (cursor : Nat) (s : State) : Host.Outcome State Fault Refusal :=
  command { op := 0x0103, lay := layout (.chipEvents h cursor), kind := .query } h (fun _ => [])
    (fun s h role => let r := eventsFrom s cursor; ok s h role 0xFFFF false r.1 r.2) s

/-! ### Ownership (R460 to R464) -/

/-- The master of the packet is not the owner (R456 step 5). -/
def notOwner (s : State) (h : Hdr) : Chk := ⟨s.mgmt.owner ≠ h.master, eOwner, 0⟩

/-- CHIP.CLAIM: pends in the election window, takes a vacant ownership at once, or renews (R460, R461). -/
def execChipClaim (h : Hdr) (s : State) : Host.Outcome State Fault Refusal :=
  command { op := 0x0110, kind := .ownership, early := [⟨s.mgmt.elect.isNone && s.mgmt.owner ≠ 3 && s.mgmt.owner ≠ h.master, eOwner, 0⟩] } h
    (fun s => if s.mgmt.elect.isSome then [pendChk s h.master] else [])
    (fun s h role =>
      if s.mgmt.elect.isSome then pendOn s h role 0xFFFF .claim
      else done (if s.mgmt.owner = 3 then setOwner s h.master else s) h role 0xFFFF) s

/-- ELECTION_WINDOW_CLOSE: the claiming master highest in the claim priority becomes owner (R460). -/
def closeElection (s : State) : State :=
  let claims := s.mgmt.pend.filter fun p => p.body = .claim
  let s := { s with mgmt := { s.mgmt with elect := none } }
  match s.mgmt.order.find? fun m => claims.any fun p => p.h.master = m with
  | none => s
  | some m =>
    claims.foldl (fun s p => if p.h.master = m then acceptPend s p 0xFFFF 0 [] else rejectPend s p eOwner 0) (setOwner s m)

def execElectionWindowClose (s : State) : Host.Outcome State Fault Refusal :=
  match s.mgmt.elect with
  | some t => if t ≤ s.audit.uptime then .next (closeElection s) else .next s
  | none => .next s

/-- CHIP.RENEW restarts the lease (R462). -/
def execChipRenew (h : Hdr) (s : State) : Host.Outcome State Fault Refusal :=
  command { op := 0x0111, kind := .ownership, early := [notOwner s h] } h (fun _ => []) (fun s h role => done s h role 0xFFFF) s

/-- CHIP.RELEASE: ownership vacant, the offer withdrawn (R463, R468). -/
def execChipRelease (h : Hdr) (s : State) : Host.Outcome State Fault Refusal :=
  command { op := 0x0112, kind := .ownership, early := [notOwner s h] } h (fun _ => [])
    (fun s h role => done (setOwner { s with mgmt := { s.mgmt with offer := none } } 3) h role 0xFFFF) s

/-- CHIP.HANDOVER: an offer that stands for 5 s, or its withdrawal (R463). -/
def execChipHandover (h : Hdr) (target : Byte) (s : State) : Host.Outcome State Fault Refusal :=
  let t := target.toNat
  command { op := 0x0113, lay := layout (.chipHandover h target), kind := .ownership, early := [notOwner s h] } h
    (fun s => [⟨t = s.mgmt.owner || (2 < t && t ≠ 0xFF) || (t = 1 && !s.gpio.bifurc), eParam, 16⟩])
    (fun s h role =>
      done { s with mgmt := { s.mgmt with offer := if t = 0xFF then none else some (t, s.audit.uptime + 5000000) } } h role 0xFFFF) s

/-- A standing offer names master `m` (R463). -/
def offered (s : State) (m : Nat) : Bool :=
  match s.mgmt.offer with
  | some o => o.1 = m && decide (s.audit.uptime ≤ o.2)
  | none => false

/-- CHIP.ACCEPT (R463). -/
def execChipAccept (h : Hdr) (s : State) : Host.Outcome State Fault Refusal :=
  command { op := 0x0114, kind := .ownership } h (fun s => [⟨!offered s h.master, eState, 0⟩])
    (fun s h role => done (setOwner { s with mgmt := { s.mgmt with offer := none } } h.master) h role 0xFFFF) s

/-- HANDOVER_OFFER_EXPIRY after 5 s (R463). -/
def execHandoverOfferExpiry (s : State) : Host.Outcome State Fault Refusal :=
  match s.mgmt.offer with
  | some o => if o.2 < s.audit.uptime then .next { s with mgmt := { s.mgmt with offer := none } } else .next s
  | none => .next s

/-- OWNERSHIP_LAPSE when the lease runs out (R462). -/
def execOwnershipLapse (s : State) : Host.Outcome State Fault Refusal :=
  if s.mgmt.owner ≠ 3 ∧ s.mgmt.leaseEnd ≤ s.audit.uptime then .next (lapse s) else .next s

/-! ### Chip tag, enrolment, claim settings -/

/-- Put `data` into a list of bytes from `off` on. -/
def overlay (l : List Byte) (off : Nat) (data : List Byte) : List Byte := l.take off ++ data ++ l.drop (off + data.length)

/-- CHIP.TAG: bytes of one half, whose MAC is written anew over the half as read with them (R447; that the other bytes of a half never written, or whose
MAC has failed, become the zeros as which they read is a DESIGN CHOICE, log entry 79). -/
def execChipTag (h : Hdr) (off : Nat) (data : List Byte) (flashOk : Bool) (s : State) : Host.Outcome State Fault Refusal :=
  let inst := decide (off < 256)
  let n := data.length
  command { op := 0x0120, lay := layout (.chipTag h off data flashOk), roles := [installer, operator]
            early := [⟨roleOf s (takenHdr s 0x0120 h) ≠ (if inst then installer else operator), eRole, 16⟩] } h
    (fun _ => [⟨n = 0 || decide (256 < n), eRange, 18⟩, ⟨decide ((if inst then 256 else 512) < off + n), eRange, 0⟩, ⟨!flashOk, eFault, 0⟩])
    (fun s h role =>
      let i := s.ident
      let k : Fin 2 := if inst then 0 else 1
      done { s with ident := { i with tags := i.tags.set k (i.tagWith (overlay i.tags[k].read (off % 256) data)) } } h role 0xFFFF) s

/-- CHIP.ENROL: the domain, the chip number and the membership certificate, or leaving the domain (R424). -/
def execChipEnrol (h : Hdr) (p : EnrolP) (s : State) : Host.Outcome State Fault Refusal :=
  command { op := 0x0121, lay := layout (.chipEnrol h p), roles := [installer]} h
    (fun s => [⟨!enrolZero p && !enrolMatch p s.ident, eParam, 136⟩, ⟨!s.ctxs.isEmpty, eState, 0⟩, ⟨!enrolZero p && !enrolSigned p, eAuth, 136⟩])
    (fun s h role =>
      let i := s.ident
      let i := if enrolZero p then { i with domain := 0, chipNo := 0, domKey := 0, mcert := [], enrolled := false }
        else { i with domain := p.domain, chipNo := p.chipNo.toNat, domKey := leNat p.dpub, mcert := p.cert, enrolled := true }
      done { s with ident := i } h role 0xFFFF) s

/-- 7-bit addresses reserved under SMBus (PRESUMED from SMBus 3.x, log entry 26). -/
def smbusReserved (a : Nat) : Bool := a < 8 || 0x78 ≤ a || [0x08, 0x0C, 0x28, 0x37, 0x61].contains a

/-- CHIP.SETCLAIM: order from the next election window, the lease from its next restart, M2ADDR at once (R468). -/
def execChipSetclaim (h : Hdr) (order : List Nat) (m2addr lease : Nat) (s : State) : Host.Outcome State Fault Refusal :=
  command { op := 0x0122, lay := layout (.chipSetclaim h order m2addr lease), roles := [installer] } h
    (fun _ => [⟨!(order.length = 3 && [0, 1, 2].all fun m => order.contains m), eParam, 16⟩, ⟨smbusReserved m2addr, eParam, 19⟩,
      ⟨lease = 0 || decide (600 < lease), eRange, 20⟩])
    (fun s h role => done { s.storeVote .claim with mgmt := { s.mgmt with orderNext := order, m2addr := m2addr, lease := lease } } h role 0xFFFF) s

/-! ### Sessions and credentials (R430 to R433) -/

/-- Slots of a role (R430, R468). -/
def slotOfRole (role slot : Nat) : Bool :=
  if role = maker then slot = 0 else if role = installer then slot = 1 else decide (2 ≤ slot) && decide (slot ≤ 5)

def cred (s : State) (slot : Nat) : Nat := s.mgmt.creds[slot % 6]

/-- The vote-store field of a slot's digest (R430, R507). -/
def credField (slot : Nat) : VoteField := .cred ⟨slot % 6, Nat.mod_lt _ (by decide)⟩

/-- A handle that is not 0 and not in use: the device's choice is a free value (R432). -/
def freshHandle (s : State) (n : Nat) : Word :=
  let used := 0 :: s.mgmt.sessions.map fun x => x.sh.toNat
  BitVec.ofNat 32 (((List.range (used.length + 1)).map fun k => (n + k) % 2 ^ 32).find? (fun k => !used.contains k) |>.getD 0)

/-- T of R432 with the device's public key, nonce and handle. -/
def openT (role slot mnonce mpub : Nat) (dpub dnonce : List Byte) (sh : Word) : Nat :=
  sha384 ([b8 role, b8 slot] ++ le 97 mpub ++ le 32 mnonce ++ dpub ++ dnonce ++ le 4 sh.toNat)

/-- The session key of R432 from the device's ephemeral scalar, the master's key and both nonces. -/
def sesKey (d : Nat) (mpub mnonce dnonce : List Byte) (sh : Word) : Nat :=
  match pubPoint mpub with
  | some q => leNat (hkdf (mnonce ++ dnonce) (ecdh d q) (lv8k ([0x53, 0x45, 0x53] ++ le 4 sh.toNat)) 48)
  | none => 0

/-- SES.OPEN (R432), which looks the slot's digest up in the vote store (R507): the device's ephemeral scalar and nonce are free values. MPUB is the form
octet of a point and its coordinates. -/
def execSesOpen (h : Hdr) (role slot mnonce : Nat) (form : Byte) (mxy : Nat) (s : State) : Host.Outcome State Fault Refusal :=
  let mpub := form.toNat + 256 * mxy
  command { op := 0x0201, lay := layout (.sesOpen h role slot mnonce form mxy), roles := [maker, installer, operator], free := true
            votes := [credField slot] } h
    (fun s => [⟨role = 0 || decide (3 < role), eParam, 16⟩, ⟨!slotOfRole role slot, eParam, 17⟩,
      ⟨decide (8 ≤ (s.mgmt.sessions.filter fun x => x.master = h.master).length), eBusy, 0⟩,
      ⟨cred s slot = 0, eAuth, 17⟩, ⟨(pubPoint (le 97 mpub)).isNone, eAuth, 52⟩])
    (fun s h r =>
      let a := s.takeFree
      let b := a.2.takeFree
      let c := b.2.takeFree
      let sh := freshHandle s a.1
      let d := b.1 % (p384n - 1) + 1
      let dpub := pubOf d
      let dnonce := le 32 c.1
      let t := openT role slot mnonce mpub dpub dnonce sh
      let x : Session := { sh := sh, master := h.master, role := role, slot := slot, last := s.audit.uptime, t := t
                           key := sesKey d (le 97 mpub) (le 32 mnonce) dnonce sh }
      ok { c.2 with mgmt := { c.2.mgmt with sessions := c.2.mgmt.sessions ++ [x] } } h r 0xFFFF true sh.toNat
        (dpub ++ dnonce ++ le 96 (signBy s.ident.fwk (digest t)))) s

/-- The handle awaits proof by this master (R432). -/
def awaiting (s : State) (h : Hdr) (sh : Word) : Option Session :=
  match s.session? sh with
  | some x => if !x.isOpen && x.master = h.master then some x else none
  | none => none

/-- SES.PROVE: the credential's public key against the slot's digest, which is looked up in the vote store, then its signature over T; a failing proof
drops the handle (R432, R507). -/
def execSesProve (h : Hdr) (sh : Word) (cpub sig : List Byte) (s : State) : Host.Outcome State Fault Refusal :=
  .next (commandWith { op := 0x0202, lay := layout (.sesProve h sh cpub sig), roles := [maker, installer, operator], free := true
                       votes := ((awaiting s h sh).map fun x => credField x.slot).toList } h
    (fun s => [⟨(awaiting s h sh).isNone, eState, 16⟩, ⟨(awaiting s h sh).any fun x => cred s x.slot ≠ sha384 cpub, eAuth, 20⟩,
      ⟨(awaiting s h sh).any fun x => !ecdsaVerify cpub (digest x.t) sig, eAuth, 117⟩])
    (fun s h r => match awaiting s h sh with
      | some x => done (s.setSession { x with isOpen := true, seq := 1, bad := 0, last := s.audit.uptime }) h r 0xFFFF
      | none => s)
    (fun f s => if f.status = eAuth ∧ (f.at_ = 20 ∨ f.at_ = 117) then closeSession s sh else s) s)

/-- SES.CLOSE closes the session that carries it after its reply (R468). -/
def execSesClose (h : Hdr) (s : State) : Host.Outcome State Fault Refusal :=
  command { op := 0x0203, roles := [maker, installer, operator] } h (fun _ => []) (fun s h r => closeSession (done s h r 0xFFFF) h.sh) s

/-- ROLE.SETCRED, which writes the slot's digest in the vote store (R430, R507): with handle 0 on an unprovisioned device ownership is enough for slot 1
(R431). -/
def execRoleSetcred (h : Hdr) (slot digest_ : Nat) (s : State) : Host.Outcome State Fault Refusal :=
  command { op := 0x0210, lay := layout (.roleSetcred h slot digest_), roles := [installer], free := h.sh = 0 && slot = 1 && s.mgmt.creds[1] = 0
            votes := if h.sh = 0 then [credField 1] else [] } h
    (fun _ => [⟨slot = 0 || decide (5 < slot), eParam, 16⟩, ⟨slot = 1 && digest_ = 0, eParam, 32⟩])
    (fun s h r =>
      let t := { s.storeVote (credField slot) with mgmt := { s.mgmt with
        creds := s.mgmt.creds.set (slot % 6) digest_ (Nat.mod_lt _ (by decide))
        sessions := s.mgmt.sessions.filter fun x => x.slot ≠ slot || x.sh = h.sh } }
      done t h r 0xFFFF) s

/-- SESSION_TIMEOUT after 300 s without a command (R433). -/
def execSessionTimeout (sh : Word) (s : State) : Host.Outcome State Fault Refusal :=
  match s.session? sh with
  | some x => if x.last + 300000000 ≤ s.audit.uptime then .next (closeSession s sh) else .next s
  | none => .next s

end Sys2Proof.Machine
end

