-- ==== Sys2Proof/Machine/Pack.lean ====
section
/-! DEFINITION. How the plaintext of an export object holds what R427 lists: an encoding of the whole context state that can be read back, under a
layout that is the device's own. -/
namespace Sys2Proof.Machine

/-- An encoding of values of a type, one after another, that can be read back. -/
structure Codec (α : Type) where
  enc : α → List Byte
  dec : List Byte → Option (α × List Byte)
  back : ∀ a r, dec (enc a ++ r) = some (a, r)

/-- Of the leading bytes 1, how many, and what follows the byte after them. -/
def unary : List Byte → Nat × List Byte
  | [] => (0, [])
  | b :: bs => if b = 1 then let r := unary bs; (r.1 + 1, r.2) else (0, bs)

theorem unary_back (k : Nat) (r : List Byte) : unary (List.replicate k 1 ++ 0 :: r) = (k, r) := by
  induction k with
  | zero => simp [unary]
  | succ k ih => rw [List.replicate_succ, List.cons_append, unary, ih]; rfl

theorem leBytes_length (n x : Nat) : (leBytes n x).length = n := by
  induction n generalizing x with
  | zero => rfl
  | succ n ih => simp [leBytes, ih]

theorem leNat_leBytes_lt (n x : Nat) (h : x < 256 ^ n) : leNat (leBytes n x) = x := by
  induction n generalizing x with
  | zero => simp [leBytes, leNat] at *; omega
  | succ n ih =>
    have hd : x / 256 < 256 ^ n := by rw [Nat.pow_succ] at h; omega
    simp only [leBytes, leNat, ih _ hd, BitVec.toNat_ofNat]
    omega

/-- Bytes that hold a number. -/
def natBytes (n : Nat) : Nat := Nat.log2 n / 8 + 1

theorem lt_natBytes (n : Nat) : n < 256 ^ natBytes n := by
  have h : n < 2 ^ (Nat.log2 n + 1) := Nat.lt_log2_self
  have e : (256 : Nat) ^ natBytes n = 2 ^ (8 * natBytes n) := by rw [Nat.pow_mul]
  rw [e]
  exact Nat.lt_of_lt_of_le h (Nat.pow_le_pow_right (by omega) (by unfold natBytes; omega))

/-- A number: its length, then its bytes, little-endian. -/
def Codec.nat : Codec Nat where
  enc n := List.replicate (natBytes n) 1 ++ 0 :: leBytes (natBytes n) n
  dec l := let k := unary l; some (leNat (k.2.take k.1), k.2.drop k.1)
  back a r := by
    have h := leBytes_length (natBytes a) a
    simp only [List.append_assoc, List.cons_append, unary_back]
    rw [List.take_append_of_le_length (by omega), List.take_of_length_le (by omega), leNat_leBytes_lt _ _ (lt_natBytes a),
      List.drop_append_of_le_length (by omega), List.drop_of_length_le (by omega), List.nil_append]

/-- Values that are others under another name. -/
def Codec.via {α β : Type} (f : β → α) (g : α → β) (h : ∀ b, g (f b) = b) (c : Codec α) : Codec β where
  enc b := c.enc (f b)
  dec l := (c.dec l).map fun p => (g p.1, p.2)
  back b r := by simp [c.back, h]

/-- Values that are others of a kind. -/
def Codec.viaOpt {α β : Type} (f : β → α) (g : α → Option β) (h : ∀ b, g (f b) = some b) (c : Codec α) : Codec β where
  enc b := c.enc (f b)
  dec l := (c.dec l).bind fun p => (g p.1).map fun b => (b, p.2)
  back b r := by simp [c.back, h]

def Codec.unit : Codec Unit where
  enc _ := []
  dec l := some ((), l)
  back _ _ := rfl

def Codec.pair {α β : Type} (c : Codec α) (d : Codec β) : Codec (α × β) where
  enc p := c.enc p.1 ++ d.enc p.2
  dec l := (c.dec l).bind fun a => (d.dec a.2).map fun b => ((a.1, b.1), b.2)
  back p r := by simp [c.back, d.back]

def Codec.sum {α β : Type} (c : Codec α) (d : Codec β) : Codec (α ⊕ β) where
  enc
    | .inl a => 0 :: c.enc a
    | .inr b => 1 :: d.enc b
  dec
    | [] => none
    | t :: l => if t = 0 then (c.dec l).map fun a => (.inl a.1, a.2) else (d.dec l).map fun b => (.inr b.1, b.2)
  back p r := by cases p <;> simp [c.back, d.back]

def Codec.opt {α : Type} (c : Codec α) : Codec (Option α) :=
  Codec.via (fun o => match o with | none => .inl () | some a => .inr a) (fun p => match p with | .inl _ => none | .inr a => some a)
    (fun o => by cases o <;> rfl) (Codec.unit.sum c)

def Codec.bool : Codec Bool :=
  Codec.via (fun b => if b then .inr () else .inl ()) (fun p => match p with | .inl _ => false | .inr _ => true) (fun b => by cases b <;> rfl)
    (Codec.unit.sum Codec.unit)

def Codec.int : Codec Int :=
  Codec.via (fun i => match i with | .ofNat n => .inl n | .negSucc n => .inr n) (fun p => match p with | .inl n => .ofNat n | .inr n => .negSucc n)
    (fun i => by cases i <;> rfl) (Codec.nat.sum Codec.nat)

def Codec.bv (w : Nat) : Codec (BitVec w) := Codec.via BitVec.toNat (BitVec.ofNat w) (fun b => by simp) Codec.nat

/-- `n` values. -/
def decMany {α : Type} (c : Codec α) : Nat → List Byte → Option (List α × List Byte)
  | 0, l => some ([], l)
  | n + 1, l => (c.dec l).bind fun a => (decMany c n a.2).map fun q => (a.1 :: q.1, q.2)

theorem decMany_back {α : Type} (c : Codec α) (as : List α) (r : List Byte) : decMany c as.length (as.flatMap c.enc ++ r) = some (as, r) := by
  induction as with
  | nil => rfl
  | cons a as ih => simp [decMany, c.back, ih]

def Codec.list {α : Type} (c : Codec α) : Codec (List α) where
  enc as := Codec.nat.enc as.length ++ as.flatMap c.enc
  dec l := (Codec.nat.dec l).bind fun n => decMany c n.1 n.2
  back as r := by rw [List.append_assoc, Codec.nat.back]; exact decMany_back c as r

def Codec.vec (n : Nat) {α : Type} (c : Codec α) : Codec (Vector α n) :=
  Codec.viaOpt Vector.toList (fun l => if h : l.length = n then some ⟨l.toArray, by simp [h]⟩ else none)
    (fun v => by rcases v with ⟨a, rfl⟩; simp [Vector.toList]) c.list

/-! ### The context state -/

def packCfg : Codec Cfg :=
  Codec.via (fun x => (x.mode, x.prof, x.rben, x.tcompat, x.c15, x.tag, x.pmax, x.allow, x.port))
    (fun p => ⟨p.1, p.2.1, p.2.2.1, p.2.2.2.1, p.2.2.2.2.1, p.2.2.2.2.2.1, p.2.2.2.2.2.2.1, p.2.2.2.2.2.2.2.1, p.2.2.2.2.2.2.2.2⟩) (fun _ => rfl)
    (Codec.nat.pair (Codec.nat.pair (Codec.bool.pair (Codec.bool.pair (Codec.bool.pair (Codec.nat.pair (Codec.nat.pair (Codec.nat.pair
      Codec.nat))))))))

def packLoopReg : Codec LoopReg :=
  Codec.via (fun x => (x.start, x.lend, x.count))
    (fun p => ⟨p.1, p.2.1, p.2.2⟩) (fun _ => rfl)
    ((Codec.bv 32).pair ((Codec.bv 32).pair (Codec.bv 32)))

def packExc : Codec Exc :=
  Codec.via (fun x => (x.vec, x.kind, x.info, x.pc))
    (fun p => ⟨p.1, p.2.1, p.2.2.1, p.2.2.2⟩) (fun _ => rfl)
    (Codec.nat.pair (Codec.nat.pair ((Codec.bv 32).pair (Codec.bv 32))))

def packCpu : Codec Cpu :=
  Codec.via (fun x => (x.regs, x.pc, x.psw, x.hold, x.vbr, x.gtb, x.gtl, x.usp, x.ssp, x.cause, x.info, x.loops, x.acc, x.cychLatch, x.afterRete,
    x.begun, x.entry, x.blk, x.word, x.idle, x.at12))
    (fun p => ⟨p.1, p.2.1, p.2.2.1, p.2.2.2.1, p.2.2.2.2.1, p.2.2.2.2.2.1, p.2.2.2.2.2.2.1, p.2.2.2.2.2.2.2.1, p.2.2.2.2.2.2.2.2.1,
      p.2.2.2.2.2.2.2.2.2.1, p.2.2.2.2.2.2.2.2.2.2.1, p.2.2.2.2.2.2.2.2.2.2.2.1, p.2.2.2.2.2.2.2.2.2.2.2.2.1, p.2.2.2.2.2.2.2.2.2.2.2.2.2.1,
      p.2.2.2.2.2.2.2.2.2.2.2.2.2.2.1, p.2.2.2.2.2.2.2.2.2.2.2.2.2.2.2.1, p.2.2.2.2.2.2.2.2.2.2.2.2.2.2.2.2.1, p.2.2.2.2.2.2.2.2.2.2.2.2.2.2.2.2.2.1,
      p.2.2.2.2.2.2.2.2.2.2.2.2.2.2.2.2.2.2.1, p.2.2.2.2.2.2.2.2.2.2.2.2.2.2.2.2.2.2.2.1, p.2.2.2.2.2.2.2.2.2.2.2.2.2.2.2.2.2.2.2.2⟩) (fun _ => rfl)
    ((Codec.vec 16 (Codec.bv 32)).pair ((Codec.bv 32).pair ((Codec.bv 32).pair ((Codec.opt Codec.nat).pair ((Codec.bv 32).pair ((Codec.bv 32).pair
      ((Codec.bv 32).pair ((Codec.bv 32).pair ((Codec.bv 32).pair ((Codec.bv 32).pair ((Codec.bv 32).pair ((Codec.vec 3 packLoopReg).pair ((Codec.bv
      48).pair ((Codec.bv 32).pair (Codec.bool.pair (Codec.bool.pair ((Codec.opt (packExc.pair Codec.nat)).pair ((Codec.opt Codec.nat).pair
      ((Codec.list (Codec.bv 32)).pair ((Codec.opt Codec.bool).pair Codec.bool))))))))))))))))))))

def packFastCell : Codec FastCell :=
  Codec.via (fun x => (x.val, x.poisoned, x.soft))
    (fun p => ⟨p.1, p.2.1, p.2.2⟩) (fun _ => rfl)
    ((Codec.bv 32).pair (Codec.bool.pair Codec.bool))

def packRam : Codec Ram :=
  Codec.via (fun x => match x with
    | .work => .inl ()
    | .vram => .inr (.inl ())
    | .audio => .inr (.inr ()))
    (fun p => match p with
    | .inl () => .work
    | .inr (.inl ()) => .vram
    | .inr (.inr ()) => .audio)
    (fun x => by cases x <;> rfl)
    (Codec.unit.sum (Codec.unit.sum Codec.unit))

def packPoisonBlk : Codec PoisonBlk :=
  Codec.via (fun x => (x.ram, x.blk, x.written))
    (fun p => ⟨p.1, p.2.1, p.2.2⟩) (fun _ => rfl)
    (packRam.pair (Codec.nat.pair (Codec.bv 16)))

def packMem : Codec Mem :=
  Codec.via (fun x => (x.work, x.vram, x.audio, x.fast, x.poison))
    (fun p => ⟨p.1, p.2.1, p.2.2.1, p.2.2.2.1, p.2.2.2.2⟩) (fun _ => rfl)
    ((Codec.list (Codec.nat.pair (Codec.bv 8))).pair ((Codec.list (Codec.nat.pair (Codec.bv 8))).pair ((Codec.list (Codec.nat.pair (Codec.bv
      8))).pair ((Codec.list (Codec.nat.pair packFastCell)).pair (Codec.list packPoisonBlk)))))

def packImgRef : Codec ImgRef :=
  Codec.via (fun x => (x.hash, x.len))
    (fun p => ⟨p.1, p.2⟩) (fun _ => rfl)
    (Codec.nat.pair Codec.nat)

def packW1c : Codec W1c :=
  Codec.via (fun x => (x.val, x.stamp, x.fresh))
    (fun p => ⟨p.1, p.2.1, p.2.2⟩) (fun _ => rfl)
    ((Codec.bv 32).pair (Codec.nat.pair (Codec.bv 32)))

def packIc : Codec Ic :=
  Codec.via (fun x => (x.pend, x.since, x.enable, x.prio))
    (fun p => ⟨p.1, p.2.1, p.2.2.1, p.2.2.2⟩) (fun _ => rfl)
    (packW1c.pair ((Codec.vec 32 Codec.nat).pair ((Codec.bv 32).pair (Codec.vec 4 (Codec.bv 32)))))

def packTimer : Codec Timer :=
  Codec.via (fun x => (x.en, x.chain, x.psc, x.count, x.reload, x.cmp, x.latch, x.matches_, x.wraps, x.phase0, x.offAt, x.acc))
    (fun p => ⟨p.1, p.2.1, p.2.2.1, p.2.2.2.1, p.2.2.2.2.1, p.2.2.2.2.2.1, p.2.2.2.2.2.2.1, p.2.2.2.2.2.2.2.1, p.2.2.2.2.2.2.2.2.1,
      p.2.2.2.2.2.2.2.2.2.1, p.2.2.2.2.2.2.2.2.2.2.1, p.2.2.2.2.2.2.2.2.2.2.2⟩) (fun _ => rfl)
    (Codec.bool.pair (Codec.bool.pair (Codec.nat.pair ((Codec.bv 32).pair ((Codec.bv 32).pair ((Codec.bv 32).pair ((Codec.bv 32).pair ((Codec.bv
      16).pair ((Codec.bv 16).pair (Codec.nat.pair ((Codec.opt Codec.nat).pair Codec.nat)))))))))))

def packBm : Codec Bm :=
  Codec.via (fun x => (x.frameh, x.lcmp, x.ctl, x.lcmpFrom, x.lcmpDone, x.ctlOld, x.ctlFrom))
    (fun p => ⟨p.1, p.2.1, p.2.2.1, p.2.2.2.1, p.2.2.2.2.1, p.2.2.2.2.2.1, p.2.2.2.2.2.2⟩) (fun _ => rfl)
    ((Codec.bv 32).pair ((Codec.bv 32).pair ((Codec.bv 32).pair (Codec.nat.pair (Codec.nat.pair ((Codec.bv 32).pair Codec.nat))))))

def packVTarget : Codec VTarget :=
  Codec.via (fun x => match x with
    | .reg off_ => .inl off_
    | .byte addr_ => .inr addr_)
    (fun p => match p with
    | .inl off_ => .reg off_
    | .inr addr_ => .byte addr_)
    (fun x => by cases x <;> rfl)
    (Codec.nat.sum Codec.nat)

def packVWrite : Codec VWrite :=
  Codec.via (fun x => (x.stamp, x.effect, x.target, x.val, x.list))
    (fun p => ⟨p.1, p.2.1, p.2.2.1, p.2.2.2.1, p.2.2.2.2⟩) (fun _ => rfl)
    (Codec.nat.pair (Codec.nat.pair (packVTarget.pair ((Codec.bv 32).pair Codec.bool))))

def packVid : Codec Vid :=
  Codec.via (fun x => (x.regs, x.shownRegs, x.shownVram, x.log, x.ovf, x.sprites, x.spriteLine))
    (fun p => ⟨p.1, p.2.1, p.2.2.1, p.2.2.2.1, p.2.2.2.2.1, p.2.2.2.2.2.1, p.2.2.2.2.2.2⟩) (fun _ => rfl)
    ((Codec.list (Codec.nat.pair (Codec.bv 32))).pair ((Codec.list (Codec.nat.pair (Codec.bv 32))).pair ((Codec.list (Codec.nat.pair (Codec.bv
      8))).pair ((Codec.list packVWrite).pair ((Codec.bv 32).pair ((Codec.list Codec.nat).pair Codec.nat))))))

def packRlEntry : Codec RlEntry :=
  Codec.via (fun x => (x.w0, x.w1, x.done))
    (fun p => ⟨p.1, p.2.1, p.2.2⟩) (fun _ => rfl)
    ((Codec.bv 32).pair ((Codec.bv 32).pair Codec.bool))

def packRl : Codec Rl :=
  Codec.via (fun x => (x.ctl, x.base, x.count, x.capt, x.doneCnt, x.range, x.skip, x.captured, x.inForce))
    (fun p => ⟨p.1, p.2.1, p.2.2.1, p.2.2.2.1, p.2.2.2.2.1, p.2.2.2.2.2.1, p.2.2.2.2.2.2.1, p.2.2.2.2.2.2.2.1, p.2.2.2.2.2.2.2.2⟩) (fun _ => rfl)
    ((Codec.bv 32).pair ((Codec.bv 32).pair ((Codec.bv 32).pair (Codec.nat.pair (Codec.nat.pair (Codec.bool.pair ((Codec.bv 32).pair ((Codec.opt
      (Codec.list packRlEntry)).pair (Codec.opt (Codec.list packRlEntry))))))))))

def packBlitCmd : Codec BlitCmd :=
  Codec.via (fun x => (x.sbase, x.sgeom, x.sxy, x.dbase, x.dgeom, x.dxy, x.size, x.op, x.fill, x.mer, x.lv, x.seq))
    (fun p => ⟨p.1, p.2.1, p.2.2.1, p.2.2.2.1, p.2.2.2.2.1, p.2.2.2.2.2.1, p.2.2.2.2.2.2.1, p.2.2.2.2.2.2.2.1, p.2.2.2.2.2.2.2.2.1,
      p.2.2.2.2.2.2.2.2.2.1, p.2.2.2.2.2.2.2.2.2.2.1, p.2.2.2.2.2.2.2.2.2.2.2⟩) (fun _ => rfl)
    ((Codec.bv 32).pair ((Codec.bv 32).pair ((Codec.bv 32).pair ((Codec.bv 32).pair ((Codec.bv 32).pair ((Codec.bv 32).pair ((Codec.bv 32).pair
      ((Codec.bv 32).pair ((Codec.bv 32).pair ((Codec.bv 32).pair (Codec.nat.pair (Codec.bv 32))))))))))))

def packBlitRun : Codec BlitRun :=
  Codec.via (fun x => (x.cmd, x.start, x.rows, x.bottomUp, x.merDone))
    (fun p => ⟨p.1, p.2.1, p.2.2.1, p.2.2.2.1, p.2.2.2.2⟩) (fun _ => rfl)
    (packBlitCmd.pair (Codec.nat.pair (Codec.nat.pair (Codec.bool.pair Codec.bool))))

def packBu : Codec Bu :=
  Codec.via (fun x => (x.cmd, x.queue, x.run, x.freeVc, x.order, x.rowsDone, x.err, x.seq, x.errSeq))
    (fun p => ⟨p.1, p.2.1, p.2.2.1, p.2.2.2.1, p.2.2.2.2.1, p.2.2.2.2.2.1, p.2.2.2.2.2.2.1, p.2.2.2.2.2.2.2.1, p.2.2.2.2.2.2.2.2⟩) (fun _ => rfl)
    (packBlitCmd.pair ((Codec.list packBlitCmd).pair ((Codec.opt packBlitRun).pair (Codec.nat.pair (Codec.nat.pair (Codec.nat.pair (packW1c.pair
      ((Codec.bv 32).pair (Codec.bv 32)))))))))

def packVoiceSet : Codec VoiceSet :=
  Codec.via (fun x => (x.ctl, x.addr, x.loop, x.lend, x.pitch, x.env, x.mix, x.filt))
    (fun p => ⟨p.1, p.2.1, p.2.2.1, p.2.2.2.1, p.2.2.2.2.1, p.2.2.2.2.2.1, p.2.2.2.2.2.2.1, p.2.2.2.2.2.2.2⟩) (fun _ => rfl)
    ((Codec.bv 32).pair ((Codec.bv 32).pair ((Codec.bv 32).pair ((Codec.bv 32).pair ((Codec.bv 32).pair ((Codec.bv 32).pair ((Codec.bv 32).pair
      (Codec.bv 32))))))))

def packBusSet : Codec BusSet :=
  Codec.via (fun x => (x.eqf, x.eqg0, x.eqg1, x.cth, x.ctc, x.mkg))
    (fun p => ⟨p.1, p.2.1, p.2.2.1, p.2.2.2.1, p.2.2.2.2.1, p.2.2.2.2.2⟩) (fun _ => rfl)
    ((Codec.bv 32).pair ((Codec.bv 32).pair ((Codec.bv 32).pair ((Codec.bv 32).pair ((Codec.bv 32).pair (Codec.bv 32))))))

def packAuSet : Codec AuSet :=
  Codec.via (fun x => (x.voices, x.buses, x.route, x.mgain, x.limc, x.limt))
    (fun p => ⟨p.1, p.2.1, p.2.2.1, p.2.2.2.1, p.2.2.2.2.1, p.2.2.2.2.2⟩) (fun _ => rfl)
    ((Codec.vec 32 packVoiceSet).pair ((Codec.vec 4 packBusSet).pair ((Codec.vec 4 (Codec.bv 32)).pair ((Codec.bv 32).pair ((Codec.bv 32).pair
      (Codec.bv 32))))))

def packXfVoice : Codec XfVoice :=
  Codec.via (fun x => (x.n, x.route, x.mix))
    (fun p => ⟨p.1, p.2.1, p.2.2⟩) (fun _ => rfl)
    (Codec.nat.pair (Codec.nat.pair (Codec.bv 32)))

def packStage : Codec Stage :=
  Codec.via (fun x => match x with
    | .idle => .inl ()
    | .attack => .inr (.inl ())
    | .decay => .inr (.inr (.inl ()))
    | .sustain => .inr (.inr (.inr (.inl ())))
    | .release => .inr (.inr (.inr (.inr ()))))
    (fun p => match p with
    | .inl () => .idle
    | .inr (.inl ()) => .attack
    | .inr (.inr (.inl ())) => .decay
    | .inr (.inr (.inr (.inl ()))) => .sustain
    | .inr (.inr (.inr (.inr ()))) => .release)
    (fun x => by cases x <;> rfl)
    (Codec.unit.sum (Codec.unit.sum (Codec.unit.sum (Codec.unit.sum Codec.unit))))

def packAdpcm : Codec Adpcm :=
  Codec.via (fun x => (x.pred, x.k, x.x))
    (fun p => ⟨p.1, p.2.1, p.2.2⟩) (fun _ => rfl)
    (Codec.int.pair (Codec.nat.pair Codec.int))

def packVoice : Codec Voice :=
  Codec.via (fun x => (x.active, x.stage, x.pos, x.frac, x.env, x.dec, x.saved, x.noise, x.low, x.band))
    (fun p => ⟨p.1, p.2.1, p.2.2.1, p.2.2.2.1, p.2.2.2.2.1, p.2.2.2.2.2.1, p.2.2.2.2.2.2.1, p.2.2.2.2.2.2.2.1, p.2.2.2.2.2.2.2.2.1,
      p.2.2.2.2.2.2.2.2.2⟩) (fun _ => rfl)
    (Codec.bool.pair (packStage.pair (Codec.nat.pair (Codec.nat.pair (Codec.nat.pair (packAdpcm.pair ((Codec.opt (Codec.nat.pair packAdpcm)).pair
      (Codec.nat.pair (Codec.int.pair Codec.int)))))))))

def packBus : Codec Bus :=
  Codec.via (fun x => (x.lpLL, x.lpLR, x.lpHL, x.lpHR, x.delay, x.env))
    (fun p => ⟨p.1, p.2.1, p.2.2.1, p.2.2.2.1, p.2.2.2.2.1, p.2.2.2.2.2⟩) (fun _ => rfl)
    (Codec.int.pair (Codec.int.pair (Codec.int.pair (Codec.int.pair ((Codec.list (Codec.int.pair Codec.int)).pair Codec.int)))))

def packAu : Codec Au :=
  Codec.via (fun x => (x.shadow, x.live, x.kon, x.koff, x.commit, x.xfq, x.xf, x.vend, x.voices, x.buses, x.envL, x.samples, x.out, x.blocks))
    (fun p => ⟨p.1, p.2.1, p.2.2.1, p.2.2.2.1, p.2.2.2.2.1, p.2.2.2.2.2.1, p.2.2.2.2.2.2.1, p.2.2.2.2.2.2.2.1, p.2.2.2.2.2.2.2.2.1,
      p.2.2.2.2.2.2.2.2.2.1, p.2.2.2.2.2.2.2.2.2.2.1, p.2.2.2.2.2.2.2.2.2.2.2.1, p.2.2.2.2.2.2.2.2.2.2.2.2.1, p.2.2.2.2.2.2.2.2.2.2.2.2.2⟩) (fun _ =>
      rfl)
    (packAuSet.pair (packAuSet.pair ((Codec.bv 32).pair ((Codec.bv 32).pair ((Codec.opt Codec.nat).pair (Codec.bool.pair ((Codec.opt (Codec.nat.pair
      (Codec.list packXfVoice))).pair (packW1c.pair ((Codec.vec 32 packVoice).pair ((Codec.vec 4 packBus).pair (Codec.int.pair (Codec.nat.pair
      ((Codec.list ((Codec.bv 16).pair (Codec.bv 16))).pair Codec.nat)))))))))))))

def packPort : Codec Port :=
  Codec.via (fun x => (x.present, x.btn, x.press, x.release, x.ax0, x.ax1))
    (fun p => ⟨p.1, p.2.1, p.2.2.1, p.2.2.2.1, p.2.2.2.2.1, p.2.2.2.2.2⟩) (fun _ => rfl)
    (Codec.bool.pair ((Codec.bv 32).pair ((Codec.bv 32).pair ((Codec.bv 32).pair ((Codec.bv 16).pair (Codec.bv 16))))))

def packInp : Codec Inp :=
  Codec.via (fun x => (x.frame, x.plugev, x.late, x.ports))
    (fun p => ⟨p.1, p.2.1, p.2.2.1, p.2.2.2⟩) (fun _ => rfl)
    ((Codec.bv 32).pair (packW1c.pair ((Codec.bv 32).pair (Codec.vec 8 packPort))))

def packPosting : Codec Posting :=
  Codec.via (fun x => (x.base, x.len, x.latches, x.marked, x.id))
    (fun p => ⟨p.1, p.2.1, p.2.2.1, p.2.2.2.1, p.2.2.2.2⟩) (fun _ => rfl)
    (Codec.nat.pair (Codec.nat.pair (Codec.nat.pair (Codec.bool.pair Codec.nat))))

def packOq : Codec Oq :=
  Codec.via (fun x => (x.base, x.size, x.en, x.dirIn, x.clearWait, x.posts, x.wptr, x.rptr, x.rptrOk, x.drop, x.taken))
    (fun p => ⟨p.1, p.2.1, p.2.2.1, p.2.2.2.1, p.2.2.2.2.1, p.2.2.2.2.2.1, p.2.2.2.2.2.2.1, p.2.2.2.2.2.2.2.1, p.2.2.2.2.2.2.2.2.1,
      p.2.2.2.2.2.2.2.2.2.1, p.2.2.2.2.2.2.2.2.2.2⟩) (fun _ => rfl)
    ((Codec.bv 32).pair ((Codec.bv 32).pair (Codec.bool.pair (Codec.bool.pair (Codec.bool.pair ((Codec.list packPosting).pair (Codec.nat.pair
      (Codec.nat.pair (Codec.nat.pair ((Codec.bv 32).pair Codec.nat))))))))))

def packRb : Codec Rb :=
  Codec.via (fun x => (x.ctl, x.surp, x.hold, x.axp))
    (fun p => ⟨p.1, p.2.1, p.2.2.1, p.2.2.2⟩) (fun _ => rfl)
    ((Codec.bv 32).pair ((Codec.bv 32).pair ((Codec.vec 8 (Codec.bv 32)).pair (Codec.vec 8 (Codec.bv 32)))))

def packWin : Codec Win :=
  Codec.via (fun x => (x.lo, x.hi, x.ctl))
    (fun p => ⟨p.1, p.2.1, p.2.2⟩) (fun _ => rfl)
    ((Codec.bv 32).pair ((Codec.bv 32).pair (Codec.bv 32)))

def packDbg : Codec Dbg :=
  Codec.via (fun x => (x.stat, x.bp0, x.bp1, x.wins))
    (fun p => ⟨p.1, p.2.1, p.2.2.1, p.2.2.2⟩) (fun _ => rfl)
    (packW1c.pair ((Codec.bv 32).pair ((Codec.bv 32).pair (Codec.vec 8 packWin))))

def packAttestReq : Codec AttestReq :=
  Codec.via (fun x => (x.buf, x.nonce, x.imgHash, x.latches, x.epoch, x.frame, x.id))
    (fun p => ⟨p.1, p.2.1, p.2.2.1, p.2.2.2.1, p.2.2.2.2.1, p.2.2.2.2.2.1, p.2.2.2.2.2.2⟩) (fun _ => rfl)
    (Codec.nat.pair (Codec.nat.pair (Codec.nat.pair (Codec.nat.pair (Codec.nat.pair ((Codec.opt Codec.nat).pair Codec.nat))))))

def packDrbg : Codec Drbg :=
  Codec.via (fun x => (x.st, x.count))
    (fun p => ⟨p.1, p.2⟩) (fun _ => rfl)
    (((Codec.list (Codec.bv 8)).pair Codec.nat).pair Codec.nat)

def packCur : Codec Cur :=
  Codec.via (fun x => (x.latch, x.capture, x.inForce, x.hblank, x.sprite, x.commit))
    (fun p => ⟨p.1, p.2.1, p.2.2.1, p.2.2.2.1, p.2.2.2.2.1, p.2.2.2.2.2⟩) (fun _ => rfl)
    (Codec.nat.pair (Codec.nat.pair (Codec.nat.pair (Codec.nat.pair (Codec.nat.pair Codec.nat)))))

def packHbmAt : Codec HbmAt :=
  Codec.via (fun x => match x with
    | .ram r_ off_ => .inl (r_, off_)
    | .image off_ => .inr off_)
    (fun p => match p with
    | .inl (r_, off_) => .ram r_ off_
    | .inr off_ => .image off_)
    (fun x => by cases x <;> rfl)
    ((packRam.pair Codec.nat).sum Codec.nat)

def packFx : Codec Fx :=
  Codec.via (fun x => match x with
    | .stamped w_ => .inl w_
    | .touched r_ page_ => .inr (.inl (r_, page_))
    | .wrote r_ off_ n_ => .inr (.inr (.inl (r_, off_, n_)))
    | .corrected p_ => .inr (.inr (.inr (.inl p_)))
    | .consumed p_ => .inr (.inr (.inr (.inr (.inl p_))))
    | .faulted rule500_ => .inr (.inr (.inr (.inr (.inr (.inl rule500_)))))
    | .posted q_ id_ base_ len_ copy_ => .inr (.inr (.inr (.inr (.inr (.inr (.inl (q_, id_, base_, len_, copy_)))))))
    | .marked q_ id_ => .inr (.inr (.inr (.inr (.inr (.inr (.inr (.inl (q_, id_))))))))
    | .debugMsg bytes_ => .inr (.inr (.inr (.inr (.inr (.inr (.inr (.inr (.inl bytes_))))))))
    | .attestReq id_ => .inr (.inr (.inr (.inr (.inr (.inr (.inr (.inr (.inr id_)))))))))
    (fun p => match p with
    | .inl w_ => .stamped w_
    | .inr (.inl (r_, page_)) => .touched r_ page_
    | .inr (.inr (.inl (r_, off_, n_))) => .wrote r_ off_ n_
    | .inr (.inr (.inr (.inl p_))) => .corrected p_
    | .inr (.inr (.inr (.inr (.inl p_)))) => .consumed p_
    | .inr (.inr (.inr (.inr (.inr (.inl rule500_))))) => .faulted rule500_
    | .inr (.inr (.inr (.inr (.inr (.inr (.inl (q_, id_, base_, len_, copy_))))))) => .posted q_ id_ base_ len_ copy_
    | .inr (.inr (.inr (.inr (.inr (.inr (.inr (.inl (q_, id_)))))))) => .marked q_ id_
    | .inr (.inr (.inr (.inr (.inr (.inr (.inr (.inr (.inl bytes_)))))))) => .debugMsg bytes_
    | .inr (.inr (.inr (.inr (.inr (.inr (.inr (.inr (.inr id_)))))))) => .attestReq id_)
    (fun x => by cases x <;> rfl)
    (packVWrite.sum ((packRam.pair Codec.nat).sum ((packRam.pair (Codec.nat.pair Codec.nat)).sum ((Codec.opt packHbmAt).sum ((Codec.opt
      packHbmAt).sum (Codec.bool.sum ((Codec.nat.pair (Codec.nat.pair (Codec.nat.pair (Codec.nat.pair (Codec.list (Codec.bv 8)))))).sum
      ((Codec.nat.pair Codec.nat).sum ((Codec.list (Codec.bv 8)).sum Codec.nat)))))))))

def packMach : Codec Mach :=
  Codec.via (fun x => (x.cpu, x.vc, x.reach, x.mem, x.img, x.umask, x.ic, x.tm, x.bm, x.vid, x.rl, x.bu, x.au, x.inp, x.oq, x.rb, x.dbg, x.attest,
    x.drbg, x.wall, x.cur, x.ioData, x.posted, x.fx))
    (fun p => ⟨p.1, p.2.1, p.2.2.1, p.2.2.2.1, p.2.2.2.2.1, p.2.2.2.2.2.1, p.2.2.2.2.2.2.1, p.2.2.2.2.2.2.2.1, p.2.2.2.2.2.2.2.2.1,
      p.2.2.2.2.2.2.2.2.2.1, p.2.2.2.2.2.2.2.2.2.2.1, p.2.2.2.2.2.2.2.2.2.2.2.1, p.2.2.2.2.2.2.2.2.2.2.2.2.1, p.2.2.2.2.2.2.2.2.2.2.2.2.2.1,
      p.2.2.2.2.2.2.2.2.2.2.2.2.2.2.1, p.2.2.2.2.2.2.2.2.2.2.2.2.2.2.2.1, p.2.2.2.2.2.2.2.2.2.2.2.2.2.2.2.2.1, p.2.2.2.2.2.2.2.2.2.2.2.2.2.2.2.2.2.1,
      p.2.2.2.2.2.2.2.2.2.2.2.2.2.2.2.2.2.2.1, p.2.2.2.2.2.2.2.2.2.2.2.2.2.2.2.2.2.2.2.1, p.2.2.2.2.2.2.2.2.2.2.2.2.2.2.2.2.2.2.2.2.1,
      p.2.2.2.2.2.2.2.2.2.2.2.2.2.2.2.2.2.2.2.2.2.1, p.2.2.2.2.2.2.2.2.2.2.2.2.2.2.2.2.2.2.2.2.2.2.1,
      p.2.2.2.2.2.2.2.2.2.2.2.2.2.2.2.2.2.2.2.2.2.2.2⟩) (fun _ => rfl)
    (packCpu.pair (Codec.nat.pair (Codec.nat.pair (packMem.pair (packImgRef.pair ((Codec.bv 32).pair (packIc.pair ((Codec.vec 4 packTimer).pair
      (packBm.pair (packVid.pair (packRl.pair (packBu.pair (packAu.pair (packInp.pair ((Codec.vec 16 packOq).pair (packRb.pair (packDbg.pair
      ((Codec.opt packAttestReq).pair (packDrbg.pair ((Codec.opt Codec.nat).pair (packCur.pair ((Codec.bv 32).pair (Codec.nat.pair (Codec.list
      packFx))))))))))))))))))))))))

def packExported : Codec Exported :=
  Codec.via (fun x => (x.imgHash, x.key, x.seed, x.cfg, x.m, x.sids))
    (fun p => ⟨p.1, p.2.1, p.2.2.1, p.2.2.2.1, p.2.2.2.2.1, p.2.2.2.2.2⟩) (fun _ => rfl)
    (Codec.nat.pair (Codec.nat.pair (Codec.nat.pair (packCfg.pair (packMach.pair (Codec.list (Codec.opt (Codec.bv 32))))))))

/-! ### The plaintext -/

/-- How the device packs the bytes of an export object's plaintext and unpacks them: R427 leaves the layout and its length to the device (free values,
log entry 13). -/
opaque Config.exportPack : List Byte → List Byte
opaque Config.exportUnpack : List Byte → List Byte

/-- The plaintext of an export object: the packed bytes, or the bytes as they are where unpacking would not give them back. -/
def exportPlain (e : Exported) : List Byte :=
  let b := packExported.enc e
  if Config.exportUnpack (Config.exportPack b) = b then 1 :: Config.exportPack b else 0 :: b

/-- What a device reads from the plaintext of an export object; none where it holds no context state. -/
def exportOf : List Byte → Option Exported
  | [] => none
  | t :: l => (packExported.dec (if t = 1 then Config.exportUnpack l else l)).map fun p => p.1

/-- An object brings back what was exported (R427, R428). -/
theorem exportOf_exportPlain (e : Exported) : exportOf (exportPlain e) = some e := by
  have h := packExported.back e []
  rw [List.append_nil] at h
  unfold exportPlain
  dsimp only
  split
  · rename_i hu
    simp [exportOf, hu, h]
  · simp [exportOf, h]

end Sys2Proof.Machine
end

