-- ==== Sys2Proof/Machine/Contexts.lean ====
section
/-! DEFINITION. The context commands (R469, R470, R473, R474) with migration (R425 to R428), and the image commands (R416 to R419). -/
namespace Sys2Proof.Machine

/-! ### Memory (R27, R338) in units of 64 KB -/

def profUnits (prof : Nat) : Nat := (workSize prof + vramSize prof + audioSize prof) / 65536

def imageUnits (len : Nat) : Nat := (len + 65535) / 65536

/-- An image with this hash is loaded (R42). -/
def State.image? (s : State) (h : Nat) : Option Image := s.images.find? fun i => i.hash = h

/-- What pending loads and imports have been promised: tenant memory, images, allowance pages, contexts, Pinned ones. -/
def pendCfgs (s : State) : List (Cfg × Nat) :=
  s.mgmt.pend.filterMap fun p => match p.body with
    | .import_ _ cls _ e _ => some (e.cfg, cls)
    | _ => none

def pendImages (s : State) : List SealedImg :=
  s.mgmt.pend.filterMap fun p => match p.body with
    | .imgLoad _ img => if (s.image? img.hash).isSome then none else some img
    | _ => none

/-- Pages of the snapshot page pool (R24). -/
def poolTotal : Nat := poolPages 0 + poolPages 1 + poolPages 2 + poolPages 3

/-- Units in use when `units` and `pages` come on top (R27, R338). -/
def memUsed (s : State) (units pages : Nat) : Nat :=
  let cfgs := (s.ctxs.map fun x => x.cfg) ++ (pendCfgs s).map fun c => c.1
  let total := (cfgs.map fun c => c.allow).sum + pages
  (cfgs.map fun c => profUnits c.prof).sum + (s.images.map fun i => imageUnits i.len).sum + ((pendImages s).map fun i => imageUnits i.imgLen).sum
    + units + (total - poolTotal + 15) / 16

/-- 120 GB (R27). -/
def memFits (s : State) (units pages : Nat) : Bool := decide (memUsed s units pages ≤ 1966080)

/-! ### Shared checks -/

/-- Header fields of a loaded image (R413). -/
def Image.flag (i : Image) (b : Nat) : Bool := (i.bytes.getD 5 0).getLsbD b
def Image.modes (i : Image) : Nat := (i.bytes.getD 6 0).toNat
def Image.profMin (i : Image) : Nat := (i.bytes.getD 7 0).toNat
def Image.minSvn (i : Image) : Nat := leNat ((i.bytes.drop 8).take 4)

/-- The image forbids the mode, the profile or rollback (R413, R416). -/
def Image.forbids (i : Image) (mode prof : Nat) (rben : Bool) : Bool :=
  (i.modes ≠ 0 && !bitOf i.modes mode) || decide (prof < i.profMin) || (rben && i.flag 1)

/-- At most 8,192 contexts are Pinned (R355); `c` is the context that becomes so, 65,536 for a new one. -/
def pinnedFull (s : State) (c cls : Nat) : Bool :=
  cls = 3 && decide (8192 ≤ (s.ctxs.filter fun x => x.orr.cls = 3 && x.num ≠ c).length + ((pendCfgs s).filter fun p => p.2 = 3).length)

/-- Contexts defined or promised to a pending import. -/
def ctxCount (s : State) : Nat := s.ctxs.length + (pendCfgs s).length

/-- The lowest free context number (R469). -/
def freeNum (s : State) : Nat := ((List.range (s.ctxs.length + 1)).find? fun n => (s.ctx? n).isNone).getD 0

/-- Port B exists only on a bifurcated link (R376). -/
def portBad (s : State) (port : Nat) : Bool := decide (1 < port) || (port = 1 && !s.gpio.bifurc)

/-- GRACE as stored: 0xFFFF_FFFF stands for the default of R354. -/
def graceOf (cfg : Cfg) (g : Nat) : Nat :=
  if g ≠ 0xFFFFFFFF then g
  else if cfg.rben then cfg.pmax * ((modeOf cfg.mode).samples * 1000) / 48 else 4000

/-- GRACE is out of range (R354). -/
def graceBad (g : Nat) : Bool := g ≠ 0xFFFFFFFF && decide (200000 < g)

/-- PRIO of queue `q` at creation (R380). -/
def prioInit (q : Nat) : Nat := [7, 7, 5, 6, 2, 3, 3, 1, 1].getD q 3

/-- The 16 queues of a context, each with EN = 0 (R380). -/
def newQueues (c : Nat) : List Queue := (List.range 16).map fun q => { qid := 16 * c + q, prio := prioInit q }

/-- Add a context in ascending order of number, with its queues. -/
def addCtx (s : State) (x : Ctx) : State :=
  { s with
    ctxs := (s.ctxs.filter fun y => y.num < x.num) ++ [x] ++ s.ctxs.filter fun y => x.num < y.num
    queues := s.queues ++ newQueues x.num }

/-! ### CTX.CREATE (R470) -/

/-- The context as created: memory zero, fast RAM unwritten, the DRBG instantiated, a memory key drawn (R36, R39, R66, R147, R412). -/
def newCtx (s : State) (p : CreateP) (im : Image) (key : Nat) : Ctx :=
  let o := p.opts
  let cfg : Cfg := { mode := p.mode.toNat, prof := p.prof.toNat, rben := o.getLsbD 0, tcompat := o.getLsbD 1, c15 := o.getLsbD 2, tag := p.tag
                     pmax := p.pmax.toNat, allow := p.allow, port := p.port.toNat }
  { num := freeNum s, cfg := cfg, memKey := key
    m := { img := ⟨im.hash, im.len⟩, drbg := { st := drbgInit (le 48 im.seed) (le 64 p.tag) } }
    orr := { cls := p.cls.toNat, grace := graceOf cfg p.grace } }

def createChecks (s : State) (p : CreateP) : List Chk :=
  let rben := p.opts.getLsbD 0
  let pmax := p.pmax.toNat
  let known := decide (p.mode.toNat ≤ 5) && decide (p.prof.toNat ≤ 2)
  [⟨match s.image? p.imgHash with | none => true | some i => known && i.forbids p.mode.toNat p.prof.toNat rben, eParam, 16⟩,
   ⟨decide (5 < p.mode.toNat), eParam, 128⟩, ⟨decide (2 < p.prof.toNat), eParam, 129⟩,
   ⟨decide (8 ≤ p.opts.toNat) || (p.opts.getLsbD 2 && p.mode.toNat ≠ 0), eParam, 130⟩,
   ⟨pmax ≠ 0 && !rben, eParam, 131⟩, ⟨portBad s p.port.toNat, eParam, 136⟩, ⟨decide (3 < p.cls.toNat), eParam, 137⟩,
   ⟨rben && (pmax = 0 || decide (8 < pmax)), eRange, 131⟩,
   ⟨if rben then decide (p.allow < 64) || decide (65536 < p.allow) else p.allow ≠ 0, eRange, 132⟩, ⟨graceBad p.grace, eRange, 140⟩,
   frostChk s, ⟨pinnedFull s 65536 p.cls.toNat, eBudget, 137⟩,
   ⟨decide (65536 ≤ ctxCount s) || !memFits s (profUnits p.prof.toNat) p.allow, eNomem, 0⟩]

/-- CTX.CREATE: a context on the lowest free number. -/
def execCtxCreate (h : Hdr) (p : CreateP) (s : State) : Host.Outcome State Fault Refusal :=
  command { op := 0x0301, lay := layout (.ctxCreate h p), roles := [operator]} h (fun s => createChecks s p)
    (fun s h r => match s.image? p.imgHash with
      | none => s
      | some im =>
        let k := s.takeFree
        let x := newCtx k.2 p im k.1
        ok (addCtx k.2 x) h r x.num true x.num []) s

/-! ### CTX.START (R131, R356, R369) -/

/-- Queues 2 and 3 hold valid keys (R289). -/
def hasKeys (x : Ctx) : Bool := (x.qkey 2).valid && (x.qkey 3).valid

/-- The processor at start: vector 0 gives the PC, and nothing of its HOLD fields acts (R130, R131). A descriptor that cannot be read
stops the context (R121). -/
def startMach (e : Env) (m : Mach) : Mach :=
  let m := { m with cpu := { m.cpu with regs := m.cpu.regs.set 15 0x1FC0 } }
  match loadSup e m m.cpu.vbr.toNat 4 0 with
  | .error x => (noteConsumed e m x.1 x.2.toNat).emit (.faulted (x.1 = 12))
  | .ok (d, m) => { m with cpu := { m.cpu with pc := BitVec.ofNat 32 (m.cpu.vbr.toNat + bitsOf d 22 1 * 2) } }

/-- The context runs from now on: charges, spans, the anchor, the predictors (R238, R333, R356, R369, R441). An imported context goes on at
the latch at which it stands. -/
def startCtx (s : State) (x : Ctx) : Ctx :=
  let f := x.m.cur.latch
  { x with
    stat := .running
    rend := { firstFrame := f }
    log := { x.log with
      closed := max x.log.closed (f + 1), deadlines := f, firstUse := if x.cfg.rben then some 0 else none, maxLatch := f, maxVc := x.m.vc
      maxSample := x.m.au.samples }
    outp := { x.outp with maxLine := x.m.cur.commit }
    orr := { x.orr with
      anchor := anchorAt s x f, released := f, due := f, charged := true, egress := 0, reach := none, victim := false, unpassed := true
      newcomer := x.orr.lane.isNone, fresh := true, begun := decide (0 < f)
      second := s.audit.uptime / 1000000 }
    metersBase := x.meters, minBase := s.audit.minute, spanStart := s.timeNow, tstep := false, imported := false }

/-- CTX.START. -/
def execCtxStart (h : Hdr) (c : Nat) (s : State) : Host.Outcome State Fault Refusal :=
  command { op := 0x0302, lay := layout (.ctxStart h c), roles := [operator], ctx := c } h
    (fun s => [definedChk s c, frostChk s, busyChk s c, ctxChk s c (fun x => x.stat ≠ .defined || !hasKeys x) eState 16,
      ctxChk s c (fun x => !budgetsHold s x (claimIn s x)) eBudget 16])
    (fun s h r => match s.ctx? c with
      | none => s
      | some x =>
        let y := startCtx s x
        let s := done (raiseCtx (s.putCtx y) y 197) h r c
        if x.imported then s else settle s y (startMach (s.env y) y.m)) s

/-! ### CTX.PARK, CTX.RESUME, CTX.DESTROY, CTX.CLASS -/

/-- CTX.PARK: pends until the latch of R149 and R350; at once where a debug halt holds the context. -/
def execCtxPark (h : Hdr) (c : Nat) (s : State) : Host.Outcome State Fault Refusal :=
  let halted := (s.ctx? c).any fun x => x.hold.halted
  command { op := 0x0303, lay := layout (.ctxPark h c), roles := [operator], ctx := c } h
    (fun s => [definedChk s c, frostChk s, ctxChk s c (fun x => x.hold.parkReq) eState 16, busyChk s c,
      ctxChk s c (fun x => x.stat ≠ .running) eState 16] ++ (if halted then [] else [pendChk s h.master]))
    (fun s h r => match s.ctx? c with
      | none => s
      | some x =>
        if halted then
          let y := { x with stat := .parked, hold := { x.hold with byPark := true } }
          done (raiseCtx (s.putCtx y) y 197) h r c
        else pendOn (s.putCtx { x with hold := { x.hold with parkReq := true } }) h r c (.park c)) s

/-- CTX.RESUME: the context resumes where no debug halt holds it too (R149, R360, R473). -/
def execCtxResume (h : Hdr) (c : Nat) (s : State) : Host.Outcome State Fault Refusal :=
  command { op := 0x0304, lay := layout (.ctxResume h c), roles := [operator], ctx := c } h
    (fun s => [definedChk s c, frostChk s, busyChk s c, ctxChk s c (fun x => x.stat ≠ .parked) eState 16])
    (fun s h r => match s.ctx? c with
      | none => s
      | some x =>
        let y := if x.hold.halted then { x with stat := .running } else resumeCtx s x
        done (raiseCtx (s.putCtx y) y 197) h r c) s

/-- What a deletion takes away (R403, R412, R474). -/
def removeCtx (s : State) (c : Nat) : State :=
  notePower s { dropCarried s (fun q => q / 16 = c) with
    ctxs := s.ctxs.filter fun x => x.num ≠ c
    queues := s.queues.filter fun q => q.qid / 16 ≠ c
    qcache := s.qcache.filter fun q => q / 16 ≠ c
    ras := { s.ras with upsets := s.ras.upsets.filter fun u => match u.loc with | .ram d _ _ => d ≠ c | .store d _ _ _ => d ≠ c | _ => true } }

/-- R474: the pending command is cancelled, the final statement closed, everything of the context freed. -/
def destroyCtx (s : State) (c : Nat) : State := removeCtx (finalStmt (rejectPendsOf s c eState) c) c

/-- CTX.DESTROY. -/
def execCtxDestroy (h : Hdr) (c : Nat) (s : State) : Host.Outcome State Fault Refusal :=
  command { op := 0x0305, lay := layout (.ctxDestroy h c), roles := [operator], ctx := c } h (fun s => [definedChk s c, frostChk s])
    (fun s h r => done (destroyCtx s c) h r c) s

/-- CTX.CLASS (R354, R355). -/
def execCtxClass (h : Hdr) (c cls grace : Nat) (s : State) : Host.Outcome State Fault Refusal :=
  command { op := 0x0306, lay := layout (.ctxClass h c cls grace), roles := [operator], ctx := c} h
    (fun s => [definedChk s c, ⟨decide (3 < cls), eRange, 18⟩, ⟨graceBad grace, eRange, 20⟩, frostChk s,
      ctxChk s c (fun x => x.stat = .faulted) eState 16, busyChk s c, ⟨pinnedFull s c cls, eBudget, 18⟩])
    (fun s h r => match s.ctx? c with
      | none => s
      | some x =>
        done (s.putCtx { x with orr := { x.orr with cls := cls, grace := if grace = 0xFFFFFFFF then x.orr.grace else grace } }) h r c) s

/-! ### Migration (R425 to R428) -/

/-- What the export object of a context carries: no queue key, CTR, snapshot, placement, region, Orrery parameter or meter (R427). The timers of a
context exported from a halt are as its TIMER_HALT_TICKs have left them, their phase as at the latch (DESIGN CHOICE, log entry 76: R161 gives a halt
that ends in an export no end, and R426 names the state of the latch alone). -/
def exportedFrom (s : State) (x : Ctx) : Exported :=
  let im := s.image? x.m.img.hash
  { imgHash := x.m.img.hash, key := (im.map fun i => i.key).getD 0, seed := (im.map fun i => i.seed).getD 0, cfg := { x.cfg with port := 0 }, m := x.m
    sids := x.keys.toList.map fun k => if k.ever then some k.sid else none }

/-- BLEN of a context's export object now; EXPSIZE, with header, tag and signature (R427). -/
def blen (s : State) (x : Ctx) : Nat := (exportPlain (exportedFrom s x)).length
def expSize (s : State) (x : Ctx) : Nat := blen s x + 400

/-- The export object (R427); its ephemeral scalar and IV are free values. -/
def exportBytes (s : State) (x : Ctx) (p : ExportP) : List Byte × State :=
  let a := s.takeFree
  let b := a.2.takeFree
  let d := a.1 % (p384n - 1) + 1
  let epub := pubOf d
  let iv := le 12 b.1
  let key := match pubPoint (targetDxk p) with | some q => hkdf epub (ecdh d q) exportInfo 32 | none => zeros 32
  let head := [0x4C, 0x56, 0x43, 0x58, 0x01, 0, 0, 0] ++ le 8 (blen s x) ++ digest s.ident.devid ++ digest (targetDevid p) ++ digest (ticketNonce p)
    ++ le 16 s.ident.domain ++ epub ++ zeros 3 ++ iv
  let body := head ++ gcmSeal key iv head (exportPlain (exportedFrom s x))
  (body ++ le 96 (signBy s.ident.fwk body), b.2)

/-- CTX.EXPORT: the checks of R426; a PARKED context exports the state of its latch at once, a RUNNING one at the next latch that R350
allows. -/
def execCtxExport (h : Hdr) (c : Nat) (p : ExportP) (s : State) : Host.Outcome State Fault Refusal :=
  let im := (s.ctx? c).bind fun x => s.image? x.m.img.hash
  command { op := 0x0307, lay := layout (.ctxExport h c p), roles := [operator], bulk := true, ctx := c} h
    (fun s => [⟨(s.ctx? c).isNone, eParam, 48⟩, ⟨im.any fun i => i.flag 0, eParam, 0⟩, frostChk s, ⟨(busyChk s c).fails, eBusy, 48⟩,
      ctxChk s c (fun x => x.stat ≠ .running && x.stat ≠ .parked) eState 48, ⟨!s.ident.enrolled, eState, 0⟩,
      ctxChk s c (fun x => decide (p.outLen < expSize s x)) eLength 40, pendChk s h.master,
      ⟨!p.chainOk, eAuth, 0⟩, ⟨!targetCerts p, eAuth, 0⟩, ⟨im.any fun i => decide (targetSvn p < i.minSvn), eVersion, 0⟩, ⟨!memberSigned p s.ident, eAuth, 0⟩,
      ⟨!ticketSigned p s.ident, eAuth, 0⟩])
    (fun s h r => match s.ctx? c with
      | none => s
      | some x =>
        let now := x.stat = .parked || x.hold.halted
        pendOn (s.putCtx { x with hold := { x.hold with exportBy := some (h, p), exporting := x.hold.exporting || now } }) h r c (.export_ c)) s

/-- The export object is posted, and the source context is deleted (R428). -/
def finishExport (s : State) (q : Pend) (c : Nat) : State :=
  match s.ctx? c with
  | none => s
  | some x => match x.hold.exportBy with
    | none => s
    | some (_, p) =>
      let n := blen s x
      let r := exportBytes s x p
      let s := { r.2 with wire := r.2.wire ++ [.bulk q.h.master q.h.tag (outAddrOf q.h) r.1] }
      removeCtx (finalStmt (acceptPend s q c n []) c) c

/-- Tickets outstanding now (R425). -/
def liveTickets (s : State) : List (Nat × Nat) := s.audit.tickets.filter fun t => decide (s.audit.uptime ≤ t.2)

/-- The import ticket (R425). -/
def ticketBytes (s : State) (nonce : Nat) : List Byte :=
  let body := [0x13, 0x01] ++ le 2 s.ident.chipNo ++ zeros 4 ++ digest s.ident.devid ++ digest nonce ++ le 16 s.ident.domain ++ zeros 8
  body ++ le 96 (signBy s.ident.fwk body)

/-- CTX.IMPREP (R425). -/
def execCtxImprep (h : Hdr) (s : State) : Host.Outcome State Fault Refusal :=
  command { op := 0x0308, roles := [operator] } h
    (fun s => [frostChk s, ⟨!s.ident.enrolled, eState, 0⟩, ⟨decide (64 ≤ (liveTickets s).length), eBusy, 0⟩])
    (fun s h r =>
      let k := s.takeFree
      let nonce := k.1 % 2 ^ 384
      let t := { k.2 with audit := { k.2.audit with tickets := liveTickets k.2 ++ [(nonce, k.2.audit.uptime + 600000000)] } }
      ok t h r 0xFFFF true 0 (ticketBytes t nonce)) s

/-- TICKET_EXPIRY 600 s after issue (R425). -/
def execTicketExpiry (s : State) : Host.Outcome State Fault Refusal := .next { s with audit := { s.audit with tickets := liveTickets s } }

/-- TNONCE names an outstanding ticket that no pending import has taken (R425, R428). -/
def ticketFree (s : State) (n : Nat) : Bool :=
  (liveTickets s).any (fun t => t.1 = n) && !s.mgmt.pend.any fun p => match p.body with | .import_ _ _ _ _ t => t = n | _ => false

/-- What an import brings to this device (R427, R428); none where the object holds no context state. -/
def importedOf (s : State) (p : ImportP) : Option Exported := exportOf (openObj p s.ident).1

/-- CTX.IMPORT: the checks of R428 on the object that the transfer brings. -/
def execCtxImport (h : Hdr) (port cls grace : Nat) (head ct tag sig : List Byte) (sdik : Option (List Byte)) (sfwk : List Byte) (s : State) :
    Host.Outcome State Fault Refusal :=
  let p : ImportP := ⟨⟨head, ct, tag⟩, sig, sdik, sfwk⟩
  let e := (importedOf s p).getD default
  command { op := 0x0309, lay := layout (.ctxImport h port cls grace head ct tag sig sdik sfwk), roles := [operator], bulk := true} h
    (fun s => [⟨portBad s port, eParam, 48⟩, ⟨decide (3 < cls), eParam, 49⟩, ⟨graceBad grace, eRange, 52⟩, frostChk s, pendChk s h.master,
      ⟨decide (65536 ≤ ctxCount s) || !memFits s (profUnits e.cfg.prof) e.cfg.allow, eNomem, 0⟩, ⟨pinnedFull s 65536 cls, eBudget, 49⟩,
      ⟨!objFormat p, eVersion, 0⟩, ⟨objTdevid p ≠ s.ident.devid, eParam, 0⟩, ⟨!ticketFree s (objTnonce p), eAuth, 0⟩, ⟨!objSigned p, eAuth, 0⟩,
      ⟨!(openObj p s.ident).2 || (importedOf s p).isNone, eAuth, 0⟩])
    (fun s h r => pendOn s h r 0xFFFF (.import_ port cls grace e (objTnonce p))) s

/-- The context that an import defines (R427, R428): its old tag and state, a new number, the last SIDs and no key. Nothing has arrived for it here, so
that its inbound queues count anew (R58, R341); an ATTEST request outstanding is signed here (R348). A posting whose message the source's DMA had not
read goes on without its message and is released at its latch, never sent by the target (DESIGN CHOICE, log entry 76: R427 carries the context
state and does not say whether the target sends it). -/
def importedCtx (s : State) (port cls grace : Nat) (e : Exported) (memKey : Nat) : Ctx :=
  let cfg := { e.cfg with port := port }
  let im := s.image? e.imgHash
  { num := freeNum s, cfg := cfg, memKey := memKey, imported := true, carried := some (e.key, e.seed)
    stat := if im.isSome then .defined else .awaiting
    m := { e.m with
      img := ⟨e.imgHash, match im with | some i => i.len | none => e.m.img.len⟩, fx := [], oq := e.m.oq.map fun o => { o with taken := 0 }
      mem := { e.m.mem with work := memCanon e.m.mem.work, vram := memCanon e.m.mem.vram, audio := memCanon e.m.mem.audio } }
    log := { closed := e.m.cur.latch + 1, deadlines := e.m.cur.latch }
    inb := { attestPend := (e.m.attest.map fun r => r.id).toList }
    keys := Vector.ofFn fun q => match e.sids.getD q.val none with | some k => { sid := k, ever := true } | none => {}
    orr := { cls := cls, grace := graceOf cfg grace } }

/-- The import completes: the ticket is consumed, the context defined (R428). -/
def finishImport (s : State) (q : Pend) (port cls grace : Nat) (e : Exported) (tnonce : Nat) : State :=
  let k := s.takeFree
  let x := importedCtx k.2 port cls grace e k.1
  let t := addCtx { k.2 with audit := { k.2.audit with tickets := k.2.audit.tickets.filter fun t => t.1 ≠ tnonce } } x
  acceptPend t q x.num x.num []

/-! ### Queries of a context -/

/-- The last latch the lane has passed. -/
def lastLatch (x : Ctx) : Option Nat := if x.m.cur.latch = 0 then none else some (x.m.cur.latch - 1)

/-- CTX.ATTEST (R422, R423). -/
def execCtxAttest (h : Hdr) (c nonce : Nat) (s : State) : Host.Outcome State Fault Refusal :=
  command { op := 0x030A, lay := layout (.ctxAttest h c nonce), kind := .query, ctx := c} h (fun s => [definedChk s c])
    (fun s h r => match s.ctx? c with
      | none => s
      | some x => ok s h r c false 0 (reportBytes s x 2 nonce (lastLatch x) x.m.img.hash)) s

def CtxStat.code : CtxStat → Nat
  | .defined => 1
  | .awaiting => 2
  | .running => 3
  | .parked => 4
  | .faulted => 5

/-- The payload of CTX.QUERY (R469). -/
def ctxBytes (s : State) (x : Ctx) : List Byte :=
  let pending := s.mgmt.pend.any fun p => p.on = some x.num
  [b8 x.stat.code, b8 (x.hold.halted.toNat + x.hold.parkReq.toNat * 2 + pending.toNat * 4), b8 x.orr.cls, b8 x.cfg.port]
    ++ le 4 (sysCfg x.cfg).toNat ++ le 4 x.orr.grace ++ [b8 x.orr.eclaim, b8 x.cfg.pmax, 0, 0] ++ le 4 x.cfg.allow ++ le 8 (expSize s x)
    ++ le 8 ((lastLatch x).getD (2 ^ 64 - 1)) ++ digest x.m.img.hash ++ le 64 x.cfg.tag

/-- CTX.QUERY. -/
def execCtxQuery (h : Hdr) (c : Nat) (s : State) : Host.Outcome State Fault Refusal :=
  command { op := 0x030B, lay := layout (.ctxQuery h c), kind := .query, ctx := c } h (fun s => [definedChk s c])
    (fun s h r => match s.ctx? c with
      | none => s
      | some x => ok s h r c false 0 (ctxBytes s x)) s

/-- CTX.REIMAGE: at once for a DEFINED context, at resumption for a PARKED one (R43, R238). -/
def execCtxReimage (h : Hdr) (c imgHash : Nat) (s : State) : Host.Outcome State Fault Refusal :=
  command { op := 0x030C, lay := layout (.ctxReimage h c imgHash), roles := [operator], ctx := c} h
    (fun s => [definedChk s c, ctxChk s c (fun x => match s.image? imgHash with
        | none => true
        | some i => i.forbids x.cfg.mode x.cfg.prof x.cfg.rben) eParam 32,
      frostChk s, busyChk s c, ctxChk s c (fun x => x.stat ≠ .defined && x.stat ≠ .parked) eState 16])
    (fun s h r => match s.ctx? c, s.image? imgHash with
      | some x, some i =>
        let y := if x.stat = .defined then { x with m := { x.m with img := ⟨i.hash, i.len⟩ }, rend := {} }
          else { x with hold := { x.hold with reimage := x.hold.reimage ++ [(i.hash, i.len)] } }
        done (s.putCtx y) h r c
      | _, _ => s) s

/-! ### Images (R416 to R419) -/

/-- The key that opens a sealed image and the seed that goes with it: of its envelope, or of an AWAITING import (R416, R428). -/
def keySource (s : State) (env : Option ImgEnv) (img : SealedImg) : Option (Nat × Nat) :=
  match env with
  | some e => some (e.key, e.seed)
  | none => ((s.ctxs.filter fun x => x.stat = .awaiting && x.m.img.hash = img.hash).findSome? fun x => x.carried)

/-- Under key `k` the sealed image opens, and its hash is that of context `x` (R428). -/
def opensFor (raw : Sealed) (x : Ctx) (k : Nat) : Bool := (sealedImgOf k raw).tagOk && (sealedImgOf k raw).hash = x.m.img.hash

/-- The key that opens a sealed image: of its envelope, else of an AWAITING import whose image hash it matches (R416, R428, R469). -/
def openKey (s : State) (env : Option ImgEnv) (raw : Sealed) : Option Nat :=
  match env with
  | some e => some e.key
  | none => (s.ctxs.filter fun x => x.stat = .awaiting).findSome? fun x => (x.carried.map fun k => k.1).filter (opensFor raw x)

/-- A sealed image as the device finds it; the header needs no key. -/
def openImg (s : State) (env : Option ImgEnv) (raw : Sealed) : SealedImg := sealedImgOf ((openKey s env raw).getD 0) raw

/-- The checks of the image header (R413, R416). -/
def imageChecks (s : State) (img : SealedImg) : List Chk :=
  let b (k : Nat) : Byte := img.bytes.getD k 0
  let z (lo n : Nat) : Bool := ((img.bytes.drop lo).take n).all fun x => x = 0
  [⟨b 4 ≠ 1 || decide (s.ident.fwsvn < leNat ((img.bytes.drop 8).take 4)), eVersion, 0⟩,
   ⟨!(img.bytes.take 4 = [0x4C, 0x56, 0x49, 0x4D] && decide ((b 5).toNat < 8) && z 12 52 && z 192 64 && decide ((b 7).toNat ≤ 2)), eIntegrity, 0⟩]

/-- The checks of step 12 of IMG.LOAD (R416, R419): sealed header, envelope, tag and hash, image header, the seed bound to a loaded copy. -/
def sealChecks (s : State) (env : Option ImgEnv) (img : SealedImg) : List Chk :=
  [⟨img.ver ≠ 1, eVersion, 0⟩]
  ++ (match env with
      | some e => [⟨!e.formatOk, eVersion, 64⟩, ⟨!e.lenOk, eLength, 64⟩, ⟨!e.tdevOk, eParam, 64⟩, ⟨!e.tagOk, eAuth, 64⟩, ⟨e.imgHash ≠ img.hash, eAuth, 64⟩]
      | none => [])
  ++ [⟨!img.tagOk, eAuth, 0⟩, ⟨(keySource s env img).isNone, eAuth, 0⟩] ++ imageChecks s img
  ++ [⟨(s.image? img.hash).any fun i => (keySource s env img).any fun k => i.seed ≠ k.2, eAuth, 0⟩]

/-- IMG.LOAD (R416). With ENVLEN 0 and an image that no AWAITING import's key opens and matches it fails with E_PARAM (R469). -/
def execImgLoad (h : Hdr) (envelope : Option Sealed) (raw : Sealed) (s : State) : Host.Outcome State Fault Refusal :=
  let env := envelope.map (imgEnvOf s.ident)
  let img := openImg s env raw
  command { op := 0x0401, lay := layout (.imgLoad h envelope raw), roles := [operator], bulk := true} h
    (fun s => [⟨env.isNone && (openKey s env raw).isNone, eParam, 48⟩, ⟨!img.magicOk || !img.rsvdOk, eParam, 0⟩,
      ⟨decide (img.imgLen < 256) || decide (67108864 < img.imgLen), eRange, 0⟩, ⟨img.bulkLen ≠ 32 + img.imgLen + 16, eLength, 24⟩,
      frostChk s, pendChk s h.master,
      ⟨(s.image? img.hash).isNone && (decide (4096 ≤ s.images.length + (pendImages s).length) || !memFits s (imageUnits img.imgLen) 0), eNomem, 0⟩]
      ++ sealChecks s env img)
    (fun s h r => pendOn s h r 0xFFFF (.imgLoad env img)) s

/-- AWAITING contexts of a loaded image become DEFINED (R473). -/
def endAwaiting (s : State) (hash len : Nat) : State :=
  (s.ctxs.filter fun x => x.stat = .awaiting && x.m.img.hash = hash).foldl (fun s x =>
    let y := { x with stat := .defined, m := { x.m with img := ⟨hash, len⟩ } }
    raiseCtx (s.putCtx y) y 197) s

/-- The load completes with a memory key of its own (R412): the existing copy is kept where one with the hash is loaded (R416). -/
def finishLoad (s : State) (q : Pend) (env : Option ImgEnv) (img : SealedImg) : State :=
  match keySource s env img, firstFail (sealChecks s env img) with
  | none, _ => rejectPend s q eParam 48
  | some _, some f => rejectPend s q f.status f.at_
  | some k, none =>
    let r := s.takeFree
    let s := if (s.image? img.hash).isSome then s
      else { r.2 with images := s.images ++ [{ hash := img.hash, len := img.imgLen, bytes := img.bytes, seed := k.2, key := k.1, memKey := r.1 }] }
    acceptPend (endAwaiting s img.hash img.imgLen) q 0xFFFF 0 []

/-- A defined context uses the image, a replacement to come included (R43, R469). -/
def usersOf (s : State) (h : Nat) : Nat :=
  (s.ctxs.filter fun x => x.m.img.hash = h || x.hold.reimage.any fun k => k.1 = h).length

/-- IMG.UNLOAD. -/
def execImgUnload (h : Hdr) (imgHash : Nat) (s : State) : Host.Outcome State Fault Refusal :=
  command { op := 0x0402, lay := layout (.imgUnload h imgHash), roles := [operator] } h
    (fun s => [⟨(s.image? imgHash).isNone, eParam, 16⟩, frostChk s, ⟨usersOf s imgHash ≠ 0, eBusy, 16⟩])
    (fun s h r => done { s with
      images := s.images.filter fun i => i.hash ≠ imgHash
      ras := { s.ras with upsets := s.ras.upsets.filter fun u => match u.loc with | .image k _ => k ≠ imgHash | _ => true } } h r 0xFFFF) s

/-- IMG.KEYS (R418, R419). -/
def execImgKeys (h : Hdr) (c : Nat) (envelope : Sealed) (s : State) : Host.Outcome State Fault Refusal :=
  let env := keyEnvOf s.ident envelope
  command { op := 0x0403, lay := layout (.imgKeys h c envelope), roles := [operator], ctx := c} h
    (fun s => [definedChk s c, frostChk s, ctxChk s c (fun x => x.stat = .faulted) eState 16, busyChk s c,
      match (s.ctx? c).bind fun x => keyFail x env with
      | some st => ⟨true, st, 32⟩
      | none => ⟨false, 0, 0⟩])
    (fun s h r => match s.ctx? c with
      | none => s
      | some x => done (s.putCtx (installKeys x env)) h r c) s

/-- IMG.LIST: up to 256 entries in the order of loading (DESIGN CHOICE, log entry 30). -/
def execImgList (h : Hdr) (start : Nat) (s : State) : Host.Outcome State Fault Refusal :=
  command { op := 0x0404, lay := layout (.imgList h start), roles := [operator] } h (fun s => [frostChk s])
    (fun s h r =>
      let l := (s.images.drop start).take 256
      ok s h r 0xFFFF false l.length (l.flatMap fun i => digest i.hash ++ le 4 i.len ++ le 4 (usersOf s i.hash))) s

end Sys2Proof.Machine
end

