-- ==== Sys2Proof/Machine/Queues.lean ====
section
/-! DEFINITION. Queue, Reticle, watched-region, meter and time commands (R471). -/
namespace Sys2Proof.Machine

/-! ### QUE.SETUP (R274, R369, R381, R399, R403) -/

/-- The queue state that QUE.SETUP writes: enabling zeroes the indices, disabling abandons the queue (R381, R403). -/
def setQueue (q : Queue) (p : QueSetupP) : Queue :=
  let on := p.opt.getLsbD 0
  let k := { q with rbase := p.rbase, log2n := p.log2n, prio := p.prio, coal := p.coal, opt := p.opt }
  if on && !q.en then { k with fhead := 0, chead := 0, tail := 0, fetched := [], waits := [], kept := false }
  else if q.en && !on then k.abandon else k

/-- A command for the output stage acts on frame 0 at once before CTX.START, else at the next first-passed latch (R49, R267). -/
def outCmd (x : Ctx) (k : LatchCmd) : Ctx :=
  if x.stat = .defined || x.stat = .awaiting then { x with outp := applyCmds { x.outp with cmds := [k] } 0 }
  else { x with outp := { x.outp with cmds := x.outp.cmds ++ [k] } }

/-- The state after QUE.SETUP. -/
def setupQueue (s : State) (x : Ctx) (p : QueSetupP) : State :=
  let y := if p.eclaim = 0 then x else { x with orr := { x.orr with eclaim := p.eclaim } }
  let y := if p.sfh = 0 ∧ p.sfv = 0 then y else outCmd y (.spectator p.sfh p.sfv)
  let s := s.putCtx y
  match s.queue? p.qid with
  | some q => (if q.en && !p.opt.getLsbD 0 then dropCarried s (fun k => k = p.qid) else s).putQueue (setQueue q p)
  | none => s

/-- The set-up changes what a started context charges and a budget would be exceeded (R369). -/
def setupOver (s : State) (x : Ctx) (p : QueSetupP) : Bool :=
  let t := setupQueue s x p
  match t.ctx? x.num with
  | some y => x.orr.charged && claimIn s x ≠ claimIn t y && !budgetsHold s y (claimIn t y)
  | none => false

/-- RBASE, LOG2N and COAL change only while EN is 0 (R381). -/
def keepsEn (s : State) (p : QueSetupP) (bad : Queue → Bool) : Bool :=
  (s.queue? p.qid).any fun q => q.en && p.opt.getLsbD 0 && bad q

def setupChecks (s : State) (p : QueSetupP) : List Chk :=
  let c := p.qid / 16
  let n := p.qid % 16
  let o := p.opt
  [definedChk s c, ⟨decide (2 ^ 20 ≤ p.qid), eParam, 16⟩, ⟨p.rbase % 4096 ≠ 0, eParam, 24⟩,
   ⟨decide (p.coal ≤ 191) && (s.ctx? c).any fun x => coalPort s p.coal ≠ x.cfg.port, eParam, 34⟩,
   ⟨(o.getLsbD 3 && n ≠ 2 && n ≠ 4) || (o.getLsbD 4 && (decide (n < 2) || decide (4 < n))) || decide (64 ≤ o.toNat), eParam, 35⟩,
   ⟨p.sfh ≠ 0 && n ≠ 4, eParam, 36⟩, ⟨p.sfv ≠ 0 && n ≠ 4, eParam, 37⟩,
   ⟨decide (p.log2n < 4) || decide (16 < p.log2n), eRange, 32⟩, ⟨decide (7 < p.prio), eRange, 33⟩, ⟨decide (191 < p.coal), eRange, 34⟩,
   ⟨decide (4 < p.sfh), eRange, 36⟩, ⟨decide (4 < p.sfv), eRange, 37⟩, ⟨decide (16 < p.eclaim), eRange, 38⟩,
   frostChk s, busyChk s c, ctxChk s c (fun x => x.stat = .faulted) eState 16,
   ⟨keepsEn s p fun q => q.rbase ≠ p.rbase, eState, 24⟩, ⟨keepsEn s p fun q => q.log2n ≠ p.log2n, eState, 32⟩,
   ⟨keepsEn s p fun q => q.coal ≠ p.coal, eState, 34⟩, ctxChk s c (fun x => setupOver s x p) eBudget 0]

def execQueSetup (h : Hdr) (p : QueSetupP) (s : State) : Host.Outcome State Fault Refusal :=
  command { op := 0x0501, lay := layout (.queSetup h p), roles := [operator], ctx := p.qid / 16} h (fun s => setupChecks s p)
    (fun s h r => match s.ctx? (p.qid / 16) with
      | none => s
      | some x => done (setupQueue s x p) h r x.num) s

/-- Bytes 0 to 39 of a queue state (R381). -/
def queueBytes (s : State) (q : Queue) : List Byte :=
  let f := match s.ctx? (q.qid / 16) with
    | some x => if q.qid % 16 = 4 then factors x else (0, 0)
    | none => (0, 0)
  le 8 q.rbase ++ [b8 q.log2n, b8 q.prio, b8 q.coal, q.opt] ++ le 2 q.fhead ++ le 2 q.chead ++ le 2 q.tail ++ [b8 f.1, b8 f.2] ++ zeros 4
    ++ le 8 q.msgs ++ le 8 q.bytes

def execQueQuery (h : Hdr) (qid : Nat) (s : State) : Host.Outcome State Fault Refusal :=
  command { op := 0x0502, lay := layout (.queQuery h qid), roles := [operator], ctx := qid / 16 } h
    (fun s => [⟨decide (2 ^ 20 ≤ qid) || (s.queue? qid).isNone, eParam, 16⟩, frostChk s])
    (fun s h r => match s.queue? qid with
      | some q => ok s h r (qid / 16) false 0 (queueBytes s q)
      | none => s) s

/-! ### The Reticle (R264 to R267) -/

/-- Pages of the pool that an image takes (R264). -/
def retPages (w h : Nat) : Nat := (4 * w * h + 4095) / 4096

/-- Width and height of the images that pending uploads bring. -/
def pendRet (s : State) : List (Nat × Nat) :=
  s.mgmt.pend.filterMap fun p => match p.body with | .retUpload w h _ => some (w, h) | _ => none

/-- An upload of a `w` × `h` image has no room (R264). -/
def retFull (s : State) (w h : Nat) : Bool :=
  decide (1024 ≤ s.reticle.length + (pendRet s).length) ||
    decide (4096 < (s.reticle.map fun i => retPages i.width i.height).sum + ((pendRet s).map fun i => retPages i.1 i.2).sum + retPages w h)

/-- Store an image (R264) on the lowest free handle (DESIGN CHOICE, log entry 81: R264 gives the range of handles alone). -/
def storeRet (s : State) (w h : Nat) (px : List Byte) : Nat × State :=
  let n := ((List.range (s.reticle.length + 1)).find? fun k => !s.reticle.any fun i => i.handle = k).getD 0
  (n, { s with reticle := s.reticle ++ [⟨n, w, h, px⟩] })

/-- RET.UPLOAD: pending when bulk; a bulk input that is not as long as WIDTH and HEIGHT say fails with E_LENGTH (R264, R453). -/
def execRetUpload (h : Hdr) (width height : Nat) (pixels : List Byte) (s : State) : Host.Outcome State Fault Refusal :=
  let o := if h.bulk then 48 else 16
  let fits := decide (pixels.length = 4 * width * height)
  command { op := 0x0601, lay := layout (.retUpload h width height pixels), roles := [operator], bulk := true } h
    (fun s => [⟨width = 0 || decide (480 < width), eRange, o⟩, ⟨height = 0 || decide (270 < height), eRange, o + 2⟩,
        ⟨!fits, eLength, 24⟩, frostChk s]
      ++ (if h.bulk then [pendChk s h.master] else []) ++ [⟨retFull s width height, eNomem, 0⟩])
    (fun s h r =>
      if h.bulk then pendOn s h r 0xFFFF (.retUpload width height pixels)
      else let k := storeRet s width height pixels; ok k.2 h r 0xFFFF true k.1 []) s

/-- The placements that a frame still to be composed can need: the present ones and the kept sets back to the oldest frame that a rollback can
replay, and those not yet applied (R264, R267). -/
def livePlacements (x : Ctx) : List Placement :=
  let md := modeOf x.cfg.mode
  let oldest := match x.snaps with | p :: _ => p.frame + 1 | [] => x.m.cur.commit / md.vTot
  let kept := x.outp.sets.filter fun k => oldest ≤ k.frame
  (kept.flatMap fun k => k.plc) ++ (x.outp.setFor oldest).plc
    ++ x.outp.cmds.flatMap fun c => match c with
      | .place mask plc => (plc.zipIdx.filter fun p => mask.getLsbD p.2).map fun p => p.1
      | _ => []

/-- RET.FREE. -/
def execRetFree (h : Hdr) (handle : Half) (s : State) : Host.Outcome State Fault Refusal :=
  let n := handle.toNat
  command { op := 0x0602, lay := layout (.retFree h handle), roles := [operator] } h
    (fun s => [⟨!s.reticle.any fun i => i.handle = n, eParam, 16⟩, frostChk s,
      ⟨s.ctxs.any fun x => (livePlacements x).any fun p => p.en && p.image = handle, eBusy, 16⟩])
    (fun s h r => done { s with reticle := s.reticle.filter fun i => i.handle ≠ n } h r 0xFFFF) s

/-- The first bad placement among those the mask names (R265). -/
def placeChecks (s : State) (mask : Byte) (plc : List Placement) : List Chk :=
  (List.range 4).flatMap fun k => match plc[k]? with
    | some p => if mask.getLsbD k then
        [⟨p.en && !s.reticle.any fun i => i.handle = p.image.toNat, eParam, 32 + 16 * k⟩, ⟨!p.flagsOk, eParam, 39 + 16 * k⟩,
         ⟨!p.rsvdOk, eParam, 40 + 16 * k⟩] else []
    | none => []

/-- RET.PLACE (R265, R267). -/
def execRetPlace (h : Hdr) (c : Nat) (mask : Byte) (plc : List Placement) (s : State) : Host.Outcome State Fault Refusal :=
  command { op := 0x0603, lay := layout (.retPlace h c mask plc), roles := [operator], ctx := c} h
    (fun s => [definedChk s c, ⟨decide (16 ≤ mask.toNat), eParam, 18⟩] ++ placeChecks s mask plc
      ++ [frostChk s, ctxChk s c (fun x => x.stat = .faulted) eState 16, busyChk s c])
    (fun s h r => match s.ctx? c with
      | none => s
      | some x => done (s.putCtx (outCmd x (.place mask plc))) h r c) s

/-! ### Watched regions (R269, R272) -/

/-- The ranges of an enabled descriptor (R269). -/
def regionChecks (md : ModeT) (k : Nat) (g : Region) : List Chk :=
  let o := 32 + 32 * k
  [⟨decide (g.right < g.left) || decide (md.hAct ≤ g.left), eRange, o⟩, ⟨decide (g.bottom < g.top) || decide (md.vAct ≤ g.top), eRange, o + 2⟩,
   ⟨decide (md.hAct ≤ g.right), eRange, o + 4⟩, ⟨decide (md.vAct ≤ g.bottom), eRange, o + 6⟩, ⟨decide (4 < g.nsig), eRange, o + 8⟩]

/-- The checks of RET.WATCH on the descriptors it names (R269). NSIG above 4 fails only where EN is 1, as the other bounds do (DESIGN CHOICE, log entry
76: the sentence of R269 can be read either way). -/
def watchChecks (md : ModeT) (mask : Byte) (regs : List Region) : List Chk :=
  let named := (List.range 4).filterMap fun k => if mask.getLsbD k then (regs[k]?).map fun g => (k, g) else none
  (named.flatMap fun p => [⟨!p.2.flagsOk, eParam, 41 + 32 * p.1⟩, ⟨!p.2.rsvdOk, eParam, 42 + 32 * p.1⟩]) ++ named.flatMap fun p => if p.2.en then regionChecks md p.1 p.2 else []

/-- RET.WATCH. -/
def execRetWatch (h : Hdr) (c : Nat) (mask : Byte) (regs : List Region) (s : State) : Host.Outcome State Fault Refusal :=
  command { op := 0x0604, lay := layout (.retWatch h c mask regs), roles := [operator], ctx := c} h
    (fun s => [definedChk s c, ⟨decide (16 ≤ mask.toNat), eParam, 18⟩]
      ++ (match s.ctx? c with | some x => watchChecks (modeOf x.cfg.mode) mask regs | none => [])
      ++ [frostChk s, ctxChk s c (fun x => x.stat = .faulted) eState 16, busyChk s c])
    (fun s h r => match s.ctx? c with
      | none => s
      | some x => done (s.putCtx (outCmd x (.watch mask regs))) h r c) s

/-- A status record (R272). -/
def statBytes (t : RegStat) : List Byte :=
  le 8 t.frame ++ [b8 t.result, b8 t.midx] ++ le 2 t.miss ++ le 2 t.still ++ zeros 2 ++ le 4 t.matches_ ++ zeros 4

/-- RET.WATCHQ. -/
def execRetWatchq (h : Hdr) (c : Nat) (s : State) : Host.Outcome State Fault Refusal :=
  command { op := 0x0605, lay := layout (.retWatchq h c), roles := [operator], ctx := c } h (fun s => [definedChk s c, frostChk s])
    (fun s h r => match s.ctx? c with
      | none => s
      | some x => ok s h r c false 0 (x.outp.stats.toList.flatMap statBytes)) s

/-! ### Meters and time (R437, R439, R443) -/

/-- MTR.READ: the counts since the span of the last statement ended. -/
def execMtrRead (h : Hdr) (c : Nat) (s : State) : Host.Outcome State Fault Refusal :=
  command { op := 0x0701, lay := layout (.mtrRead h c), roles := [operator], ctx := c } h (fun s => [definedChk s c, frostChk s])
    (fun s h r => match s.ctx? c with
      | none => s
      | some x => ok s h r c false 0 (x.counts.flatMap (le 8))) s

/-- The closed statements from SSEQ `n` on, at most `k` (R443). -/
def stmtsFrom (s : State) (n k : Nat) : List Stmt := (s.audit.stmts.filter fun t => n ≤ t.sseq).take k

/-- R503: poisoned stored data fails a read with E_INTEGRITY and leaves a device record; the poison consumed counts in its stacks (R509). -/
def integrityRec (places : List (Fin 4)) (f : Chk) (s : State) : State :=
  if f.status = eIntegrity then deviceRec (places.foldl countUe s) 0xFFFF 0xFFFF [] else s

/-- Statements of which one copy is poisoned are read from the other stack, and the poisoned block is rewritten from it (R503, R509). -/
def mendStmts (s : State) (l : List Stmt) : State :=
  let s := l.foldl (fun s t => match t.half with | some k => countUe s ⟨k.1.val, by omega⟩ | none => s) s
  let gone (u : Upset) : Bool := l.any fun t => t.half.any fun k => decide (u.loc = .reserved k.1.val k.2)
  { s with
    audit := { s.audit with stmts := s.audit.stmts.map fun t => if l.contains t && !t.bad then { t with half := none } else t }
    ras := { s.ras with upsets := s.ras.upsets.filter fun u => !gone u } }

/-- MTR.STATEMENT. -/
def execMtrStatement (h : Hdr) (sseq max : Nat) (s : State) : Host.Outcome State Fault Refusal :=
  .next (commandWith { op := 0x0702, lay := layout (.mtrStatement h sseq max), roles := [operator] } h
    (fun s => [⟨max = 0 || decide (24 < max), eRange, 24⟩, frostChk s, ⟨(stmtsFrom s sseq max).any fun t => t.bad, eIntegrity, 16⟩])
    (fun s h r =>
      let l := stmtsFrom s sseq max
      ok (mendStmts s l) h r 0xFFFF false l.length (l.flatMap fun t => stmtBody s t ++ le 96 t.sig))
    (integrityRec [0, 1]) s)

/-- MTR.ACK releases every statement up to an SSEQ. -/
def execMtrAck (h : Hdr) (upto : Nat) (s : State) : Host.Outcome State Fault Refusal :=
  command { op := 0x0703, lay := layout (.mtrAck h upto), roles := [operator] } h (fun s => [⟨decide (s.audit.sseq ≤ upto), eRange, 16⟩, frostChk s])
    (fun s h r => done { s with audit := { s.audit with stmts := s.audit.stmts.filter fun t => upto < t.sseq } } h r 0xFFFF) s

/-- TIME.SET steps device time; its record holds the new and the old time (R437, R467). -/
def execTimeSet (h : Hdr) (time : Nat) (s : State) : Host.Outcome State Fault Refusal :=
  command { op := 0x0710, lay := layout (.timeSet h time), roles := [operator] } h (fun _ => [⟨time = 0, eRange, 16⟩])
    (fun s h r =>
      let t := { s with audit := { s.audit with time := some time }, ctxs := s.ctxs.map fun x => { x with tstep := true } }
      accept t h r 0xFFFF true (le 8 time ++ le 8 s.timeNow) 0 []) s

end Sys2Proof.Machine
end

