-- ==== Sys2Proof/Machine/Device.lean ====
section
/-! DEFINITION. Power, pin, reliability, Almanac and firmware commands (R472, R483, R490, R494, R519, R521, R523, R506, R509, R510, R436,
R431). -/
namespace Sys2Proof.Machine

/-! ### Power (R483, R490, R494) -/

def execPwrLimit (h : Hdr) (watts : Nat) (s : State) : Host.Outcome State Fault Refusal :=
  command { op := 0x0801, lay := layout (.pwrLimit h watts), roles := [installer] } h (fun _ => [⟨decide (watts < 150) || decide (240 < watts), eRange, 16⟩])
    (fun s h r => done { s with power := { s.power with limit := watts } } h r 0xFFFF) s

def execPwrStepcap (h : Hdr) (cap : Nat) (s : State) : Host.Outcome State Fault Refusal :=
  command { op := 0x0802, lay := layout (.pwrStepcap h cap), roles := [installer] } h (fun _ => [⟨decide (2 < cap), eParam, 16⟩])
    (fun s h r => done { s with power := { s.power with cap := cap } } h r 0xFFFF) s

def execPwrThrottle (h : Hdr) (tj : Nat) (s : State) : Host.Outcome State Fault Refusal :=
  command { op := 0x0803, lay := layout (.pwrThrottle h tj), roles := [installer] } h (fun _ => [⟨decide (tj < 85) || decide (100 < tj), eRange, 16⟩])
    (fun s h r => done { s with power := { s.power with throttle := tj } } h r 0xFFFF) s

/-- PWR.AGEING measures and re-plans now; `slacks` are the worst slacks measured (R490). -/
def execPwrAgeing (h : Hdr) (slacks : List Int) (s : State) : Host.Outcome State Fault Refusal :=
  command { op := 0x0804, roles := [installer] } h (fun s => [⟨measuring s, eBusy, 0⟩])
    (fun s h r => done (replan s slacks) h r 0xFFFF) s

/-- PWR.QUERY: the powered hours and the retired steps are looked up in the vote store (R489, R492, R507). -/
def execPwrQuery (h : Hdr) (s : State) : Host.Outcome State Fault Refusal :=
  command { op := 0x0805, kind := .query, votes := [.hours, .retired] } h (fun _ => []) (fun s h r => ok s h r 0xFFFF false 0 (powerBytes s)) s

/-! ### Pins (R518, R519, R521, R523) -/

/-- The set-up that PIN.SET gives a pin. -/
def pinOf (old : Pin) (p : PinP) : Pin :=
  { old with func := p.func, pull := p.pull, drive := p.drive, sleep := p.sleep, out := p.out, oe := p.oe = 1 }

/-- PIN.SET into the pin and into the board configuration area (R519); as a write of the GPIO block it ends a PINLOCK sequence (R518, R523). -/
def setPinAll (s : State) (p : PinP) : State :=
  let t := changePin s p.pin (pinOf (s.gpio.pin p.pin) p)
  let store := t.gpio.store.getD defaultPins.toList
  { t with gpio := { t.gpio with armed := false, store := some (store.set p.pin (pinOf (store.getD p.pin {}) p)) } }

def execPinSet (h : Hdr) (p : PinP) (s : State) : Host.Outcome State Fault Refusal :=
  command { op := 0x0901, lay := layout (.pinSet h p), roles := [installer], early := [⟨decide (p.pin < 48) && (s.gpio.pin p.pin).lock, eLocked, 16⟩] } h
    (fun _ => [⟨decide (14 < p.func), eParam, 17⟩, ⟨decide (3 < p.pull), eParam, 18⟩, ⟨decide (3 < p.sleep), eParam, 20⟩, ⟨decide (1 < p.oe), eParam, 22⟩,
      ⟨decide (47 < p.pin), eRange, 16⟩, ⟨decide (3 < p.drive), eRange, 19⟩])
    (fun s h r => done (setPinAll s p) h r 0xFFFF) s

/-- PIN.LOCK: Zarba writes the masks and performs the key sequence (R523). -/
def lockAll (s : State) (mask : Nat) : State :=
  let w (off : Nat) (v : Nat) (s : State) : State := gpioWrite s off (BitVec.ofNat 32 v)
  w 0x110 0xA5 (w 0x110 0x5A (w 0x10C (mask / 2 ^ 32) (w 0x108 mask s)))

def execPinLock (h : Hdr) (mask : Nat) (s : State) : Host.Outcome State Fault Refusal :=
  command { op := 0x0902, lay := layout (.pinLock h mask), roles := [installer] } h (fun _ => [⟨decide (2 ^ 48 ≤ mask), eParam, 16⟩])
    (fun s h r => done (lockAll s mask) h r 0xFFFF) s

def execPinQuery (h : Hdr) (s : State) : Host.Outcome State Fault Refusal :=
  command { op := 0x0903, kind := .query } h (fun _ => [])
    (fun s h r => ok s h r 0xFFFF false 0 ((List.range 48).flatMap fun n => le 4 (pinWord s n).toNat)) s

/-! ### Reliability (R506, R509, R510) -/

/-- RAS.SCRUB with OP, one above 2 failing: `act` changes the Gleaner's state. -/
def scrub (h : Hdr) (y : Lay) (period : Nat) (act : Ras → Ras) (s : State) : Host.Outcome State Fault Refusal :=
  command { op := 0x0A01, lay := y, roles := [installer, operator]} h
    (fun _ => [⟨decide (2 < (h.params.getD 0 0).toNat), eParam, 16⟩, ⟨period = 0 || decide (168 < period), eRange, 20⟩])
    (fun s h r => done { s with ras := act { s.ras with gperiod := period } } h r 0xFFFF) s

/-- OP 0 stops at once; the next start begins at address 0. -/
def scrubStop (r : Ras) : Ras := { r with gop := 0, gpos := 0 }

def execRasScrubStop (h : Hdr) (period : Nat) (s : State) : Host.Outcome State Fault Refusal := scrub h (layout (.rasScrubStop h period)) period scrubStop s

/-- OP 1: a pass that runs finishes and the Gleaner stops; else one pass starts at address 0. -/
def scrubOnce (r : Ras) : Ras := { r with gop := 1 }

def execRasScrubOnePass (h : Hdr) (period : Nat) (s : State) : Host.Outcome State Fault Refusal := scrub h (layout (.rasScrubOnePass h period)) period scrubOnce s

/-- OP 2: passes repeat without end. -/
def scrubOn (r : Ras) : Ras := { r with gop := 2 }

def execRasScrubContinuous (h : Hdr) (period : Nat) (s : State) : Host.Outcome State Fault Refusal := scrub h (layout (.rasScrubContinuous h period)) period scrubOn s

def execRasCounts (h : Hdr) (s : State) : Host.Outcome State Fault Refusal :=
  command { op := 0x0A02, roles := [installer, operator] } h (fun _ => []) (fun s h r => ok s h r 0xFFFF false 0 (rasBytes s.ras)) s

def execRasThresh (h : Hdr) (hbm onchip : Nat) (s : State) : Host.Outcome State Fault Refusal :=
  command { op := 0x0A03, lay := layout (.rasThresh h hbm onchip), roles := [installer, operator] } h (fun _ => [⟨hbm = 0, eRange, 16⟩, ⟨onchip = 0, eRange, 20⟩])
    (fun s h r => done { s with ras := { s.ras with thHbm := hbm, thChip := onchip } } h r 0xFFFF) s

/-- RAS.CLEAR: every field of R509 but GOP, GPERIOD and GPOS. -/
def clearCounts (r : Ras) : Ras :=
  { r with
    hbmce := Vector.replicate 4 0, hbmue := Vector.replicate 4 0, hbmlat := Vector.replicate 4 0, hbmode := Vector.replicate 4 0
    frce := 0, cachece := 0, sramce := 0, onue := 0, votec := 0, ctxf := 0, chipf := 0, gpasses := 0 }

def execRasClear (h : Hdr) (s : State) : Host.Outcome State Fault Refusal :=
  command { op := 0x0A04, roles := [installer, operator] } h (fun _ => [])
    (fun s h r => done { s with ras := clearCounts s.ras } h r 0xFFFF) s

/-! ### The Almanac (R436) -/

def recBytes (r : AlmRec) : List Byte := recBody r ++ digest r.chain

/-- The records from SEQ `n` on, at most `k`. -/
def recsFrom (s : State) (n k : Nat) : List AlmRec := (s.audit.recs.filter fun r => n ≤ r.seq).take k

def execAlmRead (h : Hdr) (seq max : Nat) (s : State) : Host.Outcome State Fault Refusal :=
  .next (commandWith { op := 0x0B01, lay := layout (.almRead h seq max), roles := [maker, installer, operator] } h
    (fun s => [⟨max = 0 || decide (120 < max), eRange, 24⟩, ⟨!s.audit.recs.any fun r => r.seq = seq, eRange, 16⟩, frostChk s,
      ⟨(recsFrom s seq max).any fun r => r.bad, eIntegrity, 16⟩])
    (fun s h r => let l := recsFrom s seq max; ok s h r 0xFFFF false l.length (l.flatMap recBytes)) (integrityRec [0]) s)

/-- ALM.HEAD's reply: the next SEQ, the last CHAIN, and the signature over both and the nonce. -/
def headBytes (s : State) (nonce : Nat) : List Byte :=
  let b := le 8 s.audit.seq ++ digest s.audit.chain
  b ++ le 96 (signBy s.ident.fwk (b ++ digest nonce))

/-- ALM.HEAD reads the head in the vote store (R436, R507). -/
def execAlmHead (h : Hdr) (nonce : Nat) (s : State) : Host.Outcome State Fault Refusal :=
  command { op := 0x0B02, lay := layout (.almHead h nonce), roles := [maker, installer, operator], votes := [.head] } h (fun _ => [])
    (fun s h r => ok s h r 0xFFFF false 0 (headBytes s nonce)) s

/-! ### Firmware and return (R431, R472) -/

/-- The inactive flash bank. -/
def spareBank (i : Ident) : Fin 2 := 1 - i.active

/-- FW.UPDATE: pends while the inactive bank is written, which is invalid meanwhile, so that a reset uses the active one (R472, R527). -/
def execFwUpdate (h : Hdr) (sigOk : Bool) (svn : Nat) (s : State) : Host.Outcome State Fault Refusal :=
  command { op := 0x0C01, lay := layout (.fwUpdate h sigOk svn), roles := [maker, installer], bulk := true } h
    (fun s => [⟨s.mgmt.pend.any fun p => match p.body with | .fwUpdate _ _ _ _ => true | _ => false, eBusy, 0⟩, pendChk s h.master,
      ⟨!sigOk, eIntegrity, 0⟩, ⟨decide (svn < s.ident.fwsvn), eVersion, 0⟩])
    (fun s h r =>
      let i := s.ident
      let k := spareBank i
      pendOn { s with ident := { i with banks := i.banks.set k { i.banks[k] with bad := true }, fresh := false } } h r 0xFFFF
        (.fwUpdate svn 0 i.banks[k].bad i.fresh)) s

/-- The bank is written: source 199 at each tenth left; the measurement of the image is a free value (R409, R472). -/
def finishUpdate (s : State) (q : Pend) (svn tenths : Nat) : State :=
  let r := s.takeFree
  let i := r.2.ident
  let s := { r.2 with ident := { i with banks := i.banks.set (spareBank i) { svn := svn, meas := r.1 % 2 ^ 384 }, fresh := true } }
  acceptPend ((List.range (10 - tenths)).foldl (fun s _ => raiseAll s 199 0xFFFF) s) q 0xFFFF 0 []

/-- A failed FW.UPDATE leaves the bank as it was (R454). -/
def dropUpdate (s : State) (wasBad wasFresh : Bool) : State :=
  let i := s.ident
  let k := spareBank i
  { s with ident := { i with banks := i.banks.set k { i.banks[k] with bad := wasBad }, fresh := wasFresh } }

/-- One more tenth of a bank may be written at a CLK_TICK edge, source 199 at each: when is a free value (R472). Nothing is written while DMA has stopped
on the port that brings the image (R402, R454). -/
def flashStep (s : State) (p : Pend) : State :=
  match p.body with
  | .fwUpdate svn k b f =>
    if 10 ≤ k || p.dropped || needsInput p then s
    else
      let r := s.takeFree
      if r.1 % 2 = 0 then r.2
      else raiseAll { r.2 with mgmt := { r.2.mgmt with pend := r.2.mgmt.pend.replace p { p with body := .fwUpdate svn (k + 1) b f } } } 199 0xFFFF
  | _ => s

/-- The writing of flash in one µs. -/
def flashTick (s : State) : State := if s.mgmt.devstate = 2 then s.mgmt.pend.foldl flashStep s else s

/-- FW.DIAG: RESULT is the test's result, which the maker fixes. -/
def execFwDiag (h : Hdr) (test : Nat) (s : State) : Host.Outcome State Fault Refusal :=
  command { op := 0x0C02, lay := layout (.fwDiag h test), roles := [maker]} h
    (fun s => [⟨(Config.diag test).isNone, eParam, 16⟩, ⟨!s.ctxs.isEmpty, eState, 0⟩])
    (fun s h r => ok s h r 0xFFFF false (((Config.diag test).getD 0) % 2 ^ 32) []) s

/-- What RMA.RESET does, in the order of R431; it clears the retired steps too (R492). The vote store's copies of what it clears are written (R507). -/
def rmaReset (s : State) : State :=
  let s := s.ctxs.foldl (fun s x => destroyCtx s x.num) s
  let i := s.ident
  { s with
    images := []
    votes := s.votes.filter fun v => !(match v.1.field with | .cred k => decide (k ≠ 0) | .retired => true | _ => false)
    mgmt := { s.mgmt with creds := Vector.ofFn fun k => if k.val = 0 then s.mgmt.creds[0] else 0 }
    ident := { i with
      domain := 0, chipNo := 0, domKey := 0, mcert := [], enrolled := false, tags := i.tags.set 1 {} }
    power := { s.power with retired := Vector.replicate 3 false } }

/-- RMA.RESET. -/
def execRmaReset (h : Hdr) (s : State) : Host.Outcome State Fault Refusal :=
  command { op := 0x0C03, roles := [maker] } h (fun s => [frostChk s, pendChk s h.master]) (fun s h r => done (rmaReset s) h r 0xFFFF) s

end Sys2Proof.Machine
end

