-- ==== Sys2Proof/Machine/Boxes.lean ====
section
/-! DEFINITION. Mailbox registers (R448 to R450), the M2 transport (R451), bulk transfers (R454, R458), packets without a command, and plain
register writes (R8). -/
namespace Sys2Proof.Machine

/-! ### Mailbox registers (R448) -/

/-- MB_STAT of master `m`. -/
def mbStat (s : State) (m : Nat) : Nat :=
  s.mgmt.owner + s.mgmt.elect.isSome.toNat * 4 + (offered s m).toNat * 8 + (decide (s.mgmt.devstate = 2)).toNat * 16

/-- A word of a mailbox. -/
def mailboxRead (s : State) (m off : Nat) : Nat :=
  let b := s.box m
  if off = 0 then 1 + m * 256
  else if off = 4 then mbStat s m
  else if off = 8 then b.cprod
  else if off = 0xC then b.ccons
  else if off = 0x10 then b.rprod
  else if off = 0x14 then b.rcons
  else if off = 0x18 then (if s.mgmt.owner = m then leaseMs s else 0)
  else if 0x1000 ≤ off then memNat b.mem off 4
  else 0

/-- A write of a mailbox word: MB_CPROD in its range, MB_RCONS, the command ring; everything else is read only or unassigned. -/
def mailboxWrite (s : State) (m off : Nat) (v : Word) : State :=
  let b := s.box m
  let n := v.toNat % 2048
  if off = 8 then (if n < 1792 then s.setBox m { b with cprod := n } else s)
  else if off = 0x14 then rconsWrite s m n
  else if 0x1000 ≤ off ∧ off < 0x8000 ∧ off % 4 = 0 then s.setBox m { b with mem := memPutAll b.mem off (leBytes 4 v.toNat) }
  else s

/-- MB_RCONS_WRITE: the replies before the new consumer are consumed, and waiting ones follow (R449). -/
def execMbRconsWrite (m : Nat) (v : Word) (s : State) : Host.Outcome State Fault Refusal :=
  if m < 3 ∧ mailboxUp s m ∧ s.mgmt.devstate ≠ 1 then .next (rconsWrite s m (v.toNat % 2048)) else .next s

/-! ### Packets that carry no command (R450, R456) -/

/-- The opcodes of the catalogue (R468 to R472). -/
def assignedOps : List Nat :=
  [0x0101, 0x0102, 0x0103, 0x0110, 0x0111, 0x0112, 0x0113, 0x0114, 0x0120, 0x0121, 0x0122, 0x0201, 0x0202, 0x0203, 0x0210]
  ++ (List.range 12).map (fun k => 0x0301 + k) ++ [0x0401, 0x0402, 0x0403, 0x0404, 0x0501, 0x0502, 0x0601, 0x0602, 0x0603, 0x0604, 0x0605]
  ++ [0x0701, 0x0702, 0x0703, 0x0710, 0x0801, 0x0802, 0x0803, 0x0804, 0x0805, 0x0901, 0x0902, 0x0903, 0x0A01, 0x0A02, 0x0A03, 0x0A04]
  ++ [0x0B01, 0x0B02, 0x0C01, 0x0C02, 0x0C03]

/-- The device skips the pads at the consumer (R449). -/
def skipped (s : State) (m : Nat) : State := s.setBox m { s.box m with ccons := headPos (s.box m) }

/-- UNASSIGNED_OPCODE: step 2 of R456; opcode 0 is a pad, which the device skips (R449). -/
def execUnassignedOpcode (h : Hdr) (s : State) : Host.Outcome State Fault Refusal :=
  if !takes s h.master || assignedOps.contains h.op.toNat then .next s
  else if h.op = 0 then .next (skipped s h.master)
  else if !taken s h.op.toNat {} h then .next s
  else
    let t := consume s h
    let r := if s.mgmt.devstate = 4 then reject t h 0 0xFFFF false eFault 0
      else match firstFail (headChecks h) with
        | some f => reject t h 0 0xFFFF false f.status f.at_
        | none => reject t h 0 0xFFFF false eOpcode 0
    .next (if (r.box h.master).waiting.isEmpty then r else s)

/-- BAD_PACKET_HEADER, where the next header is one of R450: everything up to the producer is discarded, one reply says E_LENGTH (R450). -/
def execBadPacketHeader (m : Nat) (s : State) : Host.Outcome State Fault Refusal :=
  if !decide (m < 3) || !takes s m || !headBad (s.box m) then .next s
  else
    let b := s.box m
    let r := postReply (s.setBox m { b with ccons := b.cprod }) m
      { op := 0xFFFF, status := BitVec.ofNat 8 eLength, tag := 0, sh := 0, result := 6, payload := [], trailer := false, pos := 0 }
    .next (if (r.box m).waiting.isEmpty then r else s)

/-! ### Bulk transfers (R454, R458) -/

/-- The pending command waits for nothing but its transfer. -/
def transferReady (s : State) (p : Pend) : Bool :=
  match p.body with
  | .claim => false
  | .park _ => false
  | .export_ c => (s.ctx? c).any fun x => x.hold.exporting
  | .import_ _ _ _ _ _ => true
  | .imgLoad _ _ => true
  | .retUpload _ _ _ => true
  | .fwUpdate _ _ _ _ => true

/-- A host access error ends the command with E_FAULT; nothing of it takes effect (R454). -/
def transferFail (s : State) (p : Pend) : State :=
  let s := raiseOn (rejectPend s p eFault 0) p.h.master 215 0xFFFF
  match p.body with
  | .export_ c => match s.ctx? c with
    | some x => s.putCtx { x with hold := { x.hold with exportBy := none, exporting := false } }
    | none => s
  | .fwUpdate _ _ b f => dropUpdate s b f
  | _ => s

/-- The effect of a pending command whose transfer is complete. -/
def transferDone (s : State) (p : Pend) : State :=
  match p.body with
  | .export_ c => finishExport s p c
  | .import_ port cls grace obj tnonce => finishImport s p port cls grace obj tnonce
  | .imgLoad env img => finishLoad s p env img
  | .retUpload w h px => let k := storeRet s w h px; acceptPend k.2 p 0xFFFF k.1 []
  | .fwUpdate svn k _ _ => finishUpdate s p svn k
  | _ => s

/-- The completions of a bulk transfer's reads have come after DMA had stopped: they are discarded, and where DMA runs again the reads are made anew
(R402, R454). -/
def discardBulk (s : State) (p : Pend) : State :=
  askBulk { s with mgmt := { s.mgmt with pend := s.mgmt.pend.replace p { p with asked := false, dropped := false } } } p.h.master

/-- BULK_TRANSFER_COMPLETE: the oldest pending command of the master with this TAG. The transfer goes over the port of the master, whose DMA has to run
(R402, R454, R480). -/
def execBulkTransferComplete (m : Nat) (tag : Half) (hostErr : Bool) (s : State) : Host.Outcome State Fault Refusal :=
  match s.mgmt.pend.find? fun p => p.h.master = m && p.h.tag = tag && transferReady s p with
  | none => .next s
  | some p =>
    if p.dropped then .next (discardBulk s p)
    else if s.mgmt.devstate ≠ 2 || !portUp s m || needsInput p then .next s
    else .next (if hostErr then transferFail s p else transferDone s p)

/-! ### The M2 transport (R451) -/

/-- The transfer names M2ADDR, and the pins of group 0 carry SMBus (PEC checked) or I3C (no PEC). -/
def m2Reached (s : State) (x : M2Tx) : Bool :=
  let f (n : Nat) : Nat := (govPin s n).func
  x.addr = s.mgmt.m2addr && ((f 0 = 1 && f 1 = 1 && x.pecOk) || (f 0 = 2 && f 1 = 2))

/-- Offsets and lengths that the device takes. -/
def m2Range (off len : Nat) : Bool := off % 4 = 0 && len % 4 = 0 && decide (4 ≤ len) && decide (len ≤ 240)

/-- Words written in ascending order from `off` on. -/
def m2Words : Nat → State → Nat → List Byte → State
  | 0, s, _, _ => s
  | k + 1, s, off, bs => m2Words k (mailboxWrite s 2 (off % 65536) (BitVec.ofNat 32 (leNat (bs.take 4)))) (off + 4) (bs.drop 4)

def execM2Write (x : M2Tx) (off : Nat) (data : List Byte) (s : State) : Host.Outcome State Fault Refusal :=
  if m2Reached s x && m2Range off data.length then .next (m2Words (data.length / 4) s off data) else .next s

def execM2SetRead (x : M2Tx) (off len : Nat) (s : State) : Host.Outcome State Fault Refusal :=
  if m2Reached s x && m2Range off len then .next { s with mgmt := { s.mgmt with m2off := off, m2len := len } } else .next s

/-- The bytes of a read of M2. -/
def m2Bytes (s : State) : List Byte := (List.range (s.mgmt.m2len / 4)).flatMap fun k => le 4 (mailboxRead s 2 ((s.mgmt.m2off + 4 * k) % 65536))

def execM2Read (x : M2Tx) (s : State) : Host.Outcome State Fault Refusal :=
  if m2Reached s x then
    .next { s with mgmt := { s.mgmt with m2data := m2Bytes s, m2off := (s.mgmt.m2off + s.mgmt.m2len) % 65536 } }
  else .next s

/-! ### Plain register reads and writes -/

/-- What a read of `size` bytes at an offset of a function's BAR answers (R377): doorbells read as zero (DEDUCED, log entry 71: they
are written only), and so does every access that is no aligned 32-bit one, but for an aligned 64-bit one of the MSI-X table; none in D3hot (R376). -/
def barRead (s : State) (port bar off size : Nat) : Option Nat :=
  if !s.ports.contains port || (s.func port).d3hot then none
  else if size = 4 ∧ off % 4 = 0 then
    some (if bar = 0 ∧ off < 0x20000 then bar0Read s port off else if bar = 4 ∧ off < 0x10000 then mailboxRead s port off else 0)
  else if size = 8 ∧ off % 8 = 0 ∧ bar = 0 ∧ 0x10000 ≤ off ∧ off < 0x11000 then
    some (bar0Read s port off + bar0Read s port (off + 4) * 2 ^ 32)
  else some 0

/-- REGISTER_WRITE: a context's I/O register in the vc of its next issue, a BAR0 register, a mailbox word, a GPIO register or a register of a
function's configuration space. BAR writes are ignored before READY and in D3hot, where configuration requests are answered (R376, R528). -/
def execRegisterWrite (t : RegTarget) (v : Word) (s : State) : Host.Outcome State Fault Refusal :=
  match t with
  | .io c off => ctxAccess s c fun e x => if off < 0x10000 ∧ off % 4 = 0 then some (ioWrite e x.m off v (accessVc x)) else none
  | .bar0 p off => if barUp s p then .next (bar0Write s p off v) else .next s
  | .mailbox m off => if m < 3 ∧ mailboxUp s m ∧ s.mgmt.devstate ≠ 1 then .next (mailboxWrite s m off v) else .next s
  | .gpio off => .next (gpioWrite s off v)
  | .barOther p bar off size hi => if barUp s p then .next (barOther s p bar off size v hi) else .next s
  | .devCtl p => if s.ports.contains p then .next (devCtlWrite s p v) else .next s
  | .ptmCtl p => if s.ports.contains p then .next (ptmCtlWrite s p v) else .next s
  | .msixCtl p => if s.ports.contains p then .next (msixCtlWrite s p v) else .next s
  | .pmcsr p => if s.ports.contains p then .next (pmcsrWrite s p v) else .next s

end Sys2Proof.Machine
end

