-- ==== Sys2Proof/Machine/Branch.lean ====
section
/-! DEFINITION. Branches (R87, R88), control registers (R70, R71, R115), loops (R90 to R96), the accumulator (R97 to R100) and
encodings that take vector 1 (R80). -/
namespace Sys2Proof.Machine

/-- A branch that is taken costs 2 vc and transfers control. -/
def jumpTo (m : Mach) (a : Word) : Ret := ⟨m, 2, .jump a⟩

/-- BR and BLR: an odd target takes vector 3 and changes nothing (R87). -/
def regJump (rs : Reg) (link : Bool) : Body := fun _ m _ pc nxt =>
  let a := m.reg rs
  if a.getLsbD 0 then fail m 1 3 3 a pc else jumpTo (if link then m.setReg 14 nxt else m) a

/-- Bcc: the condition and the target following address + 2 × offset. -/
def condJump (cond : Cond) (off : Word) : Body := fun _ m _ _ nxt =>
  if condHolds m.cpu.psw cond then jumpTo m (nxt + 2 * off) else ⟨m, 1, .seq⟩

def bccOff : BccForm → Word
  | .short o => o.signExtend 32
  | .long o => o.signExtend 32

/-- Bcc (R87, R88). -/
def execBcc (c : Nat) (cond : Cond) (f : BccForm) (s : State) : Host.Outcome State Fault Refusal :=
  coreStep s c (encodingOf (.bcc c cond f)) (condJump cond (bccOff f))

/-- B (R87). -/
def execB (c : Nat) (off : BitVec 12) (s : State) : Host.Outcome State Fault Refusal :=
  coreStep s c (encodingOf (.b c off)) fun _ m _ _ nxt => jumpTo m (nxt + 2 * off.signExtend 32)

/-- BL writes the following address to w14 (R87). -/
def execBl (c : Nat) (off : BitVec 24) (s : State) : Host.Outcome State Fault Refusal :=
  coreStep s c (encodingOf (.bl c off)) fun _ m _ _ nxt => jumpTo (m.setReg 14 nxt) (nxt + 2 * off.signExtend 32)

/-- BR (R87). -/
def execBr (c : Nat) (rs : Reg) (s : State) : Host.Outcome State Fault Refusal :=
  coreStep s c (encodingOf (.br c rs)) (regJump rs false)

/-- BLR (R87). -/
def execBlr (c : Nat) (rs : Reg) (s : State) : Host.Outcome State Fault Refusal :=
  coreStep s c (encodingOf (.blr c rs)) (regJump rs true)

/-! ### Control registers -/

/-- The registers R70 marks "supervisor". -/
def crSupervisor (cr : Nat) : Bool := decide (1 ≤ cr) && decide (cr ≤ 7)

/-- The loop register that number 0x08 + k names: level k / 3, part k mod 3. -/
def loopReg (c : Cpu) (k : Nat) : Word :=
  let l := c.loops[k / 3 % 3]
  if k % 3 = 0 then l.start else if k % 3 = 1 then l.lend else l.count

def setLoopReg (c : Cpu) (k : Nat) (v : Word) : Cpu :=
  let l := c.loops[k / 3 % 3]'(Nat.mod_lt _ (by decide))
  let l := if k % 3 = 0 then { l with start := v } else if k % 3 = 1 then { l with lend := v } else { l with count := v }
  { c with loops := c.loops.set (k / 3 % 3) l (Nat.mod_lt _ (by decide)) }

/-- MRS (R70, R71, R160): the value read in vc `t`; MRS CYCL latches the upper half. -/
def crRead (m : Mach) (cr t : Nat) : Word × Mach :=
  let c := m.cpu
  match cr with
  | 0x00 => (m.pswAt t, m)
  | 0x01 => (c.vbr, m)
  | 0x02 => (c.gtb, m)
  | 0x03 => (c.gtl, m)
  | 0x04 => (c.usp, m)
  | 0x05 => (if m.lv = 0 then c.ssp else m.reg spReg, m)
  | 0x06 => (c.cause, m)
  | 0x07 => (c.info, m)
  | 0x11 => (c.acc.setWidth 32, m)
  | 0x12 => (accxRead c.acc, m)
  | 0x13 => (BitVec.ofNat 32 t, { m with cpu := { c with cychLatch := BitVec.ofNat 32 (t / 2 ^ 32) } })
  | 0x14 => (c.cychLatch, m)
  | k => (loopReg c (k - 8), m)

/-- MSR PSW (R71, R115): at user level the flags alone; at supervisor level the flags, T, IE, IPL and LD, and a 0 in HOLD closes an
open window. -/
def pswWrite (m : Mach) (v : Word) : Mach :=
  if m.lv = 0 then m.setPsw ((m.cpu.psw &&& ~~~ (0xF#32)) ||| (v &&& 0xF#32))
  else
    let m := m.setPsw ((m.cpu.psw &&& 0xC00#32) ||| (v &&& 0x31FF#32))
    if v.getLsbD 9 then m else { m with cpu := { m.cpu with hold := none } }

/-- MSR to an assigned, writable register (R70, R97, R120, R134). -/
def crWrite (m : Mach) (cr : Nat) (v : Word) : Mach :=
  let c := m.cpu
  match cr with
  | 0x00 => pswWrite m v
  | 0x01 => { m with cpu := { c with vbr := v &&& 0xFFFFFF00#32 } }
  | 0x02 => { m with cpu := { c with gtb := v &&& 0xFFFFFFF0#32 } }
  | 0x03 => { m with cpu := { c with gtl := BitVec.ofNat 32 (min 256 (v.toNat % 512)) } }
  | 0x04 => { m with cpu := { c with usp := v } }
  | 0x05 => if m.lv = 0 then { m with cpu := { c with ssp := v } } else m.setReg spReg v
  | 0x06 => { m with cpu := { c with cause := v &&& 0x003F1F3F#32 } }
  | 0x07 => { m with cpu := { c with info := v } }
  | 0x11 => { m with cpu := { c with acc := (c.acc.extractLsb' 32 16) ++ v } }
  | 0x12 => { m with cpu := { c with acc := (v.setWidth 16 : BitVec 16) ++ (c.acc.setWidth 32) } }
  | 0x13 => m
  | 0x14 => m
  | k => { m with cpu := setLoopReg c (k - 8) v }

/-- CYCL and CYCH are RO (R70). -/
def crReadOnly (cr : Nat) : Bool := cr = 0x13 || cr = 0x14

def mrsBody (bits : Word) (rd : Reg) (cr : Nat) : Body := fun _ m t pc _ =>
  if !crAssigned cr then illegal m bits pc
  else if m.lv = 0 && crSupervisor cr then fail m 1 2 3 bits pc
  else let r := crRead m cr t; ⟨r.2.setReg rd r.1, 1, .seq⟩

/-- The loop check of the MSR's own retirement uses the loop registers and LD that stood before it (R96, R115). Where that check changes the very
field that the MSR writes, the MSR's value stands (DESIGN CHOICE, log entry 64). -/
def msrBody (bits : Word) (cr : Nat) (ra : Reg) : Body := fun _ m _ pc nxt =>
  if !crAssigned cr || crReadOnly cr then illegal m bits pc
  else if m.lv = 0 && crSupervisor cr then fail m 1 2 3 bits pc
  else
    let l := loopCheck 4 m.cpu nxt
    ⟨crWrite { m with cpu := l.1 } cr (m.reg ra), 1, .jump l.2⟩

/-- MRS (R70, R71). -/
def execMrs (c : Nat) (rd : Reg) (cr : Fin 32) (s : State) : Host.Outcome State Fault Refusal :=
  let enc := encodingOf (.mrs c rd cr)
  coreStep s c enc (mrsBody enc.bits rd cr.val)

/-- MSR (R70, R71, R96, R115). -/
def execMsr (c : Nat) (cr : Fin 32) (ra : Reg) (s : State) : Host.Outcome State Fault Refusal :=
  let enc := encodingOf (.msr c cr ra)
  coreStep s c enc (msrBody enc.bits cr.val ra)

/-! ### Loops -/

/-- R91: count and exit offset in halfwords; an offset of 0 is illegal (R80). -/
def loopBody (bits : Word) (count : Mach → Word) (eoff : Nat) : Body := fun _ m _ pc nxt =>
  let ld := pswLD m.cpu.psw
  if h : eoff = 0 ∨ 3 ≤ ld then illegal m bits pc
  else
    let n := count m
    let x := nxt + BitVec.ofNat 32 (2 * eoff)
    if n = 0 then jumpTo m x
    else
      let c := m.cpu
      let c := { c with loops := c.loops.set ld ⟨nxt, x, n⟩ (by omega), psw := setField c.psw 12 2 (ld + 1) }
      jumpTo { m with cpu := c } nxt

/-- LOOP (R91). -/
def execLoop (c : Nat) (ra : Reg) (eoff : Half) (s : State) : Host.Outcome State Fault Refusal :=
  let enc := encodingOf (.loop c ra eoff)
  coreStep s c enc (loopBody enc.bits (fun m => m.reg ra) eoff.toNat)

/-- LOOPI (R91). -/
def execLoopi (c : Nat) (cnt eoff : BitVec 12) (s : State) : Host.Outcome State Fault Refusal :=
  let enc := encodingOf (.loopi c cnt eoff)
  coreStep s c enc (loopBody enc.bits (fun _ => cnt.setWidth 32) eoff.toNat)

/-- LPOP closes the innermost level (R95). The loop check of its own retirement uses the reduced LD (DESIGN CHOICE, log entry 64: R96 orders the two for
MSR alone). -/
def execLpop (c : Nat) (s : State) : Host.Outcome State Fault Refusal :=
  coreStep s c (encodingOf (.lpop c)) fun _ m _ _ _ => ⟨m.setPsw (setField m.cpu.psw 12 2 (pswLD m.cpu.psw - 1)), 1, .seq⟩

/-! ### Accumulator -/

/-- R98: element size and the product of two signed elements. -/
def macxBody (bits : Word) (ra rb : Reg) (sz : Nat) (sa sb : BitVec 4) (clr sub : Bool) : Body := fun e m t pc _ =>
  if 1 < sz || ra = rb then illegal m bits pc
  else
    let n := if sz = 0 then 2 else 1
    match loadAt e m (m.reg ra).toNat n t with
    | .error (v, i) => fail m 1 v 0 i pc
    | .ok (a, m1) =>
      match loadAt e m1 (m.reg rb).toNat n t with
      | .error (v, i) => fail m 1 v 0 i pc
      | .ok (b, m2) =>
        let p := signedOf (8 * n) a * signedOf (8 * n) b
        let acc0 : Int := if clr then 0 else m.cpu.acc.toInt
        let acc := BitVec.ofInt 48 (if sub then acc0 - p else acc0 + p)
        let step (r : Reg) (x : BitVec 4) : Word := m.reg r + BitVec.ofInt 32 (x.toInt * n)
        ⟨({ m2 with cpu := { m2.cpu with acc := acc } }.setReg ra (step ra sa)).setReg rb (step rb sb), 1, .seq⟩

/-- MACX (R98, R99). -/
def execMacx (c : Nat) (ra rb : Reg) (sz : Fin 4) (sa sb : BitVec 4) (clr sub : Bool) (s : State) : Host.Outcome State Fault Refusal :=
  let enc := encodingOf (.macx c ra rb sz sa sb clr sub)
  coreStep s c enc (macxBody enc.bits ra rb sz.val sa sb clr sub)

/-- R100: the scaled value, and V. -/
def accrdVal (acc : BitVec 48) (sh sat : Nat) (rnd : Bool) : Word × Bool :=
  let v := (acc.toInt + (if rnd && decide (0 < sh) then (2 ^ (sh - 1) : Nat) else 0)) >>> sh
  let lim : Int := if sat = 2 then 2 ^ 15 else if sat = 3 then 2 ^ 23 else 2 ^ 31
  if sat = 0 then (BitVec.ofInt 32 v, false)
  else if lim - 1 < v then (BitVec.ofInt 32 (lim - 1), true)
  else if v < -lim then (BitVec.ofInt 32 (-lim), true)
  else (BitVec.ofInt 32 v, false)

/-- ACCRD (R100): V alone among the flags. -/
def execAccrd (c : Nat) (rd : Reg) (sh : Fin 32) (sat : Fin 4) (rnd clr : Bool) (s : State) : Host.Outcome State Fault Refusal :=
  coreStep s c (encodingOf (.accrd c rd sh sat rnd clr)) fun _ m _ _ _ =>
    let r := accrdVal m.cpu.acc sh.val sat.val rnd
    let m := (m.setReg rd r.1).setPsw (setField m.cpu.psw 0 1 r.2.toNat)
    ⟨if clr then { m with cpu := { m.cpu with acc := 0 } } else m, 1, .seq⟩

/-- Any encoding that R80 does not assign takes vector 1. An encoding that is assigned is not this command's: it changes nothing. -/
def execIllegalOpcode (c : Nat) (e : Encoding) (s : State) : Host.Outcome State Fault Refusal :=
  if (decodeCore c e).isSome then .next s else coreStep s c e fun _ m _ pc _ => illegal m e.bits pc

end Sys2Proof.Machine
end

