-- ==== Sys2Proof/Machine/Gates.lean ====
section
/-! DEFINITION. Machine services (R144 to R148), gates (R134 to R140), RETE, BRK, NOP, SLEEP, SYNC and POST. -/
namespace Sys2Proof.Machine

/-- INFO of a gate fault: reason x and gate g (R122, R138). -/
def gateInfo (x g : Nat) : Word := BitVec.ofNat 32 (x * 256 + g)

/-- A gate fault takes vector 5 and costs 1 vc (R76, R138). -/
def gateFault (m : Mach) (x g : Nat) (pc : Word) : Ret := fail m 1 5 3 (gateInfo x g) pc

/-- The bytes of the memory that holds address `a`, from `a` to its end, where a range may lie in it: outside the I/O region and the view, and
outside the image for a range that is written (R33, R136). -/
def runFrom (prof imgLen : Nat) (wr : Bool) (a : Nat) : Nat :=
  match mapLoc prof imgLen a with
  | some (.fast off) => 0x2000 - off
  | some (.ram r off) => ramSize prof r - off
  | some (.image off) => if wr then 0 else imgLen - off
  | _ => 0

/-- `n` bytes from `a` lie in the map, in at most `k` memories that adjoin, as work RAM and VRAM of profile L do (R33, R136). -/
def inMap (prof imgLen : Nat) (wr : Bool) : Nat → Nat → Nat → Bool
  | 0, _, _ => false
  | k + 1, a, n =>
    let r := runFrom prof imgLen wr a
    decide (n ≤ r) || (decide (0 < r) && inMap prof imgLen wr k (a + r) (n - r))

/-- R136: every byte from p lies in the map outside the I/O region and the view, outside the image where acc includes write (bit 1),
and at level 0 in windows that grant R (bit 0) and W. -/
def rangeOk (e : Env) (m : Mach) (lv p n acc : Nat) : Bool :=
  if n = 0 then true
  else if 2 ^ 32 ≤ p + n - 1 then false
  else
    let wr := acc.testBit 1
    let rd := acc.testBit 0
    let first := p / 4096
    let pages := (List.range ((p + n - 1) / 4096 - first + 1)).map fun i => (first + i) * 4096
    inMap e.cfg.prof m.img.len wr 5 p n && (lv ≠ 0 || pages.all fun a => (!rd || m.winOk .read a) && (!wr || m.winOk .write a))

/-! ### Machine services -/

/-- The address of entry `g` of the gate table (R134). The table wraps modulo 2^32 like every effective address of R81 (DESIGN CHOICE, log entry 64:
R134 states no wrap). -/
def gateAddr (m : Mach) (g : Nat) : Nat := (m.cpu.gtb.toNat + 16 * g) % 2 ^ 32

/-- R144: the gate checks of a service call, made against the state of its first vc; the fault reason where one fails. A call whose first vc has
passed (`begun`) is not checked again. The check reads word 1 of the entry and no other, so that a word 0, 2 or 3 that cannot be read fails no
service call (DESIGN CHOICE, log entry 76: R144 does not say that all 16 bytes must be readable). -/
def serviceGate (e : Env) (m : Mach) (g t : Nat) : Option Nat :=
  if m.cpu.begun || m.lv = 1 then none
  else if m.cpu.gtl.toNat ≤ g then some 1
  else match loadSup e m (gateAddr m g + 4) 4 t with
    | .error _ => some 2
    | .ok (w, _) => if !bitOf w 2 then some 3 else if !bitOf w 24 then some 5 else none

/-- The context state in which a gate fault of reason 2 is taken: where poison makes one of `words` of the gate-table entry unreadable, it has been
consumed (R499, R500). -/
def noteGate (e : Env) (m : Mach) (words : List Nat) (t : Nat) : Mach :=
  match words.findSome? fun a => match loadSup e m a 4 t with | .error x => some x | .ok _ => none with
  | some x => noteConsumed e m x.1 x.2.toNat
  | none => m

/-- A gate check of a service call has failed (R144). -/
def serviceFault (e : Env) (m : Mach) (x g t : Nat) (pc : Word) : Ret :=
  gateFault (if x = 2 then noteGate e m [gateAddr m g + 4] t else m) x g pc

/-- The reads of words `ks` of entry `g` of the gate table by a call that completes, in its retiring vc `t`: a `TMn_COUNT` among them latches (R134,
R159), and corrections count (R509). -/
def gateReads (e : Env) (m : Mach) (g : Nat) (ks : List Nat) (t : Nat) : Mach :=
  ks.foldl (fun m k => (loadRaw e m (gateAddr m g + 4 * k) 4 t).2) m

/-- A machine service (R144): the gate checks, then `body`; a call from level 0 that completes has read word 1 of its gate entry. -/
def service (g : Nat) (body : Body) : Body := fun e m t pc nxt =>
  match serviceGate e m g t with
  | some x => serviceFault e m x g t pc
  | none =>
    let r := body e m t pc nxt
    if r.next = .seq && m.lv = 0 then { r with m := gateReads e r.m g [1] (t + r.cost - 1) } else r

/-- The first byte of a service argument that cannot be read in the retiring vc: unwritten gives vector 11, poison vector 12 (R144). -/
def argFault (e : Env) (m : Mach) (p n : Nat) : Option (Nat × Nat) :=
  (List.range n).findSome? fun i => match mapLoc e.cfg.prof m.img.len (p + i) with
    | some l => if unwrittenAt m l then some (11, p + i) else if poisonedAt e m 1 l then some (12, p + i) else none
    | none => none

/-- The bytes of a service argument, each at its own place of the map: a range may run from one memory into the next (R33, R136, R144). A byte that a
shorter image no longer holds reads 0 (DESIGN CHOICE, log entry 76). -/
def argBytes (e : Env) (m : Mach) (p n : Nat) : List Byte :=
  (List.range n).map fun i => match mapLoc e.cfg.prof m.img.len (p + i) with | some l => byteAt e m l | none => 0

/-- The read of an argument is noted: the corrections it makes count (R496, R509). -/
def noteArg (e : Env) (m : Mach) (p n : Nat) : Mach :=
  { m with fx := m.fx ++ (List.range n).flatMap fun i => match mapLoc e.cfg.prof m.img.len (p + i) with
      | some l => if i = 0 || l.unitStart then fixes e m l 1 else []
      | none => [] }

/-- A service that has passed its checks: cost and effect in the retiring vc, argument data read first (R144). -/
def serviceRun (e : Env) (m : Mach) (cost : Nat) (pc : Word) (p n : Nat) (f : Mach → Mach) : Ret :=
  match argFault e m p n with
  | some (v, a) => fail m cost v 0 (BitVec.ofNat 32 a) pc
  | none => ⟨f (noteArg e m p n), cost, .seq⟩

def setC (m : Mach) (b : Bool) : Mach := m.setPsw (setField m.cpu.psw 1 1 b.toNat)

/-- A check of a service call that only its first vc makes (R144). -/
def firstFails (m : Mach) (ok : Bool) : Bool := !m.cpu.begun && !ok

/-- ATTEST (R146): the nonce is read, with vector 11 or 12 where a byte of it cannot be, before an outstanding request answers C = 1 (DESIGN CHOICE,
log entry 64: the spec does not order the two). -/
def attestBody : Body := service 0xF0 fun e m t pc _ =>
  let p := (m.reg 0).toNat; let b := (m.reg 1).toNat
  let inWork := decide (0x01000000 ≤ b) && decide (b + 1024 ≤ 0x01000000 + workSize e.cfg.prof) && b % 4 = 0
  if firstFails m (rangeOk e m m.lv p 64 1) then gateFault m 8 0xF0 pc
  else if firstFails m (inWork && rangeOk e m m.lv b 1024 2) then gateFault m 9 0xF0 pc
  else serviceRun e m 16 pc p 64 fun m =>
    match m.attest with
    | some _ => setC m true
    | none =>
      let id := m.posted
      let r : AttestReq := { buf := b - 0x01000000, nonce := leNat (argBytes e m p 64), imgHash := m.img.hash
                             epoch := epochOf e.mode (t + 15), frame := if (epochOf e.mode (t + 15)) = 0 then none else some (epochOf e.mode (t + 15) - 1)
                             id := id }
      (setC { m with attest := some r, posted := id + 1 } false).emit (.attestReq id)

/-- RAND: one generate request of 64 bits, exhausted after 2^48 (R147). -/
def randBody : Body := service 0xF1 fun _ m _ _ _ =>
  if 2 ^ 48 ≤ m.drbg.count then ⟨setC ((m.setReg 0 0).setReg 1 0) true, 12, .seq⟩
  else
    let o := drbgGen 8 m.drbg.st
    ⟨setC (({ m with drbg := ⟨o.2, m.drbg.count + 1⟩ }.setReg 0 (BitVec.ofNat 32 (numAt o.1 0 4))).setReg 1 (BitVec.ofNat 32 (numAt o.1 4 4))) false,
      12, .seq⟩

/-- WALLTIME: device time at the last latch (R145, R438). With device time set it clears C (DEDUCED, log entry 81: R145 names only the case C = 1). -/
def walltimeBody : Body := service 0xF2 fun _ m _ _ _ =>
  match m.wall with
  | none => ⟨setC ((m.setReg 0 0).setReg 1 0) true, 6, .seq⟩
  | some w => ⟨setC ((m.setReg 0 (BitVec.ofNat 32 w)).setReg 1 (BitVec.ofNat 32 (w / 2 ^ 32))) false, 6, .seq⟩

/-- DEBUGOUT (R145, R148). A length above 256 sends nothing and sets C, whatever its range (DESIGN CHOICE, log entry 64: the spec does not order the
two). A DEBUGOUT that sends clears C (DEDUCED, log entry 81: R145 names only the case C = 1). -/
def debugoutBody : Body := service 0xF3 fun e m _ pc _ =>
  let p := (m.reg 0).toNat; let n := (m.reg 1).toNat
  if 256 < n then ⟨setC m true, 16, .seq⟩
  else if firstFails m (rangeOk e m m.lv p n 1) then gateFault m 8 0xF3 pc
  else serviceRun e m 16 pc p n fun m => (setC m false).emit (.debugMsg (argBytes e m p n))

/-- The newest unreleased posting of a queue takes a SAVE_COMMIT marker (R148). -/
def markNewest (o : Oq) : Oq :=
  match o.posts.reverse with
  | [] => o
  | p :: rest => { o with posts := (({ p with marked := true }) :: rest).reverse }

/-- SAVE_COMMIT (R145, R148). -/
def saveCommitBody : Body := service 0xF4 fun _ m _ pc _ =>
  let q := (m.reg 0).toNat
  let o := m.oqOf q
  if firstFails m (sideQueue q && o.en && !oqDir q o) then gateFault m 12 0xF4 pc
  else match o.posts.getLast? with
    | none => ⟨setC m true, 8, .seq⟩
    | some p => ⟨(setC (m.setOq q (markNewest o)) false).emit (.marked q p.id), 8, .seq⟩

/-- A gate number from 0xF5 is reserved (R145). -/
def reservedService (g : Nat) : Body := service g fun _ m _ pc _ => gateFault m 11 g pc

/-! ### CALLG and RETG -/

/-- A check byte (R135): enabled, register of the pointer, register of the length, access, length in words. -/
structure GateChk where
  en : Bool
  ptr : Nat
  len : Nat
  acc : Nat
  scale : Bool
  deriving DecidableEq, Repr

def gateChk (b : Nat) : GateChk := ⟨bitOf b 0, bitsOf b 2 1, bitsOf b 4 3, bitsOf b 6 5, bitOf b 7⟩

def GateChk.malformed (k : GateChk) (argc : Nat) : Bool :=
  k.en && (decide (argc ≤ k.ptr) || decide (argc ≤ k.len) || k.ptr = k.len || k.acc = 0)

def GateChk.passes (k : GateChk) (e : Env) (m : Mach) (lv : Nat) : Bool :=
  let n := (m.reg (Fin.ofNat 16 k.len)).toNat
  !k.en || rangeOk e m lv (m.reg (Fin.ofNat 16 k.ptr)).toNat (if k.scale then 4 * n else n) k.acc

/-- Load two words at supervisor level, none where either is unreadable (R134). -/
def gateEntry (e : Env) (m : Mach) (g t : Nat) : Option (Nat × Nat) :=
  let a := gateAddr m g
  match loadSup e m a 4 t, loadSup e m (a + 4) 4 t, loadSup e m (a + 8) 4 t, loadSup e m (a + 12) 4 t with
  | .ok (w0, _), .ok (w1, _), .ok _, .ok _ => some (w0, w1)
  | _, _, _, _ => none

/-- R125, R137, R139: at level 0 the record also lies in windows that grant the right. -/
def recordWin (m : Mach) (acc : Acc) (lv0 : Bool) (r : Nat) : Bool := !lv0 || (m.winOk acc r && m.winOk acc (r + 15))

/-- The checks of CALLG in the order of R137: the fault they take, or words 0 and 1 of the entry. -/
def gateChecks (e : Env) (m : Mach) (g t : Nat) (pc : Word) : Except Ret (Nat × Nat) :=
  let lv := m.lv
  if m.cpu.gtl.toNat ≤ g then .error (gateFault m 1 g pc)
  else match gateEntry e m g t with
  | none => .error (gateFault (noteGate e m ((List.range 4).map fun k => gateAddr m g + 4 * k) t) 2 g pc)
  | some (w0, w1) =>
    let lvl := bitsOf w1 1 0; let argc := bitsOf w1 6 4
    let k0 := gateChk (bitsOf w1 15 8); let k1 := gateChk (bitsOf w1 23 16)
    if !bitOf w1 2 then .error (gateFault m 3 g pc)
    else if 1 < lvl || 4 < argc || k0.malformed argc || k1.malformed argc then .error (gateFault m 4 g pc)
    else if !bitOf w1 (24 + lv) then .error (gateFault m 5 g pc)
    else if lvl < lv then .error (gateFault m 6 g pc)
    else if bitOf w0 0 then .error (gateFault m 7 g pc)
    else if !k0.passes e m lv then .error (gateFault m 8 g pc)
    else if !k1.passes e m lv then .error (gateFault m 9 g pc)
    else
      let r := (if lvl = 1 && lv = 0 then m.cpu.ssp else m.reg spReg) - 16
      if !(frameOk e m r.toNat 16 && recordWin m .write (lvl = 0) r.toNat) then .error (fail m 1 6 1 r pc) else .ok (w0, w1)

/-- CALLG of a gate below 0xF0 (R137): every check in its first vc, which reads the entry (DEDUCED, log entry 76: what has been checked is what takes
effect); the effects in its sixth. -/
def gateCall (g : Nat) : Body := fun e m t pc nxt =>
  match if m.cpu.begun then .ok (m.cpu.word.getD 0 0, m.cpu.word.getD 1 0)
      else (gateChecks e m g t pc).map fun w => (BitVec.ofNat 32 w.1, BitVec.ofNat 32 w.2) with
  | .error r => r
  | .ok (w0, w1) =>
    let lv := m.lv
    let lvl := bitsOf w1.toNat 1 0; let argc := bitsOf w1.toNat 6 4
    let up := lvl = 1 && lv = 0
    let r := (if up then m.cpu.ssp else m.reg spReg) - 16
    let old := m.pswAt (t + 5)
    let m1 := putWords e (gateReads e m g [0, 1, 2, 3] (t + 5)) r.toNat [nxt, old, BitVec.ofNat 32 (0x6A7E0000 + g), 0] (t + 5)
    let psw := setField (setField (setField m.cpu.psw 10 2 lvl) 4 1 0) 12 2 0
    let psw := if bitOf w1.toNat 3 then setField psw 5 1 0 else psw
    let m1 := { m1 with cpu := { m1.cpu with usp := if up then m.reg spReg else m.cpu.usp, psw := psw, word := [w0, w1] } }.setReg spReg r
    let m1 := (List.range 4).foldl (fun m k => if argc ≤ k then m.setReg (Fin.ofNat 16 k) 0 else m) m1
    ⟨m1, 6, .jump w0⟩

/-- CALLG: gates from 0xF0 are machine services (R137, R144). -/
def callgBody (g : Nat) : Body :=
  if g = 0xF0 then attestBody else if g = 0xF1 then randBody else if g = 0xF2 then walltimeBody else if g = 0xF3 then debugoutBody
  else if g = 0xF4 then saveCommitBody else if 0xF0 ≤ g then reservedService g else gateCall g

/-- RETG (R139). Whether the record can be read is checked in its first vc, which reads it; the other checks are on the words read. -/
def retgBody : Body := fun e m _ pc _ =>
  let lv := m.lv
  let r := m.reg spReg
  let first := !m.cpu.begun
  if first && !(frameReadable e m r.toNat 16 && recordWin m .read (lv = 0) r.toNat) then fail m 1 6 0 r pc
  else
    let l := (areaLoc e.cfg.prof r.toNat 16).getD (.fast 0)
    match if first then poisonByte e m r.toNat 16 l else none with
    | some a => fail m 1 12 0 (BitVec.ofNat 32 a) pc
    | none =>
      let ws := keptWords e m r.toNat 16
      let w (k : Nat) : Word := ws.getD k 0
      if (w 2).toNat / 2 ^ 16 ≠ 0x6A7E ∨ w 3 ≠ 0 then gateFault m 10 0 pc
      else if lv < pswLV (w 1) then fail m 1 7 3 (w 1) pc
      else if (w 0).getLsbD 0 then fail m 1 3 3 (w 0) pc
      else
        let psw := (m.cpu.psw &&& 0xC0F#32) ||| (w 1 &&& 0x31F0#32)
        let up := r + 16
        let c := { m.cpu with word := ws }
        let n := noteRead e m l 16
        if pswLV (w 1) = 0 ∧ lv = 1 then
          ⟨{ n with cpu := { c with ssp := up, psw := setField psw 10 2 0, regs := c.regs.set spReg c.usp } }, 4, .jump (w 0)⟩
        else ⟨{ n with cpu := { c with psw := psw, regs := c.regs.set spReg up } }, 4, .jump (w 0)⟩

def execCallg (c : Nat) (g : Fin 256) (s : State) : Host.Outcome State Fault Refusal :=
  coreStep s c (encodingOf (.callg c g)) (callgBody g.val)

def execRetg (c : Nat) (s : State) : Host.Outcome State Fault Refusal := coreStep s c (encodingOf (.retg c)) retgBody

/-- RETE at level 0 takes vector 2 (R132); the instruction after it takes no comparator match (R124). -/
def execRete (c : Nat) (s : State) : Host.Outcome State Fault Refusal :=
  let enc := encodingOf (.rete c)
  coreStep s c enc fun e m _ pc _ =>
    if m.lv = 0 then fail m 1 2 3 enc.bits pc
    else
      let r := rete e m pc
      match r.next with
      | .jump _ => { r with m := { r.m with cpu := { r.m.cpu with afterRete := true } } }
      | _ => r

/-- ATTEST (R145, R146). -/
def execAttest (c : Nat) (s : State) : Host.Outcome State Fault Refusal := coreStep s c (encodingOf (.attest c)) attestBody
/-- RAND (R145, R147). -/
def execRand (c : Nat) (s : State) : Host.Outcome State Fault Refusal := coreStep s c (encodingOf (.rand c)) randBody
/-- WALLTIME (R145). -/
def execWalltime (c : Nat) (s : State) : Host.Outcome State Fault Refusal := coreStep s c (encodingOf (.walltime c)) walltimeBody
/-- DEBUGOUT (R145, R148). -/
def execDebugout (c : Nat) (s : State) : Host.Outcome State Fault Refusal := coreStep s c (encodingOf (.debugout c)) debugoutBody
/-- SAVE_COMMIT (R145, R148). -/
def execSaveCommit (c : Nat) (s : State) : Host.Outcome State Fault Refusal := coreStep s c (encodingOf (.saveCommit c)) saveCommitBody

/-- BRK takes vector 9 with the following instruction as frame PC (R110, R122). -/
def execBrk (c : Nat) (s : State) : Host.Outcome State Fault Refusal :=
  coreStep s c (encodingOf (.brk c)) fun _ m _ pc nxt => fail m 1 9 3 pc nxt

/-- NOP (R110). -/
def execNop (c : Nat) (s : State) : Host.Outcome State Fault Refusal :=
  coreStep s c (encodingOf (.nop c)) fun _ m _ _ _ => ⟨m, 1, .seq⟩

/-! ### SLEEP, SYNC, POST -/

/-- SLEEP retires in the first vc at the end of which a source wakes it; while none does, or a happening comes before that vc, it waits (R107). -/
def sleepBody : Body := fun e m t _ _ =>
  match m.ic.firstReady (pswIPL m.cpu.psw) with
  | some b => if max t (b - 1) < m.lim e.cfg then ⟨m, max (t + 1) b - t, .seq⟩ else ⟨{ m with cpu := { m.cpu with idle := some true } }, 0, .stay⟩
  | none => ⟨{ m with cpu := { m.cpu with idle := some true } }, 0, .stay⟩

/-- SYNC retires in the vc in which the last blit ends, or at once; until then, or while a happening comes before that vc, it waits (R108). -/
def syncBody : Body := fun e m t _ _ =>
  match syncRetire m with
  | some r => if r < m.lim e.cfg then ⟨m, r + 1 - t, .seq⟩ else ⟨{ m with cpu := { m.cpu with idle := some false } }, 0, .stay⟩
  | none => ⟨{ m with cpu := { m.cpu with idle := some false } }, 0, .stay⟩

def execSleep (c : Nat) (s : State) : Host.Outcome State Fault Refusal := coreStep s c (encodingOf (.sleep c)) sleepBody
def execSync (c : Nat) (s : State) : Host.Outcome State Fault Refusal := coreStep s c (encodingOf (.sync c)) syncBody

/-- POST (R55, R57, R109): four vc whatever its outcome, judged against the state of the fourth. -/
def postBody (q : Nat) : Body := fun e m _ pc _ =>
  let o := m.oqOf q
  let off := (m.reg 0).toNat; let n := (m.reg 1).toNat
  let base := o.base.toNat + off
  let refused := (m.lv = 0 && !m.umask.getLsbD 12) || !(sideQueue q && o.en && !oqDir q o) || n = 0 || decide (o.size.toNat < off + n)
  let view := BitVec.ofNat 32 (0x08000000 + q * 0x100000 + off)
  if refused then fail m 4 4 3 view pc
  else if 16 ≤ o.posts.length then ⟨setC m true, 4, .seq⟩
  else
    let bad := if e.cfg.rben then (List.range n).find? fun i => poisonedAt e m 1 (.ram .work (base + i)) else none
    match bad with
    | some i => fail m 4 12 0 (BitVec.ofNat 32 (0x01000000 + base + i)) pc
    | none =>
      let id := m.posted
      let copy := if e.cfg.rben then memBytes m.mem.work base n else []
      let post : Posting := { base := base, len := n, id := id }
      let m := if e.cfg.rben then noteRead e m (.ram .work base) n else m
      let m := ({ m with posted := id + 1 } : Mach).setOq q { o with posts := o.posts ++ [post] }
      ⟨(setC m false).emit (.posted q id base n copy), 4, .seq⟩

def execPost (c : Nat) (q : Fin 16) (s : State) : Host.Outcome State Fault Refusal :=
  coreStep s c (encodingOf (.post c q)) (postBody q.val)

end Sys2Proof.Machine
end

