-- ==== Sys2Proof/Machine/ImmMem.lean ====
section
/-! DEFINITION. Immediate operations (R78, R79, R83), loads and stores (R81, R82). -/
namespace Sys2Proof.Machine

/-- MOVI: the zero-extended immediate, no flag. -/
def execMovi (c : Nat) (rd : Reg) (imm : Byte) (s : State) : Host.Outcome State Fault Refusal :=
  coreStep s c (encodingOf (.movi c rd imm)) (aluBody 1 rd fun _ => { val := imm.setWidth 32 })

/-- MOVHI: the immediate shifted left by 16, no flag. -/
def execMovhi (c : Nat) (rd : Reg) (imm : Half) (s : State) : Host.Outcome State Fault Refusal :=
  coreStep s c (encodingOf (.movhi c rd imm)) (aluBody 1 rd fun _ => { val := imm.setWidth 32 <<< 16 })

/-- ADDI: as ADD with the sign-extended immediate. -/
def execAddi (c : Nat) (f : AddImm) (s : State) : Host.Outcome State Fault Refusal :=
  coreStep s c (encodingOf (.addi c f)) (aluBody 1 (addImmDest f) fun m => addRes (addImmX m f) (addImmY f) false)

/-- CMPI: as CMP with the sign-extended immediate. -/
def execCmpi (c : Nat) (f : CmpImm) (s : State) : Host.Outcome State Fault Refusal :=
  coreStep s c (encodingOf (.cmpi c f)) (flagBody fun m => subRes (cmpImmX m f) (cmpImmY f) true)

/-- ANDI with the zero-extended immediate. -/
def execAndi (c : Nat) (rd ra : Reg) (imm : Half) (s : State) : Host.Outcome State Fault Refusal :=
  coreStep s c (encodingOf (.andi c rd ra imm)) (aluBody 1 rd fun m => resNZ (m.reg ra &&& imm.setWidth 32))

/-- ORI with the zero-extended immediate. -/
def execOri (c : Nat) (rd ra : Reg) (imm : Half) (s : State) : Host.Outcome State Fault Refusal :=
  coreStep s c (encodingOf (.ori c rd ra imm)) (aluBody 1 rd fun m => resNZ (m.reg ra ||| imm.setWidth 32))

/-- XORI with the zero-extended immediate. -/
def execXori (c : Nat) (rd ra : Reg) (imm : Half) (s : State) : Host.Outcome State Fault Refusal :=
  coreStep s c (encodingOf (.xori c rd ra imm)) (aluBody 1 rd fun m => resNZ (m.reg ra ^^^ imm.setWidth 32))

/-- LDW. -/
def execLdw (c : Nat) (rd : Reg) (ea : Ea) (s : State) : Host.Outcome State Fault Refusal :=
  let enc := encodingOf (.ldw c rd ea)
  coreStep s c enc (loadBody enc.bits .zero 4 (eaOk true true true rd ea) rd ea)

/-- LDH, zero-extended. -/
def execLdh (c : Nat) (rd : Reg) (ea : Ea) (s : State) : Host.Outcome State Fault Refusal :=
  let enc := encodingOf (.ldh c rd ea)
  coreStep s c enc (loadBody enc.bits .zero 2 (eaOk false true true rd ea) rd ea)

/-- LDHS, sign-extended. -/
def execLdhs (c : Nat) (rd : Reg) (ea : Ea) (s : State) : Host.Outcome State Fault Refusal :=
  let enc := encodingOf (.ldhs c rd ea)
  coreStep s c enc (loadBody enc.bits .sign 2 (eaOk false false true rd ea) rd ea)

/-- LDB, zero-extended. -/
def execLdb (c : Nat) (rd : Reg) (ea : Ea) (s : State) : Host.Outcome State Fault Refusal :=
  let enc := encodingOf (.ldb c rd ea)
  coreStep s c enc (loadBody enc.bits .zero 1 (eaOk false true true rd ea) rd ea)

/-- LDBS, sign-extended. -/
def execLdbs (c : Nat) (rd : Reg) (ea : Ea) (s : State) : Host.Outcome State Fault Refusal :=
  let enc := encodingOf (.ldbs c rd ea)
  coreStep s c enc (loadBody enc.bits .sign 1 (eaOk false false true rd ea) rd ea)

/-- STW. -/
def execStw (c : Nat) (rd : Reg) (ea : Ea) (s : State) : Host.Outcome State Fault Refusal :=
  let enc := encodingOf (.stw c rd ea)
  coreStep s c enc (storeBody enc.bits 4 (eaOk true true false rd ea) rd ea)

/-- STH: the low 16 bits. -/
def execSth (c : Nat) (rd : Reg) (ea : Ea) (s : State) : Host.Outcome State Fault Refusal :=
  let enc := encodingOf (.sth c rd ea)
  coreStep s c enc (storeBody enc.bits 2 (eaOk false true false rd ea) rd ea)

/-- STB: the low 8 bits. -/
def execStb (c : Nat) (rd : Reg) (ea : Ea) (s : State) : Host.Outcome State Fault Refusal :=
  let enc := encodingOf (.stb c rd ea)
  coreStep s c enc (storeBody enc.bits 1 (eaOk false true false rd ea) rd ea)

end Sys2Proof.Machine
end

