-- ==== Sys2Proof/Machine/Start.lean ====
section
/-! DEFINITION. Resets (R525 to R527) and start-up (R528, R529). -/
namespace Sys2Proof.Machine

/-! ### Resets (R526) -/

/-- Pads stay as the board drives them; every set-up and lock is at its Reset value. -/
def resetGpio (g : Gpio) : Gpio :=
  { pins := Vector.ofFn fun n => { resetPins[n] with pad := g.pins[n].pad }, store := g.store }

/-- What every reset of the device keeps: the vote store, the boot flash with the board configuration area, and the model's own fields. -/
def resetBase (s : State) (cold : Bool) : State :=
  { State.reset with
    pending := s.pending
    free := s.free
    wire := s.wire
    ident := s.ident
    votes := s.votes
    mgmt := { State.reset.mgmt with
      orderNext := s.mgmt.orderNext, m2addr := s.mgmt.m2addr, lease := s.mgmt.lease, creds := s.mgmt.creds, tripped := s.mgmt.tripped }
    audit := { State.reset.audit with seq := s.audit.seq, chain := s.audit.chain, sseq := s.audit.sseq, cold := cold }
    power := { State.reset.power with
      limit := s.power.limit, cap := s.power.cap, throttle := s.power.throttle, g := s.power.g, retired := s.power.retired, ageHours := s.power.ageHours
      forecastLow := s.power.forecastLow }
    gpio := resetGpio s.gpio }

/-- COLD_RESET (R525, R526). -/
def execColdReset (s : State) : Host.Outcome State Fault Refusal := .next (resetBase s true)

/-- The final statements that the next READY owes: one for each context charged at the reset, covering up to the reset (R526). -/
def owedStmts (s : State) : List Stmt := (s.ctxs.filter fun x => x.orr.charged).map fun x => stmtOf s x true

/-- DEVICE_RESET: HBM keeps the Almanac and the statement store in self-refresh, and device time goes on counting; otherwise it is as a
cold reset (R526). -/
def execDeviceReset (selfRefreshOk : Bool) (s : State) : Host.Outcome State Fault Refusal :=
  if !selfRefreshOk then .next (resetBase s true)
  else
    let t := resetBase s false
    .next { t with audit := { t.audit with recs := s.audit.recs, stmts := s.audit.stmts, time := s.audit.time, owed := s.audit.owed ++ owedStmts s } }

/-- PORT_B_RESET on a bifurcated link: a port fault, and function B's configuration space at its reset values (R525). -/
def execPortBReset (s : State) : Host.Outcome State Fault Refusal :=
  if s.gpio.bifurc then
    let t := portFault s 1
    let r : Func := {}
    .next (t.setFunc 1 { t.func 1 with
      busMaster := r.busMaster, msixEn := r.msixEn, d3hot := r.d3hot, linkUp := r.linkUp, speed := r.speed, width := r.width, mps := r.mps
      mrrs := r.mrrs, roEn := r.roEn, nsEn := r.nsEn, ptmEn := r.ptmEn, ptm := r.ptm, advisory := r.advisory })
  else .next s

/-! ### Start-up (R528, R529) -/

/-- A flash bank passes its verification: the maker's signature, no write that has left it invalid, an FWSVN not below the lowest one (R527, R529). -/
def bankOk (i : Ident) (p : BootP) (k : Fin 2) : Bool :=
  (if k = 0 then p.bankAOk else p.bankBOk) && !i.banks[k].bad && decide (i.minSvn ≤ i.banks[k].svn)

/-- The bank that is not `k`. -/
def otherBank (k : Fin 2) : Fin 2 := 1 - k

/-- The bank that boots, none where both fail, and whether that is a fall-back. A bank written by FW.UPDATE counts as marked active (R472, R529). -/
def chooseBank (i : Ident) (p : BootP) : Option (Fin 2 × Bool) :=
  let first := if i.fresh then otherBank i.active else i.active
  if bankOk i p first then some (first, false) else if bankOk i p (otherBank first) then some (otherBank first, true) else none

/-- The bank that boots becomes the active one; its measurement and security version are the running ones (R409, R529). -/
def bootIdent (i : Ident) (k : Fin 2) : Ident := { i with active := k, fresh := false, fwmeas := i.banks[k].meas, fwsvn := i.banks[k].svn }

/-- A half of the chip tag as the flash shows it now. -/
def flipTag (t : TagHalf) (l : List (Fin 304 × Byte)) : TagHalf :=
  let f := l.foldl (fun f p => f.set p.1.val p.2) (t.bytes ++ t.mac)
  { t with bytes := f.take 256, mac := f.drop 256 }

/-- The check of a half at boot: one that is not erased fails where its MAC is not that of its bytes (R447). -/
def checkTag (i : Ident) (t : TagHalf) : TagHalf := { t with bad := !t.erased && decide (t.mac ≠ i.tagMac t.bytes) }

/-- Both halves at boot (R447). -/
def bootTags (i : Ident) (flips : List (Fin 2 × Fin 304 × Byte)) : Ident :=
  { i with tags := Vector.ofFn fun k => checkTag i (flipTag i.tags[k] ((flips.filter fun p => p.1 = k).map fun p => p.2)) }

/-- Steps 1 and 2: BIF_STRAP is taken, and the board-ID straps latch the levels at the pads (R517, R528). -/
def bootStraps (s : State) (strap : Bool) : State :=
  { s with gpio := { s.gpio with bifurc := strap, straps := numOfBits (s.gpio.pins.toList.map fun p => p.pad) } }

/-- Step 3: bank `k` has passed and is marked active, the chip tag is checked, the board configuration applied (R447, R519, R528, R529). -/
def bootImage (s : State) (p : BootP) (k : Fin 2) : State :=
  { s with gpio := applyStore s.gpio p.boardCfgOk, ident := bootTags (bootIdent s.ident k) p.tagFlips }

/-- Step 5, the re-plan apart: every word of the vote store is read, and the quadrants start at step 2 (R507, R508, R528). -/
def bootTest (s : State) : State := setRail { readVotes s (fun _ => true) with power := { s.power with step := Vector.replicate 4 2 } }

/-- The measurement of the re-plan has ended (R490, R528). -/
def measured (s : State) : State := { s with power := { s.power with ageEnd := 0 } }

/-- Step 6: the boot count, and the boot record, which says in byte 2 of its DETAIL whether a cold reset applied and in byte 3 whether the boot fell back,
then the records of what step 5 and step 3 found, the re-plan itself among them (R435, R447, R490). -/
def bootRecord (s : State) (p : BootP) (fellBack : Bool) : State :=
  let s := { s.storeVote .boot with ident := { s.ident with boot := s.ident.boot + 1 } }
  let s := deviceRec s 0xFFFF 0xFFFF [b8 s.audit.cold.toNat, b8 fellBack.toNat]
  let s := measured (replan s p.slacks)
  (s.ident.tags.toList.filter fun t => t.bad).foldl (fun s _ => deviceRec s 0xFFFF 0xFFFF []) s

/-- Step 7: READY, the final statements that the last reset left, and the record of a thermal trip (R488, R526, R528). -/
def bootReady (s : State) : State :=
  let s := onReady s
  let s := s.audit.owed.foldl (fun s t => (issueStmt s t).1) { s with audit := { s.audit with owed := [] } }
  if s.mgmt.tripped then deviceRec { s with mgmt := { s.mgmt with tripped := false } } 0xFFFF 0xFFFF [] else s

/-- START_UP: from the release of reset to READY, or to HALTED where both banks or the vote store fail (R508, R528, R529). -/
def execStartUp (p : BootP) (s : State) : Host.Outcome State Fault Refusal :=
  if s.mgmt.devstate ≠ 1 then .next s
  else match chooseBank s.ident p with
    | none => .next (halted (bootStraps s p.bifStrap))
    | some k =>
      let t := bootTest (bootImage (bootStraps s p.bifStrap) p k.1)
      if s.voteLost fun _ => true then .next (halted t) else .next (bootReady (bootRecord t p k.2))

/-- What a start-up finds whose row does not say it: BIF_STRAP, whether the banks pass and the board configuration is intact, and the slacks are free
values; the chip tag's flash is as it was. -/
def freeBoot (s : State) : BootP × State :=
  let a := s.takeFree
  let b := a.2.takeFree
  let sl (k : Nat) : Int := ((b.1 / 2 ^ (16 * k) % 2 ^ 16 : Nat) : Int) - 2 ^ 15
  ({ bifStrap := a.1 % 2 = 1, bankAOk := a.1 / 2 % 2 = 1, bankBOk := a.1 / 4 % 2 = 1, boardCfgOk := a.1 / 8 % 2 = 1, slacks := [sl 0, sl 1, sl 2]
     tagFlips := [] }, b.2)

/-- What a start-up leaves whose step `late` exceeds its time, the steps before it having had their effects (R528, R529; that the late step has none, but
for the straps that steps 1 and 2 take, is a DESIGN CHOICE, log entry 81). -/
def bootUpTo (late : Nat) (p : BootP) (s : State) : State :=
  let t := bootStraps s p.bifStrap
  match chooseBank s.ident p with
  | none => t
  | some k =>
    if late ≤ 3 then t
    else
      let t := bootImage t p k.1
      if late ≤ 5 then t
      else if (s.voteLost fun _ => true) || late = 6 then measured (putPlan (bootTest t) (agePlan (bootTest t) p.slacks))
      else bootRecord (bootTest t) p k.2

/-- START_UP_TIMEOUT: a step exceeds twice its maximum time, which one a free value, and the device is HALTED (R529). -/
def execStartUpTimeout (s : State) : Host.Outcome State Fault Refusal :=
  if s.mgmt.devstate = 1 then
    let r := s.takeFree
    let b := freeBoot r.2
    .next (halted (bootUpTo (r.1 % 6 + 2) b.1 b.2))
  else .next s

end Sys2Proof.Machine
end

