-- ==== Sys2Proof/Machine/Dispatch.lean ====
section
/-! DEFINITION. The meaning of each command: one arm per constructor of `Instr`. -/
namespace Sys2Proof.Machine

def exec (i : Instr) (s : State) : Host.Outcome State Fault Refusal :=
  match i with
  | .mov c f => Sys2Proof.Machine.execMov c f s
  | .add c f => Sys2Proof.Machine.execAdd c f s
  | .adc c f => Sys2Proof.Machine.execAdc c f s
  | .sub c f => Sys2Proof.Machine.execSub c f s
  | .sbc c f => Sys2Proof.Machine.execSbc c f s
  | .and c f => Sys2Proof.Machine.execAnd c f s
  | .or c f => Sys2Proof.Machine.execOr c f s
  | .xor c f => Sys2Proof.Machine.execXor c f s
  | .cmp c f => Sys2Proof.Machine.execCmp c f s
  | .tst c f => Sys2Proof.Machine.execTst c f s
  | .neg c f => Sys2Proof.Machine.execNeg c f s
  | .not c f => Sys2Proof.Machine.execNot c f s
  | .mul c f => Sys2Proof.Machine.execMul c f s
  | .lsl c f => Sys2Proof.Machine.execLsl c f s
  | .lsr c f => Sys2Proof.Machine.execLsr c f s
  | .asr c f => Sys2Proof.Machine.execAsr c f s
  | .mulh c rd ra rb => Sys2Proof.Machine.execMulh c rd ra rb s
  | .mulhu c rd ra rb => Sys2Proof.Machine.execMulhu c rd ra rb s
  | .div c rd ra rb => Sys2Proof.Machine.execDiv c rd ra rb s
  | .divu c rd ra rb => Sys2Proof.Machine.execDivu c rd ra rb s
  | .rem c rd ra rb => Sys2Proof.Machine.execRem c rd ra rb s
  | .remu c rd ra rb => Sys2Proof.Machine.execRemu c rd ra rb s
  | .min c rd ra rb => Sys2Proof.Machine.execMin c rd ra rb s
  | .max c rd ra rb => Sys2Proof.Machine.execMax c rd ra rb s
  | .minu c rd ra rb => Sys2Proof.Machine.execMinu c rd ra rb s
  | .maxu c rd ra rb => Sys2Proof.Machine.execMaxu c rd ra rb s
  | .ror c f => Sys2Proof.Machine.execRor c f s
  | .sxtb c rd ra => Sys2Proof.Machine.execSxtb c rd ra s
  | .sxth c rd ra => Sys2Proof.Machine.execSxth c rd ra s
  | .zxtb c rd ra => Sys2Proof.Machine.execZxtb c rd ra s
  | .zxth c rd ra => Sys2Proof.Machine.execZxth c rd ra s
  | .movi c rd imm => Sys2Proof.Machine.execMovi c rd imm s
  | .addi c f => Sys2Proof.Machine.execAddi c f s
  | .cmpi c f => Sys2Proof.Machine.execCmpi c f s
  | .andi c rd ra imm => Sys2Proof.Machine.execAndi c rd ra imm s
  | .ori c rd ra imm => Sys2Proof.Machine.execOri c rd ra imm s
  | .xori c rd ra imm => Sys2Proof.Machine.execXori c rd ra imm s
  | .movhi c rd imm => Sys2Proof.Machine.execMovhi c rd imm s
  | .ldw c rd ea => Sys2Proof.Machine.execLdw c rd ea s
  | .ldh c rd ea => Sys2Proof.Machine.execLdh c rd ea s
  | .ldhs c rd ea => Sys2Proof.Machine.execLdhs c rd ea s
  | .ldb c rd ea => Sys2Proof.Machine.execLdb c rd ea s
  | .ldbs c rd ea => Sys2Proof.Machine.execLdbs c rd ea s
  | .stw c rd ea => Sys2Proof.Machine.execStw c rd ea s
  | .sth c rd ea => Sys2Proof.Machine.execSth c rd ea s
  | .stb c rd ea => Sys2Proof.Machine.execStb c rd ea s
  | .bcc c cond f => Sys2Proof.Machine.execBcc c cond f s
  | .b c off => Sys2Proof.Machine.execB c off s
  | .bl c off => Sys2Proof.Machine.execBl c off s
  | .br c rs => Sys2Proof.Machine.execBr c rs s
  | .blr c rs => Sys2Proof.Machine.execBlr c rs s
  | .mrs c rd cr => Sys2Proof.Machine.execMrs c rd cr s
  | .msr c cr ra => Sys2Proof.Machine.execMsr c cr ra s
  | .loop c ra eoff => Sys2Proof.Machine.execLoop c ra eoff s
  | .loopi c cnt eoff => Sys2Proof.Machine.execLoopi c cnt eoff s
  | .lpop c => Sys2Proof.Machine.execLpop c s
  | .macx c ra rb sz sa sb clr sub => Sys2Proof.Machine.execMacx c ra rb sz sa sb clr sub s
  | .accrd c rd sh sat rnd clr => Sys2Proof.Machine.execAccrd c rd sh sat rnd clr s
  | .post c q => Sys2Proof.Machine.execPost c q s
  | .callg c g => Sys2Proof.Machine.execCallg c g s
  | .retg c => Sys2Proof.Machine.execRetg c s
  | .rete c => Sys2Proof.Machine.execRete c s
  | .brk c => Sys2Proof.Machine.execBrk c s
  | .nop c => Sys2Proof.Machine.execNop c s
  | .sleep c => Sys2Proof.Machine.execSleep c s
  | .sync c => Sys2Proof.Machine.execSync c s
  | .bmov c => Sys2Proof.Machine.execBmov c s
  | .bfill c => Sys2Proof.Machine.execBfill c s
  | .bcmp c => Sys2Proof.Machine.execBcmp c s
  | .illegalOpcode c e => Sys2Proof.Machine.execIllegalOpcode c e s
  | .attest c => Sys2Proof.Machine.execAttest c s
  | .rand c => Sys2Proof.Machine.execRand c s
  | .walltime c => Sys2Proof.Machine.execWalltime c s
  | .debugout c => Sys2Proof.Machine.execDebugout c s
  | .saveCommit c => Sys2Proof.Machine.execSaveCommit c s
  | .interruptEntry c => Sys2Proof.Machine.execInterruptEntry c s
  | .holdWindowEnd c => Sys2Proof.Machine.execHoldWindowEnd c s
  | .timerTick c n => Sys2Proof.Machine.execTimerTick c n s
  | .tmCountRead c n => Sys2Proof.Machine.execTmCountRead c n s
  | .tmCtlWrite c n v => Sys2Proof.Machine.execTmCtlWrite c n v s
  | .tmCountWrite c n v => Sys2Proof.Machine.execTmCountWrite c n v s
  | .timerHaltTick c => Sys2Proof.Machine.execTimerHaltTick c s
  | .bmFramelRead c => Sys2Proof.Machine.execBmFramelRead c s
  | .icRaise c v => Sys2Proof.Machine.execIcRaise c v s
  | .oqCtlWrite c q v => Sys2Proof.Machine.execOqCtlWrite c q v s
  | .registerWrite t v => Sys2Proof.Machine.execRegisterWrite t v s
  | .hblankStart c => Sys2Proof.Machine.execHblankStart c s
  | .lineCompare c => Sys2Proof.Machine.execLineCompare c s
  | .inputLatch c => Sys2Proof.Machine.execInputLatch c s
  | .rasterListCapture c => Sys2Proof.Machine.execRasterListCapture c s
  | .listInForce c => Sys2Proof.Machine.execListInForce c s
  | .rasterEntryAction c => Sys2Proof.Machine.execRasterEntryAction c s
  | .spriteEvaluation c => Sys2Proof.Machine.execSpriteEvaluation c s
  | .sheafBegin c => Sys2Proof.Machine.execSheafBegin c s
  | .lineRender c => Sys2Proof.Machine.execLineRender c s
  | .laneWaitEnd c => Sys2Proof.Machine.execLaneWaitEnd c s
  | .lineCommit c => Sys2Proof.Machine.execLineCommit c s
  | .videoSliceEncode c => Sys2Proof.Machine.execVideoSliceEncode c s
  | .audioSample c => Sys2Proof.Machine.execAudioSample c s
  | .auCommit c v => Sys2Proof.Machine.execAuCommit c v s
  | .audioCommitTaken c => Sys2Proof.Machine.execAudioCommitTaken c s
  | .crossfadeEnd c => Sys2Proof.Machine.execCrossfadeEnd c s
  | .audioBlockCommit c => Sys2Proof.Machine.execAudioBlockCommit c s
  | .audioBlockSend c => Sys2Proof.Machine.execAudioBlockSend c s
  | .buGo c v => Sys2Proof.Machine.execBuGo c v s
  | .blitStart c => Sys2Proof.Machine.execBlitStart c s
  | .blitRow c => Sys2Proof.Machine.execBlitRow c s
  | .inputMessage c => Sys2Proof.Machine.execInputMessage c s
  | .inputDeadline c => Sys2Proof.Machine.execInputDeadline c s
  | .sideMessage c => Sys2Proof.Machine.execSideMessage c s
  | .keyEnvelopeMessage c => Sys2Proof.Machine.execKeyEnvelopeMessage c s
  | .debugHaltRequest c => Sys2Proof.Machine.execDebugHaltRequest c s
  | .debugResume c => Sys2Proof.Machine.execDebugResume c s
  | .attestSigned c => Sys2Proof.Machine.execAttestSigned c s
  | .depthAdjust c => Sys2Proof.Machine.execDepthAdjust c s
  | .firstUseEnd c => Sys2Proof.Machine.execFirstUseEnd c s
  | .epochRelease c => Sys2Proof.Machine.execEpochRelease c s
  | .swapOut c => Sys2Proof.Machine.execSwapOut c s
  | .swapIn c => Sys2Proof.Machine.execSwapIn c s
  | .egressSecond c => Sys2Proof.Machine.execEgressSecond c s
  | .doorbell port qid v descs readErr => Sys2Proof.Machine.execDoorbell port qid v descs readErr s
  | .outboundMessageWrite qid => Sys2Proof.Machine.execOutboundMessageWrite qid s
  | .inboundMessageRead qid a => Sys2Proof.Machine.execInboundMessageRead qid a s
  | .coalescerFire k => Sys2Proof.Machine.execCoalescerFire k s
  | .hQprobe port v => Sys2Proof.Machine.execHQprobe port v s
  | .hDmactl port v => Sys2Proof.Machine.execHDmactl port v s
  | .dmaDisableClear port rings => Sys2Proof.Machine.execDmaDisableClear port rings s
  | .dlDown port => Sys2Proof.Machine.execDlDown port s
  | .flr port => Sys2Proof.Machine.execFlr port s
  | .busMasterDisable port => Sys2Proof.Machine.execBusMasterDisable port s
  | .chipLevelFault cause => Sys2Proof.Machine.execChipLevelFault cause s
  | .firmwareRestart => Sys2Proof.Machine.execFirmwareRestart s
  | .restartTimeout => Sys2Proof.Machine.execRestartTimeout s
  | .bulkTransferComplete master tag hostErr => Sys2Proof.Machine.execBulkTransferComplete master tag hostErr s
  | .m2Write pecOk off data => Sys2Proof.Machine.execM2Write pecOk off data s
  | .m2SetRead pecOk off len => Sys2Proof.Machine.execM2SetRead pecOk off len s
  | .m2Read pecOk => Sys2Proof.Machine.execM2Read pecOk s
  | .chipQuery h => Sys2Proof.Machine.execChipQuery h s
  | .chipCerts h => Sys2Proof.Machine.execChipCerts h s
  | .chipEvents h cursor => Sys2Proof.Machine.execChipEvents h cursor s
  | .chipClaim h => Sys2Proof.Machine.execChipClaim h s
  | .chipRenew h => Sys2Proof.Machine.execChipRenew h s
  | .chipRelease h => Sys2Proof.Machine.execChipRelease h s
  | .chipHandover h target => Sys2Proof.Machine.execChipHandover h target s
  | .chipAccept h => Sys2Proof.Machine.execChipAccept h s
  | .chipTag h off data flashOk => Sys2Proof.Machine.execChipTag h off data flashOk s
  | .chipEnrol h p => Sys2Proof.Machine.execChipEnrol h p s
  | .chipSetclaim h order m2addr lease => Sys2Proof.Machine.execChipSetclaim h order m2addr lease s
  | .sesOpen h role slot mnonce form mxy => Sys2Proof.Machine.execSesOpen h role slot mnonce form mxy s
  | .sesProve h shandle cpub sig => Sys2Proof.Machine.execSesProve h shandle cpub sig s
  | .sesClose h => Sys2Proof.Machine.execSesClose h s
  | .roleSetcred h slot digest => Sys2Proof.Machine.execRoleSetcred h slot digest s
  | .ctxCreate h p => Sys2Proof.Machine.execCtxCreate h p s
  | .ctxStart h c => Sys2Proof.Machine.execCtxStart h c s
  | .ctxPark h c => Sys2Proof.Machine.execCtxPark h c s
  | .ctxResume h c => Sys2Proof.Machine.execCtxResume h c s
  | .ctxDestroy h c => Sys2Proof.Machine.execCtxDestroy h c s
  | .ctxClass h c cls grace => Sys2Proof.Machine.execCtxClass h c cls grace s
  | .ctxExport h c p => Sys2Proof.Machine.execCtxExport h c p s
  | .ctxImprep h => Sys2Proof.Machine.execCtxImprep h s
  | .ctxImport h port cls grace head ct tag sig sdik sfwk => Sys2Proof.Machine.execCtxImport h port cls grace head ct tag sig sdik sfwk s
  | .ctxAttest h c nonce => Sys2Proof.Machine.execCtxAttest h c nonce s
  | .ctxQuery h c => Sys2Proof.Machine.execCtxQuery h c s
  | .ctxReimage h c imgHash => Sys2Proof.Machine.execCtxReimage h c imgHash s
  | .imgLoad h env raw => Sys2Proof.Machine.execImgLoad h env raw s
  | .imgUnload h imgHash => Sys2Proof.Machine.execImgUnload h imgHash s
  | .imgKeys h c env => Sys2Proof.Machine.execImgKeys h c env s
  | .imgList h start => Sys2Proof.Machine.execImgList h start s
  | .queSetup h p => Sys2Proof.Machine.execQueSetup h p s
  | .queQuery h qid => Sys2Proof.Machine.execQueQuery h qid s
  | .retUpload h width height pixels => Sys2Proof.Machine.execRetUpload h width height pixels s
  | .retFree h handle => Sys2Proof.Machine.execRetFree h handle s
  | .retPlace h c mask plc => Sys2Proof.Machine.execRetPlace h c mask plc s
  | .retWatch h c mask regs => Sys2Proof.Machine.execRetWatch h c mask regs s
  | .retWatchq h c => Sys2Proof.Machine.execRetWatchq h c s
  | .mtrRead h c => Sys2Proof.Machine.execMtrRead h c s
  | .mtrStatement h sseq max => Sys2Proof.Machine.execMtrStatement h sseq max s
  | .mtrAck h upto => Sys2Proof.Machine.execMtrAck h upto s
  | .timeSet h time => Sys2Proof.Machine.execTimeSet h time s
  | .pwrLimit h watts => Sys2Proof.Machine.execPwrLimit h watts s
  | .pwrStepcap h cap => Sys2Proof.Machine.execPwrStepcap h cap s
  | .pwrThrottle h tj => Sys2Proof.Machine.execPwrThrottle h tj s
  | .pwrAgeing h slacks => Sys2Proof.Machine.execPwrAgeing h slacks s
  | .pwrQuery h => Sys2Proof.Machine.execPwrQuery h s
  | .pinSet h p => Sys2Proof.Machine.execPinSet h p s
  | .pinLock h mask => Sys2Proof.Machine.execPinLock h mask s
  | .pinQuery h => Sys2Proof.Machine.execPinQuery h s
  | .pinlock off v => Sys2Proof.Machine.execPinlockWrite off v s
  | .rasScrubStop h period => Sys2Proof.Machine.execRasScrubStop h period s
  | .rasScrubOnePass h period => Sys2Proof.Machine.execRasScrubOnePass h period s
  | .rasScrubContinuous h period => Sys2Proof.Machine.execRasScrubContinuous h period s
  | .rasCounts h => Sys2Proof.Machine.execRasCounts h s
  | .rasThresh h hbm onchip => Sys2Proof.Machine.execRasThresh h hbm onchip s
  | .rasClear h => Sys2Proof.Machine.execRasClear h s
  | .almRead h seq max => Sys2Proof.Machine.execAlmRead h seq max s
  | .almHead h nonce => Sys2Proof.Machine.execAlmHead h nonce s
  | .fwUpdate h sigOk svn => Sys2Proof.Machine.execFwUpdate h sigOk svn s
  | .fwDiag h test => Sys2Proof.Machine.execFwDiag h test s
  | .rmaReset h => Sys2Proof.Machine.execRmaReset h s
  | .electionWindowClose => Sys2Proof.Machine.execElectionWindowClose s
  | .ownershipLapse => Sys2Proof.Machine.execOwnershipLapse s
  | .handoverOfferExpiry => Sys2Proof.Machine.execHandoverOfferExpiry s
  | .sessionTimeout sh => Sys2Proof.Machine.execSessionTimeout sh s
  | .ticketExpiry => Sys2Proof.Machine.execTicketExpiry s
  | .minuteClose => Sys2Proof.Machine.execMinuteClose s
  | .frequencyStepChange q => Sys2Proof.Machine.execFrequencyStepChange q s
  | .railRetry q => Sys2Proof.Machine.execRailRetry q s
  | .powerLimitLoop cardDeciW quadPower => Sys2Proof.Machine.execPowerLimitLoop cardDeciW quadPower s
  | .thermalSample clusterTemps hbmTemps => Sys2Proof.Machine.execThermalSample clusterTemps hbmTemps s
  | .thermalTrip => Sys2Proof.Machine.execThermalTrip s
  | .powerBrakeAssert => Sys2Proof.Machine.execPowerBrakeAssert s
  | .powerBrakeDeassert => Sys2Proof.Machine.execPowerBrakeDeassert s
  | .frostEntry => Sys2Proof.Machine.execFrostEntry s
  | .frostExit port => Sys2Proof.Machine.execFrostExit port s
  | .ageingReplan slacks => Sys2Proof.Machine.execAgeingReplan slacks s
  | .pllLockLoss => Sys2Proof.Machine.execPllLockLoss s
  | .gleanerUnit => Sys2Proof.Machine.execGleanerUnit s
  | .errorHourEnd => Sys2Proof.Machine.execErrorHourEnd s
  | .gpioPadChange pin level => Sys2Proof.Machine.execGpioPadChange pin level s
  | .frameSyncInEdge pin => Sys2Proof.Machine.execFrameSyncInEdge pin s
  | .frameSyncOutPulse => Sys2Proof.Machine.execFrameSyncOutPulse s
  | .coldReset => Sys2Proof.Machine.execColdReset s
  | .deviceReset selfRefreshOk => Sys2Proof.Machine.execDeviceReset selfRefreshOk s
  | .portBReset => Sys2Proof.Machine.execPortBReset s
  | .startUp p => Sys2Proof.Machine.execStartUp p s
  | .linkUp port speed width => Sys2Proof.Machine.execLinkUp port speed width s
  | .msixVectorUnmask port vector => Sys2Proof.Machine.execMsixVectorUnmask port vector s
  | .busMasterEnable port rings => Sys2Proof.Machine.execBusMasterEnable port rings s
  | .ptmDialogue port rootNs => Sys2Proof.Machine.execPtmDialogue port rootNs s
  | .unassignedOpcode h => Sys2Proof.Machine.execUnassignedOpcode h s
  | .badPacketHeader master => Sys2Proof.Machine.execBadPacketHeader master s
  | .mbRconsWrite master v => Sys2Proof.Machine.execMbRconsWrite master v s
  | .railTargetTimeout q => Sys2Proof.Machine.execRailTargetTimeout q s
  | .startUpTimeout => Sys2Proof.Machine.execStartUpTimeout s
  | .rejectionSummary master => Sys2Proof.Machine.execRejectionSummary master s

end Sys2Proof.Machine
end

