-- ==== Sys2Proof/Machine/Tick.lean ====
section
/-! DEFINITION. One CLK_TICK edge (1 µs): uptime and device time (R437), the µs meters (R439), powered hours (R493), and the errors that the
environment puts into stored data (R495 to R509). -/
namespace Sys2Proof.Machine

/-! ### Errors in stored data -/

def ramOfCode (n : Nat) : Option Ram := if n = 1 then some .work else if n = 2 then some .vram else if n = 3 then some .audio else none

/-- An error in a written fast-RAM word. -/
def hitFast (m : Mach) (w : Nat) (double : Bool) : Mach :=
  match tabGet m.mem.fast w with
  | some k => { m with mem := { m.mem with fast := tabPut m.mem.fast w (if double then { k with poisoned := true } else { k with soft := true }) } }
  | none => m

/-- A bit error comes to stand in a word of HBM: one that stood there before makes it no better (R495, R497). -/
def addUpset (s : State) (u : UpAt) (double : Bool) : State :=
  let old := s.ras.upsets.filter fun v => v.loc.word = u.word
  let rest := s.ras.upsets.filter fun v => !decide (v.loc.word = u.word)
  { s with ras := { s.ras with upsets := rest ++ [⟨u, double || old.any fun v => v.double⟩] } }

/-- The block is poisoned: whatever of it was written since an earlier error counts no longer (R498). -/
def poisonBlk (x : Ctx) (r : Ram) (blk : Nat) : Ctx :=
  let l := x.m.mem.poison.filter fun p => !(decide (p.ram = r) && p.blk = blk)
  { x with m := { x.m with mem := { x.m.mem with poison := l ++ [{ ram := r, blk := blk }] } } }

/-- An error in a word of HBM-backed memory; an uncorrectable one poisons its block (R498). -/
def hitRam (s : State) (x : Ctx) (r : Ram) (addr : Nat) (double : Bool) : State :=
  if ramSize x.cfg.prof r ≤ addr then s
  else
    let s := addUpset s (.ram x.num r addr) double
    if double then s.putCtx (poisonBlk x r (addr / 16)) else s

/-- An error in on-chip data of a memory: corrected in the read, or its block is poisoned (R495, R498, R509). -/
def hitChip (s : State) (x : Ctx) (r : Ram) (addr : Nat) (buffer double : Bool) : State :=
  if ramSize x.cfg.prof r ≤ addr then s
  else if double then s.putCtx (poisonBlk x r (addr / 16))
  else if buffer then countChip s fun k => { k with sramce := (k.sramce + 1) % 2 ^ 32 }
  else countChip s fun k => { k with cachece := (k.cachece + 1) % 2 ^ 32 }

/-- Poison in an item that the device keeps for a context (R498). -/
def hitStore (x : Ctx) (k : CtxStore) : Ctx := if x.badStore k then x else { x with bad := x.bad ++ [k] }

/-- A block of a loaded image is poisoned (R498, R501). -/
def hitImage (s : State) (i addr : Nat) (double : Bool) : State :=
  match s.images[i]? with
  | some im =>
    if im.len ≤ addr then s
    else
      let s := addUpset s (.image im.hash addr) double
      if double && !im.poison.contains (addr / 16) then
        { s with images := s.images.map fun k => if k.hash = im.hash then { k with poison := k.poison ++ [addr / 16] } else k }
      else s
  | none => s

/-- An error in the reserved region. An uncorrectable one takes its effect by the part it lies in: the entry of a queue whose state is not in the
cache is poisoned, and so is the Almanac record that lies there (R22, R23, R380, R434, R500, R503). The order of the 262,144 entries, by QID, and of
the records, by SEQ modulo the ring, is the model's choice (DESIGN CHOICE, log entry 77: R22, R23 and R434 give none). What lies where in the other
parts the spec does not say; their errors come as those of the store itself. -/
def hitReserved (s : State) (st : Fin 4) (off : Nat) (double : Bool) : State :=
  let u := UpAt.reserved st.val off
  match partOf st.val off with
  | .queues =>
    let s := addUpset s u double
    if double then { s with queues := s.queues.map fun q => if entryHolds q.qid u && !s.qcache.contains q.qid then { q with bad := true } else q } else s
  | .almanac =>
    let k := (off - almanacBase) / almanacRec
    match s.audit.recs.find? fun r => inSlot r.seq k with
    | some r =>
      let s := addUpset s (.record r.seq ((off - almanacBase) % almanacRec)) double
      if double then { s with audit := { s.audit with recs := s.audit.recs.map fun q => if q.seq = r.seq then { q with bad := true } else q } } else s
    | none => addUpset s u double
  | .sheaf => addUpset s u double
  | .granary => addUpset s u double
  | .firmware => addUpset s u double

/-- The queue-state cache: corrected in the read, or the state is poisoned (R495, R498, R509). -/
def hitEntry (s : State) (qid : Nat) (double : Bool) : State :=
  if !s.qcache.contains qid then s
  else if double then { s with queues := s.queues.map fun q => if q.qid = qid then { q with bad := true } else q }
  else countChip s fun k => { k with sramce := (k.sramce + 1) % 2 ^ 32 }

/-- One of the two copies of a statement, in stacks 0 and 1 (R503). -/
def hitStatement (s : State) (n : Nat) (copy : Fin 2) (off : Nat) (double : Bool) : State :=
  let s := addUpset s (.reserved copy.val off) double
  let hit (t : Stmt) : Stmt := match t.half with
    | some c => if c.1 = copy then t else { t with bad := true }
    | none => { t with half := some (copy, off) }
  if double then { s with audit := { s.audit with stmts := s.audit.stmts.map fun t => if t.sseq = n then hit t else t } } else s

/-- A copy of a vote-store word differs, or cannot be read (R507). -/
def hitVote (s : State) (w : VoteWord) (b : Fin 3) : State :=
  if s.votes.contains (w, b) || decide (w.field.words ≤ w.index) then s else { s with votes := s.votes ++ [(w, b)] }

/-- The 16-byte block at an offset of the reserved region of a stack is poisoned (R498). -/
def poisonedAtOff (s : State) (st off : Nat) : Bool :=
  s.ras.upsets.any fun u => u.double && match u.loc with | .reserved k o => k = st && o / 16 = off / 16 | _ => false

/-- The poisoned block is rewritten from another stack's copy (R503). -/
def rewriteBlock (s : State) (st off : Nat) : State :=
  dropUpsets s fun u => match u with | .reserved k o => k = st && o / 16 = off / 16 | _ => false

/-- Consumed poison in the firmware part, each time counted in its stack (R503, R509). Of data with a copy in each stack the device reads the other stacks'
copies in ascending order until one is clean, and rewrites the poisoned blocks that it has met from it. Where there is no such copy, as of device data
that one place alone holds, it is a chip-level fault (DESIGN CHOICE for four poisoned copies, log entry 81: R503 is silent on them). -/
def readFirm (s : State) (st : Fin 4) (off : Nat) : State :=
  match Config.firmPart off with
  | .statements => s
  | .other => chipFault (countUe s st) .uncorrectable
  | .copied =>
    let tried := (List.finRange 4).map fun i => st + i
    let poisoned := tried.takeWhile fun k => poisonedAtOff s k.val off
    let s := poisoned.foldl countUe s
    if poisoned.length = 4 then chipFault s .uncorrectable else poisoned.foldl (fun s k => rewriteBlock s k.val off) s

/-- The device reads a word of the reserved region: a correctable error is met, and poison in the firmware part consumed (R496, R499, R503). What the
reads of the other parts consume, the commands that make them say. -/
def readReserved (s : State) (st : Fin 4) (off : Nat) : State :=
  let t := correctWhere s fun u => decide (u.word = (UpAt.reserved st.val off).word)
  if partOf st.val off = .firmware && poisonedAtOff s st.val off then readFirm t st off else t

/-- One error takes its effect on the device. -/
def applyHit (s : State) : Hit → State
  | .fast c w double => match s.ctx? c with
    | some x => s.putCtx { x with m := hitFast x.m w double }
    | none => s
  | .ram c mem addr double => match s.ctx? c, ramOfCode mem with
    | some x, some r => hitRam s x r addr double
    | _, _ => s
  | .onChip c mem addr buffer double => match s.ctx? c, ramOfCode mem with
    | some x, some r => hitChip s x r addr buffer double
    | _, _ => s
  | .image i addr double => hitImage s i addr double
  | .store c k off double => match s.ctx? c with
    | some x =>
      if hasStore x k then
        let s := addUpset s (.store c k (storeAt? x k).val off) double
        if double then s.putCtx (hitStore x k) else s
      else s
    | none => s
  | .entry qid double => hitEntry s qid double
  | .reserved st off double => hitReserved s st off double
  | .reading st off => readReserved s st off
  | .onDie st => { s with ras := { s.ras with hbmode := s.ras.hbmode.set st ((s.ras.hbmode[st] + 1) % 2 ^ 32) } }
  | .cache => countChip s fun r => { r with cachece := (r.cachece + 1) % 2 ^ 32 }
  | .sram double =>
    if double then chipFault { s with ras := { s.ras with onue := (s.ras.onue + 1) % 2 ^ 32 } } .uncorrectable
    else countChip s fun r => { r with sramce := (r.sramce + 1) % 2 ^ 32 }
  | .vote w b => hitVote s w b
  | .voteRead w => voteRead s w
  | .statement n copy off double => hitStatement s n copy off double

/-- What the environment does at this tick. -/
def upset (s : State) : State :=
  let s := dropBadStores s fun _ => true
  match Config.upsetAt s.audit.uptime with
  | some k => applyHit s k
  | none => s

/-! ### Time -/

/-- The channel takes the oldest message of the queue: an outbound one is read and sealed, or its context faults on poison (R57, R288, R394, R500). -/
def startCarry (s : State) (p : Nat) (w : Want) : State :=
  match s.ctx? (w.qid / 16) with
  | none => s
  | some x =>
    if (s.queue? w.qid).any fun q => q.bad then match s.queue? w.qid with | some q => queueFault s x q | none => s
    else
      let s := touchQueue s w.qid
      match x.outp.msgs.find? fun o => o.queue = w.qid % 16 with
      | some o =>
        if !w.outb then takeChan s p w
        else if o.sealed.isNone && (plainPoison s x o).isSome then
          contextFault (applyDevFx s x.num (.consumed (plainPoison s x o))) x.num true
        else useItems s x (msgItems o) fun s =>
          let r := sealNow x o
          takeChan ((readPosting s x o).putCtx { r.2 with outp := { r.2.outp with msgs := r.2.outp.msgs.replace o r.1 } }) p w
      | none => takeChan s p w

/-- The free channels of a port take the messages that wait (R394). -/
def dmaFill (p : Nat) : Nat → State → State
  | 0, s => s
  | k + 1, s =>
    match (freeChans s p).isEmpty, nextWant (wants s p) with
    | false, some w => dmaFill p k (startCarry s p w)
    | _, _ => s

/-- The messages of the queue that wait: outbound ones that are queued, inbound ones whose descriptors are there through their END (R388, R389). -/
def waitingMsgs (s : State) (q : Queue) : Nat :=
  match s.ctx? (q.qid / 16) with
  | some x =>
    if inboundQueue x (q.qid % 16) then (q.fetched.filter fun d => !badDesc d && d.last).length else x.queued (q.qid % 16)
  | none => 0

/-- Each waiting message of the queue has waited one µs more (R394). -/
def waitOn (s : State) (q : Queue) : Queue :=
  let n := waitingMsgs s q
  { q with waits := (q.waits.take n ++ List.replicate (n - q.waits.length) 0).map fun k => k + 1 }

/-- One µs of the DMA engines while their clock runs: waiting messages wait longer, their queues' states stay in use (R382), and free channels take them
(R480, R488). -/
def dmaTick (s : State) : State :=
  if !s.clocked then s
  else
  let s := { s with queues := s.queues.map (waitOn s) }
  let s := ((s.queues.filter fun q => !q.waits.isEmpty).map fun q => q.qid).foldl touchQueue s
  s.ports.foldl (fun s p => dmaFill p 64 s) s

/-- The µs meters of a context (R439). -/
def meterTick (x : Ctx) : Ctx :=
  let on := x.stat = .running && !x.hold.halted && x.orr.lane.isSome
  let x := x.addMeter 1 x.orr.lane.isSome.toNat
  let x := x.addMeter 2 x.orr.charged.toNat
  let x := x.addMeter 22 (x.stat = .running && !x.hold.halted && holding x).toNat
  let x := x.addMeter 23 (runnable x && x.orr.lane.isNone).toNat
  x.addMeter 24 (on && x.log.waited).toNat

/-- The clocks of one edge: uptime counts from READY, device time through every power state (R434, R437, R493). -/
def clockTick (s : State) : State :=
  let a := s.audit
  let run := s.mgmt.devstate ≠ 1
  let s := { s with audit := { a with time := a.time.map fun t => (t + 1) % 2 ^ 64, uptime := if run then a.uptime + 1 else a.uptime } }
  if run && (a.uptime + 1) % 3600000000 = 0 then hourEnd s else s

/-- One CLK_TICK edge, at which the brake pins are sampled (R517). What the lanes have come to in the µs that ends is noted
first. In Frost no statement is closed and the contexts stand, but their µs go on. -/
def tickEdge (s : State) : State :=
  let lanes := laneTick s
  let s := clockTick lanes
  if s.mgmt.devstate = 1 then s
  else upset (dmaTick (flashTick (pllTick (syncFall { s with ctxs := s.ctxs.map meterTick, gpio := brakeTick s }))))

end Sys2Proof.Machine
end

