-- ==== Sys2Proof/WellFormed.lean ====
section
/-! DEFINITION. Well-formed commands: every operand lies in the range that its field has in the spec. The machine takes any command;
what it does with an operand out of range is no claim of the spec. One `…Ok` per kind of operand. -/
namespace Sys2Proof

/-- A context number (R15). -/
def ctxOk (c : Nat) : Bool := decide (c < 65536)

/-- Port A or B (R376). -/
def portOk (p : Nat) : Bool := decide (p < 2)

/-- M0, M1 or M2 (R448). -/
def masterOk (m : Nat) : Bool := decide (m < 3)

/-- A QID (R380). -/
def qidOk (q : Nat) : Bool := decide (q < 2 ^ 20)

/-- A ring holds at most 65,536 descriptors of 32 bytes (R381, R383). -/
def descsOk (ds : List RawDesc) : Bool := decide (ds.length ≤ 65536) && ds.all fun d => d.length = 32

/-- A SHA-384 digest (R413). -/
def digestOk (d : Nat) : Bool := decide (d < 2 ^ 384)

/-- A general pin (R518). -/
def pinNoOk (p : Nat) : Bool := decide (p < 48)

/-- CMP and TST have rd 0 in the 32-bit form (R79). -/
def cmpForm : AluForm → Bool
  | .r16 _ _ => true
  | .r32 rd _ _ => decide (rd = 0)

/-- The address forms that R78 to R81 give an operation: `word` for LDW and STW, `short` for the others with a 16-bit form, `load` where
write-back and destination must differ. -/
def eaForm (word short load : Bool) (rd : Reg) : Ea → Bool
  | .base16 _ off => word || (short && decide (off.toNat < 4))
  | .stack16 _ => word
  | .disp32 _ _ => true
  | .scaled _ _ => true
  | .postInc ra => !load || decide (rd ≠ ra)
  | .preDec ra => !load || decide (rd ≠ ra)
  | .postReg ra _ => !load || decide (rd ≠ ra)

/-- R72: the length of an instruction is told by bits [15:13] of its first halfword. -/
def Encoding.shapeOk (e : Encoding) : Bool :=
  if e.long then decide (e.bits.toNat / 8192 % 8 = 7) else decide (e.bits.toNat < 0xE000)

/-- An encoding that no table assigns (R80). -/
def illegalOk (c : Nat) (e : Encoding) : Bool := ctxOk c && e.shapeOk && (decodeCore c e).isNone

/-- Where a plain register write lands: an aligned word of the I/O region, BAR0, a mailbox or the GPIO block (R35, R378, R448, R518). -/
def targetOk : RegTarget → Bool
  | .io c off => ctxOk c && decide (off < 0x10000) && decide (off % 4 = 0)
  | .bar0 p off => portOk p && decide (off < 0x20000) && decide (off % 4 = 0)
  | .mailbox m off => masterOk m && decide (off < 0x10000) && decide (off % 4 = 0)
  | .gpio off => decide (off < 0x1000) && decide (off % 4 = 0)
  | .barOther p bar off size _ => portOk p && (bar = 0 || bar = 2 || bar = 4) && decide (off < 0x400000) && decide (size < 9)
      && !(size = 4 && off % 4 = 0)
  | .devCtl p => portOk p
  | .ptmCtl p => portOk p
  | .msixCtl p => portOk p
  | .pmcsr p => portOk p

/-- LEN is 1 to 1,024 units, the master exists, a packet of a session has a trailer where LEN leaves room, and what lies between is its parameters (R452). -/
def hdrShape (h : Hdr) : Bool :=
  masterOk h.master && decide (1 ≤ h.len) && decide (h.len ≤ 1024) && decide (h.trailer.length = if h.sh = 0 ∨ h.len = 1 then 0 else 16)
    && decide (h.params.length + h.trailer.length + 16 = 16 * h.len) && h.key.isNone && !h.trailerOk

/-- The header of a packet with opcode `op` (R452). -/
def hdrOk (op : Nat) (h : Hdr) : Bool := hdrShape h && decide (h.op.toNat = op)

/-- R470. -/
def createOk (p : CreateP) : Bool :=
  digestOk p.imgHash && decide (p.tag < 2 ^ 512) && decide (p.allow < 2 ^ 32) && decide (p.grace < 2 ^ 32)

/-- R471. -/
def queSetupOk (p : QueSetupP) : Bool :=
  decide (p.qid < 2 ^ 32) && decide (p.rbase < 2 ^ 64) && decide (p.log2n < 256) && decide (p.prio < 256) && decide (p.coal < 256)
    && decide (p.sfh < 256) && decide (p.sfv < 256) && decide (p.eclaim < 256)

/-- R468. -/
def enrolOk (p : EnrolP) : Bool := decide (p.domain < 2 ^ 128) && decide (p.dpub.length = 97) && decide (p.cert.length = 304)

/-- R411, R425, R426, R454. -/
def exportOk (p : ExportP) : Bool :=
  decide (p.outLen < 2 ^ 64) && decide (p.tdik.length = 97) && decide (p.dxk.length ≤ 304) && decide (p.fwk.length ≤ 304)
    && decide (p.member.length ≤ 304)

/-- What is sealed has `n` bytes before its ciphertext and a tag of 16. What is shorter has no ciphertext and no tag. -/
def sealedOk (n : Nat) (e : Sealed) : Bool :=
  (decide (e.head.length = n) && decide (e.tag.length = 16)) || (decide (e.head.length < n + 16) && e.ct.isEmpty && e.tag.isEmpty)

/-- R427, R428. What is shorter lacks its last parts. -/
def importOk (p : ImportP) : Bool := sealedOk 288 p.obj && decide (p.sig.length ≤ 96) && (p.sdik.all fun k => decide (k.length = 97)) && decide (p.sfwk.length ≤ 304)

/-- R269. -/
def regionOk (r : Region) : Bool :=
  decide (r.left < 2 ^ 16) && decide (r.top < 2 ^ 16) && decide (r.right < 2 ^ 16) && decide (r.bottom < 2 ^ 16) && decide (r.sigs.length = 4)

/-- R471, R518: PIN.SET carries one byte for each parameter. -/
def pinOk (p : PinP) : Bool :=
  decide (p.pin < 256) && decide (p.func < 256) && decide (p.pull < 256) && decide (p.drive < 256) && decide (p.sleep < 256) && decide (p.oe < 256)

/-- R389, R420: what the buffers of queue `q` hold: an envelope of 168 bytes before its ciphertext on queue 0, else 16, and a tag of 16. What is
shorter has no ciphertext. -/
def rawOk (q : Nat) (e : Sealed) : Bool := sealedOk (if q = 0 then 168 else 16) e

/-- R490: three worst slacks. -/
def bootOk (p : BootP) : Bool := decide (p.slacks.length = 3)

/-- The opcodes that the catalogue assigns (R468 to R472). -/
def assignedOpcodes : List Nat := [0x0101, 0x0102, 0x0103, 0x0110, 0x0111, 0x0112, 0x0113, 0x0114, 0x0120, 0x0121, 0x0122, 0x0201, 
  0x0202, 0x0203, 0x0210, 0x0301, 0x0302, 0x0303, 0x0304, 0x0305, 0x0306, 0x0307, 0x0308, 0x0309, 
  0x030A, 0x030B, 0x030C, 0x0401, 0x0402, 0x0403, 0x0404, 0x0501, 0x0502, 0x0601, 0x0602, 0x0603, 
  0x0604, 0x0605, 0x0701, 0x0702, 0x0703, 0x0710, 0x0801, 0x0802, 0x0803, 0x0804, 0x0805, 0x0901, 
  0x0902, 0x0903, 0x0A01, 0x0A02, 0x0A03, 0x0A04, 0x0B01, 0x0B02, 0x0C01, 0x0C02, 0x0C03]

def assignedOpcode (op : Nat) : Bool := op = 0 || assignedOpcodes.contains op

/-- Every operand of the command lies in its field's range. -/
def wellFormed : Instr → Bool
  | .mov c _ => ctxOk c
  | .add c _ => ctxOk c
  | .adc c _ => ctxOk c
  | .sub c _ => ctxOk c
  | .sbc c _ => ctxOk c
  | .and c _ => ctxOk c
  | .or c _ => ctxOk c
  | .xor c _ => ctxOk c
  | .cmp c f => ctxOk c && cmpForm f
  | .tst c f => ctxOk c && cmpForm f
  | .neg c _ => ctxOk c
  | .not c _ => ctxOk c
  | .mul c _ => ctxOk c
  | .lsl c _ => ctxOk c
  | .lsr c _ => ctxOk c
  | .asr c _ => ctxOk c
  | .mulh c _ _ _ => ctxOk c
  | .mulhu c _ _ _ => ctxOk c
  | .div c _ _ _ => ctxOk c
  | .divu c _ _ _ => ctxOk c
  | .rem c _ _ _ => ctxOk c
  | .remu c _ _ _ => ctxOk c
  | .min c _ _ _ => ctxOk c
  | .max c _ _ _ => ctxOk c
  | .minu c _ _ _ => ctxOk c
  | .maxu c _ _ _ => ctxOk c
  | .ror c _ => ctxOk c
  | .sxtb c _ _ => ctxOk c
  | .sxth c _ _ => ctxOk c
  | .zxtb c _ _ => ctxOk c
  | .zxth c _ _ => ctxOk c
  | .movi c _ _ => ctxOk c
  | .addi c _ => ctxOk c
  | .cmpi c _ => ctxOk c
  | .andi c _ _ _ => ctxOk c
  | .ori c _ _ _ => ctxOk c
  | .xori c _ _ _ => ctxOk c
  | .movhi c _ _ => ctxOk c
  | .ldw c rd ea => ctxOk c && eaForm true true true rd ea
  | .ldh c rd ea => ctxOk c && eaForm false true true rd ea
  | .ldhs c rd ea => ctxOk c && eaForm false false true rd ea
  | .ldb c rd ea => ctxOk c && eaForm false true true rd ea
  | .ldbs c rd ea => ctxOk c && eaForm false false true rd ea
  | .stw c rd ea => ctxOk c && eaForm true true false rd ea
  | .sth c rd ea => ctxOk c && eaForm false true false rd ea
  | .stb c rd ea => ctxOk c && eaForm false true false rd ea
  | .bcc c _ _ => ctxOk c
  | .b c _ => ctxOk c
  | .bl c _ => ctxOk c
  | .br c _ => ctxOk c
  | .blr c _ => ctxOk c
  | .mrs c _ cr => ctxOk c && crAssigned cr.val
  | .msr c cr _ => ctxOk c && crAssigned cr.val
  | .loop c _ eoff => ctxOk c && decide (eoff ≠ 0)
  | .loopi c _ eoff => ctxOk c && decide (eoff ≠ 0)
  | .lpop c => ctxOk c
  | .macx c ra rb sz _ _ _ _ => ctxOk c && decide (sz.val ≤ 1) && decide (ra ≠ rb)
  | .accrd c _ _ _ _ _ => ctxOk c
  | .post c _ => ctxOk c
  | .callg c g => ctxOk c && !(decide (0xF0 ≤ g.val) && decide (g.val ≤ 0xF4))
  | .retg c => ctxOk c
  | .rete c => ctxOk c
  | .brk c => ctxOk c
  | .nop c => ctxOk c
  | .sleep c => ctxOk c
  | .sync c => ctxOk c
  | .bmov c => ctxOk c
  | .bfill c => ctxOk c
  | .bcmp c => ctxOk c
  | .illegalOpcode c e => illegalOk c e
  | .attest c => ctxOk c
  | .rand c => ctxOk c
  | .walltime c => ctxOk c
  | .debugout c => ctxOk c
  | .saveCommit c => ctxOk c
  | .interruptEntry c => ctxOk c
  | .holdWindowEnd c => ctxOk c
  | .timerTick c _ => ctxOk c
  | .tmCountRead c _ => ctxOk c
  | .tmCtlWrite c _ _ => ctxOk c
  | .tmCountWrite c _ _ => ctxOk c
  | .timerHaltTick c => ctxOk c
  | .bmFramelRead c => ctxOk c
  | .icRaise c _ => ctxOk c
  | .oqCtlWrite c _ _ => ctxOk c
  | .registerWrite t _ => targetOk t
  | .hblankStart c => ctxOk c
  | .lineCompare c => ctxOk c
  | .inputLatch c => ctxOk c
  | .rasterListCapture c => ctxOk c
  | .listInForce c => ctxOk c
  | .rasterEntryAction c => ctxOk c
  | .spriteEvaluation c => ctxOk c
  | .sheafBegin c => ctxOk c
  | .lineRender c => ctxOk c
  | .laneWaitEnd c => ctxOk c
  | .lineCommit c => ctxOk c
  | .videoSliceEncode c => ctxOk c
  | .audioSample c => ctxOk c
  | .auCommit c _ => ctxOk c
  | .audioCommitTaken c => ctxOk c
  | .crossfadeEnd c => ctxOk c
  | .audioBlockCommit c => ctxOk c
  | .audioBlockSend c => ctxOk c
  | .buGo c _ => ctxOk c
  | .blitStart c => ctxOk c
  | .blitRow c => ctxOk c
  | .inputMessage c => ctxOk c
  | .inputDeadline c => ctxOk c
  | .sideMessage c => ctxOk c
  | .keyEnvelopeMessage c => ctxOk c
  | .debugHaltRequest c => ctxOk c
  | .debugResume c => ctxOk c
  | .attestSigned c => ctxOk c
  | .depthAdjust c => ctxOk c
  | .firstUseEnd c => ctxOk c
  | .epochRelease c => ctxOk c
  | .swapOut c => ctxOk c
  | .swapIn c => ctxOk c
  | .egressSecond c => ctxOk c
  | .doorbell port qid _ descs _ => portOk port && qidOk qid && descsOk descs
  | .outboundMessageWrite qid => qidOk qid
  | .inboundMessageRead qid a => qidOk qid && rawOk (qid % 16) a.raw
  | .coalescerFire k => decide (k < 192)
  | .hQprobe port _ => portOk port
  | .hDmactl port _ => portOk port
  | .dmaDisableClear port rings => portOk port && rings.all fun r => qidOk r.qid && descsOk r.descs
  | .dlDown port => portOk port
  | .flr port => portOk port
  | .busMasterDisable port => portOk port
  | .chipLevelFault _ => true
  | .firmwareRestart => true
  | .restartTimeout => true
  | .bulkTransferComplete master _ _ => masterOk master
  | .m2Write x off data => decide (x.addr < 128) && decide (off < 2 ^ 16) && decide (data.length ≤ 240)
  | .m2SetRead x off len => decide (x.addr < 128) && decide (off < 2 ^ 16) && decide (len ≤ 240)
  | .m2Read x => decide (x.addr < 128)
  | .chipQuery h => hdrOk 0x0101 h
  | .chipCerts h => hdrOk 0x0102 h
  | .chipEvents h cursor => hdrOk 0x0103 h && decide (cursor < 2 ^ 64)
  | .chipClaim h => hdrOk 0x0110 h
  | .chipRenew h => hdrOk 0x0111 h
  | .chipRelease h => hdrOk 0x0112 h
  | .chipHandover h _ => hdrOk 0x0113 h
  | .chipAccept h => hdrOk 0x0114 h
  | .chipTag h off data _ => hdrOk 0x0120 h && decide (off < 2 ^ 16) && decide (data.length < 2 ^ 16)
  | .chipEnrol h p => hdrOk 0x0121 h && enrolOk p
  | .chipSetclaim h order m2addr lease => hdrOk 0x0122 h && decide (order.length = 3) && order.all (fun m => decide (m < 256)) && decide (m2addr < 256) && decide (lease < 2 ^ 32)
  | .sesOpen h role slot mnonce _ mxy => hdrOk 0x0201 h && decide (role < 256) && decide (slot < 256) && decide (mnonce < 2 ^ 256) && decide (mxy < 2 ^ 768)
  | .sesProve h _ cpub sig => hdrOk 0x0202 h && cpub.length = 97 && sig.length = 96
  | .sesClose h => hdrOk 0x0203 h
  | .roleSetcred h slot digest => hdrOk 0x0210 h && decide (slot < 256) && digestOk digest
  | .ctxCreate h p => hdrOk 0x0301 h && createOk p
  | .ctxStart h c => hdrOk 0x0302 h && ctxOk c
  | .ctxPark h c => hdrOk 0x0303 h && ctxOk c
  | .ctxResume h c => hdrOk 0x0304 h && ctxOk c
  | .ctxDestroy h c => hdrOk 0x0305 h && ctxOk c
  | .ctxClass h c cls grace => hdrOk 0x0306 h && ctxOk c && decide (cls < 256) && decide (grace < 2 ^ 32)
  | .ctxExport h c p => hdrOk 0x0307 h && ctxOk c && exportOk p
  | .ctxImprep h => hdrOk 0x0308 h
  | .ctxImport h port cls grace head ct tag sig sdik sfwk => hdrOk 0x0309 h && decide (port < 256) && decide (cls < 256) && decide (grace < 2 ^ 32)
    && importOk ⟨⟨head, ct, tag⟩, sig, sdik, sfwk⟩
  | .ctxAttest h c nonce => hdrOk 0x030A h && ctxOk c && decide (nonce < 2 ^ 512)
  | .ctxQuery h c => hdrOk 0x030B h && ctxOk c
  | .ctxReimage h c imgHash => hdrOk 0x030C h && ctxOk c && digestOk imgHash
  | .imgLoad h env raw => hdrOk 0x0401 h && (env.all (sealedOk 168)) && sealedOk 32 raw
  | .imgUnload h imgHash => hdrOk 0x0402 h && digestOk imgHash
  | .imgKeys h c env => hdrOk 0x0403 h && ctxOk c && sealedOk 168 env
  | .imgList h start => hdrOk 0x0404 h && decide (start < 2 ^ 16)
  | .queSetup h p => hdrOk 0x0501 h && queSetupOk p
  | .queQuery h qid => hdrOk 0x0502 h && decide (qid < 2 ^ 32)
  | .retUpload h width height _ => hdrOk 0x0601 h && decide (width < 2 ^ 16) && decide (height < 2 ^ 16)
  | .retFree h _ => hdrOk 0x0602 h
  | .retPlace h c _ plc => hdrOk 0x0603 h && ctxOk c && decide (plc.length = 4)
  | .retWatch h c _ regs => hdrOk 0x0604 h && ctxOk c && decide (regs.length = 4) && regs.all regionOk
  | .retWatchq h c => hdrOk 0x0605 h && ctxOk c
  | .mtrRead h c => hdrOk 0x0701 h && ctxOk c
  | .mtrStatement h sseq max => hdrOk 0x0702 h && decide (sseq < 2 ^ 64) && decide (max < 2 ^ 16)
  | .mtrAck h upto => hdrOk 0x0703 h && decide (upto < 2 ^ 64)
  | .timeSet h time => hdrOk 0x0710 h && decide (time < 2 ^ 64)
  | .pwrLimit h watts => hdrOk 0x0801 h && decide (watts < 2 ^ 16)
  | .pwrStepcap h cap => hdrOk 0x0802 h && decide (cap < 256)
  | .pwrThrottle h tj => hdrOk 0x0803 h && decide (tj < 256)
  | .pwrAgeing h slacks => hdrOk 0x0804 h && decide (slacks.length = 3)
  | .pwrQuery h => hdrOk 0x0805 h
  | .pinSet h p => hdrOk 0x0901 h && pinOk p
  | .pinLock h mask => hdrOk 0x0902 h && decide (mask < 2 ^ 64)
  | .pinQuery h => hdrOk 0x0903 h
  | .pinlock off _ => decide (off < 0x1000) && decide (off % 4 = 0)
  | .rasScrubStop h period => hdrOk 0x0A01 h && decide (period < 2 ^ 32)
  | .rasScrubOnePass h period => hdrOk 0x0A01 h && decide (period < 2 ^ 32)
  | .rasScrubContinuous h period => hdrOk 0x0A01 h && decide (period < 2 ^ 32)
  | .rasCounts h => hdrOk 0x0A02 h
  | .rasThresh h hbm onchip => hdrOk 0x0A03 h && decide (hbm < 2 ^ 32) && decide (onchip < 2 ^ 32)
  | .rasClear h => hdrOk 0x0A04 h
  | .almRead h seq max => hdrOk 0x0B01 h && decide (seq < 2 ^ 64) && decide (max < 2 ^ 16)
  | .almHead h nonce => hdrOk 0x0B02 h && decide (nonce < 2 ^ 384)
  | .fwUpdate h _ svn => hdrOk 0x0C01 h && decide (svn < 2 ^ 32)
  | .fwDiag h test => hdrOk 0x0C02 h && decide (test < 2 ^ 16)
  | .rmaReset h => hdrOk 0x0C03 h
  | .electionWindowClose => true
  | .ownershipLapse => true
  | .handoverOfferExpiry => true
  | .sessionTimeout _ => true
  | .ticketExpiry => true
  | .minuteClose => true
  | .frequencyStepChange _ => true
  | .railRetry _ => true
  | .powerLimitLoop _ quadPower => decide (quadPower.length = 4)
  | .thermalSample clusterTemps hbmTemps => decide (clusterTemps.length = 64) && decide (hbmTemps.length = 4)
  | .thermalTrip => true
  | .powerBrakeAssert => true
  | .powerBrakeDeassert => true
  | .frostEntry => true
  | .frostExit port => portOk port
  | .ageingReplan slacks => decide (slacks.length = 3)
  | .pllLockLoss => true
  | .gleanerUnit => true
  | .errorHourEnd => true
  | .gpioPadChange pin _ => pinNoOk pin
  | .frameSyncInEdge pin => pinNoOk pin
  | .frameSyncOutPulse => true
  | .coldReset => true
  | .deviceReset _ => true
  | .portBReset => true
  | .startUp p => bootOk p
  | .linkUp port _ _ => portOk port
  | .msixVectorUnmask port vector => portOk port && decide (vector ≤ 256)
  | .busMasterEnable port rings => portOk port && rings.all fun r => qidOk r.qid && descsOk r.descs
  | .ptmDialogue port _ => portOk port
  | .unassignedOpcode h => hdrShape h && !assignedOpcode h.op.toNat
  | .badPacketHeader master => masterOk master
  | .mbRconsWrite master _ => masterOk master
  | .railTargetTimeout _ => true
  | .startUpTimeout => true
  | .rejectionSummary master => masterOk master

end Sys2Proof
end

