-- ==== Sys2Proof/Safety.lean ====
section
/-! DEFINITION. The terms that statements are written in: when an instruction of a context issues and retires by itself, what the block looks
like after a context has advanced, when a management command passes its checks and what its reply is, and the invariant on memories. -/
namespace Sys2Proof.Machine

/-! ### One instruction of a context -/

/-- Context `c` is `x` and executes (R19, R149, R357, R473), nothing of an earlier command is left to settle, and the instruction of `len`
bytes at its PC issues in its next vc: its halfwords can be fetched and hold no correctable error (R73, R496, R532), no interrupt or comparator is entered first (R63, R124),
no instruction, entry, block instruction or wait is in progress, T is 0 and no address comparator is enabled (R116, R118). -/
structure Issues (s : State) (c : Nat) (x : Ctx) (len : Nat) : Prop where
  here : s.ctx? c = some x
  active : x.active = true
  quiet : x.m.fx = []
  noInt : chosen x.m x.m.vc = none
  noEntry : x.m.cpu.entry = none
  noBegun : x.m.cpu.begun = false
  noWord : x.m.cpu.word = []
  noBlk : x.m.cpu.blk = none
  noIdle : x.m.cpu.idle = none
  noTrace : pswT x.m.cpu.psw = false
  noBp0 : x.m.dbg.bp0.getLsbD 0 = false
  noBp1 : x.m.dbg.bp1.getLsbD 0 = false
  fetch : fetchCheck (s.env x) x.m x.m.cpu.pc len = .ok ()
  clean : fetchFixes (s.env x) x.m x.m.cpu.pc len = []

/-- The lane may execute the `cost` vc from the next one on: no happening of its virtual time comes before the last of them (R51, R231, R241,
R298, R323). -/
def laneFits (x : Ctx) (cost : Nat) : Prop := laneMayPass x (x.m.vc + (cost - 1)) = true

/-- The bytes of a register ALU form (R78, R79). -/
def aluLen : AluForm → Nat
  | .r16 _ _ => 2
  | .r32 _ _ _ => 4

/-- The bytes of the other forms with two lengths. -/
def shiftLen : ShiftForm → Nat
  | .reg f => aluLen f
  | .imm _ _ => 2

def rorLen : RorForm → Nat
  | .imm _ _ => 2
  | .x32 _ _ _ => 4

def addImmLen : AddImm → Nat
  | .i8 _ _ => 2
  | .i16 _ _ _ => 4

def cmpImmLen : CmpImm → Nat
  | .i8 _ _ => 2
  | .i16 _ _ => 4

def bccLen : BccForm → Nat
  | .short _ => 2
  | .long _ => 4

def eaLen : Ea → Nat
  | .base16 _ _ => 2
  | .stack16 _ => 2
  | _ => 4

/-- The address that follows the instruction of `len` bytes at the PC. -/
def Mach.following (m : Mach) (len : Nat) : Word := m.cpu.pc + BitVec.ofNat 32 len

/-- The processor fields that only order boundaries and continue instructions, as they stand after one has retired. -/
def Cpu.idleMarks (c : Cpu) : Cpu := { c with begun := false, blk := none, word := [], idle := none, afterRete := false, at12 := false }

/-- Retirement without transfer of control after `cost` vc with processor state `c`: the loop check gives the next PC (R74, R92). -/
def retireSeq (m : Mach) (c : Cpu) (cost len : Nat) : Mach :=
  let l := loopCheck 4 c.idleMarks (m.following len)
  { m with vc := m.vc + cost, cpu := { l.1 with pc := l.2 } }

/-- Retirement with transfer of control to `a` after `cost` vc (R93). -/
def retireJump (m : Mach) (c : Cpu) (cost : Nat) (a : Word) : Mach :=
  { m with vc := m.vc + cost, cpu := { c.idleMarks with pc := a } }

/-- The context state in which an exception of the instruction at the PC is entered, `cost` vc after its issue: nothing else has changed
(R74, R122). -/
def trapped (m : Mach) (cost : Nat) : Mach := { m with vc := m.vc + cost, cpu := m.cpu.idleMarks }

/-- The instruction at the PC of context `x` raises exception `k` after `cost` vc: its entry begins in the vc after them, and is made at once where
no happening comes before its eighth vc (R76, R126). -/
def trap (s : State) (x : Ctx) (cost : Nat) (k : Exc) : Host.Outcome State Fault Refusal :=
  .next (settle s x (raiseExc (s.env x) (trapped x.m cost) k (x.m.vc + cost)))

/-- The same where its gate checks have read the entry of gate `g`, whose poison then counts as consumed (R144, R500). -/
def gateTrap (s : State) (x : Ctx) (g : Nat) (k : Exc) : Host.Outcome State Fault Refusal :=
  .next (settle s x (raiseExc (s.env x) (trapped (noteGate (s.env x) x.m [gateAddr x.m g + 4] x.m.vc) 1) k (x.m.vc + 1)))

/-- The block after context `x` has advanced to `m` with no effect outside its context state, but for the meters of the vc it has run
(R344, R439). -/
def advanced (s : State) (x : Ctx) (m : Mach) : State := s.putCtx (noteVc { x with m := m } x.m.vc)

/-- The processor state with `v` in `rd` and flags N, Z, C and V. -/
def Cpu.result (c : Cpu) (rd : Reg) (v : Word) (n z cy o : Bool) : Cpu := { c with regs := c.regs.set rd v, psw := setFlags c.psw n z cy o }

/-- The registers of `m` after the write-back of an address form for an access of `n` bytes (R81). -/
def regsBack (m : Mach) (n : Nat) (ea : Ea) : Vector Word 16 :=
  match eaBack m n ea with
  | some (r, v) => m.cpu.regs.set r v
  | none => m.cpu.regs

/-- The block after context `x` has advanced to `m` with the corrections that its reads made (R496, R497, R509); without one it is as `advanced`. -/
def advancedRead (s : State) (x : Ctx) (m : Mach) (l : List Fx) : State := settle s x { m with fx := l }

/-- The snapshot allowance lets context `x` use `n` more pages (R338). -/
def pagesFree (x : Ctx) (n : Nat) : Prop := x.cfg.rben = false ∨ x.pagesUsed + n ≤ x.cfg.allow

/-- Byte `a` of one of the three memories. -/
def Mach.ramByte (m : Mach) (r : Ram) (a : Nat) : Byte := memGet (m.ramOf r) a

/-- The frame address of an entry (R126): 64 bytes below SSP from level 0, below w15 from level 1. -/
def frameAddr (m : Mach) (t : Nat) : Word := (if pswLV (m.pswAt t) = 0 then m.cpu.ssp else m.reg spReg) - 64

/-- CAUSE as an entry from `m` for exception `k` writes it (R123, R126). -/
def entryCause (m : Mach) (k : Exc) (t : Nat) : Word := causeWord k.vec k.kind (pswLV (m.pswAt t)) false 0

/-- The context state after the frame is written, in vc `t` (R126); the source of an interrupt is no longer pending. -/
def framed (e : Env) (m : Mach) (k : Exc) (t : Nat) : Mach :=
  let w := putWords e m (frameAddr m t).toNat (frameWords m.cpu k.pc (m.pswAt t) (entryCause m k t) k.info) t
  if k.vec < 32 then w else { w with ic := { w.ic with pend := w.ic.pend.clear (BitVec.ofNat 32 (2 ^ (k.vec - 32))) t } }

/-- The vector-table word of exception `k` as the entry reads it at supervisor level (R120, R126). -/
def descriptor (e : Env) (m : Mach) (k : Exc) (t : Nat) : Except (Nat × Word) (Nat × Mach) :=
  loadSup e (framed e m k t) ((m.cpu.vbr.toNat + 4 * k.vec) % 2 ^ 32) 4 t

/-- `y` is `m` after the entry of exception `k` that begins in vc `t0`, whose descriptor is `d` (R126): the frame holds sixteen words, the level
is 1, T and LD are 0, IE is 0 for an exception and IPL the priority for an interrupt, the flags stay, and nothing but processor, memory, the
pending bit and the vc changes. -/
structure Entered (e : Env) (m : Mach) (k : Exc) (t0 d : Nat) (y : Mach) : Prop where
  vc : y.vc = t0 + 8
  pc : y.cpu.pc = BitVec.ofNat 32 (m.cpu.vbr.toNat + bitsOf d 22 1 * 2)
  regs : y.cpu.regs = m.cpu.regs.set spReg (frameAddr m (t0 + 7))
  usp : y.cpu.usp = if pswLV m.cpu.psw = 0 then m.reg spReg else m.cpu.usp
  cause : y.cpu.cause = entryCause m k (t0 + 7) ∧ y.cpu.info = k.info
  level : pswLV y.cpu.psw = 1 ∧ pswT y.cpu.psw = false ∧ pswLD y.cpu.psw = 0
  flags : pswN y.cpu.psw = pswN m.cpu.psw ∧ pswZ y.cpu.psw = pswZ m.cpu.psw ∧ pswC y.cpu.psw = pswC m.cpu.psw
    ∧ pswV y.cpu.psw = pswV m.cpu.psw
  intr : if k.vec < 32 then pswIE y.cpu.psw = false ∧ pswIPL y.cpu.psw = pswIPL m.cpu.psw
    else pswIE y.cpu.psw = pswIE m.cpu.psw ∧ pswIPL y.cpu.psw = bitsOf k.info.toNat 10 8
  hold : y.cpu.hold = if bitOf d 23 then some (t0 + 8 + bitsOf d 31 24 + 1) else none
  frame : ∀ j, j < 16 → areaWord e y (frameAddr m (t0 + 7)).toNat 64 j
    = (frameWords m.cpu k.pc (m.pswAt (t0 + 7)) (entryCause m k (t0 + 7)) k.info).getD j 0
  keeps : y.cpu.vbr = m.cpu.vbr ∧ y.cpu.gtb = m.cpu.gtb ∧ y.cpu.gtl = m.cpu.gtl ∧ y.cpu.ssp = m.cpu.ssp ∧ y.cpu.loops = m.cpu.loops
    ∧ y.cpu.acc = m.cpu.acc ∧ y.cpu.cychLatch = m.cpu.cychLatch
  rest : { y with cpu := m.cpu, mem := m.mem, vc := m.vc, ic := m.ic, fx := m.fx } = m

/-- Memory after `n` words have been copied one at a time, in ascending order, from `src` to `dst` (R102). -/
def copyWords : Nat → (Nat → Byte) → Nat → Nat → Nat → Byte
  | 0, f, _, _ => f
  | n + 1, f, src, dst => copyWords n (fun a => if dst ≤ a ∧ a < dst + 4 then f (src + (a - dst)) else f a) (src + 4) (dst + 4)

/-- The aligned word at place `off` of work RAM. -/
def Mach.workWord (m : Mach) (off : Nat) : Word := BitVec.ofNat 32 (memNat m.mem.work off 4)

/-- `n` words from the address in register `r` on lie in work RAM from `off` on and may be accessed. -/
def wordsAt (e : Env) (m : Mach) (acc : Acc) (r : Reg) (off n : Nat) : Prop :=
  (m.reg r).toNat % 4 = 0 ∧ ∀ i, i < n → checkAccess e m acc ((m.reg r).toNat + 4 * i) 4 = .ok (.ram .work (off + 4 * i))

/-- The processor with `b` in flag C. -/
def Cpu.carry (c : Cpu) (b : Bool) : Cpu := { c with psw := setFlags c.psw (pswN c.psw) (pswZ c.psw) b (pswV c.psw) }

/-- A value that a 32-bit signed result cannot hold. -/
def overflows (i : Int) : Bool := decide (i < -2147483648 ∨ 2147483647 < i)

/-- Context `c` is `x`, executes, and stands between two instructions: nothing of an earlier command is left to settle, no interrupt or comparator is
entered first (R63, R124), and no instruction, entry, block instruction or wait is in progress. T and the comparators are as they are. -/
structure Stands (s : State) (c : Nat) (x : Ctx) : Prop where
  here : s.ctx? c = some x
  active : x.active = true
  quiet : x.m.fx = []
  noInt : chosen x.m x.m.vc = none
  noEntry : x.m.cpu.entry = none
  noBegun : x.m.cpu.begun = false
  noWord : x.m.cpu.word = []
  noBlk : x.m.cpu.blk = none
  noIdle : x.m.cpu.idle = none

/-- As `Issues`, but with T 1: the instruction of `len` bytes at the PC is traced (R116). -/
structure IssuesTraced (s : State) (c : Nat) (x : Ctx) (len : Nat) : Prop where
  stands : Stands s c x
  traced : pswT x.m.cpu.psw = true
  noBp0 : x.m.dbg.bp0.getLsbD 0 = false
  noBp1 : x.m.dbg.bp1.getLsbD 0 = false
  fetch : fetchCheck (s.env x) x.m x.m.cpu.pc len = .ok ()
  clean : fetchFixes (s.env x) x.m x.m.cpu.pc len = []

/-! ### Events of a context -/

/-- Context `c` is `x`, executes, and nothing of an earlier command is left to settle. -/
structure Runs (s : State) (c : Nat) (x : Ctx) : Prop where
  here : s.ctx? c = some x
  active : x.active = true
  quiet : x.m.fx = []

/-- The block after an event of context `x` that changes its context state to `m`, with no effect outside it. -/
def evented (s : State) (x : Ctx) (m : Mach) : State := advanced s x m

/-! ### Memories -/

/-- Work RAM, VRAM and audio RAM of a context state are in canonical form. -/
def Mach.memOk (m : Mach) : Bool := memWf m.mem.work && memWf m.mem.vram && memWf m.mem.audio

/-- So are those of a context and of its snapshots (R335). -/
def Ctx.memOk (x : Ctx) : Bool := x.m.memOk && x.snaps.all fun p => p.m.memOk

/-- So are those of every context, and the bytes of every mailbox. -/
def State.memOk (s : State) : Bool := s.ctxs.all Ctx.memOk && s.mgmt.boxes.toList.all fun b => memWf b.mem

/-! ### Management commands -/

/-- The packet is the next one of its master's ring, or the ring is empty (R449; log entry 80), the device takes it, and checks 1 to 3 of R456 hold for it;
`role` is the role of the session that carries it, 0 for a packet without a session (R433, R434). -/
structure Sent (s : State) (h : Hdr) (role : Nat) : Prop where
  takes : takes s h.master = true
  room : atHead s h = true
  ready : s.mgmt.devstate = 2
  fver : h.fver = 1
  flags : h.rsvdFlags = false
  auth : (h.sh = 0 ∧ role = 0) ∨
    (h.sh ≠ 0 ∧ trailerRight s h = true ∧ ∃ x, openSession s h = some x ∧ x.role = role ∧ h.seq.toNat = x.seq)

/-- The packet is one of opcode `op` that carries the operands of command `i` in the fields that the catalogue lists: its bytes say what they say, its LEN is
the size of the fields, and the reserved ones are zero (R453, R456 steps 4 and 8). -/
structure Packed (h : Hdr) (op : Nat) (i : Instr) : Prop where
  op : h.op.toNat = op
  spelt : spells (layout i) h = true
  len : lenRight (layout i) h = true
  rsvd : badRsvd (fieldsAt h) (layout i).pars (fieldsOf h) = none

/-- The packet comes from the owner (R456 step 5). -/
def fromOwner (s : State) (h : Hdr) : Prop := s.mgmt.owner = h.master

/-- The reply ring of the packet's master has room for a reply with `n` payload bytes (R449). -/
def roomFor (s : State) (h : Hdr) (n : Nat) : Prop :=
  ringCost 2048 (s.box h.master).rprod (1 + (n + 15) / 16 + (decide (h.sh ≠ 0)).toNat) ≤ (s.box h.master).free

/-- The state on which an accepted command acts: its packet taken from the ring, its sequence number used (R433, R449). A bulk command has read its input
too (R454). -/
def checked (s : State) (h : Hdr) : State := noteSession (consume s h) { h with trailerOk := trailerRight s h }

/-- The newest reply to the packet's master answers `h` (R452). -/
def Replied (t : State) (h : Hdr) (op status result : Nat) (payload : List Byte) : Prop :=
  ∃ r, (t.box h.master).replies.getLast? = some r ∧ r.op = BitVec.ofNat 16 op ∧ r.status = BitVec.ofNat 8 status ∧ r.tag = h.tag ∧ r.sh = h.sh
    ∧ r.result = result ∧ r.payload = payload ∧ r.trailer = decide (h.sh ≠ 0)

/-- The state on which an accepted command acts that looks up fields `l` of the vote store, in whose words two copies agree (R507). -/
def lookedUp (s : State) (h : Hdr) (l : List VoteField) : State := readVotes (checked s h) l.contains

/-- Some word of the fields `l` has no two copies that agree (R508). -/
abbrev lostIn (s : State) (l : List VoteField) : Prop := s.voteLost l.contains = true

/-- Command `i` looks up such a word: it fails with E_FAULT, and the device is HALTED (R466, R508). -/
def FindsLost (s : State) (h : Hdr) (i : Instr) (op : Nat) (l : List VoteField) : Prop :=
  lostIn s l → Packed h op i → roomFor s h 0 → ∃ t, exec i s = .next t ∧ Replied t h op 0x0D 0 [] ∧ t.mgmt.devstate = 4 ∧ ∀ x ∈ t.ctxs, x.orr.lane = none

/-- `t` is `a` after the answer to an accepted command: the newest reply of the packet's master has STATUS 0, RESULT `result` and `payload`
(R452), the lease of the owner restarts where the owner sent it (R462), the Almanac has one more record where `rec` gives its role, context and
DETAIL (R434, R435), and nothing else differs but the reply ring and what raising events changes: the event log, the functions and their
messages. -/
structure Answered (a : State) (h : Hdr) (op : Nat) (rec : Option (Nat × Nat × List Byte)) (result : Nat) (payload : List Byte) (t : State) :
    Prop where
  reply : Replied t h op 0 result payload
  lease : t.mgmt.leaseEnd = if a.mgmt.owner = h.master then a.audit.uptime + a.mgmt.lease * 1000000 else a.mgmt.leaseEnd
  others : ∀ m, m % 3 ≠ h.master % 3 → t.box m = a.box m
  rest :
    let b := match rec with
      | some r => appendRec a (BitVec.ofNat 16 op) 0 (BitVec.ofNat 8 h.master) (BitVec.ofNat 8 r.1) 0 r.2.1 h.sh r.2.2
      | none => a
    t = { b with
      mgmt := { b.mgmt with boxes := t.mgmt.boxes, leaseEnd := t.mgmt.leaseEnd }
      audit := { b.audit with events := t.audit.events, evSeq := t.audit.evSeq }
      funcs := t.funcs, wire := t.wire }

/-- Command `i` is accepted where there is room for its reply: it leaves `a`, answered, and `also` holds. -/
def Accepts (s : State) (h : Hdr) (i : Instr) (op : Nat) (a : State) (rec : Option (Nat × Nat × List Byte)) (result : Nat) (payload : List Byte)
    (also : State → Prop) : Prop :=
  Packed h op i → roomFor s h payload.length → ∃ t, exec i s = .next t ∧ Answered a h op rec result payload t ∧ also t

/-- Nothing more is claimed. -/
def noMore (_ : State) : Prop := True

/-- The bulk input of the packet can be read: there is none, or the port's DMA runs (R402, R454). -/
abbrev inputReadable (s : State) (h : Hdr) : Prop := h.bulk = false ∨ inLenOf h = 0 ∨ portUp s h.master = true

/-- Command `i` is accepted to the pending list (R458): the state of its checks, its bulk input read (R454), changed by `f`, holds it, and no reply is
posted yet. -/
def Pends (s : State) (h : Hdr) (role : Nat) (i : Instr) (op c : Nat) (body : PendBody) (f : State → State) : Prop :=
  Packed h op i → inputReadable s h → (s.mgmt.pend.filter fun p => p.h.master = h.master).length < 16 →
    exec i s = .next (pendOn (f (readInput h (checked s h))) (takenHdr s op h) (BitVec.ofNat 8 role) c body)

/-- No command pends on context `c` (R459). -/
def notBusy (s : State) (c : Nat) : Prop := ∀ p ∈ s.mgmt.pend, p.on ≠ some c

/-- `p` is the pending command whose transfer is reported (R454, R458). -/
def reported (s : State) (p : Pend) : Prop :=
  s.mgmt.pend.find? (fun q => decide (q.h.master = p.h.master) && decide (q.h.tag = p.h.tag) && transferReady s q) = some p

/-- So it is, its reads are made and stand, DMA of its port runs, and its answer finds room (R402, R454, R458). -/
def transfers (s : State) (p : Pend) : Prop :=
  s.mgmt.devstate = 2 ∧ (s.box p.h.master).waiting = [] ∧ roomFor s p.h 0 ∧ reported s p ∧ p.dropped = false ∧ needsInput p = false
    ∧ portUp s p.h.master = true

/-- The state without pending command `p`. -/
def dropped (s : State) (p : Pend) : State := { s with mgmt := { s.mgmt with pend := s.mgmt.pend.erase p } }

/-- DETAIL of a command that R467 does not mark: its parameters in full. -/
def plainDetail (h : Hdr) : List Byte := fit 32 h.params

/-- DETAIL of a command that R467 marks with a dagger: the digest of its parameters and bulk input, cut to 32 bytes. -/
def hashDetail (h : Hdr) : List Byte := fit 32 (digest (sha384 (h.params ++ h.input)))

/-- `t` is as a port fault of port `p` leaves `s` in what it says of queues, sessions and ownership (R405, R433, R462): the queues of the port's
contexts are abandoned, the sessions of its master closed, its ownership vacant; no context changes. -/
structure PortFaulted (s : State) (p : Nat) (t : State) : Prop where
  queues : t.queues = s.queues.map fun q =>
    if s.ctxs.any (fun x => decide (x.num = q.qid / 16) && decide (x.cfg.port = p)) then
      { q with fhead := q.chead, tail := q.chead, fetched := [], waits := [], kept := false } else q
  sessions : t.mgmt.sessions = s.mgmt.sessions.filter fun x => x.master ≠ p
  owner : t.mgmt.owner = if s.mgmt.owner = p then 3 else s.mgmt.owner
  ctxs : t.ctxs = s.ctxs

/-- Source `e` is pending on every function (R397, R401). -/
def raisedAll (t : State) (e : Nat) : Prop := ∀ p ∈ t.ports, (t.func p).evpend.getLsbD e = true

/-- Source `e` is pending on the function of port `p`. -/
def raisedOn (t : State) (p e : Nat) : Prop := (t.func p).evpend.getLsbD e = true

end Sys2Proof.Machine
end

