-- ==== Sys2Proof/Certificates/Slice0/Obligations.lean ====
section
/-! DEFINITION. The statements for the provers: what the commands of the block do, by family, and the rules that hold of the whole block. -/

open Sys2Proof Sys2Proof.Machine

/-! ### The queue, reset, and the block as a whole -/

/-- One step runs the command at the front of the queue on the state with the queue's rest. -/
def Obligations.StepRunsTheFrontCommand : Prop :=
  ∀ (s : State) (i : Instr) (rest : List Instr), s.pending = i :: rest → step s = exec i { s with pending := rest }

/-- On an empty queue one CLK_TICK edge passes (the model's choice, log entry 2): uptime counts from READY on (R434), device time counts in
every state in which it is set (R437), the brake input has been low twice where it reads low as at the edge before (R517), and no command is taken
from anywhere. -/
def Obligations.EmptyQueuePassesOneMicrosecond : Prop :=
  ∀ s : State, s.pending = [] →
    ∃ t, step s = .next t ∧ t.pending = []
      ∧ t.audit.uptime = (if s.mgmt.devstate = 1 then s.audit.uptime else s.audit.uptime + 1)
      ∧ t.audit.time = s.audit.time.map (fun k => (k + 1) % 2 ^ 64)
      ∧ (s.mgmt.devstate ≠ 1 → ∀ n : Fin 48,
          let low := decide ((govPin s n.val).func = 11) && !(govPin s n.val).pad
          t.gpio.low[n] = low ∧ t.gpio.lowTwice[n] = (s.gpio.low[n] && low))

/-- A cold reset leaves BOOT, no owner, no context, no session, every MSI-X vector masked, no event pending, Frost off; pins 0 to 2 have a
pull-up, the others pull as R518 says, and no pin is locked or drives. That the link is down is the model's choice (log entry 4: the spec gives
no link state at reset). The memories of the state after reset are in canonical form. -/
def Obligations.ResetLeavesBoot : Prop :=
  (State.reset.mgmt.devstate = 1 ∧ State.reset.mgmt.owner = 3 ∧ State.reset.mgmt.sessions = [] ∧ State.reset.ctxs = []
      ∧ State.reset.images = [] ∧ State.reset.queues = [] ∧ State.reset.pending = []
      ∧ (∀ p, p < 2 → (State.reset.func p).mask = BitVec.allOnes 256 ∧ (State.reset.func p).evpend = 0 ∧ (State.reset.func p).linkUp = false)
      ∧ State.reset.power.frost = false ∧ State.reset.power.brake = false
      ∧ (∀ n, n < 48 → (State.reset.gpio.pin n).pull = (if n < 3 then 1 else 2) ∧ (State.reset.gpio.pin n).func = 0
          ∧ (State.reset.gpio.pin n).oe = false ∧ (State.reset.gpio.pin n).lock = false))
  ∧ (State.reset.memOk = true)

/-- Every step keeps work RAM, VRAM and audio RAM of every context and snapshot, and the bytes of every mailbox, in canonical form. -/
def Obligations.StepKeepsMemoriesCanonical : Prop := ∀ s t : State, s.memOk = true → step s = .next t → t.memOk = true

/-- Every command has an effect or none, and the block goes on: no command stops it; that a command which cannot occur in a state is no event there is
the model's choice (log entries 50 and 51). A command changes nothing of the queue of waiting commands. -/
def Obligations.EveryCommandLeavesANextState : Prop :=
  (∀ (i : Instr) (s : State), ∃ t, exec i s = .next t)
  ∧ (∀ (i : Instr) (s t : State), exec i s = .next t → t.pending = s.pending)

/-- An instruction of one context, an exception or a service in it included, leaves every other context as it was (R4, R16). -/
def Obligations.InstructionsLeaveOtherContextsAlone : Prop :=
  ∀ (s t : State) (c d : Nat) (enc : Encoding) (body : Body), d ≠ c → coreStep s c enc body = .next t → t.ctx? d = s.ctx? d

/-- Decoding the bits of a well-formed instruction gives the instruction back with every operand, for every instruction of R78 to R80. -/
def Obligations.DecodingUndoesEncoding : Prop :=
  ∀ i : Instr, (encodeCore i).isSome = true → (∀ c e, i ≠ .illegalOpcode c e) → wellFormed i = true →
    ∃ c, decodeCore c (encodingOf i) = some i

/-! ### Arithmetic, logic and shifts (R83 to R86) -/

/-- MOV, ADD, ADC, SUB, SBC and NEG write their result to the destination in one vc, with the flags of R84 (MOV none), and nothing else
changes but the PC, under the loop check, and the vc. -/
def Obligations.AddAndSubtractWriteResultAndFlags : Prop :=
  ∀ (s : State) (c : Nat) (x : Ctx) (f : AluForm), Issues s c x (aluLen f) → laneFits x 1 →
    let m := x.m
    let a := aluX m f
    let b := aluY m f
    let k := (pswC m.cpu.psw).toNat
    let gives (p : Cpu) : Host.Outcome State Fault Refusal := .next (advanced s x (retireSeq m p 1 (aluLen f)))
    let put (v : Word) (carry excess : Bool) := gives (m.cpu.result (aluDest f) v v.msb (decide (v = 0)) carry excess)
    exec (.mov c f) s = gives { m.cpu with regs := m.cpu.regs.set (aluDest f) b }
      ∧ exec (.add c f) s = put (a + b) (decide (2 ^ 32 ≤ a.toNat + b.toNat)) (overflows (a.toInt + b.toInt))
      ∧ exec (.adc c f) s = put (a + b + BitVec.ofNat 32 k) (decide (2 ^ 32 ≤ a.toNat + b.toNat + k)) (overflows (a.toInt + b.toInt + k))
      ∧ exec (.sub c f) s = put (a - b) (decide (b.toNat ≤ a.toNat)) (overflows (a.toInt - b.toInt))
      ∧ exec (.sbc c f) s
          = put (a - b - BitVec.ofNat 32 (1 - k)) (decide (b.toNat + (1 - k) ≤ a.toNat)) (overflows (a.toInt - b.toInt - ((1 - k : Nat) : Int)))
      ∧ exec (.neg c f) s = put (0 - b) (decide (b = 0)) (overflows (-b.toInt))

/-- AND, OR, XOR, NOT write their result in one vc and MUL the low 32 bits of the product in two, with N and Z of the result; C and V stay.
The operations of major 0x01 but the divisions and ROR: high products in three vc, the others in one, with N and Z of the result. -/
def Obligations.LogicAndExtendedOperationsWriteResultNAndZ : Prop :=
  (∀ (s : State) (c : Nat) (x : Ctx) (f : AluForm), Issues s c x (aluLen f) → laneFits x 2 →
      let m := x.m
      let a := aluX m f
      let b := aluY m f
      let put (cost : Nat) (v : Word) : Host.Outcome State Fault Refusal :=
        .next (advanced s x (retireSeq m
          (m.cpu.result (aluDest f) v v.msb (decide (v = 0)) (pswC m.cpu.psw) (pswV m.cpu.psw)) cost (aluLen f)))
      exec (.and c f) s = put 1 (a &&& b) ∧ exec (.or c f) s = put 1 (a ||| b) ∧ exec (.xor c f) s = put 1 (a ^^^ b)
        ∧ exec (.not c f) s = put 1 (~~~ b) ∧ exec (.mul c f) s = put 2 (BitVec.ofNat 32 (a.toNat * b.toNat)))
  ∧ (∀ (s : State) (c : Nat) (x : Ctx) (rd ra rb : Reg), Issues s c x 4 → laneFits x 3 →
      let m := x.m
      let a := m.reg ra
      let b := m.reg rb
      let put (cost : Nat) (v : Word) : Host.Outcome State Fault Refusal :=
        .next (advanced s x (retireSeq m (m.cpu.result rd v v.msb (decide (v = 0)) (pswC m.cpu.psw) (pswV m.cpu.psw)) cost 4))
      exec (.mulh c rd ra rb) s = put 3 (BitVec.ofInt 32 (a.toInt * b.toInt / 2 ^ 32))
        ∧ exec (.mulhu c rd ra rb) s = put 3 (BitVec.ofNat 32 (a.toNat * b.toNat / 2 ^ 32))
        ∧ exec (.min c rd ra rb) s = put 1 (BitVec.ofInt 32 (Min.min a.toInt b.toInt))
        ∧ exec (.max c rd ra rb) s = put 1 (BitVec.ofInt 32 (Max.max a.toInt b.toInt))
        ∧ exec (.minu c rd ra rb) s = put 1 (BitVec.ofNat 32 (Min.min a.toNat b.toNat))
        ∧ exec (.maxu c rd ra rb) s = put 1 (BitVec.ofNat 32 (Max.max a.toNat b.toNat))
        ∧ exec (.sxtb c rd ra) s = put 1 ((a.setWidth 8).signExtend 32) ∧ exec (.sxth c rd ra) s = put 1 ((a.setWidth 16).signExtend 32)
        ∧ exec (.zxtb c rd ra) s = put 1 (a &&& 0xFF#32) ∧ exec (.zxth c rd ra) s = put 1 (a &&& 0xFFFF#32))

/-- CMP, TST and CMPI write flags alone. A 32-bit CMP or TST whose rd field is not 0 is an encoding that R80 does not assign. MOVI and MOVHI
write their immediate and no flag, ADDI the sum as ADD, ANDI, ORI and XORI the result with the zero-extended immediate. -/
def Obligations.ComparesAndImmediates : Prop :=
  ((∀ (s : State) (c : Nat) (x : Ctx) (f : AluForm), Issues s c x (aluLen f) → laneFits x 1 → cmpFormOk f = true →
      let m := x.m
      let a := aluX m f
      let b := aluY m f
      let d := a - b
      let e := a &&& b
      let gives (p : Word) : Host.Outcome State Fault Refusal := .next (advanced s x (retireSeq m { m.cpu with psw := p } 1 (aluLen f)))
      exec (.cmp c f) s = gives (setFlags m.cpu.psw d.msb (decide (d = 0)) (decide (b.toNat ≤ a.toNat)) (overflows (a.toInt - b.toInt)))
        ∧ exec (.tst c f) s = gives (setFlags m.cpu.psw e.msb (decide (e = 0)) (pswC m.cpu.psw) (pswV m.cpu.psw)))
    ∧ (∀ (s : State) (c : Nat) (x : Ctx) (g : CmpImm), Issues s c x (cmpImmLen g) → laneFits x 1 →
      let m := x.m
      let a := cmpImmX m g
      let b := cmpImmY g
      let d := a - b
      exec (.cmpi c g) s = .next (advanced s x (retireSeq m { m.cpu with
        psw := setFlags m.cpu.psw d.msb (decide (d = 0)) (decide (b.toNat ≤ a.toNat)) (overflows (a.toInt - b.toInt)) } 1 (cmpImmLen g)))))
  ∧ (∀ (s : State) (c : Nat) (x : Ctx) (rd ra : Reg) (i8 : Byte) (i16 : Half) (g : AddImm),
      let m := x.m
      let gives (p : Cpu) (len : Nat) : Host.Outcome State Fault Refusal := .next (advanced s x (retireSeq m p 1 len))
      let nz (v : Word) := gives (m.cpu.result rd v v.msb (decide (v = 0)) (pswC m.cpu.psw) (pswV m.cpu.psw)) 4
      laneFits x 1 →
      (Issues s c x 2 → exec (.movi c rd i8) s = gives { m.cpu with regs := m.cpu.regs.set rd (i8.setWidth 32) } 2)
      ∧ (Issues s c x 4 →
          exec (.movhi c rd i16) s = gives { m.cpu with regs := m.cpu.regs.set rd (i16.setWidth 32 <<< 16) } 4
            ∧ exec (.andi c rd ra i16) s = nz (m.reg ra &&& i16.setWidth 32) ∧ exec (.ori c rd ra i16) s = nz (m.reg ra ||| i16.setWidth 32)
            ∧ exec (.xori c rd ra i16) s = nz (m.reg ra ^^^ i16.setWidth 32))
      ∧ (Issues s c x (addImmLen g) →
          let a := addImmX m g
          let b := addImmY g
          let v := a + b
          exec (.addi c g) s = gives (m.cpu.result (addImmDest g) v v.msb (decide (v = 0)) (decide (2 ^ 32 ≤ a.toNat + b.toNat))
            (overflows (a.toInt + b.toInt))) (addImmLen g)))

/-- LSL, LSR, ASR and ROR (R85) by the low 8 bits of a register or an immediate: by 0 the value and C stay; else C is the last bit shifted
out, 0 or the sign where the count passes the width, and after ROR bit 31 of the result. N and Z are those of the result, V stays. -/
def Obligations.ShiftsWriteResultAndLastBitOut : Prop :=
  (∀ (s : State) (c : Nat) (x : Ctx) (f : ShiftForm), Issues s c x (shiftLen f) → laneFits x 1 →
    let m := x.m
    let a := shiftX m f
    let n := shiftN m f
    let old := pswC m.cpu.psw
    let put (v : Word) (carry : Bool) : Host.Outcome State Fault Refusal :=
      .next (advanced s x (retireSeq m (m.cpu.result (shiftDest f) v v.msb (decide (v = 0)) carry (pswV m.cpu.psw)) 1 (shiftLen f)))
    exec (.lsl c f) s = put (BitVec.ofNat 32 (a.toNat * 2 ^ n)) (if n = 0 then old else if 32 < n then false else a.getLsbD (32 - n))
      ∧ exec (.lsr c f) s = put (BitVec.ofNat 32 (a.toNat / 2 ^ n)) (if n = 0 then old else a.getLsbD (n - 1))
      ∧ exec (.asr c f) s = put (BitVec.ofInt 32 (a.toInt / 2 ^ n)) (if n = 0 then old else if 32 ≤ n then a.msb else a.getLsbD (n - 1)))
  ∧ (∀ (m : Mach) (rd ra rb : Reg) (n : Fin 32), shiftN m (.reg (.r16 rd rb)) = (m.reg rb).toNat % 256
    ∧ shiftN m (.reg (.r32 rd ra rb)) = (m.reg rb).toNat % 256 ∧ shiftN m (.imm n rd) = n.val
    ∧ rorN m (.x32 rd ra rb) % 32 = (m.reg rb).toNat % 256 % 32 ∧ rorN m (.imm n rd) = n.val)
  ∧ (∀ (s : State) (c : Nat) (x : Ctx) (f : RorForm), Issues s c x (rorLen f) → laneFits x 1 →
    let m := x.m
    let n := rorN m f
    let v := (rorX m f).rotateRight n
    exec (.ror c f) s = .next (advanced s x (retireSeq m
      (m.cpu.result (rorDest f) v v.msb (decide (v = 0)) (if n % 32 = 0 then pswC m.cpu.psw else v.msb) (pswV m.cpu.psw)) 1 (rorLen f))))

/-- DIV, DIVU, REM and REMU take 18 vc with V clear, but for the one signed overflow, which sets it; a zero divisor takes vector 8 in one vc
and changes no register or flag before the entry. -/
def Obligations.DivisionsWriteQuotientOrTakeVector8 : Prop :=
  ∀ (s : State) (c : Nat) (x : Ctx) (rd ra rb : Reg), Issues s c x 4 →
    let m := x.m
    let a := m.reg ra
    let b := m.reg rb
    let big := decide (a = 0x80000000#32 ∧ b = 0xFFFFFFFF#32)
    let put (v : Word) (excess : Bool) : Host.Outcome State Fault Refusal :=
      .next (advanced s x (retireSeq m (m.cpu.result rd v v.msb (decide (v = 0)) (pswC m.cpu.psw) excess) 18 4))
    let zero (i : Instr) : Host.Outcome State Fault Refusal := trap s x 1 { vec := 8, kind := 3, info := (encodingOf i).bits, pc := m.cpu.pc }
    (b ≠ 0 → laneFits x 18 →
      exec (.div c rd ra rb) s = put (if big then 0x80000000#32 else BitVec.ofInt 32 (a.toInt.tdiv b.toInt)) big
        ∧ exec (.divu c rd ra rb) s = put (BitVec.ofNat 32 (a.toNat / b.toNat)) false
        ∧ exec (.rem c rd ra rb) s = put (if big then 0 else BitVec.ofInt 32 (a.toInt.tmod b.toInt)) big
        ∧ exec (.remu c rd ra rb) s = put (BitVec.ofNat 32 (a.toNat % b.toNat)) false)
    ∧ (b = 0 → laneFits x 1 →
      exec (.div c rd ra rb) s = zero (.div c rd ra rb) ∧ exec (.divu c rd ra rb) s = zero (.divu c rd ra rb)
        ∧ exec (.rem c rd ra rb) s = zero (.rem c rd ra rb) ∧ exec (.remu c rd ra rb) s = zero (.remu c rd ra rb))

/-! ### Loads and stores (R81, R82) -/

/-- The checks of one access, in the order of R532, with the vector and INFO of the first that fails (R33 to R35, R39, R40, R46, R53, R56, R117, R122): the
natural alignment and the word rule of the I/O region; the map with its limits by profile and its Fetch and Write columns; the block under the level and
SYS_UMASK, or the user windows; the posted ranges and the ATTEST buffer; the unwritten marking; poison that the access uses. -/
def AccessFollows (e : Env) (m : Mach) : Prop :=
  ∀ (acc : Acc) (a n : Nat), n ∈ [1, 2, 4] →
    let got := checkAccess e m acc a n
    let refused (v i : Nat) : Prop := got = .error (v, BitVec.ofNat 32 i)
    let io := 0xFF000000 ≤ a ∧ a ≤ 0xFF00FFFF
    let view := 0x08000000 ≤ a ∧ a ≤ 0x08FFFFFF
    let size (small medium large : Nat) : Nat := if e.cfg.prof = 0 then small else if e.cfg.prof = 1 then medium else large
    let reads := acc ≠ .write
    let data := acc ≠ .fetch
    let place : Option Loc :=
      if view then
        let q := a / 0x100000 - 0x80
        let o := m.oqOf q
        if data ∧ q ∈ [5, 6, 9, 10, 11, 12, 13, 14, 15] ∧ o.en = true ∧ a % 0x100000 < o.size.toNat then
          some (.ram .work (o.base.toNat + a % 0x100000)) else none
      else if a ≤ 0x1FFF then some (.fast a)
      else if 0x01000000 ≤ a ∧ a < 0x01000000 + size 0x100000 0x400000 0x1000000 then some (.ram .work (a - 0x01000000))
      else if data ∧ 0x02000000 ≤ a ∧ a < 0x02000000 + size 0x40000 0x100000 0x200000 then some (.ram .vram (a - 0x02000000))
      else if data ∧ 0x03000000 ≤ a ∧ a < 0x03000000 + size 0x40000 0x100000 0x400000 then some (.ram .audio (a - 0x03000000))
      else if reads ∧ 0x04000000 ≤ a ∧ a < 0x04000000 + m.img.len then some (.image (a - 0x04000000))
      else if data ∧ io then some (.io (a - 0xFF000000))
      else none
    if a % n ≠ 0 ∨ (io ∧ n ≠ 4) then refused 3 a
    else match place with
      | none => refused 4 a
      | some l =>
        let cut : Prop := ∃ off, l = .image off ∧ m.img.len < off + n
        let closed : Prop := match l with
          | .io off => m.lv = 0 ∧ (57344 ≤ off ∨ m.umask.getLsbD (off / 4096) = false ∨ (off < 4096 ∧ acc = .write))
          | _ => m.lv = 0 ∧ ¬ view ∧ ∀ w ∈ m.dbg.wins.toList, ¬ (w.ctl.getLsbD (match acc with | .read => 0 | .write => 1 | .fetch => 2) = true
              ∧ w.lo.toNat / 4096 ≤ a / 4096 ∧ a / 4096 ≤ w.hi.toNat / 4096)
        let held (i : Nat) : Prop := acc = .write ∧ ∃ off, l = .ram .work off ∧
          ((∃ o ∈ m.oq.toList, ∃ p ∈ o.posts, p.base ≤ off + i ∧ off + i < p.base + p.len)
            ∨ ∃ r, m.attest = some r ∧ r.buf ≤ off + i ∧ off + i < r.buf + 1024)
        let blank : Prop := ∃ off, l = .fast off ∧ tabGet m.mem.fast (off / 4) = none ∧ (reads ∨ n < 4)
        let bad : Prop := match l with
          | .fast off => (reads ∨ n < 4) ∧ ∃ w, tabGet m.mem.fast (off / 4) = some w ∧ w.poisoned = true
          | .ram r off => reads ∧ ∃ i, i < n ∧ ∃ p ∈ m.mem.poison, p.ram = r ∧ p.blk = (off + i) / 16
          | .image off => reads ∧ ∃ im, e.image m = some im ∧ ∃ i, i < n ∧ (off + i) / 16 ∈ im.poison
          | .io _ => False
        (cut → refused 4 (if acc = .fetch then a else 0x04000000 + m.img.len))
        ∧ (¬ cut → (closed → refused 4 a)
          ∧ (¬ closed → (∀ i, i < n → held i → (∀ j, j < i → ¬ held j) → refused 4 (a + i))
            ∧ ((∀ i, i < n → ¬ held i) → (blank → refused 11 a) ∧ (¬ blank → bad → refused 12 a) ∧ (¬ blank → ¬ bad → got = .ok l))))

/-- The address forms of R81: the effective address of an access of `n` bytes and the register that is written back, modulo 2³². -/
def FormsFollow (m : Mach) : Prop :=
  ∀ (n : Nat) (ea : Ea), n ∈ [1, 2, 4] →
    let w (r : Reg) : Int := (m.reg r).toNat
    let gives (a : Int) (back : Option (Reg × Int)) : Prop := eaAddr m n ea = BitVec.ofInt 32 a
      ∧ regsBack m n ea = match back with | some p => m.cpu.regs.set p.1 (BitVec.ofInt 32 p.2) | none => m.cpu.regs
    match ea with
    | .base16 rb off => gives (w rb + n * off.toNat) none
    | .stack16 off => gives (w 15 + 4 * off.toNat) none
    | .disp32 ra imm => gives (w ra + imm.toInt) none
    | .scaled ra rb => gives (w ra + n * w rb) none
    | .postInc ra => gives (w ra) (some (ra, w ra + n))
    | .preDec ra => gives (w ra - n) (some (ra, w ra - n))
    | .postReg ra rb => gives (w ra) (some (ra, w ra + w rb))

/-- A load whose place the checks of R532 give reads it in two vc, zero- or sign-extended, with the write-back of its address form; a failed
check takes its exception after one vc with no write-back, and a form that R80 reserves takes vector 1. The checks and the address forms are spelt. -/
def Obligations.LoadsReadThePlaceOrTakeTheException : Prop :=
  (∀ (e : Env) (m : Mach), AccessFollows e m) ∧ (∀ m : Mach, FormsFollow m) ∧
  ∀ (s : State) (c : Nat) (x : Ctx) (rd : Reg) (ea : Ea), Issues s c x (eaLen ea) → laneFits x 1 →
    let m := x.m
    let e := s.env x
    let go (ext : Nat → Word) (n : Nat) (ok : Bool) (i : Instr) : Prop :=
      (ok = true → ∀ l, checkAccess e m .read (eaAddr m n ea).toNat n = .ok l → (∀ off, l ≠ .io off) → laneFits x 2 →
        exec i s = .next (advancedRead s x (retireSeq m
          { m.cpu with regs := (regsBack m n ea).set rd (ext (readPlace e m l n)) } 2 (eaLen ea)) (fixes e m l n)))
      ∧ (ok = true → ∀ v a, checkAccess e m .read (eaAddr m n ea).toNat n = .error (v, a) →
        exec i s = trap s x 1 { vec := v, kind := 0, info := a, pc := m.cpu.pc })
      ∧ (ok = false → exec i s = trap s x 1 { vec := 1, info := (encodingOf i).bits, pc := m.cpu.pc })
    go (BitVec.ofNat 32) 4 (eaOk true true true rd ea) (.ldw c rd ea)
      ∧ go (BitVec.ofNat 32) 2 (eaOk false true true rd ea) (.ldh c rd ea)
      ∧ go (fun v => (BitVec.ofNat 16 v).signExtend 32) 2 (eaOk false false true rd ea) (.ldhs c rd ea)
      ∧ go (BitVec.ofNat 32) 1 (eaOk false true true rd ea) (.ldb c rd ea)
      ∧ go (fun v => (BitVec.ofNat 8 v).signExtend 32) 1 (eaOk false false true rd ea) (.ldbs c rd ea)

/-- A store to fast RAM or to work, video or audio RAM puts the low bytes of its register there in one vc and leaves every other byte of every
memory, every flag and every register but the write-back alone; a write to VRAM also enters the log of stamped writes. -/
def Obligations.StoresWriteTheirBytesAlone : Prop :=
  ∀ (s : State) (c : Nat) (x : Ctx) (rd : Reg) (ea : Ea), Issues s c x (eaLen ea) → laneFits x 1 → x.memOk = true →
    let m := x.m
    let e := s.env x
    let go (n : Nat) (ok : Bool) (i : Instr) : Prop :=
      let p : Cpu := { m.cpu with regs := regsBack m n ea }
      let v := (m.reg rd).toNat
      (ok = true → ∀ off, checkAccess e m .write (eaAddr m n ea).toNat n = .ok (.fast off) →
        ∃ w, exec i s = .next (advanced s x { retireSeq m p 1 (eaLen ea) with mem := { m.mem with fast := w } })
          ∧ (∀ k, k ≠ off / 4 → tabGet w k = tabGet m.mem.fast k)
          ∧ ∀ a, a < 4 → byteAt e { m with mem := { m.mem with fast := w } } (.fast (off / 4 * 4 + a))
            = if off ≤ off / 4 * 4 + a ∧ off / 4 * 4 + a < off + n then BitVec.ofNat 8 (v / 256 ^ (off / 4 * 4 + a - off))
              else byteAt e m (.fast (off / 4 * 4 + a)))
      ∧ (ok = true → ∀ r off, checkAccess e m .write (eaAddr m n ea).toNat n = .ok (.ram r off) → pagesFree x 1 →
        ∃ t y, exec i s = .next t ∧ t.ctx? c = some y
          ∧ (∀ q a, y.m.ramByte q a = if q = r ∧ off ≤ a ∧ a < off + n then BitVec.ofNat 8 (v / 256 ^ (a - off)) else m.ramByte q a)
          ∧ y.m.mem.fast = m.mem.fast ∧ y.m.vid.regs = m.vid.regs
          ∧ y.m.vid.log.length = m.vid.log.length + (if r = .vram then n else 0)
          ∧ { y.m with mem := m.mem, vid := m.vid } = retireSeq m p 1 (eaLen ea)
          ∧ ∀ d, d ≠ c → t.ctx? d = s.ctx? d)
      ∧ (ok = true → ∀ u a, checkAccess e m .write (eaAddr m n ea).toNat n = .error (u, a) →
        exec i s = trap s x 1 { vec := u, kind := 1, info := a, pc := m.cpu.pc })
    go 4 (eaOk true true false rd ea) (.stw c rd ea) ∧ go 2 (eaOk false true false rd ea) (.sth c rd ea)
      ∧ go 1 (eaOk false true false rd ea) (.stb c rd ea)

/-- Registers that software writes and reads back whatever the state of their block, each with the bits that it holds: the umask, IC, TM, BM, RL,
BU, RB and DBG tables, and the shadow parameters of AU (R9, R10, R313). -/
def plainRegisters : List (Nat × Word) :=
  let all : Word := 0xFFFFFFFF#32
  let each (n : Nat) (f : Nat → Nat) (k : Word) : List (Nat × Word) := (List.range n).map fun i => (f i, k)
  [(0xC, 0x3FFF#32), (0x1008, all)] ++ each 4 (fun i => 0x1010 + 4 * i) 0x77777777#32
  ++ each 4 (fun i => 0x2008 + 0x20 * i) all ++ each 4 (fun i => 0x200C + 0x20 * i) all
  ++ [(0x3014, 0x03FF03FF#32), (0x3018, 1#32), (0x8000, 1#32), (0x8004, 0x1FFFF8#32)]
  ++ [(0x9000, all), (0x9004, 0x000703FF#32), (0x9008, 0x03FF03FF#32), (0x9010, all), (0x9014, 0x000703FF#32), (0x9018, 0x03FF03FF#32)]
  ++ [(0x9020, 0x03FF03FF#32), (0x9024, 0x0001FF07#32), (0x9028, all), (0x902C, 0x3FF#32)]
  ++ each 32 (fun i => 0xA000 + 0x20 * i) 0x7F#32 ++ each 32 (fun i => 0xA004 + 0x20 * i) 0x3FFFFF#32
  ++ each 32 (fun i => 0xA008 + 0x20 * i) 0xFFFFFF#32 ++ each 32 (fun i => 0xA00C + 0x20 * i) 0xFFFFFF#32
  ++ each 32 (fun i => 0xA010 + 0x20 * i) all ++ each 32 (fun i => 0xA014 + 0x20 * i) all
  ++ each 32 (fun i => 0xA018 + 0x20 * i) 0x01FF01FF#32 ++ each 32 (fun i => 0xA01C + 0x20 * i) 0xFFFF7FFF#32
  ++ each 4 (fun i => 0xA600 + 0x20 * i) all ++ each 4 (fun i => 0xA604 + 0x20 * i) all ++ each 4 (fun i => 0xA608 + 0x20 * i) 0xFFFF#32
  ++ each 4 (fun i => 0xA60C + 0x20 * i) 0x01FF1FFF#32 ++ each 4 (fun i => 0xA610 + 0x20 * i) all ++ each 4 (fun i => 0xA614 + 0x20 * i) 0x000107FF#32
  ++ each 4 (fun i => 0xA680 + 4 * i) 0x77777777#32 ++ [(0xA6C0, 0x1FFF#32), (0xA6C4, 0x00011FFF#32), (0xA6C8, all), (0xA800, all), (0xA804, all)]
  ++ [(0xD000, 1#32)] ++ each 8 (fun i => 0xD100 + 0x10 * i) all ++ each 8 (fun i => 0xD104 + 0x10 * i) 3#32
  ++ [(0xF008, all), (0xF00C, all)] ++ each 8 (fun i => 0xF100 + 0x10 * i) 0xFFFFF000#32 ++ each 8 (fun i => 0xF104 + 0x10 * i) 0xFFFFF000#32
  ++ each 8 (fun i => 0xF108 + 0x10 * i) 7#32

/-- What the registers of the I/O region hold and answer: plain ones the written bits; those of blocks 4 to 7 too, with a stamped write in the log
(R174); one whose bits are cleared by ones keeps what the device set in that vc (R9). A read changes nothing but for the counts that fill a latch
(R159, R169), unassigned offsets read as zero and ignore writes (R11), and a write changes the part of its own block alone. -/
def RegistersHold (e : Env) (m : Mach) (v : Word) (t u : Nat) : Prop :=
  (∀ p ∈ plainRegisters, (ioRead e (ioWrite e m p.1 v t) p.1 u).1 = v &&& p.2)
  ∧ (∀ off k, 0x4000 ≤ off → off < 0x8000 → vidMask e.cfg off = some k →
    let y := ioWrite e m off v t
    (ioRead e y off u).1 = v &&& k
      ∧ y.vid.log = m.vid.log ++ [{ stamp := t, effect := vidEffect e.mode off t, target := .reg off, val := v &&& k, list := false }])
  ∧ (∀ p ∈ [(0x1000, m.ic.pend), (0x9044, m.bu.err), (0xA810, m.au.vend), (0xB008, m.inp.plugev), (0xF000, m.dbg.stat)], ∀ i, i < 32 →
    (ioRead e (ioWrite e m p.1 v t) p.1 u).1.getLsbD i
      = (p.2.val.getLsbD i && !(v.getLsbD i && !(decide (p.2.stamp = t + 1) && p.2.fresh.getLsbD i))))
  ∧ (∀ off, off ∉ [0x2004, 0x2024, 0x2044, 0x3004] → (ioRead e m off u).2 = m)
  ∧ (∀ off, 0xE000 ≤ off ∧ off < 0xF000 ∨ 0x10000 ≤ off → (ioRead e m off u).1 = 0 ∧ ioWrite e m off v t = m)
  ∧ (∀ off, let y := ioWrite e m off v t
    match off / 0x1000 with
    | 0 => y = { m with umask := y.umask }
    | 1 => y = { m with ic := y.ic }
    | 2 => y = { m with tm := y.tm }
    | 3 => y = { m with bm := y.bm }
    | 4 | 5 | 6 | 7 => y = { m with vid := y.vid, fx := y.fx } ∧ y.vid.sprites = m.vid.sprites ∧ y.vid.shownRegs = m.vid.shownRegs
    | 8 => y = { m with rl := y.rl } ∧ y.rl.captured = m.rl.captured ∧ y.rl.inForce = m.rl.inForce
    | 9 => y = { m with bu := y.bu, ic := y.ic } ∧ y.bu.run = m.bu.run
    | 10 => y = { m with au := y.au } ∧ y.au.live = m.au.live ∧ y.au.voices = m.au.voices
    | 11 => y = { m with inp := y.inp } ∧ y.inp.ports = m.inp.ports
    | 12 => y = { m with oq := y.oq }
    | 13 => y = { m with rb := y.rb }
    | 15 => y = { m with dbg := y.dbg }
    | _ => y = m)
  ∧ (ioRead e m 0 u).1 = 0x800801B0#32 ∧ (ioRead e m 8 u).1 = BitVec.ofNat 32 m.img.len
  ∧ (let md := e.mode
    let dot := u / md.dotdiv % md.hTot
    let line := u / md.lineVc % md.vTot
    (ioRead e m 0x3000 u).1 = BitVec.ofNat 32 (dot + u % md.dotdiv * 2 ^ 10 + line * 2 ^ 16 + (if md.hAct ≤ dot then 2 ^ 30 else 0)
      + (if md.vAct ≤ line then 2 ^ 31 else 0)) ∧ (ioRead e m 0x3004 u).1 = BitVec.ofNat 32 (u / md.frameVc))

/-- LDW and STW reach the I/O registers through the register reads and writes of their block, with the effects these have; what those hold and
answer. -/
def Obligations.WordAccessesReachTheRegisters : Prop :=
  (∀ (e : Env) (m : Mach) (v : Word) (t u : Nat), RegistersHold e m v t u) ∧
  ∀ (s : State) (c : Nat) (x : Ctx) (rd : Reg) (ea : Ea) (off : Nat), Issues s c x (eaLen ea) → eaOk true true true rd ea = true →
    let m := x.m
    let e := s.env x
    (checkAccess e m .read (eaAddr m 4 ea).toNat 4 = .ok (.io off) → laneFits x 2 →
      let r := ioRead e m off (m.vc + 1)
      exec (.ldw c rd ea) s = .next (settle s x (retireSeq r.2 { m.cpu with regs := (regsBack m 4 ea).set rd r.1 } 2 (eaLen ea))))
    ∧ (checkAccess e m .write (eaAddr m 4 ea).toNat 4 = .ok (.io off) → laneFits x 1 →
      exec (.stw c rd ea) s
        = .next (settle s x (retireSeq (ioWrite e m off (m.reg rd) m.vc) { m.cpu with regs := regsBack m 4 ea } 1 (eaLen ea))))

/-! ### Branches, control registers, loops, accumulator -/

/-- The condition table of R88, over the bits of PSW: V is bit 0, C bit 1, Z bit 2 and N bit 3. -/
def condTable (p : Word) : Cond → Prop :=
  let v := p.getLsbD 0
  let c := p.getLsbD 1
  let z := p.getLsbD 2
  let n := p.getLsbD 3
  fun
  | .eq => z = true
  | .ne => z = false
  | .cs => c = true
  | .cc => c = false
  | .mi => n = true
  | .pl => n = false
  | .vs => v = true
  | .vc => v = false
  | .hi => c = true ∧ z = false
  | .ls => c = false ∨ z = true
  | .ge => n = v
  | .lt => n ≠ v
  | .gt => z = false ∧ n = v
  | .le => z = true ∨ n ≠ v
  | .al => True

/-- A branch that is taken goes to the following address plus twice its offset, or to its register, in two vc; Bcc whose condition fails
retires in one, and the conditions are those of R88's table. BL and BLR leave the following address in w14. An odd register target takes vector 3 and writes nothing. -/
def Obligations.BranchesTransferControl : Prop :=
  (∀ (p : Word) (k : Cond), condHolds p k = true ↔ condTable p k) ∧
  ∀ (s : State) (c : Nat) (x : Ctx) (cond : Cond) (f : BccForm) (o12 : BitVec 12) (o24 : BitVec 24) (rs : Reg), laneFits x 2 →
    let m := x.m
    let jump (p : Cpu) (a : Word) : Host.Outcome State Fault Refusal := .next (advanced s x (retireJump m p 2 a))
    let gives (len : Nat) (i : Int) : Word := m.following len + BitVec.ofInt 32 (2 * i)
    let link (len : Nat) : Cpu := { m.cpu with regs := m.cpu.regs.set 14 (m.following len) }
    let odd : Host.Outcome State Fault Refusal := trap s x 1 { vec := 3, info := m.reg rs, pc := m.cpu.pc }
    (Issues s c x (bccLen f) → exec (.bcc c cond f) s =
      if condHolds m.cpu.psw cond then jump m.cpu (gives (bccLen f) (match f with | .short o => o.toInt | .long o => o.toInt))
      else .next (advanced s x (retireSeq m m.cpu 1 (bccLen f))))
    ∧ (Issues s c x 2 →
        exec (.b c o12) s = jump m.cpu (gives 2 o12.toInt)
          ∧ exec (.br c rs) s = (if (m.reg rs).getLsbD 0 then odd else jump m.cpu (m.reg rs))
          ∧ exec (.blr c rs) s = (if (m.reg rs).getLsbD 0 then odd else jump (link 2) (m.reg rs)))
    ∧ (Issues s c x 4 → exec (.bl c o24) s = jump (link 4) (gives 4 o24.toInt))

/-- MRS and MSR move between a general and a control register in one vc. Vector 1 for a number that is not assigned and for a write of a
read-only one, vector 2 at user level for a supervisor register. What a write leaves to be read in each control register: at supervisor level
all of VBR, GTB, USP, SSP, CAUSE, INFO, the loop registers, ACC and ACCX but the bits that read as zero, GTL limited to 256, and PSW without
LV and without opening a HOLD window; at user level the flags of PSW alone. That the loop check after an MSR works on the registers as MSR found
them, so that MSR's value stands where it is the last instruction of a loop body, is the model's choice (log entry 64). -/
def Obligations.ControlRegistersMoveAndHold : Prop :=
  (∀ (s : State) (c : Nat) (x : Ctx) (r : Reg) (cr : Fin 32), Issues s c x 4 → laneFits x 1 →
      let m := x.m
      let bad (v : Nat) (i : Instr) := trap s x 1 { vec := v, info := (encodingOf i).bits, pc := m.cpu.pc }
      let user := decide (m.lv = 0 ∧ 1 ≤ cr.val ∧ cr.val ≤ 7)
      exec (.mrs c r cr) s = (if 0x14 < cr.val then bad 1 (.mrs c r cr) else if user then bad 2 (.mrs c r cr)
        else
          let v := crRead m cr.val m.vc
          .next (advanced s x (retireSeq m { v.2.cpu with regs := m.cpu.regs.set r v.1 } 1 4)))
      ∧ exec (.msr c cr r) s = (if 0x12 < cr.val then bad 1 (.msr c cr r) else if user then bad 2 (.msr c cr r)
        else
          let l := loopCheck 4 m.cpu.idleMarks (m.following 4)
          .next (advanced s x { m with vc := m.vc + 1, cpu := { (crWrite { m with cpu := l.1 } cr.val (m.reg r)).cpu with pc := l.2 } })))
  ∧ (∀ (m : Mach) (v : Word) (t : Nat),
      let back (k : Nat) : Word := (crRead (crWrite m k v) k t).1
      (m.lv ≠ 0 → back 0 = ((v &&& 0x31FF#32) ||| (m.cpu.psw &&& 0xC00#32) ||| (if v.getLsbD 9 ∧ m.holdOpen t then 0x200#32 else 0)))
      ∧ (m.lv = 0 → back 0 = ((m.pswAt t &&& 0xFFFFFFF0#32) ||| (v &&& 0xF#32)))
      ∧ back 1 = (v &&& 0xFFFFFF00#32) ∧ back 2 = (v &&& 0xFFFFFFF0#32) ∧ (back 3).toNat = Min.min 256 (v.toNat % 512)
      ∧ back 4 = v ∧ back 5 = v ∧ back 6 = (v &&& 0x003F1F3F#32) ∧ back 7 = v
      ∧ (∀ k, 8 ≤ k → k ≤ 0x11 → back k = v) ∧ back 0x12 = (v.setWidth 16).signExtend 32
      ∧ (crRead (crWrite m 0x12 v) 0x11 t).1 = (crRead m 0x11 t).1 ∧ (crRead (crWrite m 0x11 v) 0x12 t).1 = (crRead m 0x12 t).1)

/-- LOOP and LOOPI open a level after their own address, exit where the count is 0, and take vector 1 with an offset of 0 or at LD 3; LPOP
closes the innermost level. The loop check of R92 on the retirement of a NOP: only the innermost open level is compared; a count above 1
counts down and control goes to the start, a smaller one closes the level with count 0 and the next level is compared. That the loop check
after LPOP uses the reduced LD, where LPOP is the last instruction of a loop body, is the model's choice (log entry 64). -/
def Obligations.LoopsOpenRepeatAndClose : Prop :=
  (∀ (s : State) (c : Nat) (x : Ctx) (ra : Reg) (e16 : Half) (cnt e12 : BitVec 12), laneFits x 2 →
      let m := x.m
      let ld := pswLD m.cpu.psw
      let opened (k : Nat) (n : Word) (out : Word) : Cpu :=
        { m.cpu with loops := Vector.ofFn fun i => if i.val = k then ⟨m.following 4, out, n⟩ else m.cpu.loops[i]
                     psw := setField m.cpu.psw 12 2 (k + 1) }
      let go (i : Instr) (n : Word) (eoff : Nat) : Prop :=
        let out := m.following 4 + BitVec.ofNat 32 (2 * eoff)
        exec i s = if eoff = 0 ∨ ld = 3 then trap s x 1 { vec := 1, info := (encodingOf i).bits, pc := m.cpu.pc }
          else if n = 0 then .next (advanced s x (retireJump m m.cpu 2 out))
          else .next (advanced s x (retireJump m (opened ld n out) 2 (m.following 4)))
      (Issues s c x 4 → go (.loop c ra e16) (m.reg ra) e16.toNat ∧ go (.loopi c cnt e12) (cnt.setWidth 32) e12.toNat)
      ∧ (Issues s c x 2 → exec (.lpop c) s
          = .next (advanced s x (retireSeq m { m.cpu with psw := setField m.cpu.psw 12 2 (ld - 1) } 1 2))))
  ∧ (∀ (s : State) (c : Nat) (x : Ctx) (k : Fin 3), Issues s c x 2 → laneFits x 1 →
      let m := x.m
      let a := m.following 2
      let l := m.cpu.loops[k]
      let gives (p : Cpu) (pc : Word) : Host.Outcome State Fault Refusal :=
        .next (advanced s x { m with vc := m.vc + 1, cpu := { p with pc := pc, afterRete := false, at12 := false } })
      let closed : Cpu := { m.cpu with loops := m.cpu.loops.set k { l with count := 0 }, psw := setField m.cpu.psw 12 2 k.val }
      (pswLD m.cpu.psw = 0 → exec (.nop c) s = gives m.cpu a)
      ∧ (pswLD m.cpu.psw = k.val + 1 →
        (l.lend ≠ a → exec (.nop c) s = gives m.cpu a)
        ∧ (l.lend = a → 1 < l.count.toNat → exec (.nop c) s = gives { m.cpu with loops := m.cpu.loops.set k { l with count := l.count - 1 } } (l.start &&& 0xFFFFFFFE#32))
        ∧ (l.lend = a → l.count.toNat ≤ 1 → exec (.nop c) s = (let q := loopCheck 4 closed a; gives q.1 q.2))))

/-- MACX multiplies two signed elements into the 48-bit accumulator and steps both pointers; ACCRD reads it, scaled, rounded and, where the
form says so, saturated with V telling a saturation. An element size that R80 reserves and equal pointers take vector 1. -/
def Obligations.AccumulatorOperations : Prop :=
  ∀ (s : State) (c : Nat) (x : Ctx), Issues s c x 4 → laneFits x 1 →
    let m := x.m
    let e := s.env x
    (∀ (ra rb : Reg) (sz : Fin 4) (sa sb : BitVec 4) (clr sub : Bool),
      let i := Instr.macx c ra rb sz sa sb clr sub
      let n := if sz.val = 0 then 2 else 1
      let prod (la lb : Loc) : Int :=
        (BitVec.ofNat (8 * n) (readPlace e m la n)).toInt * (BitVec.ofNat (8 * n) (readPlace e m lb n)).toInt
      let base : Int := if clr then 0 else m.cpu.acc.toInt
      (1 < sz.val ∨ ra = rb → exec i s = trap s x 1 { vec := 1, info := (encodingOf i).bits, pc := m.cpu.pc })
      ∧ (¬ (1 < sz.val ∨ ra = rb) → ∀ la lb, checkAccess e m .read (m.reg ra).toNat n = .ok la → checkAccess e m .read (m.reg rb).toNat n = .ok lb →
        exec i s = .next (advancedRead s x (retireSeq m { m.cpu with
          regs := (m.cpu.regs.set ra (m.reg ra + BitVec.ofInt 32 (sa.toInt * n))).set rb (m.reg rb + BitVec.ofInt 32 (sb.toInt * n))
          acc := BitVec.ofInt 48 (if sub then base - prod la lb else base + prod la lb) } 1 4) (fixes e m la n ++ fixes e m lb n)))
      ∧ (¬ (1 < sz.val ∨ ra = rb) → ∀ v a, checkAccess e m .read (m.reg ra).toNat n = .error (v, a) →
        exec i s = trap s x 1 { vec := v, kind := 0, info := a, pc := m.cpu.pc }))
    ∧ ∀ (rd : Reg) (sh : Fin 32) (sat : Fin 4) (rnd clr : Bool),
      let v := (m.cpu.acc.toInt + (if rnd ∧ 0 < sh.val then 2 ^ (sh.val - 1) else 0)) / 2 ^ sh.val
      let lim : Int := if sat.val = 2 then 2 ^ 15 else if sat.val = 3 then 2 ^ 23 else 2 ^ 31
      let w := if sat.val = 0 then v else if lim ≤ v then lim - 1 else if v < -lim then -lim else v
      exec (.accrd c rd sh sat rnd clr) s = .next (advanced s x (retireSeq m { m.cpu with
        regs := m.cpu.regs.set rd (BitVec.ofInt 32 w)
        psw := setFlags m.cpu.psw (pswN m.cpu.psw) (pswZ m.cpu.psw) (pswC m.cpu.psw) (decide (w ≠ v))
        acc := if clr then 0 else m.cpu.acc } 1 4))

/-! ### Exceptions, gates, services, waits -/

/-- Taking an exception or an interrupt (R126): where the frame area is permitted and the handler's descriptor can be read, the context stands
in the handler eight vc later. Where the frame area is not permitted, the entry is that of vector 6 with its frame at the top of fast RAM, and
CAUSE says which vector it replaces (R127). -/
def Obligations.EntriesSaveTheFrame : Prop :=
  (∀ (e : Env) (m : Mach) (k : Exc) (t0 d : Nat), k.vec < 64 → m.memOk = true → frameOk e m (frameAddr m (t0 + 7)).toNat 64 = true →
      inIo ((m.cpu.vbr.toNat + 4 * k.vec) % 2 ^ 32) = false → (descriptor e m k (t0 + 7)).toOption.map Prod.fst = some d →
      Entered e m k t0 d (enter e m k t0))
  ∧ (∀ (e : Env) (m : Mach) (k : Exc) (t0 : Nat), k.vec < 64 → frameOk e m (frameAddr m (t0 + 7)).toNat 64 = false →
      let f := frameAddr m (t0 + 7)
      let cause := BitVec.ofNat 32 (6 + 2 ^ 8 + pswLV m.cpu.psw * 2 ^ 10 + 2 ^ 12 + k.vec * 2 ^ 16)
      let y := enter e m k t0
      y.vc = t0 + 8 ∧ (∀ j, j < 16 → areaWord e y 0x1FC0 64 j = (frameWords m.cpu k.pc (m.pswAt (t0 + 7)) (entryCause m k (t0 + 7)) k.info).getD j 0)
        ∧ (Fx.faulted true ∉ y.fx → Fx.faulted false ∉ y.fx → m.fx = [] →
          y.cpu.cause = cause ∧ y.cpu.info = f ∧ y.cpu.regs = m.cpu.regs.set spReg 0x1FC0 ∧ pswLV y.cpu.psw = 1))

/-- At the boundary before the next issue the device enters the handler of the deliverable source of highest priority and, among equals,
lowest number; the frame PC is that of the instruction that has not issued. BRK takes vector 9 after one vc, with the following instruction in
its frame, and an encoding that R80 does not assign takes vector 1 with its bits in INFO: each entry is that of `Entered`. An instruction that issues with
T 1 and retires takes vector 10 at the boundary after it, with its own address in INFO and the next instruction in its frame; one that takes an exception
is not traced (R116). Where the next instruction's address equals an enabled DBG_BPn address, vector 9 is entered in its place, with that address and bit 0
in INFO, but not for the first instruction after a RETE (R124). -/
def Obligations.InterruptsAndTrapsEnterTheirHandler : Prop :=
  (∀ (s : State) (c : Nat) (x : Ctx) (k d : Nat), Runs s c x → x.memOk = true →
      let m := x.m
      let e := s.env x
      let q : Exc := { vec := 32 + k, info := BitVec.ofNat 32 (k + m.ic.prioOf k * 256), pc := m.cpu.pc }
      m.cpu.entry = none → boundaryNow m = some m.vc → chosen m m.vc = some k →
      (k < 32 ∧ deliverable m m.vc k = true ∧ ∀ j, j < 32 → deliverable m m.vc j = true →
        m.ic.prioOf j < m.ic.prioOf k ∨ (m.ic.prioOf j = m.ic.prioOf k ∧ k ≤ j))
      ∧ (laneMayPass x (m.vc + 7) = true → pagesFree x 2 → frameOk e m (frameAddr m (m.vc + 7)).toNat 64 = true →
        inIo ((m.cpu.vbr.toNat + 4 * q.vec) % 2 ^ 32) = false → (descriptor e m q (m.vc + 7)).toOption.map Prod.fst = some d →
        ∃ t y, exec (.interruptEntry c) s = .next t ∧ t.ctx? c = some y ∧ Entered e m q m.vc d y.m ∧ (∀ b, b ≠ c → t.ctx? b = s.ctx? b)
          ∧ (m.ic.pend.stamp ≠ m.vc + 8 → y.m.ic.pend.val.getLsbD k = false)))
  ∧ (∀ (s : State) (c : Nat) (x : Ctx) (enc : Encoding) (d : Nat),
      let m := x.m
      let e := s.env x
      let go (i : Instr) (len : Nat) (k : Exc) : Prop :=
        Issues s c x len → laneMayPass x (m.vc + 8) = true → pagesFree x 2 → x.memOk = true →
        frameOk e m (frameAddr (trapped m 1) (m.vc + 8)).toNat 64 = true → inIo ((m.cpu.vbr.toNat + 4 * k.vec) % 2 ^ 32) = false →
        (descriptor e (trapped m 1) k (m.vc + 8)).toOption.map Prod.fst = some d →
        ∃ t y, exec i s = .next t ∧ t.ctx? c = some y ∧ Entered e (trapped m 1) k (m.vc + 1) d y.m ∧ ∀ b, b ≠ c → t.ctx? b = s.ctx? b
      go (.brk c) 2 { vec := 9, info := m.cpu.pc, pc := m.following 2 }
        ∧ (decodeCore c enc = none → go (.illegalOpcode c enc) (if enc.long then 4 else 2) { vec := 1, info := enc.bits, pc := m.cpu.pc }))
  ∧ ∀ (s : State) (c : Nat) (x : Ctx) (enc : Encoding) (body : Body) (m' : Mach) (cost d : Nat) (n : Next),
      let m := x.m
      let e := s.env x
      let len := if enc.long then 4 else 2
      let begins (m : Mach) (k : Exc) : Host.Outcome State Fault Refusal := .next (settle s x (raiseExc e m k m.vc))
      let after (p : Cpu) (a : Word) : Mach := { m' with vc := m.vc + cost, cpu := { p with pc := a, begun := false, blk := none, word := [], idle := none } }
      let trace (y : Mach) : Host.Outcome State Fault Refusal := begins y { vec := 10, info := m.cpu.pc, pc := y.cpu.pc }
      let handled (i : Instr) (y : Mach) (k : Exc) : Prop :=
        laneMayPass x (y.vc + 7) = true → pagesFree x 2 → x.memOk = true → frameOk e y (frameAddr y (y.vc + 7)).toNat 64 = true →
        inIo ((y.cpu.vbr.toNat + 4 * k.vec) % 2 ^ 32) = false → (descriptor e y k (y.vc + 7)).toOption.map Prod.fst = some d →
        ∃ t z, exec i s = .next t ∧ t.ctx? c = some z ∧ Entered e y k y.vc d z.m ∧ ∀ b, b ≠ c → t.ctx? b = s.ctx? b
      let met (b : Word) : Prop := b.getLsbD 0 = true ∧ b.toNat / 2 = m.cpu.pc.toNat / 2
      (IssuesTraced s c x len → laneFits x cost →
        body e { m with cpu := { m.cpu with afterRete := false, at12 := false } } m.vc m.cpu.pc (m.following len) = ⟨m', cost, n⟩ →
        (n = .seq → let l := loopCheck 4 m'.cpu (m.following len); coreStep s c enc body = trace (after l.1 l.2))
        ∧ (∀ a, n = .jump a → coreStep s c enc body = trace (after m'.cpu a))
        ∧ ∀ k, n = .exc k → coreStep s c enc body = begins { m' with vc := m.vc + cost } k)
      ∧ (IssuesTraced s c x 2 → laneFits x 1 →
        let y := retireSeq m m.cpu 1 2
        exec (.nop c) s = trace y ∧ handled (.nop c) y { vec := 10, info := m.cpu.pc, pc := y.cpu.pc }
          ∧ exec (.brk c) s = trap s x 1 { vec := 9, info := m.cpu.pc, pc := m.following 2 })
      ∧ (IssuesTraced s c x 2 → laneFits x 2 → ∀ o : BitVec 12,
        exec (.b c o) s = trace (retireJump m m.cpu 2 (m.following 2 + BitVec.ofInt 32 (2 * o.toInt))))
      ∧ (Stands s c x → laneFits x 1 → met m.dbg.bp0 ∨ met m.dbg.bp1 →
        let k : Exc := { vec := 9, info := m.cpu.pc ||| 1#32, pc := m.cpu.pc }
        (m.cpu.afterRete = false → coreStep s c enc body = begins m k ∧ handled (.nop c) m k)
        ∧ (m.cpu.afterRete = true → pswT m.cpu.psw = false → fetchCheck e m m.cpu.pc 2 = .ok () → fetchFixes e m m.cpu.pc 2 = [] →
          exec (.nop c) s = .next (advanced s x (retireSeq m m.cpu 1 2))))

/-- RETE restores what the frame at w15 holds, at supervisor level alone (vector 2 at user level); HOLD is closed, the stack pointers are
those of the level it returns to, and the next instruction takes no comparator match. A frame that may not be read takes vector 6. RETG
returns through the record at w15 in four vc: the flags stay, T, IE, IPL and LD come from the record, the level falls where the record says
so; a record that may not be read takes vector 6, one without the marker vector 5 with reason 10, one of a higher level vector 7, an odd address
vector 3. -/
def Obligations.ReturnsRestoreWhatWasSaved : Prop :=
  (∀ (s : State) (c : Nat) (x : Ctx), Issues s c x 2 → laneFits x 1 →
      let m := x.m
      let e := s.env x
      let f := m.reg spReg
      let w (k : Nat) : Word := areaWord e m f.toNat 64 k
      let l := (areaLoc e.cfg.prof f.toNat 64).getD (.fast 0)
      let user := pswLV (w 1) = 0
      (m.lv = 0 → exec (.rete c) s = trap s x 1 { vec := 2, info := (encodingOf (.rete c)).bits, pc := m.cpu.pc })
      ∧ (m.lv ≠ 0 → frameReadable e m f.toNat 64 = false → exec (.rete c) s = trap s x 1 { vec := 6, kind := 0, info := f, pc := m.cpu.pc })
      ∧ (m.lv ≠ 0 → frameReadable e m f.toNat 64 = true → poisonByte e m f.toNat 64 l = none →
        (m.lv < pswLV (w 1) → exec (.rete c) s = trap s x 1 { vec := 7, info := w 1, pc := m.cpu.pc })
        ∧ (pswLV (w 1) ≤ m.lv → (w 0).getLsbD 0 = true → exec (.rete c) s = trap s x 1 { vec := 3, info := w 0, pc := m.cpu.pc })
        ∧ (pswLV (w 1) ≤ m.lv → (w 0).getLsbD 0 = false → laneFits x 6 →
          exec (.rete c) s = .next (advancedRead s x { m with vc := m.vc + 6, cpu := { m.cpu with
            pc := w 0, psw := w 1 &&& 0x3DFF#32, hold := none
            regs := m.cpu.regs.set spReg (if user then m.cpu.usp else f + 64)
            ssp := if user then f + 64 else m.cpu.ssp
            loops := Vector.ofFn fun i => ⟨w (4 + 3 * i.val), w (5 + 3 * i.val), w (6 + 3 * i.val)⟩
            acc := ((w 14).setWidth 16 : BitVec 16) ++ w 13
            afterRete := true, at12 := false } } (fixes e m l 64)))))
  ∧ (∀ (s : State) (c : Nat) (x : Ctx), Issues s c x 2 → laneFits x 1 →
      let m := x.m
      let e := s.env x
      let r := m.reg spReg
      let w (k : Nat) : Word := areaWord e m r.toNat 16 k
      let l := (areaLoc e.cfg.prof r.toNat 16).getD (.fast 0)
      let ok := frameReadable e m r.toNat 16 && recordWin m .read (decide (m.lv = 0)) r.toNat
      let down := decide (pswLV (w 1) = 0 ∧ m.lv = 1)
      (ok = false → exec (.retg c) s = trap s x 1 { vec := 6, kind := 0, info := r, pc := m.cpu.pc })
      ∧ (ok = true → poisonByte e m r.toNat 16 l = none →
        ((w 2).toNat / 65536 ≠ 0x6A7E ∨ w 3 ≠ 0 → exec (.retg c) s = trap s x 1 { vec := 5, info := 0xA00#32, pc := m.cpu.pc })
        ∧ ((w 2).toNat / 65536 = 0x6A7E → w 3 = 0 → m.lv < pswLV (w 1) →
          exec (.retg c) s = trap s x 1 { vec := 7, info := w 1, pc := m.cpu.pc })
        ∧ ((w 2).toNat / 65536 = 0x6A7E → w 3 = 0 → pswLV (w 1) ≤ m.lv → (w 0).getLsbD 0 = true →
          exec (.retg c) s = trap s x 1 { vec := 3, info := w 0, pc := m.cpu.pc })
        ∧ ((w 2).toNat / 65536 = 0x6A7E → w 3 = 0 → pswLV (w 1) ≤ m.lv → (w 0).getLsbD 0 = false → laneFits x 4 →
          let p := (m.cpu.psw &&& 0xC0F#32) ||| (w 1 &&& 0x31F0#32)
          exec (.retg c) s = .next (advancedRead s x (retireJump m { m.cpu with
            psw := if down then setField p 10 2 0 else p
            ssp := if down then r + 16 else m.cpu.ssp
            regs := m.cpu.regs.set spReg (if down then m.cpu.usp else r + 16) } 4 (w 0)) (fixes e m l 16)))))

/-- CALLG of a gate that passes the checks of R137 pushes the record of R125 and enters the gate in six vc, with the registers its record does
not name as arguments cleared and the reads of its entry as they act in the sixth vc; a gate number at or above GTL takes vector 5 with reason 1.
Where the entry lies in the I/O region its reads act there too (R134); that the entry is read in the first vc is the model's reading (log entry
76). -/
def Obligations.GateCallPushesTheRecordAndEnters : Prop :=
  ∀ (s : State) (c : Nat) (x : Ctx) (g : Fin 256), Issues s c x 2 → laneFits x 1 → g.val < 0xF0 → x.memOk = true →
    let m := x.m
    let e := s.env x
    (m.cpu.gtl.toNat ≤ g.val → exec (.callg c g) s = trap s x 1 { vec := 5, info := BitVec.ofNat 32 (0x100 + g.val), pc := m.cpu.pc })
    ∧ ∀ w0 w1, g.val < m.cpu.gtl.toNat → gateEntry e m g.val m.vc = some (w0, w1) →
      let lvl := bitsOf w1 1 0
      let argc := bitsOf w1 6 4
      let k0 := gateChk (bitsOf w1 15 8)
      let k1 := gateChk (bitsOf w1 23 16)
      let up := decide (lvl = 1 ∧ m.lv = 0)
      let r := (if up then m.cpu.ssp else m.reg spReg) - 16
      bitOf w1 2 = true → lvl ≤ 1 → argc ≤ 4 → k0.malformed argc = false → k1.malformed argc = false → bitOf w1 (24 + m.lv) = true →
      m.lv ≤ lvl → bitOf w0 0 = false → k0.passes e m m.lv = true → k1.passes e m m.lv = true →
      frameOk e m r.toNat 16 = true → recordWin m .write (decide (lvl = 0)) r.toNat = true → laneFits x 6 → pagesFree x 2 →
      ∃ t y, exec (.callg c g) s = .next t ∧ t.ctx? c = some y ∧ y.m.vc = m.vc + 6 ∧ y.m.cpu.pc = BitVec.ofNat 32 w0
        ∧ y.m.lv = lvl ∧ pswT y.m.cpu.psw = false ∧ pswLD y.m.cpu.psw = 0
        ∧ pswIE y.m.cpu.psw = (pswIE m.cpu.psw && !bitOf w1 3) ∧ y.m.cpu.usp = (if up then m.reg spReg else m.cpu.usp)
        ∧ (∀ k : Reg, y.m.reg k = if k = spReg then r else if argc ≤ k.val ∧ k.val < 4 then 0 else m.reg k)
        ∧ (∀ k, k < 4 → areaWord e y.m r.toNat 16 k
            = [m.following 2, m.pswAt (m.vc + 5), BitVec.ofNat 32 (0x6A7E0000 + g.val), 0].getD k 0)
        ∧ { y.m with mem := m.mem } = { gateReads e m g.val [0, 1, 2, 3] (m.vc + 5) with vc := m.vc + 6, cpu := y.m.cpu, fx := [] }

/-- The machine services that pass the gate checks of R144: RAND draws 64 bits from the context's generator until 2^48 requests, WALLTIME
reads device time at the last latch, ATTEST notes one request, DEBUGOUT sends its bytes, SAVE_COMMIT marks the newest posting. A failed gate
check takes vector 5 with its reason. That DEBUGOUT of more than 256 bytes answers C = 1 whatever its range, that ATTEST reads its nonce before it
looks for an outstanding request, and that the gate table wraps are the model's choices (log entry 64); that a service call reads word 1 of its
gate entry alone is one too (log entry 76). -/
def Obligations.MachineServicesAnswer : Prop :=
  ∀ (s : State) (c : Nat) (x : Ctx), Issues s c x 2 → laneFits x 16 →
    let m := x.m
    let e := s.env x
    let pair (v : Nat) : Vector Word 16 := (m.cpu.regs.set 0 (BitVec.ofNat 32 v)).set 1 (BitVec.ofNat 32 (v / 2 ^ 32))
    let denied (i : Instr) (g : Nat) : Prop :=
      (∀ r, r ≠ 2 → serviceGate e m g m.vc = some r → exec i s = trap s x 1 { vec := 5, info := BitVec.ofNat 32 (r * 256 + g), pc := m.cpu.pc })
      ∧ (serviceGate e m g m.vc = some 2 → exec i s = gateTrap s x g { vec := 5, info := BitVec.ofNat 32 (0x200 + g), pc := m.cpu.pc })
    let gives (i : Instr) (g : Nat) (n : Mach) (p : Cpu) (cost : Nat) : Prop :=
      let n' := if m.lv = 0 then { gateReads e n g [1] (m.vc + cost - 1) with fx := [] } else n
      ∃ t y, exec i s = .next t ∧ t.ctx? c = some y ∧ y.m = retireSeq n' p cost 2
    let p0 := (m.reg 0).toNat
    let p1 := (m.reg 1).toNat
    let q := m.oqOf p0
    denied (.attest c) 0xF0 ∧ denied (.rand c) 0xF1 ∧ denied (.walltime c) 0xF2 ∧ denied (.debugout c) 0xF3 ∧ denied (.saveCommit c) 0xF4
    ∧ (serviceGate e m 0xF1 m.vc = none →
        let o := drbgGen 8 m.drbg.st
        let w (k : Nat) : Word := BitVec.ofNat 32 (leNat ((o.1.drop k).take 4))
        if 2 ^ 48 ≤ m.drbg.count then gives (.rand c) 0xF1 m ({ m.cpu with regs := pair 0 }.carry true) 12
        else gives (.rand c) 0xF1 { m with drbg := ⟨o.2, m.drbg.count + 1⟩ }
          ({ m.cpu with regs := (m.cpu.regs.set 0 (w 0)).set 1 (w 4) }.carry false) 12)
    ∧ (serviceGate e m 0xF2 m.vc = none → gives (.walltime c) 0xF2 m ({ m.cpu with regs := pair (m.wall.getD 0) }.carry m.wall.isNone) 6)
    ∧ (serviceGate e m 0xF0 m.vc = none → rangeOk e m m.lv p0 64 1 = true → rangeOk e m m.lv p1 1024 2 = true →
        argFault e m p0 64 = none → 0x01000000 ≤ p1 → p1 + 1024 ≤ 0x01000000 + workSize e.cfg.prof → p1 % 4 = 0 →
        let ep := epochOf e.mode (m.vc + 15)
        match m.attest with
        | some _ => gives (.attest c) 0xF0 m (m.cpu.carry true) 16
        | none => gives (.attest c) 0xF0 { m with
            attest := some { buf := p1 - 0x01000000, nonce := leNat (argBytes e m p0 64), imgHash := m.img.hash, epoch := ep
                             frame := if ep = 0 then none else some (ep - 1), id := m.posted }
            posted := m.posted + 1 } (m.cpu.carry false) 16)
    ∧ (serviceGate e m 0xF3 m.vc = none →
        (256 < p1 → gives (.debugout c) 0xF3 m (m.cpu.carry true) 16)
        ∧ (p1 ≤ 256 → rangeOk e m m.lv p0 p1 1 = true → argFault e m p0 p1 = none → pagesFree x 1 →
          gives (.debugout c) 0xF3 m (m.cpu.carry false) 16
            ∧ (x.cfg.rben = false → ∃ t y, exec (.debugout c) s = .next t ∧ t.ctx? c = some y
              ∧ y.outp.debugQ = x.outp.debugQ ++ [(epochOf e.mode (m.vc + 15), argBytes e m p0 p1)])))
    ∧ (serviceGate e m 0xF4 m.vc = none → sideQueue p0 = true → q.en = true → oqDir p0 q = false →
        (q.posts = [] → gives (.saveCommit c) 0xF4 m (m.cpu.carry true) 8)
        ∧ (∀ l p, q.posts = l ++ [p] → gives (.saveCommit c) 0xF4 (m.setOq p0 { q with posts := l ++ [{ p with marked := true }] }) (m.cpu.carry false) 8))

/-- POST costs four vc: it takes vector 4 where R55 refuses it, sets C and posts nothing where sixteen postings stand, and else clears C and
posts its range, which a context without rollback hands on at once. SLEEP retires once a source that is enabled and above IPL is pending, SYNC
once no blit is left, each in one vc where that holds already; while it does not, the instruction waits and nothing else changes. -/
def Obligations.PostAddsAPostingAndWaitsWait : Prop :=
  (∀ (s : State) (c : Nat) (x : Ctx) (q : Fin 16), Issues s c x 2 →
      let m := x.m
      let o := m.oqOf q.val
      let off := (m.reg 0).toNat
      let n := (m.reg 1).toNat
      let ok := (decide (m.lv ≠ 0) || m.umask.getLsbD 12) && sideQueue q.val && o.en && !oqDir q.val o && decide (n ≠ 0) && decide (off + n ≤ o.size.toNat)
      (ok = false → laneFits x 4 → exec (.post c q) s = trap s x 4 { vec := 4, info := BitVec.ofNat 32 (0x08000000 + q.val * 0x100000 + off), pc := m.cpu.pc })
      ∧ (ok = true → laneFits x 4 → 16 ≤ o.posts.length → exec (.post c q) s = .next (advanced s x (retireSeq m (m.cpu.carry true) 4 2)))
      ∧ (ok = true → laneFits x 4 → o.posts.length < 16 → x.cfg.rben = false →
        let p : Posting := { base := o.base.toNat + off, len := n, id := m.posted }
        ∃ t y, exec (.post c q) s = .next t ∧ t.ctx? c = some y
          ∧ y.m = retireSeq ({ m with posted := m.posted + 1 }.setOq q.val { o with posts := o.posts ++ [p] }) (m.cpu.carry false) 4 2
          ∧ y.outp.msgs = x.outp.msgs ++ [{ queue := q.val, src := some (p.id, p.base, p.len), num := x.outp.msgNum }]))
  ∧ (∀ (s : State) (c : Nat) (x : Ctx), Issues s c x 2 →
      let m := x.m
      let wait (b : Bool) : Host.Outcome State Fault Refusal :=
        .next (advanced s x { m with cpu := { m.cpu with idle := some b, afterRete := false, at12 := false } })
      (laneFits x 1 → m.ic.firstReady (pswIPL m.cpu.psw) = none → exec (.sleep c) s = wait true)
      ∧ (∀ b, m.ic.firstReady (pswIPL m.cpu.psw) = some b → laneFits x (Max.max 1 (b - m.vc)) →
          exec (.sleep c) s = .next (advanced s x (retireSeq m m.cpu (Max.max 1 (b - m.vc)) 2)))
      ∧ (laneFits x 1 → 0 < m.bu.outstanding → exec (.sync c) s = wait false)
      ∧ (m.bu.outstanding = 0 → laneFits x (Max.max 1 (m.bu.freeVc - m.vc)) →
          exec (.sync c) s = .next (advanced s x (retireSeq m m.cpu (Max.max 1 (m.bu.freeVc - m.vc)) 2))))

/-- The first chunk of a block instruction over work RAM, of at most sixteen words (R105): BMOV copies them in ascending order, BFILL fills them,
BCMP compares them and retires at a difference. With words left the instruction stays, its registers telling what is done; that one command
processes one chunk is the model's choice (log entry 15). -/
def Obligations.BlockInstructionsProcessAChunk : Prop :=
  ∀ (s : State) (c : Nat) (x : Ctx) (dst src : Nat), Issues s c x 2 → x.memOk = true →
    let m := x.m
    let e := s.env x
    let n := (m.reg 2).toNat
    let k := Min.min n 16
    let regs (two : Bool) (j : Nat) : Vector Word 16 :=
      let r := (m.cpu.regs.set 0 (m.reg 0 + BitVec.ofNat 32 (4 * j))).set 2 (BitVec.ofNat 32 (n - j))
      if two then r.set 1 (m.reg 1 + BitVec.ofNat 32 (4 * j)) else r
    let cmpEnd (p : Cpu) : Cpu := { p with psw := setFlags p.psw false true true false }
    let ran (y : Mach) (p done : Cpu) (cost : Nat) : Prop :=
      { y with mem := m.mem } = if n ≤ 16 then retireSeq m done cost 2 else { m with vc := m.vc + cost, cpu := { p.idleMarks with blk := some 16 } }
    (n = 0 → laneFits x 2 → exec (.bmov c) s = .next (advanced s x (retireSeq m m.cpu 2 2))
      ∧ exec (.bfill c) s = .next (advanced s x (retireSeq m m.cpu 2 2))
      ∧ exec (.bcmp c) s = .next (advanced s x (retireSeq m (cmpEnd m.cpu) 2 2)))
    ∧ (0 < n → laneFits x (2 + 2 * k) → pagesFree x 2 → wordsAt e m .write 0 dst k →
      (∃ t y, exec (.bfill c) s = .next t ∧ t.ctx? c = some y ∧ ran y.m { m.cpu with regs := regs false k } { m.cpu with regs := regs false k } (2 + k)
        ∧ (∀ i, i < k → y.m.workWord (dst + 4 * i) = m.reg 1)
        ∧ ∀ q a, ¬ (q = .work ∧ dst ≤ a ∧ a < dst + 4 * k) → y.m.ramByte q a = m.ramByte q a)
      ∧ (wordsAt e m .read 1 src k →
        ∃ t y, exec (.bmov c) s = .next t ∧ t.ctx? c = some y
          ∧ ran y.m { m.cpu with regs := regs true k } { m.cpu with regs := regs true k } (2 + 2 * k)
          ∧ ∀ q a, y.m.ramByte q a = if q = .work then copyWords k (m.ramByte .work) src dst a else m.ramByte q a))
    ∧ (0 < n → laneFits x (2 + 2 * k) → wordsAt e m .read 0 dst k → wordsAt e m .read 1 src k →
      ((∀ i, i < k → m.workWord (dst + 4 * i) = m.workWord (src + 4 * i)) →
        ∃ t y, exec (.bcmp c) s = .next t ∧ t.ctx? c = some y ∧ y.m.mem = m.mem
          ∧ ran y.m { m.cpu with regs := regs true k } (cmpEnd { m.cpu with regs := regs true k }) (2 + 2 * k))
      ∧ ∀ j, j < k → (∀ i, i < j → m.workWord (dst + 4 * i) = m.workWord (src + 4 * i)) →
        let a := m.workWord (dst + 4 * j)
        let b := m.workWord (src + 4 * j)
        a ≠ b → ∃ t y, exec (.bcmp c) s = .next t ∧ t.ctx? c = some y ∧ y.m = retireSeq m { m.cpu with
          regs := regs true j
          psw := setFlags m.cpu.psw (a - b).msb false (decide (b.toNat ≤ a.toNat)) (overflows (a.toInt - b.toInt)) } (2 + 2 * j + 2) 2)

/-- BRK takes vector 9, NOP has no effect but its vc and the way on; neither changes a flag (R110). -/
def Obligations.NopHasNoEffectAndBrkTakesVector9 : Prop :=
  ∀ (s : State) (c : Nat) (x : Ctx), Issues s c x 2 → laneFits x 1 →
    let m := x.m
    exec (.nop c) s = .next (advanced s x (retireSeq m m.cpu 1 2))
    ∧ exec (.brk c) s = trap s x 1 { vec := 9, info := m.cpu.pc, pc := m.following 2 }
    ∧ (∀ a, (loopCheck 4 m.cpu.idleMarks a).1.psw &&& 0xF#32 = m.cpu.psw &&& 0xF#32)
    ∧ ∀ e t0, Fx.faulted true ∉ (enter e (trapped m 1) { vec := 9, info := m.cpu.pc, pc := m.following 2 } t0).fx →
        Fx.faulted false ∉ (enter e (trapped m 1) { vec := 9, info := m.cpu.pc, pc := m.following 2 } t0).fx →
        (enter e (trapped m 1) { vec := 9, info := m.cpu.pc, pc := m.following 2 } t0).cpu.psw &&& 0xF#32 = m.cpu.psw &&& 0xF#32

/-- No instruction but CALLG, RETG and RETE changes the level except by an entry to a handler (R114): LV is as it was, or an entry has been made
from a state of that level (R126, or R127 where its frame area is refused), which leaves the processor as `enter` does, eight vc after the entry
began, at level 1. -/
def Obligations.OnlyEntryGatesAndReteChangeTheLevel : Prop :=
  ∀ (s t : State) (i : Instr) (c : Nat) (x y : Ctx), encodeCore i ≠ none → (∀ g, i ≠ .callg c g) → i ≠ .retg c → i ≠ .rete c →
    s.ctx? c = some x → exec i s = .next t → t.ctx? c = some y → y.m.lv = x.m.lv
      ∨ (y.m.lv = 1 ∧ ∃ (n : Mach) (k : Exc) (t0 : Nat), n.lv = x.m.lv ∧ y.m.vc = t0 + 8 ∧ y.m.cpu = (enter (s.env x) n k t0).cpu)

/-! ### HOLD windows, timers, beam, raster list, picture (R62, R128, R150 to R163, R169 to R242) -/

/-- A tick of an unchained timer (R152 to R157): the count goes on by one or, at or above RELOAD, to 0; a match and a wrap are counted and
become pending; a wrap ticks the timer above that is chained to this one and stood enabled before. -/
def Obligations.TimerTickCountsMatchesAndWraps : Prop :=
  ∀ (s : State) (c : Nat) (x : Ctx) (n : Fin 4), Runs s c x →
    let y := x.m.timer n
    let due := y.phase0 + 2 ^ y.psc
    let m := x.m.seen due
    let v : Word := if y.reload.toNat ≤ y.count.toNat then 0 else y.count + 1
    let z := m.timer (n.val + 1)
    let chained := decide (n.val < 3 ∧ v = 0 ∧ z.chain = true ∧ (z.en = true ∨ z.offAt = some due) ∧ z.phase0 < due)
    (y.chain = false → y.en = true ∨ y.offAt = some due → hasCome x (.tick n) due = true →
      ∃ m', exec (.timerTick c n) s = .next (advanced s x m') ∧ (m'.timer n).count = v ∧ (m'.timer n).phase0 = due
        ∧ (m'.timer n).matches_ = y.matches_ + (if v = y.cmp then 1 else 0) ∧ (m'.timer n).wraps = y.wraps + (if v = 0 then 1 else 0)
        ∧ m'.ic.pend.val.getLsbD (4 + n.val) = (m.ic.pend.val.getLsbD (4 + n.val) || decide (v = y.cmp))
        ∧ m'.ic.pend.val.getLsbD (8 + n.val) = (m.ic.pend.val.getLsbD (8 + n.val) || decide (v = 0))
        ∧ (chained = true → (m'.timer (n.val + 1)).count = if z.reload.toNat ≤ z.count.toNat then 0 else z.count + 1)
        ∧ (chained = false → ∀ k : Fin 4, k ≠ n → m'.timer k = m.timer k)
        ∧ { m' with tm := m.tm, ic := m.ic } = m)
    ∧ (y.chain = true ∨ (y.en = false ∧ y.offAt ≠ some due) ∨ hasCome x (.tick n) due = false → exec (.timerTick c n) s = .next s)

/-- A write of TMn_COUNT (R154): the counter holds the written value and the phase is 0, no tick falls in that vc, nothing matches or wraps,
and from a value above RELOAD the next tick goes to 0. -/
def Obligations.CountWriteReplacesTheTick : Prop :=
  ∀ (s : State) (c : Nat) (x : Ctx) (n : Fin 4) (v : Word), Runs s c x → laneFits x 1 →
    let m := x.m
    let y := m.timer n
    let m' := m.setTimer n { y with count := v, phase0 := m.vc }
    exec (.tmCountWrite c n v) s = .next (advanced s x m')
      ∧ (m'.timer n).count = v ∧ m.vc < (m'.timer n).phase0 + 2 ^ (m'.timer n).psc
      ∧ (m'.timer n).matches_ = y.matches_ ∧ (m'.timer n).wraps = y.wraps ∧ m'.ic = m.ic
      ∧ (y.reload.toNat < v.toNat → tickNext (m'.timer n) = 0)
      ∧ ∀ k : Fin 4, k ≠ n → m'.timer k = m.timer k

/-- TMn_CTL takes CHAIN and PSC only while the timer is off, clears EN with the tick of that vc still to come, and a set EN starts the phase;
a read of TMn_COUNT copies the count above it into that timer's latch. In a debug halt or a park without TCOMPAT, every enabled timer that is
not chained goes on by the ticks its accumulator of R161 and R162 gives for one microsecond; the vc stands still. Of a HOLD window whose last
vc has passed nothing is left; IC_RAISE makes the software sources it names pending, and no other. -/
def Obligations.TimerControlHaltsAndHoldWindows : Prop :=
  (∀ (s : State) (c : Nat) (x : Ctx) (n : Fin 4) (v : Word), Runs s c x → laneFits x 1 →
      let m := x.m
      let y := m.timer n
      let en := v.getLsbD 0
      let after : Timer :=
        if y.en then (if en then y else { y with
          en := false, offAt := if y.chain || decide (y.phase0 + 2 ^ y.psc = m.vc) then some m.vc else none })
        else { y with
          en := en, chain := v.getLsbD 1 && decide (n.val ≠ 0), psc := bitsOf v.toNat 7 4
          phase0 := if en then m.vc else y.phase0, offAt := none }
      exec (.tmCtlWrite c n v) s = .next (advanced s x (m.setTimer n after))
      ∧ exec (.tmCountRead c n) s = .next (advanced s x { (if n.val < 3 then
          m.setTimer (n.val + 1) { m.timer (n.val + 1) with latch := (m.timer (n.val + 1)).count } else m) with ioData := y.count }))
  ∧ (∀ (s : State) (c : Nat) (x : Ctx), s.ctx? c = some x → (x.hold.halted = true ∨ x.stat = .parked) →
      let m := x.m
      (x.cfg.tcompat = true ∨ s.audit.uptime ≤ x.hold.since + x.hold.ticks → exec (.timerHaltTick c) s = .next s)
      ∧ (x.cfg.tcompat = false → x.hold.since + x.hold.ticks < s.audit.uptime →
        ∃ m', exec (.timerHaltTick c) s = .next (s.putCtx { x with m := m', hold := { x.hold with ticks := x.hold.ticks + 1 } }) ∧ m'.vc = m.vc
        ∧ (∀ n : Fin 4, (m.timer n).en = true → (m.timer n).chain = false →
          let y := m.timer n
          let a := y.acc + (modeOf x.cfg.mode).khz
          (m'.timer n).acc = a % (1000 * 2 ^ y.psc)
            ∧ (m'.timer n).count = Nat.repeat (fun w => tickNext { y with count := w }) (a / (1000 * 2 ^ y.psc)) y.count)
        ∧ { m' with tm := m.tm, ic := m.ic } = m))
  ∧ (∀ (s : State) (c : Nat) (x : Ctx) (v : Word) (h : Nat), Runs s c x →
      let m := x.m
      (m.cpu.hold = some h → h ≤ m.vc → exec (.holdWindowEnd c) s = .next (advanced s x { m with cpu := { m.cpu with hold := none } })
        ∧ m.pswAt m.vc = m.cpu.psw)
      ∧ (m.cpu.hold = some h → m.vc < h → exec (.holdWindowEnd c) s = .next s)
      ∧ (laneFits x 1 → ∃ ic, exec (.icRaise c v) s = .next (advanced s x { m with ic := ic }) ∧ ic.pend.val = (m.ic.pend.val ||| (v &&& 0x0F000000#32))
          ∧ ic.enable = m.ic.enable ∧ ic.prio = m.ic.prio))

/-- The position of entry `r` comes before that of `q` in the frame (R184). -/
def entryBefore (r q : RlEntry) : Prop := rlLine r < rlLine q ∨ (rlLine r = rlLine q ∧ rlSpan r < rlSpan q)

/-- `sk` says which entries of list `l` are skipped, by the rules of R184: by itself an entry outside the frame, one that names no register of blocks 4
to 7 that takes writes, and one with bit 31 of word 0 set; and any whose position comes before that of the last earlier entry that is not skipped. -/
def SkipsFollow (cfg : Cfg) (md : ModeT) (l : List RlEntry) (sk : Nat → Prop) : Prop :=
  ∀ k r, l[k]? = some r → (sk k ↔ md.vTot ≤ rlLine r ∨ md.hTot / 8 ≤ rlSpan r ∨ vidMask cfg (rlOff r) = none ∨ r.w0.getLsbD 31 = true
    ∨ ∃ j q, j < k ∧ l[j]? = some q ∧ ¬ sk j ∧ (∀ i, j < i → i < k → sk i) ∧ entryBefore r q)

/-- BM_FRAMEL gives the frame number of the vc and latches its upper half; source 2 rises at each horizontal blank that R172 lets raise it,
source 3 where the beam reaches the compare position. At the start of the last line of a frame the device captures the list that RL_BASE and
RL_COUNT give, none where it is disabled, empty or runs out of VRAM, the last with RANGE set (R182). In the last vc of a frame the entries outside
the frame are counted as skipped, and the captured list comes into force with CAPT its length and DONE 0. In the frame the entries of the list act in
the order of their positions and, at one position, of the list, each in the last vc before its position: it writes its register, or is counted as
skipped by the rules of R184; source 21 rises where DONE reaches CAPT (R182, R184 to R187). -/
def Obligations.BeamEventsAndRasterListAct : Prop :=
  (∀ (s : State) (c : Nat) (x : Ctx), Runs s c x →
      let m := x.m
      let md := modeOf x.cfg.mode
      let f := m.vc / md.frameVc
      let i := m.cur.hblank
      let hb := commitVc md i
      let next : Mach := { m.seen hb with cur := { m.cur with hblank := i + 1 } }
      (laneFits x 1 → exec (.bmFramelRead c) s = .next (advanced s x { m with
          bm := { m.bm with frameh := BitVec.ofNat 32 (f / 2 ^ 32) }, ioData := BitVec.ofNat 32 f }))
      ∧ (hasCome x .hblank hb = true → i % md.vTot < md.vAct ∨ hballAt m.bm hb = true → exec (.hblankStart c) s = .next (advanced s x (next.raise 2 hb)))
      ∧ (hasCome x .hblank hb = true → ¬ (i % md.vTot < md.vAct) → hballAt m.bm hb = false → exec (.hblankStart c) s = .next (advanced s x next))
      ∧ (hasCome x .hblank hb = false → exec (.hblankStart c) s = .next s)
      ∧ (∀ line dot due, line = bitsOf m.bm.lcmp.toNat 9 0 → dot = bitsOf m.bm.lcmp.toNat 25 16 → line < md.vTot → dot < md.hTot →
          due % md.frameVc = line * md.lineVc + dot * md.dotdiv → Max.max m.bm.lcmpFrom m.bm.lcmpDone ≤ due →
          due < Max.max m.bm.lcmpFrom m.bm.lcmpDone + md.frameVc → hasCome x .lineCompare due = true →
          exec (.lineCompare c) s = .next (advanced s x ({ m.seen due with bm := { m.bm with lcmpDone := due + 1 } }.raise 3 due)))
      ∧ (md.vTot ≤ bitsOf m.bm.lcmp.toNat 9 0 ∨ md.hTot ≤ bitsOf m.bm.lcmp.toNat 25 16 → exec (.lineCompare c) s = .next s))
  ∧ (∀ (s : State) (c : Nat) (x : Ctx), Runs s c x →
      let m := x.m
      let md := modeOf x.cfg.mode
      let f := m.cur.capture
      let n := m.rl.count.toNat
      let base := m.rl.base.toNat
      let due := f * md.frameVc + (md.vTot - 1) * md.lineVc
      let at_ (rl : Rl) : Host.Outcome State Fault Refusal := .next (advanced s x { m.seen due with cur := { m.cur with capture := f + 1 }, rl := rl })
      let off := decide (m.rl.ctl.getLsbD 0 = false ∨ n = 0)
      let word (k : Nat) : Word := BitVec.ofNat 32 (memNat m.mem.vram (base + 4 * k) 4)
      hasCome x .listCapture due = true →
      (off = true → exec (.rasterListCapture c) s = at_ { m.rl with captured := none, range := false })
      ∧ (off = false → vramSize x.cfg.prof < base + 8 * n → exec (.rasterListCapture c) s = at_ { m.rl with captured := none, range := true })
      ∧ (off = false → base + 8 * n ≤ vramSize x.cfg.prof → (∀ b, m.blkPoisoned .vram b = false) →
        exec (.rasterListCapture c) s = .next (advancedRead s x { m.seen due with cur := { m.cur with capture := f + 1 }, rl := { m.rl with
          captured := some ((List.range n).map fun k => ⟨word (2 * k), word (2 * k + 1), false⟩), range := false } } (fixes (s.env x) m (.ram .vram base) (8 * n)))))
  ∧ (∀ (s : State) (c : Nat) (x : Ctx), Runs s c x →
      let m := x.m
      let md := modeOf x.cfg.mode
      let f := m.cur.inForce
      let old := m.rl.inForce.getD []
      let last := (f + 1) * md.frameVc - 1
      let vcOf (r : RlEntry) : Nat := f * md.frameVc + rlLine r * md.lineVc + rlSpan r * 8 * md.dotdiv - 1
      let placed (r : RlEntry) : Prop := rlLine r < md.vTot ∧ rlSpan r < md.hTot / 8 ∧ r.done = false
      (hasCome x .listInForce last = true →
        let n := (old.filter fun r => decide (md.vTot ≤ rlLine r ∨ md.hTot / 8 ≤ rlSpan r) && !r.done).length
        ∃ m', exec (.listInForce c) s = .next (advanced s x m')
          ∧ m'.rl = { m.rl with
              inForce := m.rl.captured, captured := none, capt := (m.rl.captured.getD []).length, doneCnt := 0, skip := m.rl.skip + BitVec.ofNat 32 n }
          ∧ m'.ic.pend.val.getLsbD 21 = (m.ic.pend.val.getLsbD 21 || decide (m.rl.doneCnt < m.rl.capt ∧ m.rl.capt ≤ m.rl.doneCnt + n))
          ∧ { m' with rl := m.rl, ic := m.ic } = { m.seen last with cur := { m.cur with inForce := f + 1 } })
      ∧ (∀ sk : Nat → Prop, SkipsFollow x.cfg md old sk → ∀ k r, old[k]? = some r → placed r →
        (∀ j q, old[j]? = some q → placed q → vcOf r < vcOf q ∨ (vcOf r = vcOf q ∧ k ≤ j)) → hasCome x .listEntry (vcOf r) = true →
        ∃ m', exec (.rasterEntryAction c) s = .next (advanced s x m')
          ∧ m'.rl = { m.rl with inForce := some (old.set k { r with done := true }), doneCnt := m.rl.doneCnt + 1, skip := m'.rl.skip }
          ∧ m'.ic.pend.val.getLsbD 21 = (m.ic.pend.val.getLsbD 21 || decide (m.rl.doneCnt + 1 = m.rl.capt))
          ∧ (sk k → m'.rl.skip = m.rl.skip + 1 ∧ m'.vid = m.vid)
          ∧ (¬ sk k → m'.rl.skip = m.rl.skip ∧ ∃ b w, vidMask x.cfg (rlOff r) = some b ∧ w.stamp = vcOf r ∧ w.target = .reg (rlOff r)
            ∧ w.val = r.w1 &&& b ∧ w.list = true ∧ { m'.vid with regs := m.vid.regs } = { m.vid with log := m.vid.log ++ [w] }
            ∧ ∀ off, regOf m'.vid.regs off = if off = rlOff r then r.w1 &&& b else regOf m.vid.regs off)
          ∧ { m' with rl := m.rl, ic := m.ic, vid := m.vid } = m.seen (vcOf r))
      ∧ ((∀ r ∈ old, ¬ placed r) → exec (.rasterEntryAction c) s = .next s))

/-- A channel of 5 or 6 bits widened by replication (R200). -/
def wide5 (v : Nat) : Nat := v % 32 * 8 + v % 32 / 4
def wide6 (v : Nat) : Nat := v % 64 * 4 + v % 64 / 16

/-- One channel of colour math: the pixel's channel `s` over `c` (R213). -/
def composeCh (mode α c s : Nat) : Nat :=
  if mode = 1 ∨ mode = 2 then (s * α + c * (255 - α) + 127) / 255
  else if mode = 3 then Min.min 255 (c + (s * α + 127) / 255)
  else if mode = 4 then c - (s * α + 127) / 255 else s

/-- What a dot of the picture computes from the registers and bytes in effect (07): palette entries (R207, R208), the pixel of a tiled plane
without line scroll (R194, R196), windows (R209, R210), which layers are shown and in which order (R205, R211), their modes (R212), colour math
and the fade (R213, R214). `p0` is the vc of the line's first dot, `ps` that of the span. -/
def PictureFollows (c : Pic) (p0 ps x l : Nat) (sel : List Sprite) : Prop :=
  let num (off p : Nat) : Nat := (c.reg off p).toNat
  let hidden (k : Nat) : Bool :=
    let inside (n : Nat) : Bool := let h := num (0x7100 + 8 * n) p0; let v := num (0x7104 + 8 * n) p0
      decide (h % 1024 ≤ x ∧ x ≤ h / 65536 % 1024 ∧ v % 1024 ≤ l ∧ l ≤ v / 65536 % 1024)
    (c.reg (0x7110 + 4 * k) p0).getLsbD ((inside 0).toNat + 2 * (inside 1).toNat)
  let pl (n : Nat) : Nat := 0x4000 + 0x20 * n
  let sh := c.shown p0 ps x l sel
  let mode (k : Nat) : Nat := if hidden 5 = true ∨ 4 < k then 0 else k
  let prioOf (k : Nat) : Nat := if k = 4 then ((c.spritePx p0 ps x l sel).map fun q => q.2.prio).getD 0 else num (pl k) p0 / 256 % 4
  let back := num 0x6000 ps
  let c15 := (c.reg 0x6800 ps).getLsbD 0
  let fade (v : Nat) : Nat := let w := num 0x700C ps
    if (c.reg 0x700C ps).getLsbD 8 then v + ((255 - v) * (w % 256) + 127) / 255 else v - (v * (w % 256) + 127) / 255
  let compose (get : Px → Nat) (first : Nat) : Nat := fade (sh.foldr (fun q v => composeCh q.2.mode q.2.alpha v (get q.2.px)) first)
  (∀ bank i, let w := num (0x6000 + bank * 0x400 + i * 4) ps
    c.pal bank i ps = if c15 then ⟨wide5 (w / 1024), wide5 (w / 32), wide5 w, 255⟩ else ⟨w / 65536 % 256, w / 256 % 256, w % 256, w / 16777216⟩)
  ∧ (∀ n, n < 4 → ¬ (n = 0 ∧ (c.reg (pl n) p0).getLsbD 10 = true) → ¬ (n = 3 ∧ (c.reg (pl n) p0).getLsbD 11 = true) →
    (c.reg (pl n) p0).getLsbD 3 = false →
    let k := num (pl n) p0
    let t := if (c.reg (pl n) p0).getLsbD 1 then 16 else 8
    let deep := (c.reg (pl n) p0).getLsbD 2
    let mw := 16 * 2 ^ (k / 16 % 4)
    let px := (x + num (pl n + 0xC) p0 % 65536) % (mw * t)
    let py := (l + num (pl n + 0xC) p0 / 65536) % (16 * 2 ^ (k / 64 % 4) * t)
    let e := leNat ((List.range 4).map fun i => BitVec.ofNat 8 (c.byte (num (pl n + 4) p0 + (py / t * mw + px / t) * 4 + i) ps))
    let fx := if e.testBit 14 then t - 1 - px % t else px % t
    let fy := if e.testBit 15 then t - 1 - py % t else py % t
    let tile := num (pl n + 8) p0 + e % 16384 * (if deep then t * t else t * t / 2)
    let at_ := if deep then tile + fy * t + fx else tile + fy * (t / 2) + fx / 2
    let i := if deep then c.byte at_ ps else c.byte at_ ps / (if fx % 2 = 0 then 1 else 16) % 16
    (c.planePx p0 ps n x l).px = (if i = 0 then none else
      some (c.pal (num 0x6400 ps / 4 ^ n % 4) (if deep then i else e / 65536 % 16 * 16 + i) ps))
    ∧ (c.planePx p0 ps n x l).pages = [(num (pl n + 4) p0 + (py / t * mw + px / t) * 4) % c.vsize, at_ % c.vsize])
  ∧ (∀ n q, n < 4 → ((n, q) ∈ sh ↔ (c.reg (pl n) p0).getLsbD 0 = true ∧ hidden n = false ∧ ∃ px, (c.planePx p0 ps n x l).px = some px
      ∧ q.px = px ∧ q.mode = mode (num 0x7000 ps / 16 ^ n % 8) ∧ q.alpha = if q.mode = 2 then px.a else num 0x7004 ps / 256 ^ n % 256))
  ∧ (∀ q, (4, q) ∈ sh ↔ hidden 4 = false ∧ ∃ px sp, c.spritePx p0 ps x l sel = some (px, sp) ∧ sp.prio < 4
      ∧ q.px = px ∧ q.mode = mode (if sp.math then num 0x7000 ps / 65536 % 8 else 0) ∧ q.alpha = if q.mode = 2 then px.a else num 0x7008 ps % 256)
  ∧ (∀ px sp, c.spritePx p0 ps x l sel = some (px, sp) → ∃ before after i a, sel = before ++ sp :: after
      ∧ c.spriteTexel p0 ps sp x l = some (i, a) ∧ i ≠ 0 ∧ px = c.pal sp.bank (if sp.bpp8 then i else sp.pline * 16 + i) ps
      ∧ ∀ u ∈ before, ∀ j b, c.spriteTexel p0 ps u x l = some (j, b) → j = 0)
  ∧ sh.Pairwise (fun a b => prioOf b.1 < prioOf a.1 ∨ (prioOf b.1 = prioOf a.1 ∧ (a.1 = 4 ∨ (a.1 < b.1 ∧ b.1 ≠ 4))))
  ∧ c.dot p0 ps x l sel =
    ⟨compose Px.r (if c15 then wide5 (back / 1024) else back / 65536 % 256), compose Px.g (if c15 then wide5 (back / 32) else back / 256 % 256),
      compose Px.b (if c15 then wide5 back else back % 256), 255⟩

/-- Page `g` is in the footprint of line `l` that begins in vc `p0` (R223): the line's fetches take data from it, of the entries of the sprite table, of
the line-scroll and affine entries of the planes that are read, and of the map, tile, bitmap and pattern data of its spans. -/
def InFootprint (c : Pic) (p0 l : Nat) (sel : List Sprite) (g : Nat) : Prop :=
  ((c.reg 0x5000 p0).getLsbD 0 = true ∧ ∃ k j, k < 256 ∧ j < 2 ∧ ((c.reg 0x5004 p0).toNat + 16 * k + 8 * j) % c.vsize / 4096 = g)
  ∨ (∃ n, n < 4 ∧ (c.reg (0x4000 + 0x20 * n) p0).getLsbD 0 = true ∧ (∃ x, x < c.md.hAct / 8 * 8 ∧ c.winFn p0 n x l = false) ∧
    (if n = 0 ∧ (c.reg 0x4000 p0).getLsbD 10 = true then
      (c.reg 0x4090 p0).getLsbD 0 = true ∧ ((c.reg 0x4090 p0).toNat / 16 % 2 ^ 17 * 16 + 16 * l) % c.vsize / 4096 = g
    else (c.reg (0x4000 + 0x20 * n) p0).getLsbD 3 = true ∧ ((c.reg (0x4010 + 0x20 * n) p0).toNat + 2 * l) % c.vsize / 4096 = g))
  ∨ ∃ s a, s < c.md.hAct / 8 ∧ a ∈ c.spanPages p0 (p0 + 8 * s * c.md.dotdiv) (8 * s) l sel ∧ a / 4096 = g

/-- At the start of an active line the device selects at most 64 sprites that qualify; a 65th is noted in OB_OVF and raises source 20. Nothing
but the selection, OB_OVF and the pending bits of the context state changes (R204, R206). An engine takes the next sheaf and a slot of its
quadrant's stack where the conditions of R234 hold and one is free; with none free the lane waits until one is (R219, R241). A line is
rendered into its sheaf from the state known so far, with K_L, the pages of its footprint and the colour of every active dot; the context state stays as
it is (R221 to R223). Which planes and sprites are skipped in a span, and that line entries are read whatever covers them, are readings of the model
(log entry 70). The colour of a dot is what 07 computes from the registers and bytes in effect. A poisoned predictor history that is read restarts the
predictor (R238, R500). -/
def Obligations.LinesAreSelectedAndRenderedAhead : Prop :=
  (∀ (s : State) (c : Nat) (x : Ctx), Runs s c x →
      let e := s.env x
      let md := e.mode
      let i := x.m.cur.sprite
      let due := i * md.lineVc
      let m := x.m.seen due
      let q := (picOf e m (i / md.vTot)).qualifying due (i % md.vTot)
      (∀ b, m.blkPoisoned .vram b = false) → hasCome x .sprites due = true →
      ∃ t y, exec (.spriteEvaluation c) s = .next t ∧ t.ctx? c = some y ∧ y.m.vid.sprites = q.take 64 ∧ y.m.vid.spriteLine = i
        ∧ y.m.cur.sprite = (if i % md.vTot + 1 < md.vAct then i + 1 else (i / md.vTot + 1) * md.vTot)
        ∧ (q.length ≤ 64 → y.m.ic = m.ic ∧ y.m.vid.ovf = if i % md.vTot = 0 then 0 else m.vid.ovf)
        ∧ (64 < q.length → y.m.ic.pend.val.getLsbD 20 = true ∧ y.m.vid.ovf.getLsbD 15 = true)
        ∧ { y.m with ic := m.ic, cur := { y.m.cur with sprite := i }
                     vid := { y.m.vid with sprites := m.vid.sprites, spriteLine := m.vid.spriteLine, ovf := m.vid.ovf } } = m)
  ∧ (∀ (s : State) (c : Nat) (x : Ctx), s.ctx? c = some x →
      let k := sheafOf (modeOf x.cfg.mode) x.nextLine
      let used := slotsUsed s (stackOf x)
      (x.active = true → x.badStore .predictor = false →
        let read := readStore s c .predictor
        (sheafMayBegin x = true → (∀ p ∈ x.rend.slots, p.1 ≠ k) →
          (used < 32768 → exec (.sheafBegin c) s = .next (read.putCtx { x with rend := { x.rend with
            slots := x.rend.slots ++ [(k, stackOf x)], sheaf := some k, slotWait := false, held := false } }))
          ∧ (32768 ≤ used → exec (.sheafBegin c) s = .next (read.putCtx { x with rend := { x.rend with slotWait := true } })))
        ∧ (sheafMayBegin x = false → exec (.sheafBegin c) s = .next read))
      ∧ (x.active = true → x.badStore .predictor = true → ∃ t y, exec (.sheafBegin c) s = .next t ∧ t.ctx? c = some y ∧ y.m = x.m
        ∧ y.rend.depth = 1 ∧ y.rend.hist = [] ∧ y.rend.first = true ∧ y.badStore .predictor = false ∧ y.stat = x.stat
        ∧ ∀ d, d ≠ c → t.ctx? d = s.ctx? d)
      ∧ (x.rend.slotWait = true → used < 32768 →
        exec (.laneWaitEnd c) s = .next (s.putCtx { x with rend := { x.rend with slotWait := false } }))
      ∧ (x.active = false → exec (.sheafBegin c) s = .next s)
      ∧ (x.rend.slotWait = false ∨ 32768 ≤ used → exec (.laneWaitEnd c) s = .next s))
  ∧ (∀ (s : State) (c : Nat) (x : Ctx), Runs s c x →
      let md := modeOf x.cfg.mode
      let n := x.nextLine
      let f := n / md.vTot
      let pic := (picOf (s.env x) x.m f).line (n * md.lineVc) (n % md.vTot)
      let sel := (((picOf (s.env x) x.m f).qualifying (n * md.lineVc) (n % md.vTot)).take 64).map ((picOf (s.env x) x.m f).sprite (n * md.lineVc))
      (∀ d, d < md.hAct → pic.1[d]? = some ((picOf (s.env x) x.m f).dot (n * md.lineVc) (n * md.lineVc + d / 8 * 8 * md.dotdiv) d (n % md.vTot) sel)) ∧
      ((sheafOf md n ∈ x.rend.slots.map Prod.fst) → f ≤ x.m.cur.capture → x.heldLine n = false → x.badStore .predictor = false →
        (∀ b, x.m.blkPoisoned .vram b = false) →
      ∃ t y r, exec (.lineRender c) s = .next t ∧ t.ctx? c = some y ∧ y.m = x.m ∧ y.rend.lines = x.rend.lines ++ [r]
        ∧ r.idx = n ∧ r.kL = x.knownVc ∧ r.foot.Nodup
        ∧ (∀ g, g ∈ r.foot ↔ InFootprint (picOf (s.env x) x.m f) (n * md.lineVc) (n % md.vTot) sel g) ∧ r.px.length = md.hAct ∧ ((x.outp.setFor f).plc = [] → r.px = pic.1.map rgb)
        ∧ y.rend.sheaf = some (sheafOf md n) ∧ y.rend.slots = x.rend.slots ∧ (∀ d, d ≠ c → t.ctx? d = s.ctx? d)))
  ∧ ∀ (c : Pic) (p0 ps x l : Nat) (sel : List Sprite), PictureFollows c p0 ps x l sel

/-- Command `i` finds that the oldest output of context `x` has to wait for its queue: nothing leaves and no key changes, and the back-pressure event
195 is raised on the context's function unless it stands already (R291, R323). -/
def WaitsFirst (s : State) (c : Nat) (x : Ctx) (i : Instr) : Prop :=
  ∃ t y, exec i s = .next t ∧ t.ctx? c = some y ∧ y.m = x.m ∧ y.keys = x.keys ∧ y.outp.msgs = x.outp.msgs ∧ y.outp.pressed = true
    ∧ y.outp.slices.length = x.outp.slices.length ∧ y.outp.blocks.length = x.outp.blocks.length
    ∧ (x.outp.pressed = false → (t.func x.cfg.port).evpend.getLsbD 195 = true) ∧ ∀ d, d ≠ c → t.ctx? d = s.ctx? d

/-- The commit of a line at (L, H_ACTIVE): its colours join the frame, every write whose effect point has passed leaves the log and comes into
effect for good, the one that R178 puts last giving the register or VRAM byte its value, the next line to commit follows, and PIXELS counts a line
committed for the first time (R230, R262, R439). The oldest waiting video slice, where queue 2 can take it and the clocks run, is encoded and sealed
under the queue's key with the next CTR, and its slots are freed (R278 to R291). The OLC form of any lines of one width is a valid stream of them (R278 to
R282). -/
def Obligations.LinesAreCommittedAndSealed : Prop :=
  (∀ (s : State) (c : Nat) (x : Ctx) (r : RLine) (rest : List RLine), Runs s c x →
      let md := modeOf x.cfg.mode
      let n := x.m.cur.commit
      let due := commitVc md n
      let l := n % md.vTot
      x.rend.lines = r :: rest → r.idx = n → hasCome x .lineCommit due = true → x.badStore (.line n) = false →
      ∃ t y, exec (.lineCommit c) s = .next t ∧ t.ctx? c = some y
        ∧ y.m.cur.commit = (if l + 1 < md.vAct then n + 1 else (n / md.vTot + 1) * md.vTot) ∧ y.rend.lines = rest
        ∧ y.outp.flines = (if l = 0 then [] else x.outp.flines) ++ [r.px] ∧ y.m.vid.regs = x.m.vid.regs
        ∧ y.m.vid.log = x.m.vid.log.filter (fun w => decide (due < w.effect))
        ∧ (∀ off, regOf y.m.vid.shownRegs off
            = match vBest x.m.vid.log (.reg off) due with | some w => w.val | none => regOf x.m.vid.shownRegs off)
        ∧ (memWf x.m.vid.shownVram = true → ∀ a, a < 0x200000 → memGet y.m.vid.shownVram a
            = match vBest x.m.vid.log (.byte a) due with | some w => BitVec.ofNat 8 w.val.toNat | none => memGet x.m.vid.shownVram a)
        ∧ (x.outp.maxLine ≤ n → y.meters[4] = (x.meters[4] + md.hAct) % 2 ^ 64) ∧ (n < x.outp.maxLine → y.meters[4] = x.meters[4])
        ∧ { y.m with cur := x.m.cur, vid := x.m.vid } = x.m.seen due)
  ∧ (∀ (s : State) (c : Nat) (x : Ctx) (b : Slice), s.ctx? c = some x → s.clocked = true → nextSlice s x = some b → b.kind = 1 →
      let plain := slicePlain s x b
      let k := x.qkey 2
      (heldBack s x 2 b.frame = false → canAccept s x 2 plain.length = true → (∀ k ∈ sliceItems x b, x.badStore k = false) →
        ∃ t y, exec (.videoSliceEncode c) s = .next t ∧ t.ctx? c = some y ∧ y.m = x.m ∧ y.outp.slices = x.outp.slices.erase b
          ∧ y.outp.msgs = x.outp.msgs ++ [{
              queue := 2, plain := plain, rev := b.rev, sealed := some (k.sid, k.ctr, sealBytes k 2 plain), num := x.outp.msgNum }]
          ∧ y.qkey 2 = { k with ctr := k.ctr + 1 } ∧ (∀ q, q < 16 → q ≠ 2 → y.qkey q = x.qkey q)
          ∧ ∀ p ∈ y.rend.slots, p.1 ≠ b.frame * 64 + b.first / 8 ∧ p.1 ≠ b.frame * 64 + b.first / 8 + 1)
      ∧ (heldBack s x 2 b.frame = true ∨ (canAccept s x 2 plain.length = false ∧ b.waited = true) → exec (.videoSliceEncode c) s = .next s)
      ∧ (heldBack s x 2 b.frame = false → canAccept s x 2 plain.length = false → b.waited = false → WaitsFirst s c x (.videoSliceEncode c)))
  ∧ ∀ (w : Nat) (lines : List (List Nat)), 0 < w → (∀ l ∈ lines, l.length = w ∧ ∀ p ∈ l, p < 2 ^ 24) →
      decodeOlc w lines.length (olcForm lines) = some lines

/-! ### Audio and blits (R243 to R259, R294 to R323) -/

/-- The output pair of sample `n`: what the active voices send, summed for each bus and for the limiter's own input, the buses, and the limiter
(R306, R307, R311, R312). -/
def pairOf (a : AuRam) (au : Au) (n : Nat) : Half × Half :=
  let sent := (List.range 32).flatMap fun i =>
    if (au.voice i).active then (let r := voiceStep a (au.live.voice i) (au.voice i); sends au n i r.1 r.2.1) else []
  let sum (k : Nat) (side : Int × Int → Int) : Int := (sent.map fun c => if c.1 = k then side c.2 else 0).sum
  let bus (k : Fin 4) : Int × Int := (busStep (au.live.bus k) au.buses[k] (sum k Prod.fst, sum k Prod.snd)).1
  (limit au.live au.envL ((bus 0).1 + (bus 1).1 + (bus 2).1 + (bus 3).1 + sum 4 Prod.fst, (bus 0).2 + (bus 1).2 + (bus 2).2 + (bus 3).2 + sum 4 Prod.snd)).1

/-- What the parts of the sound system compute (11): PCM elements and their interpolation (R299, R301), the envelope (R304), a voice's level
without its filter (R302, R305), what it sends (R306), and the limiter switched off (R308, R312). -/
def SoundFollows : Prop :=
  (∀ (a : AuRam) (p : VoiceSet) (v : Voice),
    let s8 (i : Nat) : Int := signedOf 8 (a.byte (p.addr.toNat + i)) * 256
    let s16 (i : Nat) : Int := signedOf 16 (a.byte (p.addr.toNat / 2 * 2 + 2 * i) + 256 * a.byte (p.addr.toNat / 2 * 2 + 2 * i + 1))
    let next := if v.pos + 1 < p.lend.toNat then v.pos + 1 else if p.ctl.getLsbD 3 = true ∧ p.loop.toNat < p.lend.toNat then p.loop.toNat else v.pos
    let between (e f : Int) : Int := e + (f - e) * v.frac / 65536
    (p.ctl.toNat % 8 = 1 → sampleOf a p v = (between (s8 v.pos) (s8 next), v))
    ∧ (p.ctl.toNat % 8 = 2 → sampleOf a p v = (between (s16 v.pos) (s16 next), v))
    ∧ (p.ctl.toNat % 8 = 4 → sampleOf a p v = (between (s8 (v.pos % 32)) (s8 ((v.pos + 1) % 32)), v))
    ∧ (p.ctl.toNat % 8 = 5 → sampleOf a p v = (if v.noise % 2 = 1 then 32767 else -32767, v)))
  ∧ (∀ (p : VoiceSet) (v : Voice),
    let rate (k : Nat) : Nat := let r := p.env.toNat / 2 ^ k % 256
      (16 + r % 16) * 2 ^ (r / 16)
    let up := v.env + rate 0
    let level := p.env.toNat / 65536 % 256 * 65793
    (v.stage = .attack → stepEnv p v = ({ v with env := Min.min 16777215 up, stage := if 16777215 ≤ up then .decay else .attack }, false))
    ∧ (v.stage = .decay → stepEnv p v
        = ({ v with env := Max.max level (v.env - rate 8), stage := if v.env - rate 8 ≤ level then .sustain else .decay }, false))
    ∧ (v.stage = .release → stepEnv p v = ({ v with env := v.env - rate 24 }, decide (v.env ≤ rate 24)))
    ∧ (v.stage = .idle ∨ v.stage = .sustain → stepEnv p v = (v, false)))
  ∧ (∀ (a : AuRam) (p : VoiceSet) (v : Voice), p.ctl.toNat / 16 % 8 = 0 ∨ 4 < p.ctl.toNat / 16 % 8 →
    let w := (stepEnv p v).1
    let x := (sampleOf a p w).1 * (w.env : Int) / 65536
    (voiceStep a p v).1 = x ∧ (voiceStep a p v).2.1 = Max.max (-8388608) (Min.min 8388607 x))
  ∧ (∀ (route : Nat) (mix : Word) (x y : Int),
    let vol : Int := (Min.min 256 (mix.toNat % 512) : Nat)
    let pan : Int := (Min.min 256 (mix.toNat / 65536 % 512) : Nat)
    let w := if route = 4 then x else y
    contribution route mix x y = if 4 < route then none else some (route, w * vol * (256 - pan) / 65536, w * vol * pan / 65536))
  ∧ ∀ (s : AuSet) (envL : Int) (x : Int × Int), s.limc.getLsbD 16 = false →
    let out (v : Int) : Half := BitVec.ofInt 16 (Max.max (-32768) (Min.min 32767
      ((Max.max (-8388608) (Min.min 8388607 (scale v (signedOf 13 s.mgain.toNat))) + 128) / 256)))
    limit s envL x = ((out x.1, out x.2), 0)

/-- A sample at its boundary, and its consequences: one output pair more, that which R299 to R312 compute, no parameter changed, and an
inactive voice left as it is; a sample that is run again after a rollback counts in REPLAY_VS (R294 to R298, R353). Forty-eight samples make a
block; it waits with its revision and goes to queue 3, sealed, once the queue can take it, the oldest first (R320 to R323). That the sixteen
waiting blocks include those held back is the model's choice (log entry 21). -/
def Obligations.AudioSamplesBecomeBlocks : Prop :=
  (∀ (s : State) (c : Nat) (x : Ctx), Runs s c x →
      let md := modeOf x.cfg.mode
      let au := x.m.au
      let n := au.samples
      let t0 := n * md.vcSample
      hasCome x .sample t0 = true →
      (∀ b, x.m.blkPoisoned .audio b = false) →
      ∃ t y, exec (.audioSample c) s = .next t ∧ t.ctx? c = some y ∧ y.m.au.samples = n + 1
        ∧ y.m.au.out = au.out ++ [pairOf ⟨x.m.mem.audio, audioSize x.cfg.prof⟩ au n] ∧ y.m.au.live = au.live ∧ y.m.au.shadow = au.shadow ∧ y.m.au.commit = au.commit
        ∧ y.m.au.kon = au.kon ∧ y.m.au.koff = au.koff ∧ y.m.au.xf = au.xf ∧ y.m.au.blocks = au.blocks
        ∧ (∀ i, i < 32 → (au.voice i).active = false → y.m.au.voice i = au.voice i)
        ∧ y.meters[14] = (if n < x.log.maxSample then (x.meters[14] + 32) % 2 ^ 64 else x.meters[14]) ∧ { y.m with au := au } = x.m.seen t0)
  ∧ SoundFollows
  ∧ (∀ (s : State) (c : Nat) (x : Ctx), Runs s c x →
      let md := modeOf x.cfg.mode
      let au := x.m.au
      let b := au.blocks
      (au.samples = 48 * (b + 1) → hasCome x .blockCommit (48 * (b + 1) * md.vcSample) = true → x.outp.blocks.length < 16 →
        ∃ t y k, exec (.audioBlockCommit c) s = .next t ∧ t.ctx? c = some y ∧ y.outp.blocks = x.outp.blocks ++ [k] ∧ k.num = b
          ∧ k.samples = au.out ∧ k.rev = (tabGet x.outp.blockRevs b).getD 0 ∧ y.m = { x.m.seen (48 * (b + 1) * md.vcSample) with au := { au with blocks := b + 1, out := [] } })
      ∧ (au.samples ≠ 48 * (b + 1) ∨ 16 ≤ x.outp.blocks.length → exec (.audioBlockCommit c) s = .next s)
      ∧ ∀ k rest, x.outp.blocks = k :: rest → s.clocked = true →
        (heldBack s x 3 (blockEpoch md k.num) = false → canAccept s x 3 224 = true →
          ∃ t y z, exec (.audioBlockSend c) s = .next t ∧ t.ctx? c = some y ∧ y.outp.blocks = rest ∧ y.outp.msgs = x.outp.msgs ++ [z]
            ∧ z.queue = 3 ∧ z.plain = blockPlain x k ∧ z.sealed.isSome = true ∧ y.m = x.m ∧ (y.qkey 3).ctr = (x.qkey 3).ctr + 1)
        ∧ (heldBack s x 3 (blockEpoch md k.num) = true ∨ (canAccept s x 3 224 = false ∧ k.waited = true) → exec (.audioBlockSend c) s = .next s)
        ∧ (heldBack s x 3 (blockEpoch md k.num) = false → canAccept s x 3 224 = false → k.waited = false → WaitsFirst s c x (.audioBlockSend c)))

/-- A write of AU_COMMIT with GO asks for a commit or adds XF to the pending one; the boundary that takes it makes the shadow sets live,
clears the triggers and raises source 15, starting a crossfade of 64 samples where XF was set, at whose end source 16 rises (R314 to R318). -/
def Obligations.CommitsMakeTheShadowLive : Prop :=
  ∀ (s : State) (c : Nat) (x : Ctx) (v : Word), Runs s c x →
    let m := x.m
    let au := m.au
    let md := modeOf x.cfg.mode
    let t0 := au.samples * md.vcSample
    (v.getLsbD 0 = false → laneFits x 1 → exec (.auCommit c v) s = .next (advanced s x m))
    ∧ (v.getLsbD 0 = true → laneFits x 1 → au.commit = none →
      exec (.auCommit c v) s = .next (advanced s x { m with au := { au with commit := some m.vc, xfq := v.getLsbD 1 } }))
    ∧ (v.getLsbD 0 = true → laneFits x 1 → au.commit ≠ none →
      exec (.auCommit c v) s = .next (advanced s x { m with au := { au with xfq := au.xfq || v.getLsbD 1 } }))
    ∧ (∀ w, au.commit = some w → w < t0 → au.xf = none → hasCome x .commitTaken t0 = true →
      ∃ m', exec (.audioCommitTaken c) s = .next (advanced s x m') ∧ m'.au.live = au.shadow ∧ m'.au.shadow = au.shadow ∧ m'.au.kon = 0
        ∧ m'.au.koff = 0 ∧ m'.au.commit = none ∧ m'.au.xfq = false ∧ m'.ic.pend.val.getLsbD 15 = true
        ∧ (au.xfq = false → m'.au.xf = none) ∧ (au.xfq = true → ∃ l, m'.au.xf = some (au.samples, l))
        ∧ (∀ i, i < 32 → (au.shadow.voice i).off = true → (m'.au.voice i).active = false)
        ∧ (∀ i, i < 32 → (au.shadow.voice i).off = false → au.kon.getLsbD i = true → m'.au.voice i = { active := true, stage := .attack })
        ∧ (∀ i, i < 32 → (au.shadow.voice i).off = false → au.kon.getLsbD i = false → au.koff.getLsbD i = false → m'.au.voice i = au.voice i)
        ∧ { m' with au := au, ic := m.ic } = m.seen t0)
    ∧ (∀ n0 l, au.xf = some (n0, l) → n0 + 64 ≤ au.samples → hasCome x .crossfadeEnd t0 = true →
      exec (.crossfadeEnd c) s = .next (advanced s x ({ m.seen t0 with au := { au with xf := none } }.raise 16 t0)))
    ∧ (au.xf = none → exec (.crossfadeEnd c) s = .next s) ∧ (au.commit = none → exec (.audioCommitTaken c) s = .next s)

/-- A 16-bit or 32-bit pixel of a format as channels (R200, R246). -/
def pixelOf (fmt v : Nat) : Px :=
  if fmt = 0 then ⟨wide5 (v / 2048), wide6 (v / 32), wide5 v, 255⟩
  else if fmt = 1 then ⟨wide5 (v / 1024), wide5 (v / 32), wide5 v, if v.testBit 15 then 255 else 0⟩
  else if fmt = 2 then ⟨v / 256 % 16 * 17, v / 16 % 16 * 17, v % 16 * 17, v / 4096 % 16 * 17⟩
  else ⟨v / 65536 % 256, v / 256 % 256, v % 256, v / 16777216 % 256⟩

/-- Channels as a pixel of a format (R255). -/
def pixelTo (fmt : Nat) (p : Px) : Nat :=
  let n (k c : Nat) : Nat := (c * (2 ^ k - 1) + 127) / 255
  if fmt = 0 then n 5 p.r * 2048 + n 6 p.g * 32 + n 5 p.b
  else if fmt = 1 then (if 128 ≤ p.a then 32768 else 0) + n 5 p.r * 1024 + n 5 p.g * 32 + n 5 p.b
  else if fmt = 2 then n 4 p.a * 4096 + n 4 p.r * 256 + n 4 p.g * 16 + n 4 p.b
  else p.a * 16777216 + p.r * 65536 + p.g * 256 + p.b

/-- The bytes that a destination row takes: FILL's pattern, COPY's source bytes, or BLEND's and BLENDP's pixels, source over destination (R253 to
R255). -/
def RowFollows (e : Env) (m : Mach) (c : BlitCmd) (k : Nat) : Prop :=
  let s := srcRect c
  let d := dstRect c
  let row := rowBytes e m c k
  let pix (l : Loc) (b i : Nat) : Nat := leNat ((List.range b).map fun j => byteAt e m (l.plus (i * b + j)))
  (c.op.toNat % 8 = 1 → row.length = d.w * d.b ∧ ∀ i j, i < d.w → j < d.b → row.getD (i * d.b + j) 0 = BitVec.ofNat 8 (c.fill.toNat / 256 ^ j))
  ∧ ∀ l, mapLoc e.cfg.prof m.img.len (s.row k) = some l →
    (c.op.toNat % 8 = 0 → row = (List.range (s.w * s.b)).map fun i => byteAt e m (l.plus i))
    ∧ ∀ q, mapLoc e.cfg.prof m.img.len (d.row k) = some q → s.fmt ∈ [0, 1, 2, 4] → d.fmt ∈ [0, 1, 2, 4] → c.op.toNat % 8 = 2 ∨ c.op.toNat % 8 = 3 →
      row.length = d.w * d.b ∧ ∀ i, i < d.w →
        let sp := pixelOf s.fmt (pix l s.b i)
        let dp := pixelOf d.fmt (pix q d.b i)
        let α := if c.op.toNat % 8 = 2 then c.op.toNat / 256 % 256 else (sp.a * (c.op.toNat / 256 % 256) + 127) / 255
        let ch (u v : Nat) : Nat := (u * α + v * (255 - α) + 127) / 255
        (row.drop (i * d.b)).take d.b
          = leBytes d.b (pixelTo d.fmt ⟨ch sp.r dp.r, ch sp.g dp.g, ch sp.b dp.b, α + (dp.a * (255 - α) + 127) / 255⟩)

/-- BU_GO with fewer than four blits outstanding captures every command register with the level and the next sequence number (R247). The
oldest accepted blit starts where none runs: with no error of R250 it runs from its first row, else it ends with its errors, their sequence
number and source 14. Each row in its row vc takes the bytes R253 to R255 give it and no other byte of memory changes; the last ends the blit
with source 12. -/
def Obligations.BlitsAreAcceptedAndRunRowByRow : Prop :=
  (∀ (s : State) (c : Nat) (x : Ctx) (v : Word), Runs s c x → laneFits x 1 →
      let m := x.m
      let bu := m.bu
      (v.getLsbD 0 = true → bu.outstanding < 4 →
        ∃ b, exec (.buGo c v) s = .next (advanced s x { m with bu := b }) ∧ b.seq = bu.seq + 1 ∧ b.outstanding = bu.outstanding + 1
          ∧ b.queue = bu.queue ++ [{ bu.cmd with lv := m.lv, seq := bu.seq + 1 }] ∧ b.cmd = bu.cmd ∧ b.run = bu.run ∧ b.err = bu.err)
      ∧ (v.getLsbD 0 = false → exec (.buGo c v) s = .next (advanced s x m)))
  ∧ (∀ (s : State) (c : Nat) (x : Ctx), Runs s c x →
      let e := s.env x
      (∀ b rest, x.m.bu.queue = b :: rest → x.m.bu.run = none → hasCome x .blitStart x.m.bu.freeVc = true →
        let m := x.m.seen x.m.bu.freeVc
        let err := blitErrors e m b
        ∃ m', exec (.blitStart c) s = .next (advanced s x m') ∧ m'.bu.queue = rest ∧ m'.bu.rowsDone = 0 ∧ m'.mem = m.mem
          ∧ (err = 0 → ∃ r, m'.bu.run = some r ∧ r.cmd = b ∧ r.start = m.bu.freeVc ∧ r.rows = 0 ∧ m'.bu.err = m.bu.err ∧ m'.ic = m.ic)
          ∧ (err ≠ 0 → m'.bu.run = none ∧ m'.bu.errSeq = b.seq ∧ m'.bu.err.val = (m.bu.err.val ||| BitVec.ofNat 32 err)
              ∧ m'.ic.pend.val.getLsbD 14 = true))
      ∧ ∀ r q off, x.m.bu.run = some r →
        let t0 := nextRowVc r
        let m := x.m.seen t0
        let d := dstRect r.cmd
        let row := nextRow r
        let bs := rowBytes e m r.cmd row
        hasCome x .blitRow t0 = true → mapLoc e.cfg.prof m.img.len (d.row row) = some (.ram q off) → m.guarded = [] → m.mem.poison = [] →
        (∀ im ∈ s.images, im.poison = []) → pagesFree x 2 → x.memOk = true →
        ∃ t y, exec (.blitRow c) s = .next t ∧ t.ctx? c = some y
          ∧ (∀ k a, y.m.ramByte k a = if k = q ∧ off ≤ a ∧ a < off + bs.length then bs.getD (a - off) 0 else m.ramByte k a)
          ∧ y.m.bu.rowsDone = r.rows + 1 ∧ y.m.cpu = m.cpu ∧ y.m.vc = m.vc
          ∧ (r.rows = blitHm1 r.cmd → y.m.bu.run = none ∧ y.m.bu.freeVc = t0 + 1 ∧ y.m.ic.pend.val.getLsbD 12 = true)
          ∧ (r.rows ≠ blitHm1 r.cmd → ∃ r', y.m.bu.run = some r' ∧ r'.rows = r.rows + 1 ∧ r'.cmd = r.cmd ∧ r'.start = r.start))
  ∧ ∀ (e : Env) (m : Mach) (c : BlitCmd) (k : Nat), RowFollows e m c k

/-- BU_GO while four blits are outstanding is refused: FULL and source 14, nothing captured, BU_SEQ as it was (R248). -/
def Obligations.BlitIsRefusedWhenFull : Prop :=
  ∀ (s : State) (c : Nat) (x : Ctx) (v : Word), Runs s c x → laneFits x 1 → v.getLsbD 0 = true → x.m.bu.outstanding = 4 →
    ∃ m', exec (.buGo c v) s = .next (advanced s x m') ∧ m'.bu.seq = x.m.bu.seq ∧ m'.bu.queue = x.m.bu.queue ∧ m'.bu.cmd = x.m.bu.cmd
      ∧ m'.bu.err.val = (x.m.bu.err.val ||| 0x10#32) ∧ m'.ic.pend.val = (x.m.ic.pend.val ||| 0x4000#32)
      ∧ { m' with bu := { m'.bu with err := x.m.bu.err }, ic := x.m.ic } = x.m

/-! ### Input, side data, rollback (R49 to R60, R324 to R348) -/

/-- An input latch that may be passed (R47 to R51, R331, R335): the ports take the actual result or the prediction, IN_FRAME the target,
sources 0 and 1 become pending, device time is sampled, a context with rollback whose target is open keeps a snapshot; processor, vc, video
and audio memory stay. Where no result may be applied, or the snapshot allowance does not hold what the latch keeps (R338), the lane waits; that a latch
which waits for the allowance alone is none of R334's waits for input is the model's choice (log entry 63). -/
def Obligations.InputLatchAppliesItsTarget : Prop :=
  ∀ (s : State) (c : Nat) (x : Ctx), Runs s c x →
    let md := modeOf x.cfg.mode
    let m := x.m
    let f := m.cur.latch
    let open_ := x.cfg.rben && decide (x.log.closed ≤ f + 1)
    s.mgmt.devstate = 2 → hasCome x .latch (latchVc md f) = true → f + 2 ≤ x.orr.released → postingUnread x = false → reachMove s x = none →
    (latchInput x f = none → exec (.inputLatch c) s = .next (s.putCtx { x with log := waitAtLatch x f }))
    ∧ ∀ actual, latchInput x f = some actual →
      (latchFits s x f actual = false → exec (.inputLatch c) s = .next (s.putCtx { x with log := { x.log with waited := false } }))
      ∧ (latchFits s x f actual = true → (∀ k ∈ latchItems x f actual (latchCtx s x f actual).2, x.badStore k = false) →
      ∃ t y, exec (.inputLatch c) s = .next t ∧ t.ctx? c = some y ∧ y.m.cur.latch = f + 1 ∧ y.m.inp.frame = BitVec.ofNat 32 (f + 1)
        ∧ y.m.inp.ports = (if actual then applyRecs m.inp.ports (recsOf x.log (f + 1)) else predictPorts m.rb m.inp.ports)
        ∧ y.m.ic.pend.val.getLsbD 0 = true ∧ y.m.ic.pend.val.getLsbD 1 = true
        ∧ ((∀ r ∈ x.log.recsKept, r.frame ≠ f) → y.m.wall = s.audit.time)
        ∧ (open_ = true → ∃ sn ∈ y.snaps, sn.frame = f ∧ sn.m = m.seen (latchVc md f))
        ∧ y.m.cpu = m.cpu ∧ y.m.vc = (m.seen (latchVc md f)).vc ∧ y.m.mem.vram = m.mem.vram ∧ y.m.mem.audio = m.mem.audio ∧ y.m.vid = m.vid ∧ y.m.au = m.au
        ∧ ∀ d, d ≠ c → t.ctx? d = s.ctx? d)

/-- A record changes its port alone (R52): KIND 0 makes it present, replaces buttons and axes and gathers PRESS and RELEASE, KIND 1 connects,
KIND 2 disconnects; the prediction holds what RB_PnHOLD and RB_PnAXP keep (R328). An input message of a context without rollback logs its
records under their extended targets, a late one for the lowest open target, and closes every target that CLOSE records and deadlines close; a
deadline closes its own (R50, R51, R326, R358). -/
def Obligations.InputMessagesLogAndRecordsApply : Prop :=
  ((∀ (p : Port) (r : InRec),
      (r.kind = 0 → p.present = true → applyRec p r = { p with
        btn := r.btn, press := p.press ||| (r.btn &&& ~~~ p.btn), release := p.release ||| (p.btn &&& ~~~ r.btn), ax0 := r.ax0, ax1 := r.ax1 })
      ∧ (r.kind = 0 ∨ r.kind = 1 → (applyRec p r).present = true)
      ∧ (r.kind = 1 → p.present = false → applyRec p r = { p with present := true, btn := 0, ax0 := 0, ax1 := 0 })
      ∧ (r.kind = 2 → p.present = true → applyRec p r
          = { p with present := false, release := p.release ||| p.btn, btn := 0, ax0 := 0, ax1 := 0 })
      ∧ (r.kind = 3 → applyRec p r = p))
    ∧ (∀ (ps : Vector Port 8) (rs : List InRec) (i : Fin 8), (∀ r ∈ rs, r.port.toNat ≠ i.val ∧ r.port.toNat < 8) →
        (applyRecs ps rs)[i] = { ps[i] with press := 0, release := 0 })
    ∧ ∀ (rb : Rb) (ps : Vector Port 8) (i : Fin 8), ps[i].present = true →
        let q := (predictPorts rb ps)[i]
        q.btn = ps[i].btn &&& rb.hold[i] ∧ q.press = 0 ∧ q.release = ps[i].btn &&& ~~~ rb.hold[i]
          ∧ q.ax0 = (if rb.axp[i].getLsbD 0 then ps[i].ax0 else 0) ∧ q.ax1 = (if rb.axp[i].getLsbD 1 then ps[i].ax1 else 0))
  ∧ (∀ (s : State) (c : Nat) (x : Ctx) (m : InMsg) (rs : List InRec) (rest : List InMsg), s.ctx? c = some x → s.clocked = true → x.cfg.rben = false →
      let old := x.log.closed
      let settled (l : InLog) : Prop := old ≤ l.closed ∧ l.closed ∉ l.closes ∧ l.deadlines < l.closed
      (x.inb.waiting = m :: rest → m.body = .input rs →
        ∃ y, exec (.inputMessage c) s = .next (s.putCtx y) ∧ y.m = x.m ∧ y.inb.waiting = rest ∧ settled y.log ∧ y.log.deadlines = x.log.deadlines
          ∧ y.log.recs = x.log.recs ++ rs.filterMap (fun r =>
              let t := extendTarget old r.target.toNat
              if 3 < r.kind.toNat ∨ 7 < r.port.toNat ∨ old + 64 < t then none
              else if t < old then some ⟨old, true, r⟩ else some ⟨t, false, r⟩))
      ∧ (x.stat = .running → x.hold.halted = false → reachMove s x = none → reachedAfter s (releaseOf x (x.log.deadlines + 1)) x.orr.grace = true →
        ∃ y, exec (.inputDeadline c) s = .next (s.putCtx y) ∧ y.m = x.m ∧ y.log.deadlines = x.log.deadlines + 1 ∧ settled y.log ∧ y.log.recs = x.log.recs))

/-- The records that follow a confirmation of a context with rollback (R340 to R345): where the actual result of a latched target differs from the
applied one, the context goes back to the snapshot before that latch, poison stays in pages that are not restored (R336), later snapshots fall,
and the revision of every frame that begins after the restore point and of every block whose last sample does not lie before it rises by one where
the superseded history had committed a line of the frame or the block (R345). The prediction depth at the end of a window of 64 latches (R334):
two waits raise it as far as PMAX, none with depth unused lowers it; a first-use period ends after 120 latches with depth 1 (R333). -/
def Obligations.RollbackAndPredictionDepth : Prop :=
  (∀ (s : State) (c : Nat) (x : Ctx) (m : InMsg) (rs : List InRec) (rest : List InMsg) (t : Nat) (sn : Snap), s.ctx? c = some x → s.clocked = true → x.cfg.rben = true →
      x.inb.waiting = m :: rest → m.body = .input rs →
      let l := closeAll (rs.foldl (logRec true x.log.closed) (x.log, 0)).1
      let md := modeOf x.cfg.mode
      (∀ k ∈ comparedItems { x with log := l } x.log.closed ++ restoreItems x (restored x sn).cur.latch, x.badStore k = false) →
      firstDiff l (l.closed - x.log.closed) x.log.closed = some t → x.snaps.find? (fun p => p.frame + 1 = t) = some sn →
      ∃ u y, exec (.inputMessage c) s = .next u ∧ u.ctx? c = some y ∧ y.m = restored x sn
        ∧ (∀ b, b ∈ y.m.mem.poison → (b ∈ x.m.mem.poison ∧ ∀ p ∈ x.snaps, sn.frame ≤ p.frame → ∀ k ∈ p.pages, b.inPage k.1 k.2 = false)
          ∨ ∃ p ∈ x.snaps, sn.frame ≤ p.frame ∧ b ∈ p.bad)
        ∧ (∀ p ∈ y.snaps, p ∈ x.snaps ∧ p.frame + 1 < t)
        ∧ (∀ r ∈ y.log.applied, r.1 < t) ∧ y.rend.lines = [] ∧ (∀ b ∈ y.outp.slices, b.frame < t ∧ b ∈ x.outp.slices)
        ∧ (∀ g, y.outp.revOf g = x.outp.revOf g + (if t ≤ g ∧ g * md.vTot < x.m.cur.commit then 1 else 0))
        ∧ (∀ b, (tabGet y.outp.blockRevs b).getD 0 = (tabGet x.outp.blockRevs b).getD 0
            + (if latchVc md (t - 1) ≤ (48 * b + 47) * md.vcSample ∧ b < x.m.au.blocks then 1 else 0))
        ∧ y.meters[10] = (x.meters[10] + 1) % 2 ^ 64 ∧ ∀ d, d ≠ c → u.ctx? d = s.ctx? d)
  ∧ (∀ (s : State) (c : Nat) (x : Ctx), s.ctx? c = some x →
      let l := x.log
      let gives (pt : Nat) : Host.Outcome State Fault Refusal :=
        .next (s.putCtx { x with log := { l with firstUse := none, pt := pt, winLatches := 0, winW := 0, winU := 0 } })
      (x.cfg.rben = true → l.firstUse = none → 64 ≤ l.winLatches →
        exec (.depthAdjust c) s = if 2 ≤ l.winW then gives (Min.min x.cfg.pmax (l.pt + 1))
          else if l.winW = 0 ∧ l.winU < l.pt then gives (Max.max 1 (l.pt - 1)) else gives l.pt)
      ∧ (x.cfg.rben = false ∨ l.firstUse ≠ none ∨ l.winLatches < 64 → exec (.depthAdjust c) s = .next s)
      ∧ (∀ n, l.firstUse = some n → exec (.firstUseEnd c) s = if 120 ≤ n then gives 1 else .next s))

/-- A side message is staged in arrival order; a debug message asks for a halt at the next latch or ends one, with DBG_STAT, source 31 and a
fresh anchor; a signed ATTEST report waits for its latch (R58, R146, R149, R360). A queue-key envelope accepted on queue 0 installs its keys
on the queues it names, with CTR 0, and leaves a device record; one that fails R419 changes no key (R288, R418 to R420). -/
def Obligations.InboundMessagesAct : Prop :=
  (∀ (s : State) (c : Nat) (x : Ctx) (m : InMsg) (rest : List InMsg), s.ctx? c = some x → s.clocked = true →
      let left : Ctx := { x with inb := { x.inb with waiting := rest } }
      (∀ seq ok p, x.inb.waiting = m :: rest → m.body = .side seq ok p → m.queue < 16 →
        ∃ y, exec (.sideMessage c) s = .next (s.putCtx y) ∧ y.inb.staged = x.inb.staged ++ [(m.queue, seq, p)]
          ∧ y.inb.arrived[m.queue % 16] = x.inb.arrived[m.queue % 16] + 1 ∧ y.inb.waiting = rest ∧ y.m = x.m)
      ∧ (∀ ok, x.inb.waiting = m :: rest → m.body = .debug 1 ok → x.hold.haltReq = false → x.hold.halted = false →
        (x.stat ≠ .parked → exec (.debugHaltRequest c) s = .next (s.putCtx { left with hold := { x.hold with haltReq := true } }))
        ∧ (x.stat = .parked → exec (.debugHaltRequest c) s = .next (s.putCtx { left with hold := { x.hold with halted := true, byHalt := true } })))
      ∧ (∀ ok, x.inb.waiting = m :: rest → m.body = .debug 2 ok →
        (x.hold.haltReq = true → exec (.debugResume c) s = .next (s.putCtx { left with hold := { x.hold with haltReq := false } }))
        ∧ (x.hold.haltReq = false → x.hold.halted = true → x.stat = .running → 1 ≤ x.m.cur.latch →
          ∃ y, exec (.debugResume c) s = .next (s.putCtx y) ∧ y.stat = .running ∧ y.hold.halted = false ∧ y.m.ic.pend.val.getLsbD 31 = true
            ∧ y.m.vc = x.m.vc ∧ y.m.cpu = x.m.cpu ∧ y.orr.released = x.m.cur.latch ∧ releaseOf y x.m.cur.latch = edgeNow s + 1
            ∧ (x.hold.byHalt = true → y.m.dbg.stat.val.getLsbD 0 = true)))
      ∧ (∀ r rest', x.inb.attestPend = r.id :: rest' → x.m.attest = some r →
        exec (.attestSigned c) s = .next (s.putCtx { x with inb := { x.inb with
          attestPend := rest', attestDone := x.inb.attestDone ++ [(r.id, reportBytes s x 1 r.nonce r.frame r.imgHash)] } })))
  ∧ (∀ (s : State) (c : Nat) (x : Ctx) (m : InMsg) (rest : List InMsg) (e : KeyEnv), s.ctx? c = some x → x.inb.waiting = m :: rest → m.body = .keys e →
      s.clocked = true →
      ∃ t y, exec (.keyEnvelopeMessage c) s = .next t ∧ t.ctx? c = some y ∧ y.m = x.m ∧ y.inb.waiting = rest ∧ t.audit.seq = s.audit.seq + 1
        ∧ (keyFail x e = none →
          (∀ q, q < 16 → e.qmask.getLsbD q = true → (y.qkey q).sid = e.sid ∧ (y.qkey q).ctr = 0 ∧ (y.qkey q).valid = true ∧ (y.qkey q).inCtr = none)
          ∧ ∀ q, q < 16 → e.qmask.getLsbD q = false → y.qkey q = x.qkey q)
        ∧ (keyFail x e ≠ none → y.keys = x.keys))

/-! ### The Orrery (13) and the host attachment (14) -/

/-- The orders of R363, R365 and R367: which free lane is chosen, which resident context is the victim, for which waiting context one is taken. -/
def SwapOrders (s : State) : Prop :=
  let free (l : Nat) : Prop := l < 8192 ∧ ∀ x ∈ s.ctxs, x.orr.lane ≠ some l ∧ (x.orr.lane = none → x.orr.grant ≠ some l)
  let charge (q : Nat) : Nat :=
    ((s.ctxs.filter fun x => x.orr.charged && x.orr.lane.any fun k => k / 2048 = q).map fun x => (modeOf x.cfg.mode).charge).sum
  let taken (c : Nat) : Nat := ((s.ctxs.filterMap fun x => x.orr.lane <|> x.orr.grant).filter fun k => k / 128 = c).length
  let deadline (x : Ctx) : Int := releaseOf x (x.m.cur.latch + if holdsAtLatch x then 2 else 1)
  let idle (x : Ctx) : Prop := x.stat = .parked ∨ x.stat = .faulted ∨ x.hold.halted = true
  let first (x y : Ctx) : Prop :=
    y.orr.cls < x.orr.cls ∨ (x.orr.cls = y.orr.cls ∧ (deadline x < deadline y ∨ (deadline x = deadline y ∧ x.num ≤ y.num)))
  let gone (x y : Ctx) : Prop := (idle x ∧ ¬ idle y) ∨ ((idle x ↔ idle y) ∧ ((¬ idle x ∧ x.orr.cls < y.orr.cls)
    ∨ ((idle x ∨ x.orr.cls = y.orr.cls) ∧ (deadline y < deadline x ∨ (deadline x = deadline y ∧ y.num ≤ x.num)))))
  let away (x : Ctx) : Prop := runnable x = true ∧ x.orr.lane = none ∧ x.orr.grant = none
  (∀ l, chooseLane s = some l → free l ∧ ∀ k, free k → charge (l / 2048) < charge (k / 2048) ∨ (charge (l / 2048) = charge (k / 2048)
    ∧ (l / 2048 < k / 2048 ∨ (l / 2048 = k / 2048 ∧ (taken (l / 128) < taken (k / 128) ∨ (taken (l / 128) = taken (k / 128) ∧ l ≤ k))))))
  ∧ (chooseLane s = none → ∀ k, ¬ free k)
  ∧ (let may (x : Ctx) : Prop := x.orr.lane ≠ none ∧ ¬ (x.orr.cls = 3 ∧ runnable x = true)
    (∀ v, victim s = some v → v ∈ s.ctxs ∧ may v ∧ ∀ y ∈ s.ctxs, may y → gone v y) ∧ (victim s = none → ∀ y ∈ s.ctxs, ¬ may y))
  ∧ (∀ w, firstWaiting s = some w → w ∈ s.ctxs ∧ away w ∧ ∀ y ∈ s.ctxs, away y → first w y)
  ∧ (firstWaiting s = none → ∀ y ∈ s.ctxs, ¬ away y)
  ∧ (∀ w, served s = some w → w ∈ s.ctxs ∧ away w
    ∧ (w.orr.newcomer = true ∨ ((∀ y ∈ s.ctxs, away y → y.orr.newcomer = false) ∧ ∃ k ∈ s.ctxs, k.orr.was = true ∧ runnable k = false))
    ∧ ∀ y ∈ s.ctxs, away y → (w.orr.newcomer = true → y.orr.newcomer = true) → first w y)
  ∧ (served s = none → ∀ y ∈ s.ctxs, away y → y.orr.newcomer = false ∧ ∀ k ∈ s.ctxs, k.orr.was = true → runnable k = true)

/-- At R(F) the next epoch is released, but after a chip-level fault not the one at whose pacing point the context stands (R465); the frame before it
that is not on time counts as late, once, and raises source 194. Epoch 0 counts in FRAMES once, where it is released and the context first has a
lane (R439). Each second the
bytes above the claim are counted (R356, R359, R371). Where no lane is free a context leaves its lane as the victim of R365, and the lane is
kept for the context for which it was taken; a context takes the lane kept for it, or, as the first waiting one in the order of R367, the free lane
R363 chooses, one that no context has; after a chip-level fault not one on which it would pass a pacing point (R465). Context states are untouched by
either. Of several newcomers the first in swap-in order is served (log entry 67), and of quadrants with the same charge the lower-numbered is taken
(log entry 81): the model's choices. -/
def Obligations.EpochsAndSwaps : Prop :=
  (∀ (s : State) (c : Nat) (x : Ctx), s.ctx? c = some x →
      let e := x.orr.released
      let late := decide (1 ≤ e ∧ x.orr.due < e ∧ onTime s x (e - 1) = false)
      (x.stat = .running → x.hold.halted = false → s.mgmt.devstate ≠ 4 → s.mgmt.devstate = 2 ∨ e ≠ x.m.cur.latch → reachMove s x = none →
        releaseOf x e ≤ edgeNow s →
        ∃ t y, exec (.epochRelease c) s = .next t ∧ t.ctx? c = some y ∧ y.orr.released = e + 1 ∧ y.orr.due = Max.max x.orr.due e ∧ y.m = x.m
          ∧ y.meters[3] = (if x.orr.begun = false ∧ x.orr.lane.isSome = true then (x.meters[3] + 1) % 2 ^ 64 else x.meters[3])
          ∧ (late = true → (t.func x.cfg.port).evpend.getLsbD 194 = true ∧ y.meters[5] = (x.meters[5] + 1) % 2 ^ 64)
          ∧ (late = false → y.meters[5] = x.meters[5] ∧ t.funcs = s.funcs))
      ∧ (reachMove s x = none → edgeNow s < releaseOf x e ∨ (s.mgmt.devstate ≠ 2 ∧ e = x.m.cur.latch) → exec (.epochRelease c) s = .next s)
      ∧ (1000000 * (x.orr.second + 1) ≤ s.audit.uptime →
        ∃ y, exec (.egressSecond c) s = .next (s.putCtx y) ∧ y.orr.egress = 0
          ∧ y.meters[25] = (x.meters[25] + (x.orr.egress - claimOf (modeOf x.cfg.mode) (claimIn s x))) % 2 ^ 64))
  ∧ (∀ (s : State) (c : Nat) (x : Ctx), s.ctx? c = some x →
      (∀ w v l, served s = some w → victim s = some v → v.num = c → x.orr.lane = some l → 8192 ≤ (lanesUsed s).length → s.power.frost = false →
        s.mgmt.devstate ≠ 4 → reachMove s x = none → (∀ k ∈ s.ctxs, s.ctx? k.num = some k) →
        ∃ t y, exec (.swapOut c) s = .next t ∧ t.ctx? c = some y ∧ y.orr.lane = none ∧ y.m = x.m ∧ y.snaps = x.snaps
          ∧ y.meters[20] = (x.meters[20] + 1) % 2 ^ 64 ∧ (∃ k, t.ctx? w.num = some k ∧ k.orr.grant = some l)
          ∧ ∀ d, d ≠ c → (t.ctx? d).map (fun k => (k.m, k.snaps, k.meters, k.orr.lane)) = (s.ctx? d).map fun k => (k.m, k.snaps, k.meters, k.orr.lane))
      ∧ (∀ l, laneFor s x = some l → s.mgmt.devstate ≠ 2 → x.orr.unpassed = true → x.m.cur.latch < x.orr.released → exec (.swapIn c) s = .next s)
      ∧ (∀ l, laneFor s x = some l → s.power.frost = false → s.mgmt.devstate ≠ 4 →
        s.mgmt.devstate = 2 ∨ x.orr.unpassed = false ∨ x.orr.released ≤ x.m.cur.latch → x.badStore .lane = false →
        (x.orr.grant = none → l < 8192 ∧ ∀ y ∈ s.ctxs, y.orr.lane ≠ some l ∧ (y.orr.lane = none → y.orr.grant ≠ some l))
        ∧ ∃ t y, exec (.swapIn c) s = .next t ∧ t.ctx? c = some y ∧ y.orr.lane = some l ∧ y.m = x.m ∧ y.snaps = x.snaps
          ∧ y.meters[21] = (x.meters[21] + 1) % 2 ^ 64
          ∧ y.meters[3] = (if x.orr.begun = false ∧ 0 < y.orr.released then (x.meters[3] + 1) % 2 ^ 64 else x.meters[3])
          ∧ ∀ d, d ≠ c → t.ctx? d = s.ctx? d)
      ∧ (x.orr.grant = none → firstWaiting s = some x → laneFor s x = chooseLane s)
      ∧ (∀ l, x.orr.grant = some l → x.orr.lane = none → runnable x = true → laneFor s x = some l))
  ∧ ∀ s : State, SwapOrders s

/-- A message that has its descriptors, its key or its staging and its turn at a channel is moved, and no other context and no other queue changes
(R388, R389, R394). A doorbell in range takes TAIL and fetches the descriptors the host has handed over, in ring order, each as its 32 bytes spell it
(R383); that BADDESC ones are passed as soon as they stand at the head, written back alone with source 213, is the model's choice (log entries 43 and
60). One out of range, of another port or of a queue that is off is counted in H_DBERR and raises source 214 (R384 to
R386). While the context is FAULTED or the port's DMA is stopped TAIL is kept and nothing is fetched; a queue whose TAIL is kept is fetched when
DMA may run again (R386). That Bus Master Enable at 0 keeps TAIL as DIS does is the model's choice (log entry 45). -/
def Obligations.DoorbellsFetchDescriptors : Prop :=
  (∀ (s : State) (qid : Nat) (x : Ctx) (q : Queue), s.ctx? (qid / 16) = some x → liveQueue s x (qid % 16) = some q → q.bad = false →
    let moved (i : Instr) (f : State → Ctx → Prop) : Prop := ∃ t y, exec i s = .next t ∧ t.ctx? (qid / 16) = some y ∧ f t y
      ∧ (∀ d, d ≠ qid / 16 → t.ctx? d = s.ctx? d) ∧ (∀ j, j ≠ qid → t.queue? j = s.queue? j)
    (∀ o, x.outp.msgs.find? (fun m => m.queue = qid % 16) = some o → o.sealed.isSome = true ∨ (x.qkey (qid % 16)).valid = true →
      plainPoison s x o = none → (∀ k ∈ msgItems o, x.badStore k = false) → (fillDescs q.fetched o.total).isSome = true → dmaTurn s x.cfg.port (outWant s x q o.total) = true →
      moved (.outboundMessageWrite qid) fun _ y => y.outp.msgs = x.outp.msgs.erase o)
    ∧ ∀ (raw : Sealed) (hostErr : Bool) (ds left : List Desc), inboundQueue x (qid % 16) = true → splitMsg q.fetched = some (ds, left) →
      tooLong (descTotal ds) = true ∨ stagingRoom x (qid % 16) (inboundOf s.ident x (qid % 16) raw hostErr) = true → dmaTurn s x.cfg.port (inWant q (descTotal ds)) = true →
      moved (.inboundMessageRead qid ⟨raw, hostErr⟩) fun t _ => ∃ k, t.queue? qid = some k ∧ k.fetched = left.dropWhile badDesc) ∧
  (∀ (s : State) (port qid : Nat) (v : Word) (raws : List RawDesc) (re : Bool),
    let ds := raws.map descOf
    let tail := v.toNat % 2 ^ 16
    (barUp s port = false ∨ s.gpio.thermtrip = true → exec (.doorbell port qid v raws re) s = .next s)
    ∧ (barUp s port = true → s.gpio.thermtrip = false →
      (∀ q x, s.queue? qid = some q → s.ctx? (qid / 16) = some x → x.cfg.port = port → q.en = true → tail < q.n → q.bad = false →
        (q.fhead < q.n → x.stat ≠ .faulted → portUp s port = true → ds.all (fun d => d.own) = true →
          ds.length = (tail + q.n - q.fhead) % q.n →
          q.chead < q.n →
          let l := q.fetched ++ ds
          ∃ t k, exec (.doorbell port qid v raws re) s = .next t ∧ t.queue? qid = some k ∧ k.tail = tail ∧ k.fhead = (q.fhead + ds.length) % q.n
            ∧ k.fetched = l.dropWhile badDesc ∧ k.chead = (q.chead + (l.takeWhile badDesc).length) % q.n ∧ k.kept = false ∧ t.ctxs = s.ctxs
            ∧ qid ∈ t.qcache ∧ (l.takeWhile badDesc = [] → t.funcs = s.funcs)
            ∧ (l.takeWhile badDesc ≠ [] → (t.func port).evpend.getLsbD 213 = true))
        ∧ (x.stat = .faulted ∨ portUp s port = false →
          ∃ t, exec (.doorbell port qid v raws re) s = .next t ∧ t.queue? qid = some { q with tail := tail, kept := true } ∧ t.ctxs = s.ctxs
            ∧ t.funcs = s.funcs))
      ∧ ((∀ q x, s.queue? qid = some q → s.ctx? (qid / 16) = some x → x.cfg.port ≠ port ∨ q.en = false ∨ q.n ≤ tail) →
        ∃ t, exec (.doorbell port qid v raws re) s = .next t ∧ (t.func port).dberr = (s.func port).dberr + 1
          ∧ (t.func port).evpend.getLsbD 214 = true ∧ t.queues = s.queues ∧ t.ctxs = s.ctxs)))
  ∧ (∀ (s : State) (port : Nat) (rs : List Ring), (∀ k ∈ s.queues, k.kept = false) → resumeFetch port rs s = s)
  ∧ ∀ (s : State) (port : Nat) (rs : List Ring) (q : Queue) (x : Ctx) (r : Ring), (s.queues.filter fun k => k.kept) = [q] → s.queue? q.qid = some q →
    s.ctx? (q.qid / 16) = some x → x.cfg.port = port → q.tail < q.n → q.fhead < q.n → x.stat ≠ .faulted → portUp s port = true →
    q.bad = false → (rs.find? fun r => r.qid = q.qid) = some r →
    let ds := r.descs.map descOf
    ds.all (fun d => d.own) = true → ds.length = (q.tail + q.n - q.fhead) % q.n →
    q.chead < q.n →
    let l := q.fetched ++ ds
    (resumeFetch port rs s).queue? q.qid = some { q with kept := false, fhead := (q.fhead + ds.length) % q.n, fetched := l.dropWhile badDesc,
                                                         chead := (q.chead + (l.takeWhile badDesc).length) % q.n }
      ∧ (resumeFetch port rs s).ctxs = s.ctxs

/-- The oldest message of a live queue whose descriptors hold it is sealed, its bytes go out in order, its descriptors are written back after
them with XLEN, FIRST and LAST, and the message leaves; with too few descriptors it waits and WAITD reads 1 (R388 to R393); poison that the DMA reads
in work RAM as it takes the message is a context fault (R57, R500). An inbound message is read through its END descriptor, checked, and its descriptors
are written back with its STAT: STAT 0 leaves it for the row that acts on it, any other does not (R389, R420, R421); one for which staging has no room
waits, unless its length alone decides. That bad descriptors at the head are passed at once, and when a message takes a channel (log entries 43 and 60),
that the requests and the write-backs of a message stand together on the wire (log entry 71), and the order of the conditions of STAT (log entry 81) are
the model's choices. Of the channels with bytes to move one of the highest priority gets the next beat (R395). A transfer is cut into
requests that cross no boundary of their unit, and covers its bytes exactly (R396). -/
def Obligations.MessagesAreWrittenAndChecked : Prop :=
  (∀ (s : State) (qid : Nat) (x : Ctx) (q : Queue) (o : OutMsg), s.ctx? (qid / 16) = some x → liveQueue s x (qid % 16) = some q →
      x.outp.msgs.find? (fun m => m.queue = qid % 16) = some o → o.sealed.isSome = true ∨ (x.qkey (qid % 16)).valid = true →
      q.bad = false → q.chead < q.n →
      let p := x.cfg.port
      let w := outWant s x q o.total
      (fillDescs q.fetched o.total = none ∨ dmaTurn s p w = false → exec (.outboundMessageWrite qid) s = .next (touchQueue s qid))
      ∧ (waitd s x q = (fillDescs q.fetched o.total).isNone)
      ∧ (o.sealed = none → (plainPoison s x o).isSome = true → x.stat ≠ .faulted → (fillDescs q.fetched o.total).isSome = true → dmaTurn s p w = true →
        ∃ t y, exec (.outboundMessageWrite qid) s = .next t ∧ t.ctx? (qid / 16) = some y ∧ y.stat = .faulted ∧ raisedAll t 210
          ∧ y.m.cpu = x.m.cpu ∧ y.m.vc = x.m.vc)
      ∧ ∀ ds left, fillDescs q.fetched o.total = some (ds, left) → dmaTurn s p w = true → o.sealed.isSome = true ∨ plainPoison s x o = none →
        (∀ k ∈ msgItems o, x.badStore k = false) →
        ∃ t y k bytes, exec (.outboundMessageWrite qid) s = .next t ∧ t.ctx? (qid / 16) = some y ∧ t.queue? qid = some k ∧ y.m = x.m
          ∧ y.outp.msgs = x.outp.msgs.erase o ∧ k.fetched = left.dropWhile badDesc
          ∧ k.chead = (q.chead + ds.length + (left.takeWhile badDesc).length) % q.n ∧ k.msgs = (q.msgs + 1) % 2 ^ 64
          ∧ (∀ b, o.sealed = some b → bytes = b.2.2)
          ∧ (o.sealed = none → bytes = sealBytes (x.qkey (qid % 16)) (qid % 16) (plainOf x o) ∧ (y.qkey (qid % 16)).ctr = (x.qkey (qid % 16)).ctr + 1)
          ∧ k.bytes = (q.bytes + bytes.length) % 2 ^ 64 ∧ dataWrites s p q ds bytes <:+: t.wire.drop s.wire.length
          ∧ ((∀ d ∈ ds, badDesc d.1 = false) →
            dataWrites s p q ds bytes ++ (ds.zipIdx.map fun d =>
              let i := (q.chead + d.2) % q.n
              Wire.writeback qid i (q.descAt i + 16) (relaxed s p q)
                (backBytes d.1.1 d.1.2 0 ((decide (d.2 = 0)).toNat + (decide (d.2 + 1 = ds.length)).toNat * 2) (tstamp s p q)))
              <:+: t.wire.drop s.wire.length))
  ∧ (∀ (s : State) (qid : Nat) (raw : Sealed) (hostErr : Bool) (x : Ctx) (q : Queue) (ds left : List Desc), s.ctx? (qid / 16) = some x →
      let n := qid % 16
      let m := inboundOf s.ident x n raw hostErr
      liveQueue s x n = some q → inboundQueue x n = true → splitMsg q.fetched = some (ds, left) →
      (tooLong (descTotal ds) = false → stagingRoom x n m = false → exec (.inboundMessageRead qid ⟨raw, hostErr⟩) s = .next s) ∧
      (tooLong (descTotal ds) = true ∨ stagingRoom x n m = true →
      q.bad = false → dmaTurn s x.cfg.port (inWant q (descTotal ds)) = true →
      let st := inStat x n (descTotal ds) m
      ∃ t y k, exec (.inboundMessageRead qid ⟨raw, hostErr⟩) s = .next t ∧ t.ctx? (qid / 16) = some y ∧ t.queue? qid = some k ∧ y.m = x.m
        ∧ y.inb.waiting = (if st = 0 then x.inb.waiting ++ [{ m with queue := n }] else x.inb.waiting)
        ∧ (n ≠ 0 → st = 0 → (y.qkey n).inCtr = some m.ctr) ∧ (st ≠ 0 → y.keys = x.keys)
        ∧ y.meters[19] = (if st = 2 ∨ st = 3 then (x.meters[19] + 1) % 2 ^ 64 else x.meters[19])
        ∧ k.fetched = left.dropWhile badDesc ∧ k.chead = (q.chead + ds.length + (left.takeWhile badDesc).length) % q.n
        ∧ (st = 4 → (t.func x.cfg.port).evpend.getLsbD 215 = true ∧ (t.func x.cfg.port).advisory = true)
        ∧ dataReads s x.cfg.port q ds <:+: t.wire.drop s.wire.length
        ∧ ((∀ d ∈ ds, badDesc d = false) →
          (ds.zipIdx.map fun d =>
            let i := (q.chead + d.2) % q.n
            Wire.writeback qid i (q.descAt i + 16) (relaxed s x.cfg.port q)
              (backBytes d.1 d.1.len.toNat st ((decide (d.2 = 0)).toNat + (decide (d.2 + 1 = ds.length)).toNat * 2) (tstamp s x.cfg.port q)))
            <:+: t.wire.drop s.wire.length)))
  ∧ (∀ (s : State) (p c : Nat), beatOf s p (s.func p).beat = some c →
      let t := beat s p
      (t.dma c).left = (s.dma c).left - 64 ∧ (t.dma c).pre = false ∧ (t.func p).beat = c ∧ t.ctxs = s.ctxs ∧ t.queues = s.queues
        ∧ ∀ d ∈ chansOf s p, d ≠ c → (s.dma d).busy = true → 0 < (s.dma d).left →
          (s.dma d).prio ≤ (s.dma c).prio ∧ t.dma d = { s.dma d with pre := true })
  ∧ ∀ unit addr n : Nat, 0 < unit →
      let l := tlps unit n addr n
      (l.map fun t => t.2).sum = n ∧ ∀ t ∈ l, 0 < t.2 ∧ addr ≤ t.1 ∧ t.1 + t.2 ≤ addr + n ∧ t.1 % unit + t.2 ≤ unit

/-- What happens at a port: a coalescer fires at its count or time, while its clock runs, and starts again, H_QPROBE shows a queue of the port, stopping
DMA, a link that goes down and a function-level reset are port faults, a clear of DIS waits for IDLE, which counts bulk transfers too, and fetches what
waited for it, and vectors held back are signalled when nothing holds them back any longer. In D3hot and before READY the registers take no write
(R376). That the bulk reads whose completions a stop has discarded are made again once DMA runs is the model's choice (log entry 81). -/
def Obligations.PortEventsAct : Prop :=
  (∀ (s : State) (k : Fin 192),
    let c := s.coals[k]
    let due := c.nm1 + 1 ≤ c.cnt ∨ (c.tus ≠ 0 ∧ 0 < c.cnt ∧ c.first + c.tus ≤ s.audit.uptime)
    (s.clocked = true → due → ∃ t, exec (.coalescerFire k.val) s = .next t ∧ t.coals = s.coals.set k { c with cnt := 0 }
      ∧ raisedOn t (if s.gpio.bifurc then k.val / 96 else 0) k.val ∧ t.queues = s.queues ∧ t.ctxs = s.ctxs)
    ∧ (¬ due ∨ s.clocked = false → exec (.coalescerFire k.val) s = .next s))
  ∧ (∀ (s : State) (p : Nat),
    (portUp s p = false → askBulk s p = s)
    ∧ (portUp s p = true → ∀ q ∈ s.mgmt.pend, q.h.master = p → q.h.bulk = true → inLenOf q.h ≠ 0 →
      { q with asked := true } ∈ (askBulk s p).mgmt.pend
        ∧ (q.asked = false → Wire.bulkRead p q.h.tag (inAddrOf q.h) (inLenOf q.h) ∈ (askBulk s p).wire.drop s.wire.length)
        ∧ (askBulk s p).ctxs = s.ctxs)
    ∧ ((∀ q ∈ s.mgmt.pend, q.h.master = p → q.h.bulk = true → inLenOf q.h ≠ 0 → q.asked = true) → askBulk s p = s)
    ∧ ((∃ q ∈ s.mgmt.pend, q.h.master = p ∧ q.asked = true) → portIdle s p = false)
    ∧ ((∃ c ∈ chansOf s p, (s.dma c).busy = true) → portIdle s p = false))
  ∧ ∀ (s : State) (p : Nat) (v : Word), p ∈ s.ports →
    let f := s.func p
    let qid := v.toNat % 2 ^ 20
    (barUp s p = true → ∃ g, exec (.hQprobe p v) s = .next (s.setFunc p g) ∧ g.qprobe = BitVec.ofNat 32 qid
      ∧ { g with qprobe := f.qprobe, qinfo := f.qinfo, qhead := f.qhead, qtail := f.qtail } = f
      ∧ (∀ q x, s.queue? qid = some q → s.ctx? (qid / 16) = some x → x.cfg.port = p →
        g.qinfo.getLsbD 0 = q.en ∧ g.qinfo.getLsbD 2 = decide (qid ∈ s.qcache) ∧ g.qinfo.getLsbD 3 = waitd s x q
          ∧ g.qinfo.getLsbD 4 = decide (x.stat = .faulted) ∧ g.qhead = BitVec.ofNat 32 (q.fhead + q.chead * 65536) ∧ g.qtail = BitVec.ofNat 32 q.tail)
      ∧ (s.queue? qid = none ∨ (∃ x, s.ctx? (qid / 16) = some x ∧ x.cfg.port ≠ p) → g.qinfo = 0 ∧ g.qhead = 0 ∧ g.qtail = 0))
    ∧ (barUp s p = true → v.getLsbD 0 = true → f.dis = false →
        ∃ t, exec (.hDmactl p v) s = .next t ∧ PortFaulted s p t ∧ (t.func p).dis = true ∧ (t.func p).disClear = false
          ∧ ∀ q ∈ t.mgmt.pend, q.h.master = p → q.asked = true → q.dropped = true)
    ∧ (barUp s p = true → v.getLsbD 0 = false → f.dis = true → exec (.hDmactl p v) s = .next (s.setFunc p { f with disClear := true }))
    ∧ (barUp s p = false → exec (.hQprobe p v) s = .next s ∧ exec (.hDmactl p v) s = .next s)
    ∧ (∀ rs, f.disClear = true → portIdle s p = true → exec (.dmaDisableClear p rs) s
        = .next (askBulk (resumeFetch p rs (s.setFunc p { f with dis := false, disClear := false })) p))
    ∧ (∀ rs, f.disClear = false ∨ portIdle s p = false → exec (.dmaDisableClear p rs) s = .next s)
    ∧ (∃ t, exec (.dlDown p) s = .next t ∧ PortFaulted s p t ∧ (t.func p).linkUp = false)
    ∧ ((s.box p).waiting = [] → ∃ t, exec (.flr p) s = .next t ∧ PortFaulted s p t
        ∧ (t.box p).cprod = 0 ∧ (t.box p).ccons = 0 ∧ (t.box p).rprod = 0 ∧ (t.box p).rcons = 0 ∧ (t.func p).linkUp = f.linkUp ∧ (t.func p).evpend = 0 ∧ (t.func p).dis = false
        ∧ (t.func p).mask = BitVec.allOnes 256 ∧ (t.func p).msixEn = false ∧ (t.func p).busMaster = false ∧ (t.func p).dberr = 0)
    ∧ (∃ t, exec (.busMasterDisable p) s = .next t ∧ PortFaulted s p t ∧ (t.func p).busMaster = false)
    ∧ (∀ rs, (∀ k ∈ s.queues, k.kept = false) → f.d3hot = false → ∃ t, exec (.busMasterEnable p rs) s = .next t ∧ (t.func p).busMaster = true ∧ (t.func p).evpend = f.evpend
        ∧ ∀ e, e < 256 → f.pba.getLsbD e = true → f.mask.getLsbD e = false → f.msixEn = true →
          (t.func p).pba.getLsbD e = false ∧ (f.evpend.getLsbD e = true → Wire.msix p e ∈ t.wire.drop s.wire.length))
    ∧ (∀ e, e < 256 → barUp s p = true → ∃ t, exec (.msixVectorUnmask p e) s = .next t ∧ (t.func p).mask.getLsbD e = false
        ∧ (∀ j, j < 256 → j ≠ e → (t.func p).mask.getLsbD j = f.mask.getLsbD j)
        ∧ (f.pba.getLsbD e = true → f.busMaster = true → f.msixEn = true → f.evpend.getLsbD e = true → t.wire = s.wire ++ [.msix p e]))
    ∧ (∀ sp w, ∃ t, exec (.linkUp p sp w) s = .next t ∧ (t.func p).linkUp = true ∧ (t.func p).speed = sp ∧ (t.func p).width = w
        ∧ (w < 16 ∨ sp < 5 → raisedOn t p 216) ∧ (16 ≤ w → 5 ≤ sp → t.wire = s.wire ∧ (t.func p).evpend = f.evpend))
    ∧ (∀ ns, f.ptmEn = true → exec (.ptmDialogue p ns) s = .next (s.setFunc p { f with ptm := some ((ns : Int) - ((s.audit.uptime * 1000 : Nat) : Int)) }))
    ∧ ∀ ns, f.ptmEn = false → exec (.ptmDialogue p ns) s = .next s

/-! ### Registers and pins (R8, R54, R378, R397, R448, R517 to R523) -/

/-- PAD of pin `n`, an input of function 0 as set up, is another in `t` than in `s`, or has risen on a pin of function 8 (R520). -/
def padMoves (s t : State) (n : Nat) : Prop :=
  let g := govPin t n
  (g.func = 0 ∧ g.oe = false ∧ padOf s n ≠ padOf t n) ∨ (g.func = 8 ∧ padOf s n = false ∧ padOf t n = true)

/-- What writes of registers do: OQ_qCTL enables, disables or waits (R54); an I/O register takes its write in the vc of the context's next
issue; a word of a command ring holds what is written; H_EVPEND is cleared by ones; a pin takes a new set-up unless it is locked. A lock needs
its key 0x5A, 0xA5 in two writes that follow each other, and stays (R523); a changed pad of an input of function 0, and a rising one of
function 8, raise source 247 (R520); the frame-sync outputs pulse at multiples of 800 CLK_AUD edges from READY on (R517). That an OQ_qCTL write
whose EN cannot be set leaves DIR as it was (log entry 18), the instant of a CLK_AUD edge (log entry 19), that a new set-up of a pin is such a change
too, and the level a pad shows (log entry 74), are the model's choices. A pin whose role in a peripheral's transfer its new function ends may
abandon it: GP_ABORT and source 247 (R522); whether one was in progress is left free. -/
def Obligations.RegistersAndPinsTakeWrites : Prop :=
  ((∀ (s : State) (c : Nat) (x : Ctx) (q : Fin 16) (v : Word), Runs s c x → laneFits x 1 →
      let o := x.m.oqOf q.val
      let gives (k : Oq) : Prop := exec (.oqCtlWrite c q v) s = .next (evented s x (x.m.setOq q.val k))
      let fits := decide (4096 ≤ o.size.toNat ∧ o.size.toNat < 1052672 ∧ o.base.toNat + o.size.toNat ≤ workSize x.cfg.prof)
      (sideQueue q.val = false → exec (.oqCtlWrite c q v) s = .next (evented s x x.m))
      ∧ (sideQueue q.val = true →
        (o.en = false → v.getLsbD 0 = false → gives { o with dirIn := v.getLsbD 1 })
        ∧ (o.en = false → v.getLsbD 0 = true → fits = true → gives { o with dirIn := v.getLsbD 1, en := true, clearWait := false })
        ∧ (o.en = false → v.getLsbD 0 = true → fits = false → exec (.oqCtlWrite c q v) s = .next (evented s x x.m))
        ∧ (o.en = true → v.getLsbD 0 = true → exec (.oqCtlWrite c q v) s = .next (evented s x x.m))
        ∧ (o.en = true → v.getLsbD 0 = false → oqDir q.val o = true → gives { o with en := false, wptr := 0, rptr := 0, rptrOk := 0 })
        ∧ (o.en = true → v.getLsbD 0 = false → oqDir q.val o = false →
            if o.posts = [] then gives { o with en := false, clearWait := false } else gives { o with clearWait := true })))
    ∧ (∀ (s : State) (c : Nat) (x : Ctx) (off : Nat) (v : Word), Runs s c x → laneFits x 1 →
      (off < 0x10000 → off % 4 = 0 → exec (.registerWrite (.io c off) v) s = .next (settle s x (ioWrite (s.env x) x.m off v x.m.vc)))
      ∧ (off % 4 ≠ 0 → exec (.registerWrite (.io c off) v) s = .next s)
      ∧ exec (.registerWrite (.io c 0xC) v) s = .next (evented s x { x.m with umask := v &&& 0x3FFF#32 }))
    ∧ (∀ (s : State) (m off : Nat) (v : Word), m < 3 → mailboxUp s m = true → s.mgmt.devstate ≠ 1 → 0x1000 ≤ off → off < 0x8000 → off % 4 = 0 →
      memWf (s.box m).mem = true →
      ∃ t, exec (.registerWrite (.mailbox m off) v) s = .next t ∧ mailboxRead t m off = v.toNat
        ∧ (∀ k, k % 4 = 0 → k ≠ off → mailboxRead t m k = mailboxRead s m k) ∧ ∀ k, k % 3 ≠ m → t.box k = s.box k)
    ∧ (∀ (s : State) (p k : Nat) (v : Word), p ∈ s.ports → s.mgmt.devstate ≠ 1 → (s.func p).d3hot = false → k < 8 →
      ∃ t, exec (.registerWrite (.bar0 p (0x100 + 4 * k)) v) s = .next t ∧ t = s.setFunc p (t.func p)
        ∧ ∀ i, i < 256 → (t.func p).evpend.getLsbD i = ((s.func p).evpend.getLsbD i && !(decide (i / 32 = k) && v.getLsbD (i % 32))))
    ∧ ∀ (s : State) (n : Nat) (v : Word), n < 48 →
      let p := s.gpio.pin n
      let off := 4 * n
      (p.lock = true → exec (.registerWrite (.gpio off) v) s = .next { s with gpio := { s.gpio with armed := false } })
      ∧ (p.lock = false → ∃ t, exec (.registerWrite (.gpio off) v) s = .next t
        ∧ t.gpio.pin n = { p with func := v.toNat % 16, pull := v.toNat / 16 % 4, drive := v.toNat / 64 % 4, sleep := v.toNat / 256 % 4
                                  out := v.getLsbD 10, oe := v.getLsbD 11 }
        ∧ (∀ k, k < 48 → k ≠ n → t.gpio.pin k = s.gpio.pin k)
        ∧ { t.power with rail := s.power.rail } = s.power
        ∧ (v.toNat % 16 = p.func ∨ busRole p.func (n % 4) = false ∨ s.power.frost = true → t.gpio.abort = s.gpio.abort
          ∧ (padMoves s t n → raisedAll t 247) ∧ (¬ padMoves s t n → { t with gpio := s.gpio, power := s.power } = s))
        ∧ (v.toNat % 16 ≠ p.func → busRole p.func (n % 4) = true → s.power.frost = false →
          t.gpio.abort = s.gpio.abort ∨ (t.gpio.abort = (s.gpio.abort ||| 1#32 <<< (n / 4)) ∧ raisedAll t 247))))
  ∧ ((∀ (s : State) (v : Word),
      (v.toNat % 256 = 0x5A → exec (.pinlock 0x110 v) s = .next { s with gpio := { s.gpio with armed := true } })
      ∧ (v.toNat % 256 = 0xA5 → s.gpio.armed = true → ∃ t, exec (.pinlock 0x110 v) s = .next t ∧ t.gpio.armed = false
          ∧ { t with gpio := s.gpio } = s ∧ ∀ n, n < 48 → t.gpio.pin n = { s.gpio.pin n with
            lock := (s.gpio.pin n).lock || (s.gpio.maskL.toNat + s.gpio.maskH.toNat % 65536 * 2 ^ 32).testBit n })
      ∧ (v.toNat % 256 ≠ 0x5A → ¬ (v.toNat % 256 = 0xA5 ∧ s.gpio.armed = true) →
          exec (.pinlock 0x110 v) s = .next { s with gpio := { s.gpio with armed := false } })
      ∧ exec (.pinlock 0x108 v) s = .next { s with gpio := { s.gpio with armed := false, maskL := v } })
    ∧ (∀ (s : State) (n : Nat) (b : Bool), n < 48 →
      let p := s.gpio.pin n
      (p.pad = b → exec (.gpioPadChange n b) s = .next s)
      ∧ (p.pad ≠ b → ∃ t, exec (.gpioPadChange n b) s = .next t ∧ t.gpio.pin n = { p with pad := b } ∧ (∀ k, k < 48 → k ≠ n → t.gpio.pin k = s.gpio.pin k)
          ∧ (padMoves s t n → raisedAll t 247) ∧ (¬ padMoves s t n → { t with gpio := s.gpio } = s)
          ∧ (s.power.frost = false → (p.func = 0 ∧ p.oe = false) ∨ (p.func = 8 ∧ b = true) → raisedAll t 247))
      ∧ ((govPin s n).func = 8 → exec (.frameSyncInEdge n) s = exec (.gpioPadChange n true) s)
      ∧ ((govPin s n).func ≠ 8 → exec (.frameSyncInEdge n) s = .next s))
    ∧ ∀ s : State, (s.mgmt.devstate = 1 → exec .frameSyncOutPulse s = .next s) ∧ (s.mgmt.devstate ≠ 1 →
      let k := s.audit.uptime * 48 / 1000
      (k % 800 = 0 → s.gpio.syncAt ≤ k → exec .frameSyncOutPulse s = .next { s with gpio := { s.gpio with syncOut := true, syncAt := k + 800 } })
      ∧ (k % 800 ≠ 0 ∨ k < s.gpio.syncAt → exec .frameSyncOutPulse s = .next s)))

/-! ### Faults, resets, start-up (R405, R465, R466, R476, R488, R525 to R529) -/

/-- A chip-level fault faults every port, closes every session, leaves the chip without an owner and in FAULT, or in HALTED where another one was
less than 600 s ago; a restart within 2 s, the root PLL locked (R476), leads back to READY with a new election window, and none to HALTED, as a
thermal trip does. That the meters' epoch and minute start again at a firmware restart is the model's choice (log entry 38), and so are the
payload and read sizes after a port reset (log entry 71). A cold reset leaves BOOT with the vote store, credentials and settings kept and
everything else gone; a device reset whose HBM stays in self-refresh keeps the Almanac, the statements and device time too, and owes a final
statement for each charged context; START_UP latches the straps and reaches READY in a bank whose security version is not below the lowest one, or
HALTED where no bank or no vote store passes, as a start-up that takes too long does, which keeps the effects of the steps before the late one
(R507, R508, R527 to R529); which step is late a free value says, and that it has no effect itself is the model's choice (log entry 81). -/
def Obligations.FaultsResetsAndStartUp : Prop :=
  (∀ s : State,
      let now := s.audit.uptime
      let again := s.mgmt.lastFault.any fun u => decide (now < u + 600000000)
      let stopped (t : State) : Prop := t.mgmt.devstate = 4 ∧ ∀ x ∈ t.ctxs, x.orr.lane = none
      (∀ cause, s.mgmt.devstate ≠ 4 → ∃ t, exec (.chipLevelFault cause) s = .next t ∧ t.mgmt.sessions = [] ∧ t.mgmt.owner = 3 ∧ t.mgmt.offer = none
        ∧ t.mgmt.lastFault = some now ∧ (again = false → t.mgmt.devstate = 3 ∧ t.mgmt.faultAt = some now ∧ t.ctxs = s.ctxs) ∧ (again = true → stopped t)
        ∧ (∀ q ∈ t.queues, (s.ctxs.any fun x => decide (x.num = q.qid / 16) && decide (x.cfg.port ∈ s.ports)) = true → q.fhead = q.chead ∧ q.fetched = [])
        ∧ (cause = .uncorrectable → raisedAll t 211 ∧ t.ras.chipf = (s.ras.chipf + 1) % 2 ^ 32))
      ∧ (∀ cause, s.mgmt.devstate = 4 → exec (.chipLevelFault cause) s = .next s)
      ∧ exec .pllLockLoss s = exec (.chipLevelFault .firmware) { s with power := { s.power with pllLost := true } }
      ∧ (∀ u, s.mgmt.devstate = 3 → s.mgmt.faultAt = some u →
        (now < u + 2000000 → exec .restartTimeout s = .next s)
        ∧ (s.power.pllLost = true → exec .firmwareRestart s = .next s)
        ∧ (now < u + 2000000 → s.power.pllLost = false → lostIn s [.epoch] → ∃ t, exec .firmwareRestart s = .next t ∧ stopped t)
        ∧ (now < u + 2000000 → s.power.pllLost = false → ¬ lostIn s [.epoch] → ∃ t, exec .firmwareRestart s = .next t ∧ t.mgmt.devstate = 2 ∧ t.mgmt.pend = []
          ∧ t.mgmt.elect = some (now + 50000) ∧ t.mgmt.owner = 3 ∧ t.ident.meterEpoch = s.ident.meterEpoch + 1
          ∧ t.audit.minute = 0 ∧ t.audit.readyAt = now ∧ (∀ x ∈ t.ctxs, x.minBase = 0)
          ∧ (∀ m, m < 3 → (t.box m).cprod = 0 ∧ (t.box m).ccons = 0 ∧ (t.box m).rprod = 0 ∧ (t.box m).rcons = 0)
          ∧ (s.power.frost = false → t.audit.seq = s.audit.seq + 1))
        ∧ (u + 2000000 ≤ now → exec .firmwareRestart s = .next s ∧ ∃ t, exec .restartTimeout s = .next t ∧ stopped t))
      ∧ ∃ t, exec .thermalTrip s = .next t ∧ stopped t ∧ t.gpio.thermtrip = true ∧ t.power.alert = true ∧ t.mgmt.tripped = true)
  ∧ (∀ (s : State) (p : BootP),
      let gone (t : State) : Prop := t.mgmt.devstate = 1 ∧ t.mgmt.owner = 3 ∧ t.mgmt.sessions = [] ∧ t.ctxs = [] ∧ t.images = [] ∧ t.queues = []
        ∧ t.reticle = [] ∧ t.ident = s.ident ∧ t.votes = s.votes ∧ t.mgmt.creds = s.mgmt.creds ∧ t.audit.seq = s.audit.seq ∧ t.audit.chain = s.audit.chain
        ∧ t.audit.sseq = s.audit.sseq ∧ t.power.limit = s.power.limit ∧ t.power.g = s.power.g ∧ t.power.frost = false
        ∧ ∀ n, n < 48 → (t.gpio.pin n).lock = false ∧ (t.gpio.pin n).pad = (s.gpio.pin n).pad
      (∃ t, exec .coldReset s = .next t ∧ gone t ∧ t.audit.recs = [] ∧ t.audit.stmts = [] ∧ t.audit.time = none)
      ∧ (∃ t, exec (.deviceReset true) s = .next t ∧ gone t ∧ t.audit.recs = s.audit.recs ∧ t.audit.stmts = s.audit.stmts
          ∧ t.audit.time = s.audit.time ∧ t.audit.owed.length = s.audit.owed.length + (s.ctxs.filter fun x => x.orr.charged).length)
      ∧ exec (.deviceReset false) s = exec .coldReset s
      ∧ (s.gpio.bifurc = true → ∃ t, exec .portBReset s = .next t ∧ PortFaulted s 1 t ∧ (t.func 1).linkUp = false ∧ (t.func 1).busMaster = false
        ∧ (t.func 1).d3hot = false ∧ (t.func 1).msixEn = false ∧ (t.func 1).mps = 0 ∧ (t.func 1).mrrs = 2 ∧ (t.func 1).ptm = none)
      ∧ (s.gpio.bifurc = false → exec .portBReset s = .next s)
      ∧ (s.mgmt.devstate = 1 →
        let strapped (t : State) : Prop := ∀ n, n < 48 → t.gpio.straps.testBit n = (s.gpio.pin n).pad
        let lost := s.voteLost fun _ => true
        (∃ t bp late, exec .startUpTimeout s = .next t ∧ t.mgmt.devstate = 4 ∧ strapped t ∧ t.gpio.bifurc = bp.bifStrap ∧ 2 ≤ late ∧ late ≤ 7
          ∧ (chooseBank s.ident bp = none ∨ late ≤ 3 → t.ident = s.ident ∧ t.votes = s.votes)
          ∧ ∀ k, chooseBank s.ident bp = some k → 4 ≤ late → t.ident.active = k.1 ∧ t.ident.fresh = false
            ∧ t.ident.fwsvn = s.ident.banks[k.1].svn ∧ t.ident.fwmeas = s.ident.banks[k.1].meas ∧ s.ident.minSvn ≤ t.ident.fwsvn
            ∧ (late ≤ 5 → t.votes = s.votes) ∧ (6 ≤ late → t.power.step = Vector.replicate 4 2)
            ∧ t.ident.boot = s.ident.boot + (decide (late = 7) && !lost).toNat)
        ∧ (chooseBank s.ident p = none → ∃ t, exec (.startUp p) s = .next t ∧ t.mgmt.devstate = 4 ∧ strapped t ∧ t.gpio.bifurc = p.bifStrap)
        ∧ (∀ k, chooseBank s.ident p = some k →
          (lost = true → ∃ t, exec (.startUp p) s = .next t ∧ t.mgmt.devstate = 4 ∧ strapped t ∧ t.gpio.bifurc = p.bifStrap)
          ∧ (lost = false → ∃ t, exec (.startUp p) s = .next t ∧ t.mgmt.devstate = 2 ∧ t.mgmt.owner = 3
            ∧ t.mgmt.elect = some (s.audit.uptime + 50000) ∧ t.ident.boot = s.ident.boot + 1 ∧ strapped t ∧ t.gpio.bifurc = p.bifStrap
            ∧ t.ident.active = k.1 ∧ t.ident.fwsvn = s.ident.banks[k.1].svn ∧ t.ident.fwmeas = s.ident.banks[k.1].meas
            ∧ s.ident.minSvn ≤ t.ident.fwsvn ∧ t.votes = []
            ∧ t.power.step = Vector.replicate 4 2 ∧ t.ras.gop = 2 ∧ t.audit.owed = [])))
      ∧ (s.mgmt.devstate ≠ 1 → exec (.startUp p) s = .next s ∧ exec .startUpTimeout s = .next s))

/-! ### Management (R424 to R445, R448 to R474) -/

/-- M2 reaches the words of its mailbox over pins of group 0 that carry it: writes in ascending order, reads from the offset that was set; a write
of MB_RCONS consumes; a bad header and an opcode that no row has are answered and change nothing else, and pads are skipped (R449, R450). The
order of R456, shown for PWR.LIMIT: of the checks that fail the first one gives status and RESULT, and the command has no effect; a reserved field
that is not zero, shown for FW.DIAG, gives its offset. A transfer that ends completes its command (R454, R458): an upload stores its image, a
firmware bank is marked, a loaded image frees the contexts that wait for it; a host access error ends the command with E_FAULT and source 215, and
a bank that was being written is as it was before. Where DMA of the port has stopped the transfer waits, and the completions of reads that were under way
are discarded (R402). RESULT is the offset that R452 asks for; which field of a packet it names where several could be meant (log entry 22), that the
reads are then made again (log entry 81), the free measurement of a bank that was written (log entry 39), and that the last tenth of a bank raises source
199 at the completion (log entry 80) are the model's choices. -/
def Obligations.MailboxesAndTransfers : Prop :=
  (∀ s : State,
      (∀ (x : M2Tx) (off : Nat) (bs : List Byte), m2Reached s x = true → off % 4 = 0 → bs.length % 4 = 0 → 4 ≤ bs.length → bs.length ≤ 240 →
        0x1000 ≤ off → off + bs.length ≤ 0x8000 → memWf (s.box 2).mem = true →
        ∃ t, exec (.m2Write x off bs) s = .next t ∧ (∀ k, k < bs.length / 4 → mailboxRead t 2 (off + 4 * k) = leNat ((bs.drop (4 * k)).take 4))
          ∧ t.box 0 = s.box 0 ∧ t.box 1 = s.box 1 ∧ t.ctxs = s.ctxs ∧ t.mgmt.owner = s.mgmt.owner)
      ∧ (∀ (x : M2Tx) (off n : Nat), m2Reached s x = true → off % 4 = 0 → n % 4 = 0 → 4 ≤ n → n ≤ 240 →
        exec (.m2SetRead x off n) s = .next { s with mgmt := { s.mgmt with m2off := off, m2len := n } })
      ∧ (∀ x : M2Tx, m2Reached s x = true → exec (.m2Read x) s = .next { s with mgmt := { s.mgmt with
          m2data := (List.range (s.mgmt.m2len / 4)).flatMap fun k => leBytes 4 (mailboxRead s 2 ((s.mgmt.m2off + 4 * k) % 65536))
          m2off := (s.mgmt.m2off + s.mgmt.m2len) % 65536 } })
      ∧ (∀ (x : M2Tx) (off n : Nat) (bs : List Byte), m2Reached s x = false →
        exec (.m2Write x off bs) s = .next s ∧ exec (.m2SetRead x off n) s = .next s ∧ exec (.m2Read x) s = .next s)
      ∧ (∀ (m : Nat) (v : Word), m < 3 → mailboxUp s m = true → s.mgmt.devstate ≠ 1 → (s.box m).waiting = [] →
        ∃ t, exec (.mbRconsWrite m v) s = .next t ∧ (t.box m).rcons = v.toNat % 2048 ∧ (t.box m).rprod = (s.box m).rprod
          ∧ (∀ r ∈ (t.box m).replies, r ∈ (s.box m).replies) ∧ ∀ k, k % 3 ≠ m → t.box k = s.box k)
      ∧ (∀ m, headBad (s.box m) = false → exec (.badPacketHeader m) s = .next s)
      ∧ (∀ m, m < 3 → takes s m = true → headBad (s.box m) = true → ringCost 2048 (s.box m).rprod 1 ≤ (s.box m).free →
        ∃ t r, exec (.badPacketHeader m) s = .next t ∧ (t.box m).ccons = (s.box m).cprod ∧ (t.box m).replies.getLast? = some r
          ∧ r.op = 0xFFFF ∧ r.status = 2 ∧ r.tag = 0 ∧ r.sh = 0 ∧ r.result = 6 ∧ r.payload = [] ∧ t.ctxs = s.ctxs ∧ t.mgmt.owner = s.mgmt.owner)
      ∧ (∀ h : Hdr, takes s h.master = true → h.op = 0 →
        exec (.unassignedOpcode h) s = .next (s.setBox h.master { s.box h.master with ccons := headPos (s.box h.master) }))
      ∧ ∀ h : Hdr, takes s h.master = true → s.mgmt.devstate = 2 → h.op ≠ 0 → h.op.toNat ∉ assignedOps → taken s h.op.toNat {} h = true →
        h.fver = 1 → h.rsvdFlags = false → roomFor s h 0 → ∃ t, exec (.unassignedOpcode h) s = .next t ∧ Replied t h h.op.toNat 1 0 [] ∧ t.ctxs = s.ctxs ∧ t.mgmt.owner = s.mgmt.owner)
  ∧ (∀ (s : State) (h : Hdr) (watts : Nat), takes s h.master = true → s.mgmt.devstate = 2 →
      let lay := layout (.pwrLimit h watts)
      taken s 0x0801 lay h = true → roomFor s h 0 →
      let is (st at_ : Nat) : Prop := ∃ t, exec (.pwrLimit h watts) s = .next t ∧ Replied t h 0x0801 st at_ [] ∧ t.power = s.power ∧ t.ctxs = s.ctxs
        ∧ t.mgmt.owner = s.mgmt.owner ∧ t.gpio = s.gpio
      (h.fver ≠ 1 → is 0x0F 3)
      ∧ (h.fver = 1 → h.rsvdFlags = true → is 0x03 2)
      ∧ (h.fver = 1 → h.rsvdFlags = false → h.sh ≠ 0 → openSession s h = none → is 0x0A 8)
      ∧ (∀ x, h.fver = 1 → h.rsvdFlags = false → h.sh ≠ 0 → openSession s h = some x →
          (h.seq.toNat ≠ x.seq → is 0x0A 12) ∧ (h.seq.toNat = x.seq → trailerRight s h = false → is 0x0A (16 * h.len - 16)))
      ∧ ∀ role, Sent s h role →
        (lenRight lay h = false → is 0x02 6)
        ∧ (lenRight lay h = true → s.mgmt.owner ≠ h.master → is 0x05 0)
        ∧ (lenRight lay h = true → s.mgmt.owner = h.master → role ≠ 2 → is 0x04 8)
        ∧ (lenRight lay h = true → s.mgmt.owner = h.master → role = 2 →
          (h.bulk = true → is 0x03 2) ∧ (h.bulk = false → watts < 150 ∨ 240 < watts → is 0x0E 16)))
  ∧ (∀ (s : State) (h : Hdr) (n : Nat), Sent s h 1 → fromOwner s h → h.op.toNat = 0x0C02 → h.bulk = false → spells (layout (.fwDiag h n)) h = true →
      lenRight (layout (.fwDiag h n)) h = true → ((h.params.drop 2).take 14).all (fun b => decide (b = 0)) = false → roomFor s h 0 →
      ∃ t, exec (.fwDiag h n) s = .next t ∧ Replied t h 0x0C02 0x03 18 [] ∧ t.ident = s.ident ∧ t.ctxs = s.ctxs)
  ∧ (∀ (s : State) (p : Pend) (err : Bool), reported s p →
      (p.dropped = false → s.mgmt.devstate ≠ 2 ∨ needsInput p = true ∨ portUp s p.h.master = false →
        exec (.bulkTransferComplete p.h.master p.h.tag err) s = .next s)
      ∧ (p.dropped = true → p.h.bulk = true → inLenOf p.h ≠ 0 → ∃ t, exec (.bulkTransferComplete p.h.master p.h.tag err) s = .next t
        ∧ t.mgmt.owner = s.mgmt.owner ∧ t.ctxs = s.ctxs ∧ t.images = s.images ∧ t.reticle = s.reticle ∧ t.ident = s.ident
        ∧ { p with asked := portUp s p.h.master, dropped := false } ∈ t.mgmt.pend
        ∧ if portUp s p.h.master then Wire.bulkRead p.h.master p.h.tag (inAddrOf p.h) (inLenOf p.h) ∈ t.wire.drop s.wire.length else t.wire = s.wire))
  ∧ (∀ (s : State) (p : Pend), transfers s p →
      let i (err : Bool) : Instr := .bulkTransferComplete p.h.master p.h.tag err
      let rec_ := some (p.role.toNat, 0xFFFF, detailOf p.h)
      (∀ w v px, p.body = .retUpload w v px → ∃ t n, exec (i false) s = .next t
        ∧ Answered { dropped s p with reticle := s.reticle ++ [⟨n, w, v, px⟩] } p.h p.h.op.toNat rec_ n [] t
        ∧ (∀ k ∈ s.reticle, k.handle ≠ n) ∧ ∀ k, k < n → ∃ g ∈ s.reticle, g.handle = k)
      ∧ (∀ svn k wasBad wasFresh, p.body = .fwUpdate svn k wasBad wasFresh → ∃ t, exec (i false) s = .next t
        ∧ Answered { dropped s p with free := s.free + 1, ident := { s.ident with
            banks := s.ident.banks.set (spareBank s.ident) { svn := svn, meas := Config.free s.free % 2 ^ 384 }, fresh := true } }
          p.h p.h.op.toNat rec_ 0 [] t ∧ (k < 10 → raisedAll t 199))
      ∧ (∀ env img k, p.body = .imgLoad env img → keySource s env img = some k → firstFail (sealChecks s env img) = none →
        ∃ t memKey, exec (i false) s = .next t ∧ Replied t p.h p.h.op.toNat 0 0 []
          ∧ t.images = (if (s.image? img.hash).isSome then s.images
              else s.images ++ [{ hash := img.hash, len := img.imgLen, bytes := img.bytes, seed := k.2, key := k.1, memKey := memKey }])
          ∧ (∀ x ∈ t.ctxs, x.m.img.hash = img.hash → x.stat ≠ .awaiting))
      ∧ (p.h.master < 2 → ∃ t, exec (i true) s = .next t ∧ Replied t p.h p.h.op.toNat 0x0D 0 [] ∧ raisedOn t p.h.master 215
          ∧ t.images = s.images ∧ t.reticle = s.reticle
          ∧ (∀ j : Fin 2, t.ident.banks[j].svn = s.ident.banks[j].svn ∧ t.ident.banks[j].meas = s.ident.banks[j].meas)
          ∧ ∀ svn k wasBad wasFresh, p.body = .fwUpdate svn k wasBad wasFresh →
            t.ident.fresh = wasFresh ∧ t.ident.banks[spareBank s.ident].bad = wasBad))

/-- The bytes that the parts `l` of a payload, each at its offset, are (R452). -/
def fieldsAre (bs : List Byte) (l : List (Nat × List Byte)) : Prop := ∀ p ∈ l, (bs.drop p.1).take p.2.length = p.2

/-- The fields of CHIP.QUERY's 672 bytes (R468). -/
def ChipFields (s : State) (bs : List Byte) : Prop :=
  let i := s.ident
  let flag (k : Nat) (b : Bool) : Nat := if b then 2 ^ k else 0
  let whole : Prop := ∀ k : Fin 2, i.tags[k].bytes.length = 256
  (whole → bs.length = 672) ∧ fieldsAre bs
    [(0, leBytes 1 s.mgmt.devstate), (1, leBytes 1 s.mgmt.owner),
     (2, leBytes 2 (flag 0 (decide (s.mgmt.creds[1] ≠ 0)) + flag 1 i.enrolled + flag 2 i.tags[0].bad + flag 3 i.tags[1].bad + flag 4 s.audit.time.isSome
        + flag 5 s.mgmt.elect.isSome)),
     (4, leBytes 2 i.chipNo), (6, [0xB0, 0]), (8, leBytes 4 i.fwsvn), (12, leBytes 4 i.boot), (16, digest i.devid), (64, digest i.fwmeas),
     (112, leBytes 16 i.domain), (128, leBytes 4 s.ctxs.length), (132, leBytes 4 (s.ctxs.filter fun x => x.orr.charged).length),
     (136, leBytes 8 (s.audit.time.getD 0)), (144, leBytes 8 s.audit.uptime),
     (152, leBytes 4 (if s.mgmt.owner = 3 then 0 else (s.mgmt.leaseEnd - s.audit.uptime) / 1000)), (156, zeros 4)]
    ∧ ∀ (k : Fin 2) (t : TagHalf), whole → i.tags[k] = t →
      (bs.drop (160 + 256 * k.val)).take 256 = if t.bad || t.erased then zeros 256 else t.bytes

/-- The fields of QUE.QUERY's 40 bytes (R381, R471). -/
def QueueFields (s : State) (k : Queue) (bs : List Byte) : Prop :=
  let sf : Nat × Nat := if k.qid % 16 = 4 then (s.ctx? (k.qid / 16)).elim (0, 0) factors else (0, 0)
  bs.length = 40 ∧ fieldsAre bs
    [(0, leBytes 8 k.rbase), (8, leBytes 1 k.log2n), (9, leBytes 1 k.prio), (10, leBytes 1 k.coal), (11, [k.opt]), (12, leBytes 2 k.fhead),
     (14, leBytes 2 k.chead), (16, leBytes 2 k.tail), (18, leBytes 1 sf.1), (19, leBytes 1 sf.2), (20, zeros 4), (24, leBytes 8 k.msgs),
     (32, leBytes 8 k.bytes)]

/-- Queries are answered with their payload, whose fields are spelt for CHIP.QUERY and QUE.QUERY (R381, R468, R471), and leave no record and no change but
their reply and the owner's lease, and a copy of a vote-store word that a read mends; where such a word has no two copies that agree the device is HALTED
(R507, R508). A statement of which one copy is poisoned is read from the other and mended (R503). The order of IMG.LIST (log entry 30), LEASE (log entry 24) and NEXT (log entry 25) are the
model's choices. -/
def Obligations.QueriesAnswerWithTheirPayload : Prop :=
  ∀ (s : State) (h : Hdr) (role : Nat), Sent s h role → h.bulk = false →
    let a := checked s h
    let q (i : Instr) (op result : Nat) (payload : List Byte) : Prop := Accepts s h i op a none result payload noMore
    let look (i : Instr) (op : Nat) (l : List VoteField) (payload : List Byte) : Prop :=
      (¬ lostIn s l → Accepts s h i op (lookedUp s h l) none 0 payload noMore) ∧ FindsLost s h i op l
    q (.chipQuery h) 0x0101 0 (chipBytes a) ∧ ChipFields a (chipBytes a) ∧ look (.chipCerts h) 0x0102 [.boot] (certBytes a)
    ∧ (∀ n, q (.chipEvents h n) 0x0103 (eventsFrom a n).1 (eventsFrom a n).2)
    ∧ look (.pwrQuery h) 0x0805 [.hours, .retired] (powerBytes a) ∧ (powerBytes a).length = 64
    ∧ q (.pinQuery h) 0x0903 0 ((List.range 48).flatMap fun n => leBytes 4 (pinWord a n).toNat)
    ∧ (∀ c x nonce, s.ctx? c = some x → q (.ctxAttest h c nonce) 0x030A 0 (reportBytes a x 2 nonce (lastLatch x) x.m.img.hash)
        ∧ q (.ctxQuery h c) 0x030B 0 (ctxBytes a x))
    ∧ (fromOwner s h → role = 2 ∨ role = 3 → q (.rasCounts h) 0x0A02 0 (rasBytes s.ras) ∧ (rasBytes s.ras).length = 128)
    ∧ (fromOwner s h → 1 ≤ role → role ≤ 3 → ∀ nonce, look (.almHead h nonce) 0x0B02 [.head] (headBytes a nonce))
    ∧ (fromOwner s h → 1 ≤ role → role ≤ 3 → s.power.frost = false → ∀ n k, 1 ≤ k → k ≤ 120 → (∃ r ∈ s.audit.recs, r.seq = n) →
        (∀ r ∈ recsFrom s n k, r.bad = false) →
        q (.almRead h n k) 0x0B01 (recsFrom s n k).length ((recsFrom s n k).flatMap recBytes) ∧ ∀ r : AlmRec, (recBytes r).length = 128)
    ∧ (fromOwner s h → role = 3 → s.power.frost = false →
      (∀ c x, s.ctx? c = some x → q (.mtrRead h c) 0x0701 0 (x.counts.flatMap (leBytes 8))
        ∧ q (.retWatchq h c) 0x0605 0 (x.outp.stats.toList.flatMap statBytes))
      ∧ (∀ n, let l := (s.images.drop n).take 256
          q (.imgList h n) 0x0404 l.length (l.flatMap fun i => leBytes 48 i.hash ++ leBytes 4 i.len ++ leBytes 4 (usersOf s i.hash)))
      ∧ (∀ qid k, qid < 2 ^ 20 → s.queue? qid = some k → q (.queQuery h qid) 0x0502 0 (queueBytes a k) ∧ QueueFields a k (queueBytes a k))
      ∧ ∀ n k, 1 ≤ k → k ≤ 24 → (∀ t ∈ stmtsFrom s n k, t.bad = false) →
        let l := stmtsFrom s n k
        Accepts s h (.mtrStatement h n k) 0x0702 (mendStmts a l) none l.length (l.flatMap fun t => stmtBody a t ++ leBytes 96 t.sig) noMore
          ∧ ((∀ t ∈ l, t.half = none) → mendStmts a l = a)
          ∧ ∀ t ∈ l, { t with half := none } ∈ (mendStmts a l).audit.stmts)

/-- Ownership: a claim takes a vacant chip, or waits while the election window is open, whose end makes the claiming master first in order the
owner; release, handover and acceptance move it; a lapse takes it away. Each change raises source 193. -/
def Obligations.OwnershipMoves : Prop :=
  (∀ (s : State) (h : Hdr) (role : Nat), Sent s h role → h.bulk = false →
    let a := checked s h
    let r := some (role, 0xFFFF, plainDetail h)
    let owned (o : Nat) (f : Option (Nat × Nat)) (l : Nat) : State := { a with mgmt := { a.mgmt with owner := o, offer := f, leaseEnd := l } }
    let l := s.mgmt.leaseEnd
    let f := s.mgmt.offer
    (s.mgmt.elect = none → s.mgmt.owner = 3 → Accepts s h (.chipClaim h) 0x0110 ((owned h.master f l).storeVote .claim) r 0 [] fun t => raisedAll t 193)
    ∧ (s.mgmt.elect = none → s.mgmt.owner = h.master → Accepts s h (.chipClaim h) 0x0110 a r 0 [] noMore)
    ∧ (s.mgmt.elect.isSome = true → Pends s h role (.chipClaim h) 0x0110 0xFFFF .claim id)
    ∧ (fromOwner s h → Accepts s h (.chipRenew h) 0x0111 a r 0 [] noMore)
    ∧ (fromOwner s h → Accepts s h (.chipRelease h) 0x0112 ((owned 3 none 0).storeVote .claim) r 0 [] fun t => raisedAll t 193)
    ∧ (fromOwner s h → ∀ b : Byte, b.toNat ≤ 2 → b.toNat ≠ s.mgmt.owner → (b = 1 → s.gpio.bifurc = true) →
        Accepts s h (.chipHandover h b) 0x0113 (owned h.master (some (b.toNat, s.audit.uptime + 5000000)) l) r 0 [] noMore)
    ∧ (fromOwner s h → Accepts s h (.chipHandover h 0xFF) 0x0113 (owned h.master none l) r 0 [] noMore)
    ∧ (∀ u, s.mgmt.offer = some (h.master, u) → s.audit.uptime ≤ u →
        Accepts s h (.chipAccept h) 0x0114 ((owned h.master none l).storeVote .claim) r 0 [] fun t => raisedAll t 193))
  ∧ ∀ s : State,
    (∀ u, s.mgmt.elect = some u → u ≤ s.audit.uptime →
      ((∀ p ∈ s.mgmt.pend, p.body ≠ .claim) → exec .electionWindowClose s = .next { s with mgmt := { s.mgmt with elect := none } })
      ∧ ∀ m, m < 3 → (s.mgmt.order.find? fun k => s.mgmt.pend.any fun p => decide (p.body = .claim) && decide (p.h.master = k)) = some m →
        ∃ t, exec .electionWindowClose s = .next t ∧ t.mgmt.owner = m ∧ t.mgmt.elect = none ∧ (∀ p ∈ t.mgmt.pend, p.body ≠ .claim)
          ∧ t.mgmt.leaseEnd = s.audit.uptime + s.mgmt.lease * 1000000 ∧ raisedAll t 193 ∧ t.ctxs = s.ctxs)
    ∧ (∀ u, s.mgmt.elect = some u → s.audit.uptime < u → exec .electionWindowClose s = .next s)
    ∧ (s.mgmt.owner ≠ 3 → s.mgmt.leaseEnd ≤ s.audit.uptime →
        ∃ t, exec .ownershipLapse s = .next t ∧ t.mgmt.owner = 3 ∧ t.mgmt.offer = none ∧ raisedAll t 193 ∧ t.ctxs = s.ctxs ∧ t.queues = s.queues)
    ∧ (s.mgmt.owner = 3 ∨ s.audit.uptime < s.mgmt.leaseEnd → exec .ownershipLapse s = .next s)
    ∧ ∀ o, s.mgmt.offer = some o → exec .handoverOfferExpiry s
        = .next (if o.2 < s.audit.uptime then { s with mgmt := { s.mgmt with offer := none } } else s)

/-- Sessions are opened by handle, proved, used with rising sequence numbers, closed and timed out (R431 to R433); a proof that fails drops the
handle; credentials, the chip tag, the enrolment and the claim settings take what their command gives. The RESULT offsets 20 and 117 (log entry
22), the random scalars and nonces of a handshake (log entry 6), the 48 bytes of T that are signed (log entry 72) and what the bytes of a half
that was never written, or whose MAC has failed, become (log entry 79) are the model's choices. -/
def Obligations.SessionsAndIdentityChange : Prop :=
  (∀ (s : State) (h : Hdr) (role : Nat), Sent s h role → h.bulk = false → fromOwner s h →
    let a := checked s h
    let r (d : List Byte) := some (role, 0xFFFF, d)
    (∀ (off : Nat) (bs : List Byte), 1 ≤ bs.length → bs.length ≤ 256 → (off < 256 ∧ role = 2 ∧ off + bs.length ≤ 256 ∨ 256 ≤ off ∧ role = 3 ∧ off + bs.length ≤ 512) →
      let k : Fin 2 := if off < 256 then 0 else 1
      let old := s.ident.tags[k].read
      let half := old.take (off % 256) ++ bs ++ old.drop (off % 256 + bs.length)
      Accepts s h (.chipTag h off bs true) 0x0120 { a with ident := { s.ident with tags := s.ident.tags.set k { bytes := half, mac := s.ident.tagMac half } } }
        (r (plainDetail h)) 0 [] noMore)
    ∧ (∀ p : EnrolP, role = 2 → s.ctxs = [] →
      (enrolZero p = true → Accepts s h (.chipEnrol h p) 0x0121
        { a with ident := { s.ident with domain := 0, chipNo := 0, domKey := 0, mcert := [], enrolled := false } } (r (hashDetail h)) 0 [] noMore)
      ∧ (enrolZero p = false → enrolMatch p s.ident = true → enrolSigned p = true →
        Accepts s h (.chipEnrol h p) 0x0121 { a with ident := { s.ident with
          domain := p.domain, chipNo := p.chipNo.toNat, domKey := leNat p.dpub, mcert := p.cert, enrolled := true } }
          (r (hashDetail h)) 0 [] noMore))
    ∧ (∀ (order : List Nat) (adr lease : Nat), role = 2 → order.Perm [0, 1, 2] → smbusReserved adr = false → 1 ≤ lease → lease ≤ 600 →
      Accepts s h (.chipSetclaim h order adr lease) 0x0122
        { a.storeVote .claim with mgmt := { a.mgmt with orderNext := order, m2addr := adr, lease := lease } } (r (plainDetail h)) 0 [] noMore)
    ∧ (∀ (slot d : Nat), 1 ≤ slot → slot ≤ 5 → (slot = 1 → d ≠ 0) → role = 2 ∨ (h.sh = 0 ∧ slot = 1 ∧ s.mgmt.creds[1] = 0) →
      let l : List VoteField := if h.sh = 0 then [credField 1] else []
      FindsLost s h (.roleSetcred h slot d) 0x0210 l
      ∧ (¬ lostIn s l → Accepts s h (.roleSetcred h slot d) 0x0210 { (lookedUp s h l).storeVote (credField slot) with mgmt := { a.mgmt with
        creds := Vector.ofFn fun k => if k.val = slot then d else s.mgmt.creds[k]
        sessions := a.mgmt.sessions.filter fun x => decide (x.slot ≠ slot) || decide (x.sh = h.sh) } } (r (hashDetail h)) 0 [] noMore))
    ∧ (∀ (ro slot nonce : Nat) (form : Byte) (xy : Nat), let pub := form.toNat + 256 * xy; 1 ≤ ro → ro ≤ 3 → slotOfRole ro slot = true → s.mgmt.sessions.length < 65536 →
      (s.mgmt.sessions.filter fun x => decide (x.master = h.master)).length < 8 → s.mgmt.creds[slot % 6] ≠ 0 →
      (pubPoint (leBytes 97 pub)).isSome = true → FindsLost s h (.sesOpen h ro slot nonce form xy) 0x0201 [credField slot] ∧
      (¬ lostIn s [credField slot] → ∃ x : Session, ∃ payload : List Byte, x.sh ≠ 0 ∧ (∀ y ∈ s.mgmt.sessions, y.sh ≠ x.sh)
        ∧ x.master = h.master ∧ x.role = ro ∧ x.slot = slot
        ∧ x.isOpen = false ∧ payload.length = 225
        ∧ x.key = sesKey (Config.free (s.free + 1) % (p384n - 1) + 1) (leBytes 97 pub) (leBytes 32 nonce) (leBytes 32 (Config.free (s.free + 2))) x.sh
        ∧ x.t = openT ro slot nonce pub (pubOf (Config.free (s.free + 1) % (p384n - 1) + 1)) (leBytes 32 (Config.free (s.free + 2))) x.sh
        ∧ Accepts s h (.sesOpen h ro slot nonce form xy) 0x0201
          { lookedUp s h [credField slot] with free := s.free + 3, mgmt := { a.mgmt with sessions := a.mgmt.sessions ++ [x] } }
          (r (hashDetail h)) x.sh.toNat payload noMore))
    ∧ (∀ (sh : Word) (cpub sig : List Byte) (x : Session), s.session? sh = some x → x.isOpen = false → x.master = h.master →
      let drops (at_ : Nat) : Prop := ∃ t, exec (.sesProve h sh cpub sig) s = .next t ∧ t.session? sh = none ∧ Replied t h 0x0202 0x0A at_ []
      let l : List VoteField := [credField x.slot]
      FindsLost s h (.sesProve h sh cpub sig) 0x0202 l
      ∧ (¬ lostIn s l → s.mgmt.creds[x.slot % 6] = sha384 cpub → ecdsaVerify cpub (leBytes 48 x.t) sig = true →
        Accepts s h (.sesProve h sh cpub sig) 0x0202 ((lookedUp s h l).setSession { x with isOpen := true, seq := 1, bad := 0, last := s.audit.uptime })
          (r (hashDetail h)) 0 [] noMore)
      ∧ (Packed h 0x0202 (.sesProve h sh cpub sig) → ¬ lostIn s l → roomFor s h 0 → s.mgmt.creds[x.slot % 6] ≠ sha384 cpub → drops 20)
      ∧ (Packed h 0x0202 (.sesProve h sh cpub sig) → ¬ lostIn s l → roomFor s h 0 → s.mgmt.creds[x.slot % 6] = sha384 cpub → ecdsaVerify cpub (leBytes 48 x.t) sig = false → drops 117))
    ∧ (role ≠ 0 → role ≤ 3 → Accepts s h (.sesClose h) 0x0203 (closeSession a h.sh) (r (plainDetail h)) 0 [] fun t => t.session? h.sh = none))
  ∧ ∀ (s : State) (sh : Word) (x : Session), s.session? sh = some x →
      exec (.sessionTimeout sh) s = .next (if x.last + 300000000 ≤ s.audit.uptime then
        { s with mgmt := { s.mgmt with sessions := s.mgmt.sessions.filter fun y => y.sh ≠ sh } } else s)

/-- CTX.CREATE defines a context on the lowest free number with memory zero and queues off; CTX.START enters vector 0's handler at w15 =
0x1FC0 and begins charging; CTX.CLASS and CTX.REIMAGE change what they name. -/
def Obligations.ContextsAreCreatedAndStarted : Prop :=
  ∀ (s : State) (h : Hdr) (role : Nat), Sent s h role → h.bulk = false → fromOwner s h → role = 3 → s.power.frost = false →
    let a := checked s h
    (∀ (p : CreateP) (im : Image), s.image? p.imgHash = some im → firstFail (createChecks s p) = none →
      ∃ x : Ctx, Accepts s h (.ctxCreate h p) 0x0301 (addCtx { a with free := s.free + 1 } x) (some (role, x.num, plainDetail h)) x.num [] noMore
        ∧ s.ctx? x.num = none ∧ (∀ n, n < x.num → (s.ctx? n).isSome = true) ∧ x.stat = .defined
        ∧ x.m = { img := ⟨im.hash, im.len⟩, drbg := { st := drbgInit (leBytes 48 im.seed) (leBytes 64 p.tag) } }
        ∧ x.cfg.mode = p.mode.toNat ∧ x.cfg.prof = p.prof.toNat ∧ x.cfg.rben = p.opts.getLsbD 0 ∧ x.cfg.tag = p.tag ∧ x.cfg.allow = p.allow
        ∧ x.cfg.port = p.port.toNat ∧ x.orr.cls = p.cls.toNat ∧ (∀ q, q < 16 → (x.qkey q).key = none))
    ∧ ∀ (c : Nat) (x : Ctx), s.ctx? c = some x → notBusy s c →
      let r := some (role, c, plainDetail h)
      (∀ d n, x.stat = .defined → x.imported = false → (x.qkey 2).valid = true → (x.qkey 3).valid = true → budgetsHold s x (claimIn s x) = true →
        x.m.fx = [] → inIo x.m.cpu.vbr.toNat = false → loadSup (s.env x) { x.m with cpu := { x.m.cpu with regs := x.m.cpu.regs.set 15 0x1FC0 } } x.m.cpu.vbr.toNat 4 0 = .ok (d, n) →
        Packed h 0x0302 (.ctxStart h c) → roomFor s h 0 → ∃ t y, exec (.ctxStart h c) s = .next t ∧ Replied t h 0x0302 0 0 [] ∧ t.ctx? c = some y ∧ y.stat = .running
          ∧ y.m.cpu.pc = BitVec.ofNat 32 (x.m.cpu.vbr.toNat + bitsOf d 22 1 * 2) ∧ y.m.cpu.regs = x.m.cpu.regs.set 15 0x1FC0 ∧ y.m.cpu.psw = x.m.cpu.psw
          ∧ y.orr.charged = true ∧ y.orr.released = x.m.cur.latch ∧ releaseOf y x.m.cur.latch = edgeNow s + 1 ∧ raisedOn t x.cfg.port 197
          ∧ ∀ k, k ≠ c → t.ctx? k = s.ctx? k)
      ∧ (∀ cls g, cls ≤ 3 → (g ≤ 200000 ∨ g = 0xFFFFFFFF) → x.stat ≠ .faulted → pinnedFull s c cls = false →
        Accepts s h (.ctxClass h c cls g) 0x0306 (a.putCtx { x with orr := { x.orr with
          cls := cls, grace := if g = 0xFFFFFFFF then x.orr.grace else g } }) r 0 [] noMore)
      ∧ ∀ hash i, s.image? hash = some i → i.forbids x.cfg.mode x.cfg.prof x.cfg.rben = false →
        (x.stat = .defined → Accepts s h (.ctxReimage h c hash) 0x030C
          (a.putCtx { x with m := { x.m with img := ⟨i.hash, i.len⟩ }, rend := {} }) r 0 [] noMore)
        ∧ (x.stat = .parked → Accepts s h (.ctxReimage h c hash) 0x030C
          (a.putCtx { x with hold := { x.hold with reimage := x.hold.reimage ++ [(i.hash, i.len)] } }) r 0 [] noMore)

/-- CTX.PARK pends until a latch or parks a halted context at once; CTX.RESUME goes on at the latch at which the context stands, with source
31; CTX.DESTROY takes the context and its queues away, with a final statement where it was charged. -/
def Obligations.ContextsParkResumeAndGo : Prop :=
  ∀ (s : State) (h : Hdr) (role c : Nat) (x : Ctx), Sent s h role → h.bulk = false → fromOwner s h → role = 3 → s.power.frost = false →
    s.ctx? c = some x → notBusy s c →
    let a := checked s h
    let r := some (role, c, plainDetail h)
    (x.stat = .running → x.hold.parkReq = false → x.hold.halted = false →
      Pends s h role (.ctxPark h c) 0x0303 c (.park c) fun b => b.putCtx { x with hold := { x.hold with parkReq := true } })
    ∧ (x.stat = .running → x.hold.parkReq = false → x.hold.halted = true →
      Accepts s h (.ctxPark h c) 0x0303 (a.putCtx { x with stat := .parked, hold := { x.hold with byPark := true } }) r 0 []
        fun t => raisedOn t x.cfg.port 197)
    ∧ (x.stat = .parked → x.hold.halted = true →
      Accepts s h (.ctxResume h c) 0x0304 (a.putCtx { x with stat := .running }) r 0 [] fun t => raisedOn t x.cfg.port 197)
    ∧ (x.stat = .parked → x.hold.halted = false → 1 ≤ x.m.cur.latch → Packed h 0x0304 (.ctxResume h c) → roomFor s h 0 →
      ∃ t y, exec (.ctxResume h c) s = .next t ∧ Replied t h 0x0304 0 0 [] ∧ t.ctx? c = some y ∧ y.stat = .running
        ∧ y.m.ic.pend.val.getLsbD 31 = true ∧ (x.hold.byPark = true → y.m.dbg.stat.val.getLsbD 1 = true) ∧ y.m.cpu = x.m.cpu ∧ y.m.vc = x.m.vc
        ∧ y.orr.released = x.m.cur.latch ∧ releaseOf y x.m.cur.latch = edgeNow s + 1 ∧ raisedOn t x.cfg.port 197)
    ∧ (Packed h 0x0305 (.ctxDestroy h c) → roomFor s h 0 → ∃ t, exec (.ctxDestroy h c) s = .next t ∧ Replied t h 0x0305 0 0 [] ∧ t.ctx? c = none
        ∧ (∀ k, k ≠ c → t.ctx? k = s.ctx? k)
        ∧ t.queues = s.queues.filter (fun q => q.qid / 16 ≠ c)
        ∧ (x.orr.charged = true → ∃ st, t.audit.stmts = s.audit.stmts ++ [st] ∧ st.ctx = c ∧ st.final = true)
        ∧ (x.orr.charged = false → t.audit.stmts = s.audit.stmts))

/-- Migration and images (R416 to R419, R425 to R428): an export leaves with its object and its context goes; a ticket is good for 600 s and
one import, which defines the context again under a new number; images are loaded, unloaded, and keys installed. That E_NOMEM counts what the
pending imports and loads will need is the model's choice (log entry 29). -/
def Obligations.MigrationAndImages : Prop :=
  (∀ (s : State) (h : Hdr) (role : Nat), Sent s h role → fromOwner s h → role = 3 → s.power.frost = false →
    let a := checked s h
    (∀ c x (p : ExportP), s.ctx? c = some x → notBusy s c → h.bulk = true → h.master ≠ 2 → s.ident.enrolled = true →
      (∀ i, s.image? x.m.img.hash = some i → i.flag 0 = false ∧ i.minSvn ≤ targetSvn p) → x.stat = .running ∨ x.stat = .parked →
      expSize s x ≤ p.outLen → p.chainOk = true → targetCerts p = true → memberSigned p s.ident = true → ticketSigned p s.ident = true →
      Pends s h role (.ctxExport h c p) 0x0307 c (.export_ c) fun b => b.putCtx { x with hold := { x.hold with
        exportBy := some (takenHdr s 0x0307 h, p), exporting := x.hold.exporting || (decide (x.stat = .parked) || x.hold.halted) } })
    ∧ (h.bulk = false → s.ident.enrolled = true → (liveTickets s).length < 64 →
      let n := Config.free s.free % 2 ^ 384
      Accepts s h (.ctxImprep h) 0x0308 { a with free := s.free + 1, audit := { a.audit with
        tickets := liveTickets s ++ [(n, s.audit.uptime + 600000000)] } } (some (role, 0xFFFF, plainDetail h)) 0 (ticketBytes a n) noMore)
    ∧ (∀ port cls grace (p : ImportP) (e : Exported), h.bulk = true → h.master ≠ 2 → portBad s port = false → cls ≤ 3 → (grace ≤ 200000 ∨ grace = 0xFFFFFFFF) →
      ctxCount s < 65536 → pinnedFull s 65536 cls = false → ticketFree s (objTnonce p) = true →
      objFormat p = true → objTdevid p = s.ident.devid → objSigned p = true → (openObj p s.ident).2 = true →
      importedOf s p = some e →
      let i := Instr.ctxImport h port cls grace p.obj.head p.obj.ct p.obj.tag p.sig p.sdik p.sfwk
      if memFits s (profUnits e.cfg.prof) e.cfg.allow then Pends s h role i 0x0309 0xFFFF (.import_ port cls grace e (objTnonce p)) id
      else Packed h 0x0309 i → inputReadable s h → (s.mgmt.pend.filter fun p => p.h.master = h.master).length < 16 → roomFor s h 0 →
        ∃ t, exec i s = .next t ∧ Replied t h 0x0309 0x07 0 [] ∧ t.ctxs = s.ctxs ∧ t.mgmt.pend = s.mgmt.pend)
    ∧ (∀ (envelope : Option Sealed) (raw : Sealed) k,
      let env := envelope.map (imgEnvOf s.ident)
      let img := openImg s env raw
      h.bulk = true → h.master ≠ 2 → keySource s env img = some k → img.magicOk = true → img.rsvdOk = true → 256 ≤ img.imgLen →
      img.imgLen ≤ 67108864 → img.bulkLen = 48 + img.imgLen → firstFail (sealChecks s env img) = none →
      ((s.image? img.hash).isSome = true ∨ (s.images.length + (pendImages s).length < 4096 ∧ memFits s (imageUnits img.imgLen) 0 = true)) →
      Pends s h role (.imgLoad h envelope raw) 0x0401 0xFFFF (.imgLoad env img) id)
    ∧ (∀ hash, h.bulk = false → (s.image? hash).isSome = true → usersOf s hash = 0 →
      Accepts s h (.imgUnload h hash) 0x0402 { a with
        images := s.images.filter fun i => i.hash ≠ hash
        ras := { s.ras with upsets := s.ras.upsets.filter fun u => match u.loc with | .image k _ => k ≠ hash | _ => true } } (some (role, 0xFFFF, plainDetail h)) 0 [] noMore)
    ∧ ∀ c x (envelope : Sealed),
      let e := keyEnvOf s.ident envelope
      h.bulk = false → s.ctx? c = some x → notBusy s c → x.stat ≠ .faulted → keyFail x e = none →
      ∃ y, Accepts s h (.imgKeys h c envelope) 0x0403 (a.putCtx y) (some (role, c, hashDetail h)) 0 [] noMore ∧ { y with keys := x.keys } = x
        ∧ ∀ q, q < 16 → if e.qmask.getLsbD q then (y.qkey q).sid = e.sid ∧ (y.qkey q).ctr = 0 ∧ (y.qkey q).valid = true else y.qkey q = x.qkey q)
  ∧ (∀ (s : State) (p : Pend) (c : Nat) (x : Ctx), transfers s p → p.body = .export_ c → s.ctx? c = some x → x.hold.exportBy.isSome = true →
      ∃ t bytes, exec (.bulkTransferComplete p.h.master p.h.tag false) s = .next t ∧ Replied t p.h p.h.op.toNat 0 (blen s x) []
        ∧ t.ctx? c = none ∧ (∀ k, k ≠ c → t.ctx? k = s.ctx? k) ∧ Wire.bulk p.h.master p.h.tag (outAddrOf p.h) bytes ∈ t.wire.drop s.wire.length ∧ bytes.length = expSize s x)
  ∧ (∀ (s : State) (p : Pend) (port cls grace : Nat) (e : Exported) (tn : Nat), transfers s p → p.body = .import_ port cls grace e tn →
      ∃ t y, exec (.bulkTransferComplete p.h.master p.h.tag false) s = .next t ∧ Replied t p.h p.h.op.toNat 0 y.num [] ∧ s.ctx? y.num = none
        ∧ t.ctx? y.num = some y ∧ y.cfg = { e.cfg with port := port } ∧ y.orr.cls = cls ∧ y.m.cpu = e.m.cpu ∧ y.m.vc = e.m.vc ∧ y.m.mem.fast = e.m.mem.fast
        ∧ (∀ q, q < 16 → (y.qkey q).key = none ∧ (y.m.oqOf q).taken = 0) ∧ y.inb.attestPend = (e.m.attest.map fun r => r.id).toList
        ∧ y.stat = (if (s.image? e.imgHash).isSome then .defined else .awaiting) ∧ ∀ k ∈ t.audit.tickets, k.1 ≠ tn)
  ∧ ∀ s : State, exec .ticketExpiry s = .next { s with audit := { s.audit with tickets := s.audit.tickets.filter fun t => decide (s.audit.uptime ≤ t.2) } }

/-- QUE.SETUP writes a queue's state, an enabled one from index 0; uploads take the lowest free handle; placements and regions wait for the
next latch of a context that has started; that they act at once on one that has not is the model's choice (log entry 34). -/
def Obligations.QueuesAndReticleAreSetUp : Prop :=
  ∀ (s : State) (h : Hdr) (role : Nat), Sent s h role → fromOwner s h → role = 3 → s.power.frost = false →
    let a := checked s h
    let r (c : Nat) := some (role, c, plainDetail h)
    (∀ (p : QueSetupP) x q, h.bulk = false → s.ctx? (p.qid / 16) = some x → s.queue? p.qid = some q → firstFail (setupChecks s p) = none →
      Accepts s h (.queSetup h p) 0x0501 (setupQueue a x p) (r (p.qid / 16)) 0 [] fun t => ∃ k, t.queue? p.qid = some k ∧ k.rbase = p.rbase
        ∧ k.log2n = p.log2n ∧ k.prio = p.prio ∧ k.coal = p.coal ∧ k.opt = p.opt
        ∧ (q.en = false → p.opt.getLsbD 0 = true → k.fhead = 0 ∧ k.chead = 0 ∧ k.tail = 0 ∧ k.fetched = [])
        ∧ (q.en = true → p.opt.getLsbD 0 = false → k.fhead = q.chead ∧ k.tail = q.chead ∧ k.fetched = []))
    ∧ (∀ w v px, 1 ≤ w → w ≤ 480 → 1 ≤ v → v ≤ 270 → px.length = 4 * w * v → retFull s w v = false →
      (h.bulk = false → ∃ n, Accepts s h (.retUpload h w v px) 0x0601 { a with reticle := s.reticle ++ [⟨n, w, v, px⟩] } (r 0xFFFF) n [] noMore
        ∧ (∀ k ∈ s.reticle, k.handle ≠ n) ∧ ∀ k, k < n → ∃ g ∈ s.reticle, g.handle = k)
      ∧ (h.bulk = true → h.master ≠ 2 → Pends s h role (.retUpload h w v px) 0x0601 0xFFFF (.retUpload w v px) id))
    ∧ (∀ n : Half, h.bulk = false → (∃ g ∈ s.reticle, g.handle = n.toNat) →
      (∀ x ∈ s.ctxs, ∀ p ∈ livePlacements x, ¬ (p.en = true ∧ p.image = n)) →
      Accepts s h (.retFree h n) 0x0602 { a with reticle := s.reticle.filter fun i => i.handle ≠ n.toNat } (r 0xFFFF) 0 [] noMore)
    ∧ ∀ c x (mask : Byte), h.bulk = false → s.ctx? c = some x → notBusy s c → x.stat ≠ .faulted → mask.toNat < 16 →
      (∀ plc, firstFail (placeChecks s mask plc) = none →
        (x.stat = .running ∨ x.stat = .parked → Accepts s h (.retPlace h c mask plc) 0x0603
          (a.putCtx { x with outp := { x.outp with cmds := x.outp.cmds ++ [.place mask plc] } }) (r c) 0 [] noMore)
        ∧ (x.stat = .defined ∨ x.stat = .awaiting → Accepts s h (.retPlace h c mask plc) 0x0603
          (a.putCtx { x with outp := applyCmds { x.outp with cmds := [.place mask plc] } 0 }) (r c) 0 [] noMore))
      ∧ ∀ regs, firstFail (watchChecks (modeOf x.cfg.mode) mask regs) = none →
        (x.stat = .running ∨ x.stat = .parked → Accepts s h (.retWatch h c mask regs) 0x0604
          (a.putCtx { x with outp := { x.outp with cmds := x.outp.cmds ++ [.watch mask regs] } }) (r c) 0 [] noMore)
        ∧ (x.stat = .defined ∨ x.stat = .awaiting → Accepts s h (.retWatch h c mask regs) 0x0604
          (a.putCtx { x with outp := applyCmds { x.outp with cmds := [.watch mask regs] } 0 }) (r c) 0 [] noMore)

/-- A minute that ends closes a statement for every charged context, unless the store lacks room; MTR.ACK releases statements, TIME.SET steps
device time with both times in its record; a second with more than 1,000 rejections ends with one record of KIND 3; firmware is updated in the
bank not in use; RMA.RESET leaves no tenant and no domain. That RMA.RESET completes at once and FW.DIAG leaves no record (log entry 36), the
offset in RESULT (log entry 22) and the free identity of new firmware (log entry 39) are the model's choices. -/
def Obligations.MeteringTimeAndFirmware : Prop :=
  (∀ s : State,
    let due := (s.ctxs.filter fun x => x.orr.charged).length
    (s.audit.uptime < s.audit.readyAt + 60000000 * (s.audit.minute + 1) → exec .minuteClose s = .next s)
    ∧ (s.audit.readyAt + 60000000 * (s.audit.minute + 1) ≤ s.audit.uptime → ∃ t, exec .minuteClose s = .next t ∧ t.audit.minute = s.audit.minute + 1
      ∧ (s.power.frost = false → s.audit.stmts.length + due ≤ 65536 →
        (∃ l, t.audit.stmts = s.audit.stmts ++ l ∧ l.length = due ∧ ∀ st ∈ l, st.final = false) ∧ t.audit.sseq = s.audit.sseq + due
          ∧ (0 < due → raisedAll t 198))
      ∧ (s.power.frost = true ∨ 65536 < s.audit.stmts.length + due → t.audit.stmts = s.audit.stmts ∧ t.ctxs = s.ctxs))
    ∧ ∀ m, m < 3 → s.audit.rejAt[m % 3] < s.audit.uptime / 1000000 →
      (1000 < s.audit.rejNow[m % 3] → s.power.frost = false → ∃ t r, exec (.rejectionSummary m) s = .next t ∧ t.audit.recs.getLast? = some r
        ∧ r.kind = 3 ∧ r.master = BitVec.ofNat 8 m ∧ r.detail = fit 32 (leBytes 4 (s.audit.rejNow[m % 3] - 1000)) ∧ t.audit.rejNow[m % 3] = 0)
      ∧ (s.audit.rejNow[m % 3] ≤ 1000 → exec (.rejectionSummary m) s = .next s))
  ∧ ∀ (s : State) (h : Hdr) (role : Nat), Sent s h role → fromOwner s h →
    let a := checked s h
    (∀ n, h.bulk = false → role = 3 → s.power.frost = false → n < s.audit.sseq → Accepts s h (.mtrAck h n) 0x0703
      { a with audit := { a.audit with stmts := s.audit.stmts.filter fun t => decide (n < t.sseq) } } (some (role, 0xFFFF, plainDetail h)) 0 [] noMore)
    ∧ (∀ v, h.bulk = false → role = 3 → v ≠ 0 → Accepts s h (.timeSet h v) 0x0710
      { a with audit := { a.audit with time := some v }, ctxs := s.ctxs.map fun x => { x with tstep := true } }
      (some (role, 0xFFFF, leBytes 8 v ++ leBytes 8 (s.audit.time.getD 0))) 0 [] noMore)
    ∧ (∀ svn, h.bulk = true → h.master ≠ 2 → role = 1 ∨ role = 2 → (∀ p ∈ s.mgmt.pend, ∀ v k b f, p.body ≠ .fwUpdate v k b f) → s.ident.fwsvn ≤ svn →
      let k := spareBank s.ident
      Pends s h role (.fwUpdate h true svn) 0x0C01 0xFFFF (.fwUpdate svn 0 s.ident.banks[k].bad s.ident.fresh) fun b =>
        { b with ident := { s.ident with banks := s.ident.banks.set k { s.ident.banks[k] with bad := true }, fresh := false } })
    ∧ (∀ n, h.bulk = false → role = 1 → s.ctxs = [] →
      match Config.diag n with
      | some v => Accepts s h (.fwDiag h n) 0x0C02 a none (v % 2 ^ 32) [] noMore
      | none => Packed h 0x0C02 (.fwDiag h n) → roomFor s h 0 → ∃ t, exec (.fwDiag h n) s = .next t ∧ Replied t h 0x0C02 0x03 16 [] ∧ t.ident = s.ident)
    ∧ (h.bulk = false → role = 1 → s.power.frost = false → s.mgmt.pend = [] → Packed h 0x0C03 (.rmaReset h) → roomFor s h 0 →
      ∃ t, exec (.rmaReset h) s = .next t ∧ Replied t h 0x0C03 0 0 [] ∧ t.ctxs = [] ∧ t.images = [] ∧ t.mgmt.creds[0] = s.mgmt.creds[0]
        ∧ (∀ k : Fin 6, k.val ≠ 0 → t.mgmt.creds[k] = 0) ∧ t.ident.domain = 0 ∧ t.ident.enrolled = false ∧ t.ident.mcert = []
        ∧ t.ident.tags = s.ident.tags.set 1 {} ∧ t.power.retired = Vector.replicate 3 false ∧ ∀ q ∈ t.queues, s.ctx? (q.qid / 16) = none)

/-! ### Power, pins, reliability (R478 to R494, R504 to R510, R518 to R523) -/

/-- The settings of power, pins and reliability: each command of an installer, and of an operator for the Gleaner and the thresholds, sets
what it names in its range and nothing else. -/
def Obligations.PowerPinAndRasCommandsSet : Prop :=
  ∀ (s : State) (h : Hdr) (role : Nat), Sent s h role → h.bulk = false → fromOwner s h →
    let a := checked s h
    let go (i : Instr) (op : Nat) (b : State) (also : State → Prop) : Prop := Accepts s h i op b (some (role, 0xFFFF, plainDetail h)) 0 [] also
    (role = 2 →
      (∀ w, 150 ≤ w → w ≤ 240 → go (.pwrLimit h w) 0x0801 { a with power := { s.power with limit := w } } noMore)
      ∧ (∀ k, k ≤ 2 → go (.pwrStepcap h k) 0x0802 { a with power := { s.power with cap := k } } noMore)
      ∧ (∀ t, 85 ≤ t → t ≤ 100 → go (.pwrThrottle h t) 0x0803 { a with power := { s.power with throttle := t } } noMore)
      ∧ (∀ l, measuring s = false → go (.pwrAgeing h l) 0x0804 (replan a l) fun t => t.power.lastAge = s.audit.uptime ∧ ∀ k : Fin 3, t.power.g[k] ≤ 24)
      ∧ (∀ p : PinP, p.pin < 48 → p.func ≤ 14 → p.pull ≤ 3 → p.drive ≤ 3 → p.sleep ≤ 3 → p.oe ≤ 1 → (s.gpio.pin p.pin).lock = false →
        go (.pinSet h p) 0x0901 (setPinAll a p) fun t => t.gpio.pin p.pin = { s.gpio.pin p.pin with
            func := p.func, pull := p.pull, drive := p.drive, sleep := p.sleep, out := p.out, oe := decide (p.oe = 1) }
          ∧ (∀ k, k < 48 → k ≠ p.pin → t.gpio.pin k = s.gpio.pin k) ∧ t.gpio.store.isSome = true)
      ∧ ∀ mask, mask < 2 ^ 48 → go (.pinLock h mask) 0x0902 (lockAll a mask) fun t => ∀ n, n < 48 →
        t.gpio.pin n = { s.gpio.pin n with lock := (s.gpio.pin n).lock || mask.testBit n })
    ∧ (role = 2 ∨ role = 3 →
      (∀ n, 1 ≤ n → n ≤ 168 → (h.params.getD 0 0).toNat ≤ 2 →
        go (.rasScrubStop h n) 0x0A01 { a with ras := { s.ras with gperiod := n, gop := 0, gpos := 0 } } noMore
        ∧ go (.rasScrubOnePass h n) 0x0A01 { a with ras := { s.ras with gperiod := n, gop := 1 } } noMore
        ∧ go (.rasScrubContinuous h n) 0x0A01 { a with ras := { s.ras with gperiod := n, gop := 2 } } noMore)
      ∧ (∀ i n, 2 < (h.params.getD 0 0).toNat → i = .rasScrubStop h n ∨ i = .rasScrubOnePass h n ∨ i = .rasScrubContinuous h n → Packed h 0x0A01 i →
        roomFor s h 0 → ∃ t, exec i s = .next t ∧ Replied t h 0x0A01 0x03 16 [] ∧ t.ras = s.ras)
      ∧ (∀ x y, x ≠ 0 → y ≠ 0 → go (.rasThresh h x y) 0x0A03 { a with ras := { s.ras with thHbm := x, thChip := y } } noMore)
      ∧ ∃ z : Ras, go (.rasClear h) 0x0A04 { a with ras := z } noMore ∧ z.hbmce = Vector.replicate 4 0 ∧ z.hbmue = Vector.replicate 4 0
        ∧ z.frce = 0 ∧ z.onue = 0 ∧ z.votec = 0 ∧ z.ctxf = 0 ∧ z.chipf = 0 ∧ z.gpasses = 0 ∧ z.gop = s.ras.gop ∧ z.gperiod = s.ras.gperiod
        ∧ z.gpos = s.ras.gpos ∧ z.thHbm = s.ras.thHbm ∧ z.thChip = s.ras.thChip)

/-- Power and heat: a quadrant goes to a slower step at once and to a faster one when the rail allows it, with source 245; a rail
that stays short of its target is recorded and tried again after 1 s; the power-limit loop and the thermal limits raise and lower demands, the loop
first the demand on the quadrant whose demand is oldest; the brake and Frost follow their pins and functions; ageing is planned anew each day of
uptime. That means are rounded down (log entry 58) and the level a pin keeps in Frost (log entry 74) are the model's choices. -/
def Obligations.PowerAndThermalEventsAct : Prop :=
  ∀ s : State,
    let p := s.power
    (∀ q : Fin 4,
      let k := demandOf p q
      (p.frost = false → p.step[q] < k ∨ (railPending p q = true ∧ railBus s = true) →
        ∃ t, exec (.frequencyStepChange q) s = .next t ∧ t.power.step = p.step.set q k
        ∧ t.power.rail = (if railPins s then planned p (t.power.step.toList.foldl Min.min 2) else p.rail) ∧ raisedAll t 245)
      ∧ (p.frost = true ∨ (k ≤ p.step[q] ∧ (railPending p q = false ∨ railBus s = false)) → exec (.frequencyStepChange q) s = .next s)
      ∧ (railPending p q = true → ∃ t, exec (.railTargetTimeout q) s = .next t ∧ t.power = { p with
          railWait := p.railWait.set q (some (s.audit.uptime + 1000000)) } ∧ (p.frost = false → t.audit.seq = s.audit.seq + 1))
      ∧ (railPending p q = false → exec (.railTargetTimeout q) s = .next s)
      ∧ ∀ u, p.railWait[q] = some u → exec (.railRetry q) s
          = .next (if u ≤ s.audit.uptime then { s with power := { p with railWait := p.railWait.set q none } } else s))
    ∧ (∀ (card : Nat) (quads : List Nat),
      let l := (p.samples ++ [card]).drop (p.samples.length - 9)
      let mean := l.sum / l.length
      ∃ t, exec (.powerLimitLoop card quads) s = .next t ∧ t.power.samples = l ∧ t.power.cardPower = mean
        ∧ (p.limit * 10 < mean → t.power.lowMs = 0 ∧ ∀ q, hottestQuad p quads = some q →
            t.power.powAge = p.powAge ++ [q.val + 4 * (Max.max p.step[q] (demandOf p q) + 1)] ∧ (p.powAge = [] → raisedAll t 242))
        ∧ (mean ≤ p.limit * 10 → mean * 100 ≤ p.limit * 950 → p.lowMs < 99 → t.power.lowMs = p.lowMs + 1 ∧ t.power.powAge = p.powAge)
        ∧ (mean ≤ p.limit * 10 → p.limit * 950 < mean * 100 → t.power.lowMs = 0 ∧ t.power.powAge = p.powAge)
        ∧ (mean ≤ p.limit * 10 → mean * 100 ≤ p.limit * 950 → 99 ≤ p.lowMs → t.power.lowMs = 0
          ∧ (p.powAge = [] → t.power.powAge = [])
          ∧ ∀ e rest, p.powAge = e :: rest → ∃ v, v ∈ p.powAge ∧ v % 4 = e % 4 ∧ (∀ w ∈ p.powAge, w % 4 = e % 4 → w ≤ v)
            ∧ t.power.powAge = p.powAge.erase v ∧ t.power.powDemand = powLevels (p.powAge.erase v)))
    ∧ (∀ (cl hb : List Int), ∃ t, exec (.thermalSample cl hb) s = .next t ∧ t.power.temps = cl ∧ t.power.hbmTemps = hb ∧ (∀ q : Fin 4,
        let tj := junction cl q.val
        let th := hb.getD q.val 0
        let hot := (p.throttle : Int) ≤ tj ∨ 95 ≤ th
        let cool := tj < (p.throttle : Int) - 5 ∧ th < 90
        (hot → t.power.thermDemand[q] = Min.min 2 (Max.max p.thermDemand[q] p.step[q] + 1) ∧ t.power.coolMs[q] = 0)
        ∧ (¬ hot → cool → p.coolMs[q] < 99 → t.power.thermDemand[q] = p.thermDemand[q] ∧ t.power.coolMs[q] = p.coolMs[q] + 1)
        ∧ (¬ hot → cool → 99 ≤ p.coolMs[q] → t.power.thermDemand[q] = p.thermDemand[q] - 1 ∧ t.power.coolMs[q] = 0)
        ∧ (¬ hot → ¬ cool → t.power.thermDemand[q] = p.thermDemand[q] ∧ t.power.coolMs[q] = 0))
      ∧ t.power.alert = ((List.finRange 4).any (fun q => decide (0 < t.power.thermDemand[q])) || s.gpio.thermtrip)
      ∧ ((∀ q : Fin 4, p.thermDemand[q] = 0) → (∃ q : Fin 4, 0 < t.power.thermDemand[q]) → raisedAll t 240)
      ∧ ((∃ q : Fin 4, 0 < p.thermDemand[q]) → (∀ q : Fin 4, t.power.thermDemand[q] = 0) → raisedAll t 241))
    ∧ (p.brake = false → (∃ n : Fin 48, (govPin s n.val).func = 11 ∧ s.gpio.lowTwice[n] = true) →
        ∃ t, exec .powerBrakeAssert s = .next t ∧ t.power = { p with brake := true } ∧ raisedAll t 243)
    ∧ (p.brake = true → (∀ n : Fin 48, (govPin s n.val).func = 11 → s.gpio.lowTwice[n] = false) →
        exec .powerBrakeDeassert s = .next { s with power := { p with brake := false } })
    ∧ (p.frost = false → s.mgmt.devstate = 2 → (∀ k ∈ s.ports, (s.func k).d3hot = true) → (∀ x ∈ s.ctxs, x.stat ≠ .running) →
        ∃ t, exec .frostEntry s = .next t ∧ t.power.frost = true ∧ raisedAll t 246 ∧ (∀ x ∈ t.ctxs, x.orr.lane = none) ∧ ∀ n, n < 48 →
          ((s.gpio.pin n).func = 13 → padOf t n = s.gpio.straps.testBit n)
          ∧ ((s.gpio.pin n).func ≠ 11 → (s.gpio.pin n).func ≠ 13 → ¬ (n < 4 ∧ ((s.gpio.pin n).func = 1 ∨ (s.gpio.pin n).func = 2)) →
            ((s.gpio.pin n).sleep = 0 → padOf t n = false) ∧ ((s.gpio.pin n).sleep = 1 → padOf t n = true)
            ∧ (3 ≤ (s.gpio.pin n).sleep → padOf t n = padOf s n)))
    ∧ ((∃ x ∈ s.ctxs, x.stat = .running) ∨ (∃ k ∈ s.ports, (s.func k).d3hot = false) → exec .frostEntry s = .next s)
    ∧ (∀ k, p.frost = true → k ∈ s.ports → ∃ t, exec (.frostExit k) s = .next t ∧ t.power.frost = false ∧ (t.func k).d3hot = false ∧ t.audit.held = []
        ∧ (∀ q : Fin 4, t.power.step[q] = exitStep s q) ∧ t.gpio.pins = s.gpio.pins
        ∧ raisedAll t 246 ∧ t.audit.seq = s.audit.seq + s.audit.held.length + (if s.audit.heldMore = 0 then 0 else 1))
    ∧ (∀ l, p.lastAge + 86400000000 ≤ s.audit.uptime → ∃ t, exec (.ageingReplan l) s = .next t ∧ t.power.lastAge = s.audit.uptime
        ∧ ∀ q : Fin 3, p.g[q] ≤ 24 → p.g[q] ≤ t.power.g[q] ∧ t.power.g[q] ≤ 24 ∧ (20 ≤ l.getD q.val 20 → t.power.g[q] = p.g[q]))
    ∧ ∀ l, s.audit.uptime < p.lastAge + 86400000000 → exec (.ageingReplan l) s = .next s

/-- No power, thermal or ageing command changes what a context computes: each completes and leaves contexts, queues, sessions and pins as they
were, but that the entry to Frost takes the lanes away (R372, R478 to R491; log entry 74). The Gleaner takes the next 64 bytes of HBM, ends its
pass at 128 GiB with source 217, and stops after a single pass (R504 to R506); at the end of an hour the threshold counts start again (R510). -/
def Obligations.TheGleanerAndErrorHours : Prop :=
  (∀ (s : State) (q : Fin 4),
    let p := s.power
    let does (i : Instr) (f : State → Prop) : Prop := ∃ t, exec i s = .next t ∧ f t ∧ t.ctxs = s.ctxs ∧ t.queues = s.queues
      ∧ t.mgmt.sessions = s.mgmt.sessions ∧ { t.gpio with abort := s.gpio.abort, perr := s.gpio.perr } = s.gpio
    (p.frost = false → p.step[q] < demandOf p q ∨ (demandOf p q < p.step[q] ∧ p.railWait[q] = none ∧ railPins s = true) → does (.frequencyStepChange q) fun t => t.power.step[q] = demandOf p q)
    ∧ (p.frost = false → demandOf p q < p.step[q] → p.railWait[q] = none → does (.railTargetTimeout q) fun t => t.power.railWait[q] = some (s.audit.uptime + 1000000))
    ∧ (∀ u, p.railWait[q] = some u → u ≤ s.audit.uptime → does (.railRetry q) fun t => t.power.railWait[q] = none)
    ∧ (∀ card quads, does (.powerLimitLoop card quads) fun t => t.power.samples.getLast? = some card ∧ t.power.samples.length ≤ max 10 p.samples.length)
    ∧ (∀ cl hb, does (.thermalSample cl hb) fun t => t.power.temps = cl ∧ t.power.hbmTemps = hb)
    ∧ (p.brake = false → brakePin s = true → does .powerBrakeAssert fun t => t.power.brake = true ∧ ∀ k : Fin 4, demandOf t.power k = 2)
    ∧ (p.brake = true → brakePin s = false → does .powerBrakeDeassert fun t => t.power.brake = false)
    ∧ (p.frost = false → s.mgmt.devstate = 2 → (∀ k ∈ s.ports, (s.func k).d3hot = true) → (∀ x ∈ s.ctxs, x.stat ≠ .running) →
      ∃ t, exec .frostEntry s = .next t ∧ t.power.frost = true ∧ t.queues = s.queues ∧ t.mgmt.sessions = s.mgmt.sessions
        ∧ t.ctxs = s.ctxs.map (fun x => { x with orr := { x.orr with lane := none, grant := none, newcomer := false } })
        ∧ { t.gpio with kept := s.gpio.kept, asleep := s.gpio.asleep } = s.gpio)
    ∧ (∀ k, p.frost = true → k ∈ s.ports → does (.frostExit k) fun t => t.power.frost = false ∧ (t.func k).d3hot = false)
    ∧ ∀ l, p.lastAge + 86400000000 ≤ s.audit.uptime → does (.ageingReplan l) fun t => t.power.lastAge = s.audit.uptime) ∧
  ∀ s : State,
    (s.ras.gop ≠ 0 → s.mgmt.devstate = 2 → s.power.frost = false →
      ∃ t, exec .gleanerUnit s = .next t ∧ (∀ u ∈ t.ras.upsets, u ∈ s.ras.upsets) ∧ (∀ u ∈ s.ras.upsets, u.double = true → u ∈ t.ras.upsets)
        ∧ (∀ u ∈ s.ras.upsets, inUnit u s.ras.gpos = true → u.double = false → u ∉ t.ras.upsets)
        ∧ (s.ras.gpos + 64 < 137438953472 → t.ras.gpos = s.ras.gpos + 64 ∧ t.ras.gop = s.ras.gop ∧ t.ras.gpasses = s.ras.gpasses)
        ∧ (137438953472 ≤ s.ras.gpos + 64 → t.ras.gpos = 0 ∧ t.ras.gpasses = (s.ras.gpasses + 1) % 2 ^ 32 ∧ raisedAll t 217
          ∧ t.ras.gop = (if s.ras.gop = 1 then 0 else s.ras.gop)))
    ∧ (s.ras.gop = 0 ∨ s.mgmt.devstate ≠ 2 ∨ s.power.frost = true → exec .gleanerUnit s = .next s)
    ∧ exec .errorHourEnd s = .next (if 3600000000 * (s.ras.hour + 1) ≤ s.audit.uptime then
        { s with ras := { s.ras with
          hour := s.ras.hour + 1, hourHbm := Vector.replicate 4 0, hourChip := 0, saidHbm := Vector.replicate 4 false, saidChip := false } }
      else s)
end

