-- ==== Sys2Proof/Laws/Core.lean ====
section
/-! SUPPORT. What the shared operations of a core instruction do: the context a state holds, settling without effects, the boundary with the
comparators off, and one issue by the outcome of its body. -/
namespace Sys2Proof.Machine

/-! ### Contexts of a state -/

theorem ctx?_num {s : State} {c : Nat} {x : Ctx} (h : s.ctx? c = some x) : x.num = c := by
  simpa using List.find?_some h

theorem find_map_num (l : List Ctx) (c : Nat) (x y : Ctx) (h : l.find? (fun z => z.num = c) = some x) (hy : y.num = c) :
    (l.map fun z => if z.num = y.num then y else z).find? (fun z => z.num = c) = some y := by
  induction l with
  | nil => simp at h
  | cons z l ih =>
    by_cases hz : z.num = c
    · simp [hz, hy]
    · simp [hz, hy] at h ⊢
      simpa [hy] using ih (by simpa using h)

theorem find_map_other (l : List Ctx) (c : Nat) (y : Ctx) (hc : y.num ≠ c) :
    (l.map fun z => if z.num = y.num then y else z).find? (fun z => z.num = c) = l.find? fun z => z.num = c := by
  induction l with
  | nil => rfl
  | cons z l ih =>
    by_cases hz : z.num = y.num
    · have : z.num ≠ c := fun e => hc (hz ▸ e)
      simp [hz, hc]
      simpa using ih
    · simp only [List.map_cons, if_neg hz, List.find?_cons]
      split
      · rfl
      · exact ih

/-- A context put back is found under its number. -/
theorem putCtx_here {s : State} {c : Nat} {x y : Ctx} (h : s.ctx? c = some x) (hy : y.num = c) : (s.putCtx y).ctx? c = some y :=
  find_map_num s.ctxs c x y h hy

/-- Every other context stays as it was. -/
theorem putCtx_other {s : State} {c : Nat} {y : Ctx} (hc : y.num ≠ c) : (s.putCtx y).ctx? c = s.ctx? c :=
  find_map_other s.ctxs c y hc

@[simp] theorem noteVc_num (x : Ctx) (o : Nat) : (noteVc x o).num = x.num := rfl
@[simp] theorem noteVc_m (x : Ctx) (o : Nat) : (noteVc x o).m = x.m := rfl
@[simp] theorem noteVc_cfg (x : Ctx) (o : Nat) : (noteVc x o).cfg = x.cfg := rfl
@[simp] theorem noteVc_snaps (x : Ctx) (o : Nat) : (noteVc x o).snaps = x.snaps := rfl
@[simp] theorem noteVc_outp (x : Ctx) (o : Nat) : (noteVc x o).outp = x.outp := rfl
@[simp] theorem noteVc_rend (x : Ctx) (o : Nat) : (noteVc x o).rend = x.rend := rfl

/-- After an advance the context holds the new context state. -/
theorem advanced_here {s : State} {c : Nat} {x : Ctx} {m : Mach} (h : s.ctx? c = some x) :
    (advanced s x m).ctx? c = some (noteVc { x with m := m } x.m.vc) :=
  putCtx_here h (by simpa using ctx?_num h)

/-- An advance of one context leaves every other one alone. -/
theorem advanced_other {s : State} {c : Nat} {x : Ctx} {m : Mach} (h : x.num ≠ c) : (advanced s x m).ctx? c = s.ctx? c :=
  putCtx_other (by simpa using h)

/-! ### Settling -/

/-- A context that queues no message gives no queue device work. -/
theorem noteWork_none (s : State) (x y : Ctx) (h : ∀ n, y.queued n = x.queued n) : noteWork s x y = s := by
  have e : (List.range 16).filter (fun n => decide (x.queued n < y.queued n)) = [] := List.filter_eq_nil_iff.2 fun n _ => by simp [h n]
  simp only [noteWork, e, List.foldl_nil]

/-- A step without effects outside the context state settles as an advance. -/
theorem settle_quiet (s : State) (x : Ctx) (m : Mach) (h : m.fx = []) : settle s x m = advanced s x m := by
  have hm : ({ m with fx := [] } : Mach) = m := by cases m; simp_all
  have hp : (noteVc { x with m := m } x.m.vc).pagesUsed = x.pagesUsed := rfl
  simp [settle, settleWith, h, hm, advanced, hp, noteWork_none _ x (noteVc { x with m := m } x.m.vc) fun _ => rfl]

/-! ### Boundaries -/

/-- With both comparators off none matches. -/
theorem comparator_off (m : Mach) (h0 : m.dbg.bp0.getLsbD 0 = false) (h1 : m.dbg.bp1.getLsbD 0 = false) : comparator m = false := by
  unfold comparator bpMatch
  rw [h0, h1]
  simp

/-- A vc in which the lane may act lies after every happening of the vc before it. -/
theorem settledTo_of_lim {cfg : Cfg} {m : Mach} {v r : Nat} (h : v ≤ r) (hr : r < m.lim cfg) : m.settledTo cfg v = true := by
  unfold Mach.lim limOf laneRank at hr
  unfold Mach.settledTo
  exact decide_eq_true (by omega)

/-- The lane may act in every vc before one in which it may. -/
theorem lim_mono {cfg : Cfg} {m : Mach} {v r : Nat} (h : v ≤ r) (hr : r < m.lim cfg) : ¬ m.lim cfg ≤ v := by omega

/-- No entry in progress goes on. -/
theorem goOn_none (e : Env) (m : Mach) (h : m.cpu.entry = none) : goOn e m = m := by
  simp [goOn, h]

/-- The state in which the body of an issuing instruction works. -/
def issueState (m : Mach) : Mach := { m with cpu := { m.cpu with afterRete := false, at12 := false } }

@[simp] theorem issueState_fx (m : Mach) : (issueState m).fx = m.fx := rfl
@[simp] theorem issueState_vc (m : Mach) : (issueState m).vc = m.vc := rfl
@[simp] theorem issueState_dbg (m : Mach) : (issueState m).dbg = m.dbg := rfl
@[simp] theorem issueState_pc (m : Mach) : (issueState m).cpu.pc = m.cpu.pc := rfl
@[simp] theorem issueState_psw (m : Mach) : (issueState m).cpu.psw = m.cpu.psw := rfl
@[simp] theorem issueState_reg (m : Mach) (r : Reg) : (issueState m).reg r = m.reg r := rfl
@[simp] theorem issueState_begun (m : Mach) : (issueState m).cpu.begun = m.cpu.begun := rfl

/-- At an issue no interrupt is taken. -/
theorem interruptNow_none {s : State} {c : Nat} {x : Ctx} {len : Nat} (h : Issues s c x len) : interruptNow x.m = none := by
  simp [interruptNow, boundaryNow, h.noBegun, h.noWord, h.noIdle, h.noBlk, h.noInt]

theorem runCore_issues {s : State} {c : Nat} {x : Ctx} {len : Nat} (h : Issues s c x len) (hl : laneFits x 1) (body : Body) :
    runCore (s.env x) x.m len body = conclude (s.env x) x.m (issueState x.m)
      (body (s.env x) (issueState x.m) x.m.vc x.m.cpu.pc (x.m.following len)) (x.m.following len) := by
  have hr : x.m.vc < x.m.lim (s.env x).cfg := of_decide_eq_true hl
  have hc := comparator_off x.m h.noBp0 h.noBp1
  have hn : ¬ x.m.lim (s.env x).cfg ≤ x.m.vc := by omega
  simp [runCore, h.noEntry, settledTo_of_lim (Nat.le_refl _) hr, interruptNow_none h, hc, hn, issue, h.noBlk, h.noIdle, h.noBegun, h.fetch, h.clean,
    issueState, Mach.following]

/-- Room for `cost` vc is room for the first. -/
theorem laneFits_one {x : Ctx} {cost : Nat} (h : laneFits x cost) : laneFits x 1 := by
  unfold laneFits laneMayPass at *
  have := of_decide_eq_true h
  exact decide_eq_true (by omega)

/-- The last of `cost` vc comes before every happening to come. -/
theorem laneFits_last {x : Ctx} {cost : Nat} (h : laneFits x cost) : x.m.vc + cost - 1 < x.m.lim x.cfg := by
  unfold laneFits laneMayPass at h
  have := of_decide_eq_true h
  omega

/-- Work that has room acts at once. -/
theorem conclude_fits {x : Ctx} {cost : Nat} (hl : laneFits x cost) (s : State) (m0 m' : Mach) (n : Next) (nxt : Word) :
    conclude (s.env x) x.m m0 ⟨m', cost, n⟩ nxt = finish (s.env x) m0 ⟨m', cost, n⟩ nxt := by
  have h := laneFits_last hl
  simp [conclude, State.env, h]

/-- An instruction that issues and whose body retires in sequence. -/
theorem coreStep_seq {s : State} {c : Nat} {x : Ctx} {enc : Encoding} {body : Body} {m' : Mach} {cost : Nat}
    (h : Issues s c x (if enc.long then 4 else 2)) (hl : laneFits x cost)
    (hb : body (s.env x) (issueState x.m) x.m.vc x.m.cpu.pc (x.m.following (if enc.long then 4 else 2)) = ⟨m', cost, .seq⟩)
    (hf : m'.fx = []) :
    coreStep s c enc body = .next (advanced s x
      (let l := loopCheck 4 m'.cpu (x.m.following (if enc.long then 4 else 2))
       { m' with vc := x.m.vc + cost, cpu := { l.1 with pc := l.2, begun := false, blk := none, word := [], idle := none } })) := by
  have hr : runCore (s.env x) x.m (if enc.long then 4 else 2) body =
      (let l := loopCheck 4 m'.cpu (x.m.following (if enc.long then 4 else 2))
       { m' with vc := x.m.vc + cost, cpu := { l.1 with pc := l.2, begun := false, blk := none, word := [], idle := none } }) := by
    rw [runCore_issues h (laneFits_one hl), hb, conclude_fits hl]
    simp only [finish, retireTo, issueState_vc, issueState_psw, h.noTrace, Bool.false_eq_true, ↓reduceIte]
  have hf' : (let l := loopCheck 4 m'.cpu (x.m.following (if enc.long then 4 else 2))
       ({ m' with vc := x.m.vc + cost, cpu := { l.1 with pc := l.2, begun := false, blk := none, word := [], idle := none } } : Mach)).fx = [] := hf
  simp only [coreStep, h.here, h.active, hr, Bool.not_true, Bool.false_eq_true, ↓reduceIte]
  rw [settle_quiet _ _ _ hf']

/-- An instruction that issues and whose body transfers control. -/
theorem coreStep_jump {s : State} {c : Nat} {x : Ctx} {enc : Encoding} {body : Body} {m' : Mach} {cost : Nat} {a : Word}
    (h : Issues s c x (if enc.long then 4 else 2)) (hl : laneFits x cost)
    (hb : body (s.env x) (issueState x.m) x.m.vc x.m.cpu.pc (x.m.following (if enc.long then 4 else 2)) = ⟨m', cost, .jump a⟩)
    (hf : m'.fx = []) :
    coreStep s c enc body = .next (advanced s x
      { m' with vc := x.m.vc + cost, cpu := { m'.cpu with pc := a, begun := false, blk := none, word := [], idle := none } }) := by
  have hr : runCore (s.env x) x.m (if enc.long then 4 else 2) body =
      { m' with vc := x.m.vc + cost, cpu := { m'.cpu with pc := a, begun := false, blk := none, word := [], idle := none } } := by
    rw [runCore_issues h (laneFits_one hl), hb, conclude_fits hl]
    simp only [finish, retireTo, issueState_vc, issueState_psw, h.noTrace, Bool.false_eq_true, ↓reduceIte]
  simp only [coreStep, h.here, h.active, hr, Bool.not_true, Bool.false_eq_true, ↓reduceIte]
  rw [settle_quiet s x { m' with vc := x.m.vc + cost, cpu := { m'.cpu with pc := a, begun := false, blk := none, word := [], idle := none } } hf]

/-! ### Retirement in the terms of Safety -/

/-- The loop check leaves the marks of a block instruction and of a wait alone. -/
theorem loopCheck_marks (k : Nat) (c : Cpu) (a : Word) :
    (loopCheck k c a).1.blk = c.blk ∧ (loopCheck k c a).1.idle = c.idle ∧ (loopCheck k c a).1.begun = c.begun
      ∧ (loopCheck k c a).1.word = c.word := by
  induction k generalizing c with
  | zero => exact ⟨rfl, rfl, rfl, rfl⟩
  | succ k ih =>
    unfold loopCheck
    split
    · exact ⟨rfl, rfl, rfl, rfl⟩
    · split
      · dsimp only
        split
        · exact ⟨rfl, rfl, rfl, rfl⟩
        · split
          · exact ⟨rfl, rfl, rfl, rfl⟩
          · exact ih _
      · exact ⟨rfl, rfl, rfl, rfl⟩

/-- The processor of the state in which a body works. -/
theorem issueState_cpu {s : State} {c : Nat} {x : Ctx} {len : Nat} (h : Issues s c x len) : (issueState x.m).cpu = x.m.cpu.idleMarks := by
  have h1 := h.noBlk
  have h2 := h.noIdle
  have h3 := h.noBegun
  have h4 := h.noWord
  unfold issueState Cpu.idleMarks
  generalize x.m = m at *
  cases m with
  | mk cpu =>
    cases cpu
    simp_all

/-- A body that changes nothing but the processor and retires in sequence. -/
theorem coreStep_retireSeq {s : State} {c : Nat} {x : Ctx} {enc : Encoding} {body : Body} {p : Cpu} {cost len : Nat}
    (he : (if enc.long then 4 else 2) = len) (h : Issues s c x len) (hl : laneFits x cost)
    (hb : body (s.env x) (issueState x.m) x.m.vc x.m.cpu.pc (x.m.following len) = ⟨{ x.m with cpu := p.idleMarks }, cost, .seq⟩) :
    coreStep s c enc body = .next (advanced s x (retireSeq x.m p cost len)) := by
  subst he
  rw [coreStep_seq h hl hb h.quiet]
  have hm := loopCheck_marks 4 p.idleMarks (x.m.following (if enc.long then 4 else 2))
  simp only [retireSeq]
  generalize loopCheck 4 p.idleMarks (x.m.following (if enc.long then 4 else 2)) = l at hm
  obtain ⟨q, a⟩ := l
  cases q
  simp_all [Cpu.idleMarks]

/-- A body that changes nothing but the processor and transfers control. -/
theorem coreStep_retireJump {s : State} {c : Nat} {x : Ctx} {enc : Encoding} {body : Body} {p : Cpu} {cost len : Nat} {a : Word}
    (he : (if enc.long then 4 else 2) = len) (h : Issues s c x len) (hl : laneFits x cost)
    (hb : body (s.env x) (issueState x.m) x.m.vc x.m.cpu.pc (x.m.following len) = ⟨{ x.m with cpu := p.idleMarks }, cost, .jump a⟩) :
    coreStep s c enc body = .next (advanced s x (retireJump x.m p cost a)) := by
  subst he
  rw [coreStep_jump h hl hb h.quiet]
  rfl

/-- A body that changes nothing and raises an exception. -/
theorem coreStep_trap {s : State} {c : Nat} {x : Ctx} {enc : Encoding} {body : Body} {cost len : Nat} {k : Exc}
    (he : (if enc.long then 4 else 2) = len) (h : Issues s c x len) (hl : laneFits x cost)
    (hb : body (s.env x) (issueState x.m) x.m.vc x.m.cpu.pc (x.m.following len) = ⟨issueState x.m, cost, .exc k⟩) :
    coreStep s c enc body = trap s x cost k := by
  subst he
  have hr : runCore (s.env x) x.m (if enc.long then 4 else 2) body = raiseExc (s.env x) (trapped x.m cost) k (x.m.vc + cost) := by
    rw [runCore_issues h (laneFits_one hl), hb, conclude_fits hl]
    have hc := issueState_cpu h
    simp only [finish, trapped, issueState_vc]
    rw [hc]
    rfl
  simp only [coreStep, h.here, h.active, hr, Bool.not_true, Bool.false_eq_true, ↓reduceIte, trap]

/-- Flags written as they stand change nothing. -/
theorem setFlags_self (p : Word) : setFlags p (pswN p) (pswZ p) (pswC p) (pswV p) = p := by
  unfold setFlags pswN pswZ pswC pswV
  apply BitVec.eq_of_getLsbD_eq
  intro i hi
  have key : ∀ a b c d : Bool, ∀ j : Fin 32, (BitVec.ofNat 32 (a.toNat * 8 + b.toNat * 4 + c.toNat * 2 + d.toNat)).getLsbD j.val
      = if j.val = 0 then d else if j.val = 1 then c else if j.val = 2 then b else if j.val = 3 then a else false := by decide
  have key2 : ∀ j : Fin 32, (~~~ (0xF#32)).getLsbD j.val = decide (4 ≤ j.val) := by decide
  rw [BitVec.getLsbD_or, BitVec.getLsbD_and, key _ _ _ _ ⟨i, hi⟩, key2 ⟨i, hi⟩]
  rcases i with _ | _ | _ | _ | i <;> simp

/-- A result that sets no flag leaves PSW as it is. -/
theorem AluRes.psw_none (v p : Word) : ({ val := v } : AluRes).psw p = p := setFlags_self p

/-- An ALU operation that issues. -/
theorem coreStep_alu {s : State} {c : Nat} {x : Ctx} {enc : Encoding} {cost len : Nat} {rd : Reg} {f : Mach → AluRes} {r : AluRes}
    (he : (if enc.long then 4 else 2) = len) (h : Issues s c x len) (hl : laneFits x cost) (hf : f (issueState x.m) = r) :
    coreStep s c enc (aluBody cost rd f)
      = .next (advanced s x (retireSeq x.m { x.m.cpu with regs := x.m.cpu.regs.set rd r.val, psw := r.psw x.m.cpu.psw } cost len)) := by
  refine coreStep_retireSeq he h hl ?_
  have hc := issueState_cpu h
  simp only [aluBody, hf, Mach.setReg, Mach.setPsw]
  rw [hc]
  rfl

/-- A compare that issues. -/
theorem coreStep_flags {s : State} {c : Nat} {x : Ctx} {enc : Encoding} {len : Nat} {f : Mach → AluRes} {r : AluRes}
    (he : (if enc.long then 4 else 2) = len) (h : Issues s c x len) (hl : laneFits x 1) (hf : f (issueState x.m) = r) :
    coreStep s c enc (flagBody f) = .next (advanced s x (retireSeq x.m { x.m.cpu with psw := r.psw x.m.cpu.psw } 1 len)) := by
  refine coreStep_retireSeq he h hl ?_
  have hc := issueState_cpu h
  simp only [flagBody, hf, Mach.setPsw]
  rw [hc]
  rfl

/-- An instruction that issues and raises an exception. -/
theorem coreStep_exc {s : State} {c : Nat} {x : Ctx} {enc : Encoding} {body : Body} {m' : Mach} {cost : Nat} {k : Exc}
    (h : Issues s c x (if enc.long then 4 else 2)) (hl : laneFits x cost)
    (hb : body (s.env x) (issueState x.m) x.m.vc x.m.cpu.pc (x.m.following (if enc.long then 4 else 2)) = ⟨m', cost, .exc k⟩) :
    coreStep s c enc body = .next (settle s x (raiseExc (s.env x) { m' with vc := x.m.vc + cost } k (x.m.vc + cost))) := by
  have hr : runCore (s.env x) x.m (if enc.long then 4 else 2) body =
      raiseExc (s.env x) { m' with vc := x.m.vc + cost } k (x.m.vc + cost) := by
    rw [runCore_issues h (laneFits_one hl), hb, conclude_fits hl]
    simp [finish]
  simp only [coreStep, h.here, h.active, hr, Bool.not_true, Bool.false_eq_true, ↓reduceIte]

/-- Nothing happens to a context that does not execute. -/
theorem coreStep_inactive {s : State} {c : Nat} {x : Ctx} (enc : Encoding) (body : Body) (h : s.ctx? c = some x) (ha : x.active = false) :
    coreStep s c enc body = .next s := by
  simp [coreStep, h, ha]

/-- An event that occurs. -/
theorem ctxEvent_some {s : State} {c : Nat} {x : Ctx} {m : Mach} {f : Env → Ctx → Option Mach} (h : Runs s c x)
    (hf : f (s.env x) x = some m) : ctxEvent s c f = .next (settle s x m) := by
  simp [ctxEvent, ctxEventWith, h.here, h.active, hf, settle]

/-- A happening that acts. -/
theorem ctxDue_some {s : State} {c : Nat} {x : Ctx} {m : Mach} {d : Due} {t : Nat} {f : Env → Mach → Nat → Option Mach} (h : Runs s c x)
    (hd : x.m.dueVc x.cfg d = some t) (ht : hasCome x d t = true) (hf : f (s.env x) (x.m.seen t) t = some m) :
    ctxDue s c d f = .next (settle s x m) := by
  simp [ctxDue, ctxDueWith, ctxEventWith, h.here, h.active, hd, ht, hf, settle]

/-- One whose effect stays within the context state. -/
theorem ctxDue_quiet {s : State} {c : Nat} {x : Ctx} {m : Mach} {d : Due} {t : Nat} {f : Env → Mach → Nat → Option Mach} (h : Runs s c x)
    (hd : x.m.dueVc x.cfg d = some t) (ht : hasCome x d t = true) (hf : f (s.env x) (x.m.seen t) t = some m) (hq : m.fx = []) :
    ctxDue s c d f = .next (advanced s x m) := by
  rw [ctxDue_some h hd ht hf, settle_quiet s x m hq]

/-- A happening whose turn has not come. -/
theorem ctxDue_not {s : State} {c : Nat} {x : Ctx} {d : Due} {f : Env → Mach → Nat → Option Mach} (h : Runs s c x)
    (hd : ∀ t, x.m.dueVc x.cfg d = some t → hasCome x d t = false) : ctxDue s c d f = .next s := by
  cases ht : x.m.dueVc x.cfg d with
  | none => simp [ctxDue, ctxDueWith, ctxEventWith, h.here, h.active, ht]
  | some t => simp [ctxDue, ctxDueWith, ctxEventWith, h.here, h.active, ht, hd t ht]

/-- A register access whose vc has room. -/
theorem ctxAccess_quiet {s : State} {c : Nat} {x : Ctx} {m : Mach} {f : Env → Ctx → Option Mach} (h : Runs s c x) (hl : laneFits x 1)
    (hf : f (s.env x) x = some m) (hq : m.fx = []) : ctxAccess s c f = .next (advanced s x m) := by
  have hl' : laneMayPass x x.m.vc = true := by simpa [laneFits] using hl
  simp [ctxAccess, ctxEvent, ctxEventWith, h.here, h.active, hl', hf]
  exact settle_quiet s x m hq

/-- An event whose effect stays within the context state. -/
theorem ctxEvent_quiet {s : State} {c : Nat} {x : Ctx} {m : Mach} {f : Env → Ctx → Option Mach} (h : Runs s c x)
    (hf : f (s.env x) x = some m) (hq : m.fx = []) : ctxEvent s c f = .next (advanced s x m) := by
  rw [ctxEvent_some h hf, settle_quiet s x m hq]

end Sys2Proof.Machine
end

