-- ==== Sys2Proof/Laws/Crypto.lean ====
section
/-! SUPPORT. What the cryptographic operations give without being evaluated: the lengths of their outputs, numbers and bytes there and back, and
that GCM opens what it sealed. -/
namespace Sys2Proof

@[simp] theorem leBytes_length (n x : Nat) : (leBytes n x).length = n := by
  induction n generalizing x with
  | zero => rfl
  | succ n ih => simp [leBytes, ih]

theorem leNat_leBytes (n x : Nat) : leNat (leBytes n x) = x % 256 ^ n := by
  induction n generalizing x with
  | zero => simp [leBytes, leNat, Nat.mod_one]
  | succ n ih =>
    simp only [leBytes, leNat, ih, BitVec.toNat_ofNat]
    have h := Nat.mod_mul (x := x) (a := 256) (b := 256 ^ n)
    rw [← Nat.pow_succ'] at h
    exact h.symm

theorem leNat_lt (bs : List Byte) : leNat bs < 256 ^ bs.length := by
  induction bs with
  | nil => simp [leNat]
  | cons b bs ih =>
    have := b.isLt
    simp only [leNat, List.length_cons, Nat.pow_succ]
    omega

namespace Machine

@[simp] theorem be_length (n x : Nat) : (be n x).length = n := by simp [be]

@[simp] theorem digest_length (x : Nat) : (digest x).length = 48 := leBytes_length 48 x

theorem numAt_of {bs : List Byte} {off n x : Nat} (h : bytesAt bs off n = leBytes n x) (hx : x < 256 ^ n) : numAt bs off n = x := by
  rw [numAt, h, leNat_leBytes, Nat.mod_eq_of_lt hx]

/-! ### Lengths -/

@[simp] theorem xorBytes_length (a b : List Byte) : (xorBytes a b).length = Min.min a.length b.length := by simp [xorBytes]

@[simp] theorem xorNats_length (a b : List Nat) : (xorNats a b).length = Min.min a.length b.length := by simp [xorNats]

theorem pieces_length {α : Type} {n : Nat} :
    ∀ (k : Nat) (bs : List α), n * k ≤ bs.length → ∀ p ∈ pieces n k bs, p.length = n := by
  intro k
  induction k with
  | zero => intro bs _ p hp; simp [pieces] at hp
  | succ k ih =>
    intro bs h p hp
    rw [Nat.mul_succ] at h
    simp only [pieces] at hp
    split at hp
    · simp at hp
    · rcases List.mem_cons.mp hp with rfl | hp
      · simp; omega
      · exact ih _ (by simp; omega) p hp

theorem pieces_count {α : Type} {n : Nat} (hn : 0 < n) :
    ∀ (k : Nat) (bs : List α), n * k ≤ bs.length → (pieces n k bs).length = k := by
  intro k
  induction k with
  | zero => intro bs _; rfl
  | succ k ih =>
    intro bs h
    rw [Nat.mul_succ] at h
    have : bs.isEmpty = false := by cases bs with
      | nil => simp at h; omega
      | cons => rfl
    simp [pieces, this, ih (bs.drop n) (by simp; omega)]

theorem pieces_flatten {α : Type} {n : Nat} :
    ∀ (k : Nat) (bs : List α), bs.length ≤ n * k → (pieces n k bs).flatten = bs := by
  intro k
  induction k with
  | zero => intro bs h; simp at h; simp [pieces, h]
  | succ k ih =>
    intro bs h
    rw [Nat.mul_succ] at h
    simp only [pieces]
    split
    · rename_i he; simp at he; simp [he]
    · simp [ih (bs.drop n) (by simp; omega)]

theorem pieces_le {α : Type} {n : Nat} : ∀ (k : Nat) (bs : List α), ∀ p ∈ pieces n k bs, p.length ≤ n := by
  intro k
  induction k with
  | zero => intro bs p hp; simp [pieces] at hp
  | succ k ih =>
    intro bs p hp
    simp only [pieces] at hp
    split at hp
    · simp at hp
    · rcases List.mem_cons.mp hp with rfl | hp
      · exact List.length_take_le _ _
      · exact ih _ p hp

/-! ### AES gives 16 bytes -/

theorem aesWords_length : ∀ (n i rc : Nat) (w : List (List Nat)), w ≠ [] → (∀ u ∈ w, u.length = 4) →
    (∀ u ∈ aesWords n i rc w, u.length = 4) ∧ (aesWords n i rc w).length = n := by
  intro n
  induction n with
  | zero => intro i rc w _ _; simp [aesWords]
  | succ n ih =>
    intro i rc w hw h
    have hl : (w.getLastD []).length = 4 := by
      rw [List.getLastD_eq_getLast?, List.getLast?_eq_some_getLast hw]; exact h _ (List.getLast_mem hw)
    have hh : (w.headD []).length = 4 := by
      cases w with
      | nil => exact absurd rfl hw
      | cons a w => exact h a (by simp)
    simp only [aesWords]
    generalize ht : (if i % 8 = 0 then xorNats (List.map subByte (List.drop 1 (w.getLastD []) ++ List.take 1 (w.getLastD []))) [rc, 0, 0, 0]
      else if i % 8 = 4 then List.map subByte (w.getLastD []) else w.getLastD []) = t
    have h4 : t.length = 4 := by
      rw [← ht]; split
      · rw [xorNats_length, List.length_map, List.length_append, List.length_drop, List.length_take, hl]; rfl
      · split
        · rw [List.length_map, hl]
        · exact hl
    have hu : (xorNats (w.headD []) t).length = 4 := by rw [xorNats_length, hh, h4]; rfl
    have := ih (i + 1) (if i % 8 = 0 then xtime rc else rc) (w.drop 1 ++ [xorNats (w.headD []) t]) (by simp) (by
      intro u hu'
      rcases List.mem_append.mp hu' with h' | h'
      · exact h u (List.mem_of_mem_drop h')
      · exact List.mem_singleton.mp h' ▸ hu)
    refine ⟨?_, by rw [List.length_cons, this.2]⟩
    intro u hu'
    rcases List.mem_cons.mp hu' with rfl | h'
    · exact hu
    · exact this.1 u h'

theorem flatten_length_of {α : Type} {n : Nat} : ∀ {l : List (List α)}, (∀ u ∈ l, u.length = n) → l.flatten.length = n * l.length := by
  intro l
  induction l with
  | nil => simp
  | cons a l ih =>
    intro h
    simp only [List.flatten_cons, List.length_append, List.length_cons, h a (by simp), ih fun u hu => h u (by simp [hu]), Nat.mul_succ]
    omega

theorem aesKeys_shape {key : List Byte} (h : key.length = 32) : (aesKeys key).length = 15 ∧ ∀ k ∈ aesKeys key, k.length = 16 := by
  have hw : ∀ u ∈ pieces 4 8 (key.map fun b => b.toNat), u.length = 4 := pieces_length 8 _ (by simp [h])
  have hc : (pieces 4 8 (key.map fun b => b.toNat)).length = 8 := pieces_count (by decide) 8 _ (by simp [h])
  have hn : pieces 4 8 (key.map fun b => b.toNat) ≠ [] := by intro e; rw [e] at hc; simp at hc
  obtain ⟨ha, hb⟩ := aesWords_length 52 8 1 _ hn hw
  have hf : (pieces 4 8 (key.map fun b => b.toNat) ++ aesWords 52 8 1 (pieces 4 8 (key.map fun b => b.toNat))).flatten.length = 240 := by
    rw [flatten_length_of (n := 4)]
    · rw [List.length_append, hc, hb]
    · intro u hu
      rcases List.mem_append.mp hu with h' | h'
      · exact hw u h'
      · exact ha u h'
  exact ⟨pieces_count (by decide) 15 _ (by omega), pieces_length 15 _ (by omega)⟩

theorem mixColumn_length (l : List Nat) : (mixColumn l).length = l.length := by
  unfold mixColumn; split <;> simp

theorem mixColumns_length (s : List Nat) (h : s.length = 16) : ((pieces 4 4 s).flatMap mixColumn).length = 16 := by
  rw [List.flatMap_def, flatten_length_of (n := 4)]
  · simp [pieces_count (n := 4) (by decide) 4 s (by omega)]
  · intro u hu
    obtain ⟨v, hv, rfl⟩ := List.mem_map.mp hu
    rw [mixColumn_length]; exact pieces_length 4 s (by omega) v hv

theorem aesRounds_length : ∀ (ks : List (List Nat)) (s : List Nat), (∀ k ∈ ks, k.length = 16) → s.length = 16 → (aesRounds ks s).length = 16 := by
  intro ks
  induction ks with
  | nil => intro s _ hs; exact hs
  | cons k ks ih =>
    intro s hk hs
    have h16 : (subShift s).length = 16 := by simp [subShift]
    cases ks with
    | nil => simp [aesRounds, h16, hk k (by simp)]
    | cons k' ks' =>
      exact ih _ (fun u hu => hk u (by simp [hu])) (by rw [xorNats_length, mixColumns_length _ h16, hk k (by simp)]; rfl)

theorem aesWith_length {key blk : List Byte} (hk : key.length = 32) (hb : blk.length = 16) : (aesWith (aesKeys key) blk).length = 16 := by
  obtain ⟨h1, h2⟩ := aesKeys_shape hk
  unfold aesWith
  split
  · rename_i k ks e
    rw [e] at h2
    simp only [List.length_map]
    exact aesRounds_length ks _ (fun u hu => h2 u (by simp [hu])) (by rw [xorNats_length, List.length_map, hb, h2 k (by simp)]; rfl)
  · exact hb

/-! ### GCM opens what it sealed -/

theorem xorBytes_cancel (a b : List Byte) (h : a.length ≤ b.length) : xorBytes (xorBytes a b) b = a := by
  induction a generalizing b with
  | nil => rfl
  | cons x a ih =>
    cases b with
    | nil => simp at h
    | cons y b =>
      have := ih b (by simpa using h)
      simp only [xorBytes, List.zipWith_cons_cons, List.cons.injEq] at *
      exact ⟨by rw [BitVec.xor_assoc, BitVec.xor_self, BitVec.xor_zero], this⟩

/-- Counter mode over pieces of 16, of which all but the last are whole. -/
theorem gctr_length (ks : List (List Nat)) (iv : List Byte) (hks : ∀ c, 16 ≤ (aesWith ks (iv ++ be 4 c)).length) :
    ∀ (n c : Nat) (bs : List Byte), (gctr ks iv c (pieces 16 n bs)).length = (pieces 16 n bs).flatten.length := by
  intro n
  induction n with
  | zero => intro c bs; rfl
  | succ n ih =>
    intro c bs
    simp only [pieces]
    split
    · rfl
    · have := hks c
      simp [gctr, ih]; omega

theorem gctr_twice (ks : List (List Nat)) (iv : List Byte) (hks : ∀ c, 16 ≤ (aesWith ks (iv ++ be 4 c)).length) :
    ∀ (n c : Nat) (bs : List Byte), bs.length ≤ n → ∀ m, bs.length ≤ m →
      gctr ks iv c (pieces 16 m (gctr ks iv c (pieces 16 n bs))) = bs := by
  intro n
  induction n with
  | zero => intro c bs h m _; have : bs = [] := List.length_eq_zero_iff.mp (by omega); subst this; cases m <;> rfl
  | succ n ih =>
    intro c bs h m hm
    cases bs with
    | nil => cases m <;> rfl
    | cons b bs =>
      obtain ⟨m, rfl⟩ : ∃ k, m = k + 1 := ⟨m - 1, by simp at hm; omega⟩
      have h1 := hks c
      have h2 : (xorBytes ((b :: bs).take 16) (aesWith ks (iv ++ be 4 c))).length = Min.min 16 (bs.length + 1) := by
        rw [xorBytes_length]; simp; omega
      have e : pieces 16 (n + 1) (b :: bs) = (b :: bs).take 16 :: pieces 16 n ((b :: bs).drop 16) := rfl
      rw [e]
      simp only [gctr]
      by_cases hlong : bs.length + 1 ≤ 16
      · have hd : (b :: bs).drop 16 = [] := List.drop_eq_nil_of_le (by simpa using hlong)
        have ht : (b :: bs).take 16 = b :: bs := List.take_of_length_le (by simpa using hlong)
        have hz : gctr ks iv (c + 1) (pieces 16 n []) = [] := by cases n <;> rfl
        rw [hd, ht, hz, List.append_nil]
        rw [ht] at h2
        generalize hy : xorBytes (b :: bs) (aesWith ks (iv ++ be 4 c)) = y at h2 ⊢
        have hyn : y.isEmpty = false := by cases y with
          | nil => simp at h2; omega
          | cons => rfl
        have hyd : y.drop 16 = [] := List.drop_eq_nil_of_le (by omega)
        have hyt : y.take 16 = y := List.take_of_length_le (by omega)
        have hz' : gctr ks iv (c + 1) (pieces 16 m []) = [] := by cases m <;> rfl
        rw [pieces, hyn]
        simp only [Bool.false_eq_true, if_false, gctr, hyd, hyt, hz', List.append_nil]
        rw [← hy]
        exact xorBytes_cancel _ _ (by simp; omega)
      · generalize hy : xorBytes ((b :: bs).take 16) (aesWith ks (iv ++ be 4 c)) = y at h2 ⊢
        have h16 : y.length = 16 := by omega
        have hyn : ∀ z : List Byte, (y ++ z).isEmpty = false := by
          intro z; cases y with
          | nil => simp at h16
          | cons => rfl
        rw [pieces, hyn]
        simp only [Bool.false_eq_true, if_false, gctr]
        rw [show (y ++ gctr ks iv (c + 1) (pieces 16 n (List.drop 16 (b :: bs)))).take 16 = y by rw [← h16]; exact List.take_left,
          show (y ++ gctr ks iv (c + 1) (pieces 16 n (List.drop 16 (b :: bs)))).drop 16 = gctr ks iv (c + 1) (pieces 16 n (List.drop 16 (b :: bs))) by
            rw [← h16]; exact List.drop_left]
        rw [ih (c + 1) _ (by simp at h ⊢; omega) m (by simp at hm ⊢; omega), ← hy, xorBytes_cancel _ _ (by simp; omega), List.take_append_drop]

theorem gctrText_length {key iv : List Byte} (hk : key.length = 32) (hi : iv.length = 12) (bs : List Byte) : (gctrText key iv bs).length = bs.length := by
  have hks : ∀ c, 16 ≤ (aesWith (aesKeys key) (iv ++ be 4 c)).length := fun c => by exact Nat.le_of_eq (aesWith_length hk (by simp [hi])).symm
  unfold gctrText
  rw [gctr_length _ _ hks, pieces_flatten _ _ (by omega)]

theorem gctrText_twice {key iv : List Byte} (hk : key.length = 32) (hi : iv.length = 12) (bs : List Byte) :
    gctrText key iv (gctrText key iv bs) = bs := by
  have hks : ∀ c, 16 ≤ (aesWith (aesKeys key) (iv ++ be 4 c)).length := fun c => by exact Nat.le_of_eq (aesWith_length hk (by simp [hi])).symm
  have hl := gctrText_length hk hi bs
  unfold gctrText at hl ⊢
  exact gctr_twice _ _ hks _ 2 bs (Nat.le_refl _) _ (by omega)

/-- Opening what was sealed gives the plaintext back, and its tag verifies. -/
theorem gcmOpen_sealed {key iv : List Byte} (hk : key.length = 32) (hi : iv.length = 12) (aad pt : List Byte) :
    gcmOpen key iv aad (gctrText key iv pt) (gcmTag key iv aad (gctrText key iv pt)) = (pt, true) := by
  unfold gcmOpen; simp [gctrText_twice hk hi]

theorem gcmTag_length {key iv : List Byte} (hk : key.length = 32) (hi : iv.length = 12) (aad ct : List Byte) : (gcmTag key iv aad ct).length = 16 := by
  unfold gcmTag; simp [aesWith_length hk (blk := iv ++ be 4 1) (by simp [hi])]

theorem gcmSeal_length {key iv : List Byte} (hk : key.length = 32) (hi : iv.length = 12) (aad pt : List Byte) :
    (gcmSeal key iv aad pt).length = pt.length + 16 := by
  unfold gcmSeal; simp [gctrText_length hk hi, gcmTag_length hk hi]

/-! ### Hashes, keys and signatures -/

theorem shaRounds_length (ks : List Nat) (r : List Nat × List Nat) : (ks.foldl shaRound r).1.length = r.1.length := by
  induction ks generalizing r with
  | nil => rfl
  | cons k ks ih =>
    rw [List.foldl_cons, ih]
    unfold shaRound
    split <;> simp_all

theorem shaBlock_length (h : List Nat) (blk : List Byte) : (shaBlock h blk).length = h.length := by
  simp [shaBlock, shaRounds_length]

@[simp] theorem sha384Bytes_length (bs : List Byte) : (sha384Bytes bs).length = 48 := by
  have hb : ∀ (l : List (List Byte)) (h : List Nat), (l.foldl shaBlock h).length = h.length := by
    intro l
    induction l with
    | nil => intro h; rfl
    | cons b l ih => intro h; rw [List.foldl_cons, ih, shaBlock_length]
  unfold sha384Bytes
  rw [List.flatMap_def, flatten_length_of (n := 8)]
  · simp [hb, sha384Iv]
  · intro u hu
    obtain ⟨v, _, rfl⟩ := List.mem_map.mp hu
    exact be_length 8 v

theorem sha384_lt (bs : List Byte) : sha384 bs < 256 ^ 48 := by
  have := leNat_lt (sha384Bytes bs)
  unfold sha384
  rw [sha384Bytes_length] at this
  exact this

@[simp] theorem hmac_length (key msg : List Byte) : (hmac key msg).length = 48 := by unfold hmac; simp

theorem hkdf_length (salt ikm info : List Byte) (n : Nat) : (hkdf salt ikm info n).length = n := by
  have h : ∀ (prk : List Byte) (k i : Nat) (t : List Byte), (hkdfBlocks prk info k i t).length = 48 * k := by
    intro prk k
    induction k with
    | zero => intro i t; rfl
    | succ k ih => intro i t; simp [hkdfBlocks, ih]; omega
  unfold hkdf
  simp [h]; omega

@[simp] theorem pubBytes_length (q : Nat × Nat) : (pubBytes q).length = 97 := by simp [pubBytes]

@[simp] theorem pubOf_length (d : Nat) : (pubOf d).length = 97 := by unfold pubOf; simp

@[simp] theorem ecdh_length (d : Nat) (q : Nat × Nat) : (ecdh d q).length = 48 := by unfold ecdh; simp

@[simp] theorem ecdsaSign_length (d : Nat) (msg : List Byte) : (ecdsaSign d msg).length = 96 := by unfold ecdsaSign; simp

end Machine
end Sys2Proof
end

