-- ==== Sys2Proof/Laws/State.lean ====
section
/-! SUPPORT. What every named update of the state leaves of every field, one lemma per field, and what it writes. -/
namespace Sys2Proof.Machine


/-! ### `Mach.setPsw` -/

@[simp] theorem setPsw_vc (m : Mach) (p : Word) : (m.setPsw p).vc = m.vc := rfl
@[simp] theorem setPsw_reach (m : Mach) (p : Word) : (m.setPsw p).reach = m.reach := rfl
@[simp] theorem setPsw_mem (m : Mach) (p : Word) : (m.setPsw p).mem = m.mem := rfl
@[simp] theorem setPsw_img (m : Mach) (p : Word) : (m.setPsw p).img = m.img := rfl
@[simp] theorem setPsw_umask (m : Mach) (p : Word) : (m.setPsw p).umask = m.umask := rfl
@[simp] theorem setPsw_ic (m : Mach) (p : Word) : (m.setPsw p).ic = m.ic := rfl
@[simp] theorem setPsw_tm (m : Mach) (p : Word) : (m.setPsw p).tm = m.tm := rfl
@[simp] theorem setPsw_bm (m : Mach) (p : Word) : (m.setPsw p).bm = m.bm := rfl
@[simp] theorem setPsw_vid (m : Mach) (p : Word) : (m.setPsw p).vid = m.vid := rfl
@[simp] theorem setPsw_rl (m : Mach) (p : Word) : (m.setPsw p).rl = m.rl := rfl
@[simp] theorem setPsw_bu (m : Mach) (p : Word) : (m.setPsw p).bu = m.bu := rfl
@[simp] theorem setPsw_au (m : Mach) (p : Word) : (m.setPsw p).au = m.au := rfl
@[simp] theorem setPsw_inp (m : Mach) (p : Word) : (m.setPsw p).inp = m.inp := rfl
@[simp] theorem setPsw_oq (m : Mach) (p : Word) : (m.setPsw p).oq = m.oq := rfl
@[simp] theorem setPsw_rb (m : Mach) (p : Word) : (m.setPsw p).rb = m.rb := rfl
@[simp] theorem setPsw_dbg (m : Mach) (p : Word) : (m.setPsw p).dbg = m.dbg := rfl
@[simp] theorem setPsw_attest (m : Mach) (p : Word) : (m.setPsw p).attest = m.attest := rfl
@[simp] theorem setPsw_drbg (m : Mach) (p : Word) : (m.setPsw p).drbg = m.drbg := rfl
@[simp] theorem setPsw_wall (m : Mach) (p : Word) : (m.setPsw p).wall = m.wall := rfl
@[simp] theorem setPsw_cur (m : Mach) (p : Word) : (m.setPsw p).cur = m.cur := rfl
@[simp] theorem setPsw_ioData (m : Mach) (p : Word) : (m.setPsw p).ioData = m.ioData := rfl
@[simp] theorem setPsw_posted (m : Mach) (p : Word) : (m.setPsw p).posted = m.posted := rfl
@[simp] theorem setPsw_fx (m : Mach) (p : Word) : (m.setPsw p).fx = m.fx := rfl
@[simp] theorem setPsw_regs (m : Mach) (p : Word) : (m.setPsw p).cpu.regs = m.cpu.regs := rfl
@[simp] theorem setPsw_pc (m : Mach) (p : Word) : (m.setPsw p).cpu.pc = m.cpu.pc := rfl
@[simp] theorem setPsw_hold (m : Mach) (p : Word) : (m.setPsw p).cpu.hold = m.cpu.hold := rfl
@[simp] theorem setPsw_vbr (m : Mach) (p : Word) : (m.setPsw p).cpu.vbr = m.cpu.vbr := rfl
@[simp] theorem setPsw_gtb (m : Mach) (p : Word) : (m.setPsw p).cpu.gtb = m.cpu.gtb := rfl
@[simp] theorem setPsw_gtl (m : Mach) (p : Word) : (m.setPsw p).cpu.gtl = m.cpu.gtl := rfl
@[simp] theorem setPsw_usp (m : Mach) (p : Word) : (m.setPsw p).cpu.usp = m.cpu.usp := rfl
@[simp] theorem setPsw_ssp (m : Mach) (p : Word) : (m.setPsw p).cpu.ssp = m.cpu.ssp := rfl
@[simp] theorem setPsw_cause (m : Mach) (p : Word) : (m.setPsw p).cpu.cause = m.cpu.cause := rfl
@[simp] theorem setPsw_info (m : Mach) (p : Word) : (m.setPsw p).cpu.info = m.cpu.info := rfl
@[simp] theorem setPsw_loops (m : Mach) (p : Word) : (m.setPsw p).cpu.loops = m.cpu.loops := rfl
@[simp] theorem setPsw_acc (m : Mach) (p : Word) : (m.setPsw p).cpu.acc = m.cpu.acc := rfl
@[simp] theorem setPsw_cychLatch (m : Mach) (p : Word) : (m.setPsw p).cpu.cychLatch = m.cpu.cychLatch := rfl
@[simp] theorem setPsw_afterRete (m : Mach) (p : Word) : (m.setPsw p).cpu.afterRete = m.cpu.afterRete := rfl
@[simp] theorem setPsw_begun (m : Mach) (p : Word) : (m.setPsw p).cpu.begun = m.cpu.begun := rfl
@[simp] theorem setPsw_entry (m : Mach) (p : Word) : (m.setPsw p).cpu.entry = m.cpu.entry := rfl
@[simp] theorem setPsw_word (m : Mach) (p : Word) : (m.setPsw p).cpu.word = m.cpu.word := rfl
@[simp] theorem setPsw_blk (m : Mach) (p : Word) : (m.setPsw p).cpu.blk = m.cpu.blk := rfl
@[simp] theorem setPsw_idle (m : Mach) (p : Word) : (m.setPsw p).cpu.idle = m.cpu.idle := rfl
@[simp] theorem setPsw_at12 (m : Mach) (p : Word) : (m.setPsw p).cpu.at12 = m.cpu.at12 := rfl
@[simp] theorem setPsw_psw (m : Mach) (p : Word) : (m.setPsw p).cpu.psw = p := rfl
@[simp] theorem setPsw_reg (m : Mach) (p : Word) (r : Reg) : (m.setPsw p).reg r = m.reg r := rfl

/-! ### `Mach.setReg` -/

@[simp] theorem setReg_vc (m : Mach) (r : Reg) (v : Word) : (m.setReg r v).vc = m.vc := rfl
@[simp] theorem setReg_reach (m : Mach) (r : Reg) (v : Word) : (m.setReg r v).reach = m.reach := rfl
@[simp] theorem setReg_mem (m : Mach) (r : Reg) (v : Word) : (m.setReg r v).mem = m.mem := rfl
@[simp] theorem setReg_img (m : Mach) (r : Reg) (v : Word) : (m.setReg r v).img = m.img := rfl
@[simp] theorem setReg_umask (m : Mach) (r : Reg) (v : Word) : (m.setReg r v).umask = m.umask := rfl
@[simp] theorem setReg_ic (m : Mach) (r : Reg) (v : Word) : (m.setReg r v).ic = m.ic := rfl
@[simp] theorem setReg_tm (m : Mach) (r : Reg) (v : Word) : (m.setReg r v).tm = m.tm := rfl
@[simp] theorem setReg_bm (m : Mach) (r : Reg) (v : Word) : (m.setReg r v).bm = m.bm := rfl
@[simp] theorem setReg_vid (m : Mach) (r : Reg) (v : Word) : (m.setReg r v).vid = m.vid := rfl
@[simp] theorem setReg_rl (m : Mach) (r : Reg) (v : Word) : (m.setReg r v).rl = m.rl := rfl
@[simp] theorem setReg_bu (m : Mach) (r : Reg) (v : Word) : (m.setReg r v).bu = m.bu := rfl
@[simp] theorem setReg_au (m : Mach) (r : Reg) (v : Word) : (m.setReg r v).au = m.au := rfl
@[simp] theorem setReg_inp (m : Mach) (r : Reg) (v : Word) : (m.setReg r v).inp = m.inp := rfl
@[simp] theorem setReg_oq (m : Mach) (r : Reg) (v : Word) : (m.setReg r v).oq = m.oq := rfl
@[simp] theorem setReg_rb (m : Mach) (r : Reg) (v : Word) : (m.setReg r v).rb = m.rb := rfl
@[simp] theorem setReg_dbg (m : Mach) (r : Reg) (v : Word) : (m.setReg r v).dbg = m.dbg := rfl
@[simp] theorem setReg_attest (m : Mach) (r : Reg) (v : Word) : (m.setReg r v).attest = m.attest := rfl
@[simp] theorem setReg_drbg (m : Mach) (r : Reg) (v : Word) : (m.setReg r v).drbg = m.drbg := rfl
@[simp] theorem setReg_wall (m : Mach) (r : Reg) (v : Word) : (m.setReg r v).wall = m.wall := rfl
@[simp] theorem setReg_cur (m : Mach) (r : Reg) (v : Word) : (m.setReg r v).cur = m.cur := rfl
@[simp] theorem setReg_ioData (m : Mach) (r : Reg) (v : Word) : (m.setReg r v).ioData = m.ioData := rfl
@[simp] theorem setReg_posted (m : Mach) (r : Reg) (v : Word) : (m.setReg r v).posted = m.posted := rfl
@[simp] theorem setReg_fx (m : Mach) (r : Reg) (v : Word) : (m.setReg r v).fx = m.fx := rfl
@[simp] theorem setReg_pc (m : Mach) (r : Reg) (v : Word) : (m.setReg r v).cpu.pc = m.cpu.pc := rfl
@[simp] theorem setReg_psw (m : Mach) (r : Reg) (v : Word) : (m.setReg r v).cpu.psw = m.cpu.psw := rfl
@[simp] theorem setReg_hold (m : Mach) (r : Reg) (v : Word) : (m.setReg r v).cpu.hold = m.cpu.hold := rfl
@[simp] theorem setReg_vbr (m : Mach) (r : Reg) (v : Word) : (m.setReg r v).cpu.vbr = m.cpu.vbr := rfl
@[simp] theorem setReg_gtb (m : Mach) (r : Reg) (v : Word) : (m.setReg r v).cpu.gtb = m.cpu.gtb := rfl
@[simp] theorem setReg_gtl (m : Mach) (r : Reg) (v : Word) : (m.setReg r v).cpu.gtl = m.cpu.gtl := rfl
@[simp] theorem setReg_usp (m : Mach) (r : Reg) (v : Word) : (m.setReg r v).cpu.usp = m.cpu.usp := rfl
@[simp] theorem setReg_ssp (m : Mach) (r : Reg) (v : Word) : (m.setReg r v).cpu.ssp = m.cpu.ssp := rfl
@[simp] theorem setReg_cause (m : Mach) (r : Reg) (v : Word) : (m.setReg r v).cpu.cause = m.cpu.cause := rfl
@[simp] theorem setReg_info (m : Mach) (r : Reg) (v : Word) : (m.setReg r v).cpu.info = m.cpu.info := rfl
@[simp] theorem setReg_loops (m : Mach) (r : Reg) (v : Word) : (m.setReg r v).cpu.loops = m.cpu.loops := rfl
@[simp] theorem setReg_acc (m : Mach) (r : Reg) (v : Word) : (m.setReg r v).cpu.acc = m.cpu.acc := rfl
@[simp] theorem setReg_cychLatch (m : Mach) (r : Reg) (v : Word) : (m.setReg r v).cpu.cychLatch = m.cpu.cychLatch := rfl
@[simp] theorem setReg_afterRete (m : Mach) (r : Reg) (v : Word) : (m.setReg r v).cpu.afterRete = m.cpu.afterRete := rfl
@[simp] theorem setReg_begun (m : Mach) (r : Reg) (v : Word) : (m.setReg r v).cpu.begun = m.cpu.begun := rfl
@[simp] theorem setReg_entry (m : Mach) (r : Reg) (v : Word) : (m.setReg r v).cpu.entry = m.cpu.entry := rfl
@[simp] theorem setReg_word (m : Mach) (r : Reg) (v : Word) : (m.setReg r v).cpu.word = m.cpu.word := rfl
@[simp] theorem setReg_blk (m : Mach) (r : Reg) (v : Word) : (m.setReg r v).cpu.blk = m.cpu.blk := rfl
@[simp] theorem setReg_idle (m : Mach) (r : Reg) (v : Word) : (m.setReg r v).cpu.idle = m.cpu.idle := rfl
@[simp] theorem setReg_at12 (m : Mach) (r : Reg) (v : Word) : (m.setReg r v).cpu.at12 = m.cpu.at12 := rfl
@[simp] theorem setReg_regs (m : Mach) (r : Reg) (v : Word) : (m.setReg r v).cpu.regs = m.cpu.regs.set r v := rfl

/-- A register that was written reads as written; every other one as before. -/
theorem setReg_reg (m : Mach) (r k : Reg) (v : Word) : (m.setReg r v).reg k = if k = r then v else m.reg k := by
  simp only [Mach.reg, Mach.setReg, Fin.getElem_fin, Vector.getElem_set]
  by_cases h : k = r
  · simp [h]
  · rw [if_neg (fun e => h (Fin.ext e.symm)), if_neg h]


/-! ### `Mach.emit` -/

@[simp] theorem emit_cpu (m : Mach) (f : Fx) : (m.emit f).cpu = m.cpu := rfl
@[simp] theorem emit_vc (m : Mach) (f : Fx) : (m.emit f).vc = m.vc := rfl
@[simp] theorem emit_reach (m : Mach) (f : Fx) : (m.emit f).reach = m.reach := rfl
@[simp] theorem emit_mem (m : Mach) (f : Fx) : (m.emit f).mem = m.mem := rfl
@[simp] theorem emit_img (m : Mach) (f : Fx) : (m.emit f).img = m.img := rfl
@[simp] theorem emit_umask (m : Mach) (f : Fx) : (m.emit f).umask = m.umask := rfl
@[simp] theorem emit_ic (m : Mach) (f : Fx) : (m.emit f).ic = m.ic := rfl
@[simp] theorem emit_tm (m : Mach) (f : Fx) : (m.emit f).tm = m.tm := rfl
@[simp] theorem emit_bm (m : Mach) (f : Fx) : (m.emit f).bm = m.bm := rfl
@[simp] theorem emit_vid (m : Mach) (f : Fx) : (m.emit f).vid = m.vid := rfl
@[simp] theorem emit_rl (m : Mach) (f : Fx) : (m.emit f).rl = m.rl := rfl
@[simp] theorem emit_bu (m : Mach) (f : Fx) : (m.emit f).bu = m.bu := rfl
@[simp] theorem emit_au (m : Mach) (f : Fx) : (m.emit f).au = m.au := rfl
@[simp] theorem emit_inp (m : Mach) (f : Fx) : (m.emit f).inp = m.inp := rfl
@[simp] theorem emit_oq (m : Mach) (f : Fx) : (m.emit f).oq = m.oq := rfl
@[simp] theorem emit_rb (m : Mach) (f : Fx) : (m.emit f).rb = m.rb := rfl
@[simp] theorem emit_dbg (m : Mach) (f : Fx) : (m.emit f).dbg = m.dbg := rfl
@[simp] theorem emit_attest (m : Mach) (f : Fx) : (m.emit f).attest = m.attest := rfl
@[simp] theorem emit_drbg (m : Mach) (f : Fx) : (m.emit f).drbg = m.drbg := rfl
@[simp] theorem emit_wall (m : Mach) (f : Fx) : (m.emit f).wall = m.wall := rfl
@[simp] theorem emit_cur (m : Mach) (f : Fx) : (m.emit f).cur = m.cur := rfl
@[simp] theorem emit_ioData (m : Mach) (f : Fx) : (m.emit f).ioData = m.ioData := rfl
@[simp] theorem emit_posted (m : Mach) (f : Fx) : (m.emit f).posted = m.posted := rfl
@[simp] theorem emit_fx (m : Mach) (f : Fx) : (m.emit f).fx = m.fx ++ [f] := rfl
@[simp] theorem emit_reg (m : Mach) (f : Fx) (r : Reg) : (m.emit f).reg r = m.reg r := rfl

/-! ### `Mach.raise` -/

@[simp] theorem raise_cpu (m : Mach) (s t : Nat) : (m.raise s t).cpu = m.cpu := rfl
@[simp] theorem raise_vc (m : Mach) (s t : Nat) : (m.raise s t).vc = m.vc := rfl
@[simp] theorem raise_reach (m : Mach) (s t : Nat) : (m.raise s t).reach = m.reach := rfl
@[simp] theorem raise_mem (m : Mach) (s t : Nat) : (m.raise s t).mem = m.mem := rfl
@[simp] theorem raise_img (m : Mach) (s t : Nat) : (m.raise s t).img = m.img := rfl
@[simp] theorem raise_umask (m : Mach) (s t : Nat) : (m.raise s t).umask = m.umask := rfl
@[simp] theorem raise_tm (m : Mach) (s t : Nat) : (m.raise s t).tm = m.tm := rfl
@[simp] theorem raise_bm (m : Mach) (s t : Nat) : (m.raise s t).bm = m.bm := rfl
@[simp] theorem raise_vid (m : Mach) (s t : Nat) : (m.raise s t).vid = m.vid := rfl
@[simp] theorem raise_rl (m : Mach) (s t : Nat) : (m.raise s t).rl = m.rl := rfl
@[simp] theorem raise_bu (m : Mach) (s t : Nat) : (m.raise s t).bu = m.bu := rfl
@[simp] theorem raise_au (m : Mach) (s t : Nat) : (m.raise s t).au = m.au := rfl
@[simp] theorem raise_inp (m : Mach) (s t : Nat) : (m.raise s t).inp = m.inp := rfl
@[simp] theorem raise_oq (m : Mach) (s t : Nat) : (m.raise s t).oq = m.oq := rfl
@[simp] theorem raise_rb (m : Mach) (s t : Nat) : (m.raise s t).rb = m.rb := rfl
@[simp] theorem raise_dbg (m : Mach) (s t : Nat) : (m.raise s t).dbg = m.dbg := rfl
@[simp] theorem raise_attest (m : Mach) (s t : Nat) : (m.raise s t).attest = m.attest := rfl
@[simp] theorem raise_drbg (m : Mach) (s t : Nat) : (m.raise s t).drbg = m.drbg := rfl
@[simp] theorem raise_wall (m : Mach) (s t : Nat) : (m.raise s t).wall = m.wall := rfl
@[simp] theorem raise_cur (m : Mach) (s t : Nat) : (m.raise s t).cur = m.cur := rfl
@[simp] theorem raise_ioData (m : Mach) (s t : Nat) : (m.raise s t).ioData = m.ioData := rfl
@[simp] theorem raise_posted (m : Mach) (s t : Nat) : (m.raise s t).posted = m.posted := rfl
@[simp] theorem raise_fx (m : Mach) (s t : Nat) : (m.raise s t).fx = m.fx := rfl
@[simp] theorem raise_pend (m : Mach) (s t : Nat) : (m.raise s t).ic.pend.val = m.ic.pend.val ||| BitVec.ofNat 32 (2 ^ s) := rfl
@[simp] theorem raise_enable (m : Mach) (s t : Nat) : (m.raise s t).ic.enable = m.ic.enable := rfl
@[simp] theorem raise_prio (m : Mach) (s t : Nat) : (m.raise s t).ic.prio = m.ic.prio := rfl

/-! ### `Mach.setTimer` -/

@[simp] theorem setTimer_cpu (m : Mach) (n : Nat) (x : Timer) : (m.setTimer n x).cpu = m.cpu := rfl
@[simp] theorem setTimer_vc (m : Mach) (n : Nat) (x : Timer) : (m.setTimer n x).vc = m.vc := rfl
@[simp] theorem setTimer_reach (m : Mach) (n : Nat) (x : Timer) : (m.setTimer n x).reach = m.reach := rfl
@[simp] theorem setTimer_mem (m : Mach) (n : Nat) (x : Timer) : (m.setTimer n x).mem = m.mem := rfl
@[simp] theorem setTimer_img (m : Mach) (n : Nat) (x : Timer) : (m.setTimer n x).img = m.img := rfl
@[simp] theorem setTimer_umask (m : Mach) (n : Nat) (x : Timer) : (m.setTimer n x).umask = m.umask := rfl
@[simp] theorem setTimer_ic (m : Mach) (n : Nat) (x : Timer) : (m.setTimer n x).ic = m.ic := rfl
@[simp] theorem setTimer_bm (m : Mach) (n : Nat) (x : Timer) : (m.setTimer n x).bm = m.bm := rfl
@[simp] theorem setTimer_vid (m : Mach) (n : Nat) (x : Timer) : (m.setTimer n x).vid = m.vid := rfl
@[simp] theorem setTimer_rl (m : Mach) (n : Nat) (x : Timer) : (m.setTimer n x).rl = m.rl := rfl
@[simp] theorem setTimer_bu (m : Mach) (n : Nat) (x : Timer) : (m.setTimer n x).bu = m.bu := rfl
@[simp] theorem setTimer_au (m : Mach) (n : Nat) (x : Timer) : (m.setTimer n x).au = m.au := rfl
@[simp] theorem setTimer_inp (m : Mach) (n : Nat) (x : Timer) : (m.setTimer n x).inp = m.inp := rfl
@[simp] theorem setTimer_oq (m : Mach) (n : Nat) (x : Timer) : (m.setTimer n x).oq = m.oq := rfl
@[simp] theorem setTimer_rb (m : Mach) (n : Nat) (x : Timer) : (m.setTimer n x).rb = m.rb := rfl
@[simp] theorem setTimer_dbg (m : Mach) (n : Nat) (x : Timer) : (m.setTimer n x).dbg = m.dbg := rfl
@[simp] theorem setTimer_attest (m : Mach) (n : Nat) (x : Timer) : (m.setTimer n x).attest = m.attest := rfl
@[simp] theorem setTimer_drbg (m : Mach) (n : Nat) (x : Timer) : (m.setTimer n x).drbg = m.drbg := rfl
@[simp] theorem setTimer_wall (m : Mach) (n : Nat) (x : Timer) : (m.setTimer n x).wall = m.wall := rfl
@[simp] theorem setTimer_cur (m : Mach) (n : Nat) (x : Timer) : (m.setTimer n x).cur = m.cur := rfl
@[simp] theorem setTimer_ioData (m : Mach) (n : Nat) (x : Timer) : (m.setTimer n x).ioData = m.ioData := rfl
@[simp] theorem setTimer_posted (m : Mach) (n : Nat) (x : Timer) : (m.setTimer n x).posted = m.posted := rfl
@[simp] theorem setTimer_fx (m : Mach) (n : Nat) (x : Timer) : (m.setTimer n x).fx = m.fx := rfl

/-! ### `Mach.setOq` -/

@[simp] theorem setOq_cpu (m : Mach) (q : Nat) (x : Oq) : (m.setOq q x).cpu = m.cpu := rfl
@[simp] theorem setOq_vc (m : Mach) (q : Nat) (x : Oq) : (m.setOq q x).vc = m.vc := rfl
@[simp] theorem setOq_reach (m : Mach) (q : Nat) (x : Oq) : (m.setOq q x).reach = m.reach := rfl
@[simp] theorem setOq_mem (m : Mach) (q : Nat) (x : Oq) : (m.setOq q x).mem = m.mem := rfl
@[simp] theorem setOq_img (m : Mach) (q : Nat) (x : Oq) : (m.setOq q x).img = m.img := rfl
@[simp] theorem setOq_umask (m : Mach) (q : Nat) (x : Oq) : (m.setOq q x).umask = m.umask := rfl
@[simp] theorem setOq_ic (m : Mach) (q : Nat) (x : Oq) : (m.setOq q x).ic = m.ic := rfl
@[simp] theorem setOq_tm (m : Mach) (q : Nat) (x : Oq) : (m.setOq q x).tm = m.tm := rfl
@[simp] theorem setOq_bm (m : Mach) (q : Nat) (x : Oq) : (m.setOq q x).bm = m.bm := rfl
@[simp] theorem setOq_vid (m : Mach) (q : Nat) (x : Oq) : (m.setOq q x).vid = m.vid := rfl
@[simp] theorem setOq_rl (m : Mach) (q : Nat) (x : Oq) : (m.setOq q x).rl = m.rl := rfl
@[simp] theorem setOq_bu (m : Mach) (q : Nat) (x : Oq) : (m.setOq q x).bu = m.bu := rfl
@[simp] theorem setOq_au (m : Mach) (q : Nat) (x : Oq) : (m.setOq q x).au = m.au := rfl
@[simp] theorem setOq_inp (m : Mach) (q : Nat) (x : Oq) : (m.setOq q x).inp = m.inp := rfl
@[simp] theorem setOq_rb (m : Mach) (q : Nat) (x : Oq) : (m.setOq q x).rb = m.rb := rfl
@[simp] theorem setOq_dbg (m : Mach) (q : Nat) (x : Oq) : (m.setOq q x).dbg = m.dbg := rfl
@[simp] theorem setOq_attest (m : Mach) (q : Nat) (x : Oq) : (m.setOq q x).attest = m.attest := rfl
@[simp] theorem setOq_drbg (m : Mach) (q : Nat) (x : Oq) : (m.setOq q x).drbg = m.drbg := rfl
@[simp] theorem setOq_wall (m : Mach) (q : Nat) (x : Oq) : (m.setOq q x).wall = m.wall := rfl
@[simp] theorem setOq_cur (m : Mach) (q : Nat) (x : Oq) : (m.setOq q x).cur = m.cur := rfl
@[simp] theorem setOq_ioData (m : Mach) (q : Nat) (x : Oq) : (m.setOq q x).ioData = m.ioData := rfl
@[simp] theorem setOq_posted (m : Mach) (q : Nat) (x : Oq) : (m.setOq q x).posted = m.posted := rfl
@[simp] theorem setOq_fx (m : Mach) (q : Nat) (x : Oq) : (m.setOq q x).fx = m.fx := rfl

/-! ### `Mach.stampWrite` -/

@[simp] theorem stampWrite_cpu (m : Mach) (w : VWrite) : (m.stampWrite w).cpu = m.cpu := rfl
@[simp] theorem stampWrite_vc (m : Mach) (w : VWrite) : (m.stampWrite w).vc = m.vc := rfl
@[simp] theorem stampWrite_reach (m : Mach) (w : VWrite) : (m.stampWrite w).reach = m.reach := rfl
@[simp] theorem stampWrite_mem (m : Mach) (w : VWrite) : (m.stampWrite w).mem = m.mem := rfl
@[simp] theorem stampWrite_img (m : Mach) (w : VWrite) : (m.stampWrite w).img = m.img := rfl
@[simp] theorem stampWrite_umask (m : Mach) (w : VWrite) : (m.stampWrite w).umask = m.umask := rfl
@[simp] theorem stampWrite_ic (m : Mach) (w : VWrite) : (m.stampWrite w).ic = m.ic := rfl
@[simp] theorem stampWrite_tm (m : Mach) (w : VWrite) : (m.stampWrite w).tm = m.tm := rfl
@[simp] theorem stampWrite_bm (m : Mach) (w : VWrite) : (m.stampWrite w).bm = m.bm := rfl
@[simp] theorem stampWrite_rl (m : Mach) (w : VWrite) : (m.stampWrite w).rl = m.rl := rfl
@[simp] theorem stampWrite_bu (m : Mach) (w : VWrite) : (m.stampWrite w).bu = m.bu := rfl
@[simp] theorem stampWrite_au (m : Mach) (w : VWrite) : (m.stampWrite w).au = m.au := rfl
@[simp] theorem stampWrite_inp (m : Mach) (w : VWrite) : (m.stampWrite w).inp = m.inp := rfl
@[simp] theorem stampWrite_oq (m : Mach) (w : VWrite) : (m.stampWrite w).oq = m.oq := rfl
@[simp] theorem stampWrite_rb (m : Mach) (w : VWrite) : (m.stampWrite w).rb = m.rb := rfl
@[simp] theorem stampWrite_dbg (m : Mach) (w : VWrite) : (m.stampWrite w).dbg = m.dbg := rfl
@[simp] theorem stampWrite_attest (m : Mach) (w : VWrite) : (m.stampWrite w).attest = m.attest := rfl
@[simp] theorem stampWrite_drbg (m : Mach) (w : VWrite) : (m.stampWrite w).drbg = m.drbg := rfl
@[simp] theorem stampWrite_wall (m : Mach) (w : VWrite) : (m.stampWrite w).wall = m.wall := rfl
@[simp] theorem stampWrite_cur (m : Mach) (w : VWrite) : (m.stampWrite w).cur = m.cur := rfl
@[simp] theorem stampWrite_ioData (m : Mach) (w : VWrite) : (m.stampWrite w).ioData = m.ioData := rfl
@[simp] theorem stampWrite_posted (m : Mach) (w : VWrite) : (m.stampWrite w).posted = m.posted := rfl
@[simp] theorem stampWrite_fx (m : Mach) (w : VWrite) : (m.stampWrite w).fx = m.fx ++ [.stamped w] := rfl

/-! ### `State.putCtx` -/

@[simp] theorem putCtx_pending (s : State) (x : Ctx) : (s.putCtx x).pending = s.pending := rfl
@[simp] theorem putCtx_images (s : State) (x : Ctx) : (s.putCtx x).images = s.images := rfl
@[simp] theorem putCtx_queues (s : State) (x : Ctx) : (s.putCtx x).queues = s.queues := rfl
@[simp] theorem putCtx_qcache (s : State) (x : Ctx) : (s.putCtx x).qcache = s.qcache := rfl
@[simp] theorem putCtx_funcs (s : State) (x : Ctx) : (s.putCtx x).funcs = s.funcs := rfl
@[simp] theorem putCtx_coals (s : State) (x : Ctx) : (s.putCtx x).coals = s.coals := rfl
@[simp] theorem putCtx_dmas (s : State) (x : Ctx) : (s.putCtx x).dmas = s.dmas := rfl
@[simp] theorem putCtx_wire (s : State) (x : Ctx) : (s.putCtx x).wire = s.wire := rfl
@[simp] theorem putCtx_mgmt (s : State) (x : Ctx) : (s.putCtx x).mgmt = s.mgmt := rfl
@[simp] theorem putCtx_ident (s : State) (x : Ctx) : (s.putCtx x).ident = s.ident := rfl
@[simp] theorem putCtx_votes (s : State) (x : Ctx) : (s.putCtx x).votes = s.votes := rfl
@[simp] theorem putCtx_audit (s : State) (x : Ctx) : (s.putCtx x).audit = s.audit := rfl
@[simp] theorem putCtx_power (s : State) (x : Ctx) : (s.putCtx x).power = s.power := rfl
@[simp] theorem putCtx_gpio (s : State) (x : Ctx) : (s.putCtx x).gpio = s.gpio := rfl
@[simp] theorem putCtx_ras (s : State) (x : Ctx) : (s.putCtx x).ras = s.ras := rfl
@[simp] theorem putCtx_reticle (s : State) (x : Ctx) : (s.putCtx x).reticle = s.reticle := rfl
@[simp] theorem putCtx_free (s : State) (x : Ctx) : (s.putCtx x).free = s.free := rfl

/-! ### `State.putQueue` -/

@[simp] theorem putQueue_pending (s : State) (q : Queue) : (s.putQueue q).pending = s.pending := rfl
@[simp] theorem putQueue_ctxs (s : State) (q : Queue) : (s.putQueue q).ctxs = s.ctxs := rfl
@[simp] theorem putQueue_images (s : State) (q : Queue) : (s.putQueue q).images = s.images := rfl
@[simp] theorem putQueue_qcache (s : State) (q : Queue) : (s.putQueue q).qcache = s.qcache := rfl
@[simp] theorem putQueue_funcs (s : State) (q : Queue) : (s.putQueue q).funcs = s.funcs := rfl
@[simp] theorem putQueue_coals (s : State) (q : Queue) : (s.putQueue q).coals = s.coals := rfl
@[simp] theorem putQueue_dmas (s : State) (q : Queue) : (s.putQueue q).dmas = s.dmas := rfl
@[simp] theorem putQueue_wire (s : State) (q : Queue) : (s.putQueue q).wire = s.wire := rfl
@[simp] theorem putQueue_mgmt (s : State) (q : Queue) : (s.putQueue q).mgmt = s.mgmt := rfl
@[simp] theorem putQueue_ident (s : State) (q : Queue) : (s.putQueue q).ident = s.ident := rfl
@[simp] theorem putQueue_votes (s : State) (q : Queue) : (s.putQueue q).votes = s.votes := rfl
@[simp] theorem putQueue_audit (s : State) (q : Queue) : (s.putQueue q).audit = s.audit := rfl
@[simp] theorem putQueue_power (s : State) (q : Queue) : (s.putQueue q).power = s.power := rfl
@[simp] theorem putQueue_gpio (s : State) (q : Queue) : (s.putQueue q).gpio = s.gpio := rfl
@[simp] theorem putQueue_ras (s : State) (q : Queue) : (s.putQueue q).ras = s.ras := rfl
@[simp] theorem putQueue_reticle (s : State) (q : Queue) : (s.putQueue q).reticle = s.reticle := rfl
@[simp] theorem putQueue_free (s : State) (q : Queue) : (s.putQueue q).free = s.free := rfl

/-! ### `State.setFunc` -/

@[simp] theorem setFunc_pending (s : State) (p : Nat) (f : Func) : (s.setFunc p f).pending = s.pending := rfl
@[simp] theorem setFunc_ctxs (s : State) (p : Nat) (f : Func) : (s.setFunc p f).ctxs = s.ctxs := rfl
@[simp] theorem setFunc_images (s : State) (p : Nat) (f : Func) : (s.setFunc p f).images = s.images := rfl
@[simp] theorem setFunc_queues (s : State) (p : Nat) (f : Func) : (s.setFunc p f).queues = s.queues := rfl
@[simp] theorem setFunc_qcache (s : State) (p : Nat) (f : Func) : (s.setFunc p f).qcache = s.qcache := rfl
@[simp] theorem setFunc_coals (s : State) (p : Nat) (f : Func) : (s.setFunc p f).coals = s.coals := rfl
@[simp] theorem setFunc_dmas (s : State) (p : Nat) (f : Func) : (s.setFunc p f).dmas = s.dmas := rfl
@[simp] theorem setFunc_wire (s : State) (p : Nat) (f : Func) : (s.setFunc p f).wire = s.wire := rfl
@[simp] theorem setFunc_mgmt (s : State) (p : Nat) (f : Func) : (s.setFunc p f).mgmt = s.mgmt := rfl
@[simp] theorem setFunc_ident (s : State) (p : Nat) (f : Func) : (s.setFunc p f).ident = s.ident := rfl
@[simp] theorem setFunc_votes (s : State) (p : Nat) (f : Func) : (s.setFunc p f).votes = s.votes := rfl
@[simp] theorem setFunc_audit (s : State) (p : Nat) (f : Func) : (s.setFunc p f).audit = s.audit := rfl
@[simp] theorem setFunc_power (s : State) (p : Nat) (f : Func) : (s.setFunc p f).power = s.power := rfl
@[simp] theorem setFunc_gpio (s : State) (p : Nat) (f : Func) : (s.setFunc p f).gpio = s.gpio := rfl
@[simp] theorem setFunc_ras (s : State) (p : Nat) (f : Func) : (s.setFunc p f).ras = s.ras := rfl
@[simp] theorem setFunc_reticle (s : State) (p : Nat) (f : Func) : (s.setFunc p f).reticle = s.reticle := rfl
@[simp] theorem setFunc_free (s : State) (p : Nat) (f : Func) : (s.setFunc p f).free = s.free := rfl
@[simp] theorem setFunc_ports (s : State) (p : Nat) (f : Func) : (s.setFunc p f).ports = s.ports := rfl

/-- A function that was written reads as written; the other one as before. -/
theorem setFunc_func (s : State) (p k : Nat) (f : Func) : (s.setFunc p f).func k = if k % 2 = p % 2 then f else s.func k := by
  simp only [State.func, State.setFunc, Vector.getElem_set]
  by_cases h : k % 2 = p % 2
  · simp [h]
  · rw [if_neg (fun e => h e.symm), if_neg h]


/-! ### `State.setBox` -/

@[simp] theorem setBox_pending (s : State) (m : Nat) (b : Mailbox) : (s.setBox m b).pending = s.pending := rfl
@[simp] theorem setBox_ctxs (s : State) (m : Nat) (b : Mailbox) : (s.setBox m b).ctxs = s.ctxs := rfl
@[simp] theorem setBox_images (s : State) (m : Nat) (b : Mailbox) : (s.setBox m b).images = s.images := rfl
@[simp] theorem setBox_queues (s : State) (m : Nat) (b : Mailbox) : (s.setBox m b).queues = s.queues := rfl
@[simp] theorem setBox_qcache (s : State) (m : Nat) (b : Mailbox) : (s.setBox m b).qcache = s.qcache := rfl
@[simp] theorem setBox_funcs (s : State) (m : Nat) (b : Mailbox) : (s.setBox m b).funcs = s.funcs := rfl
@[simp] theorem setBox_coals (s : State) (m : Nat) (b : Mailbox) : (s.setBox m b).coals = s.coals := rfl
@[simp] theorem setBox_dmas (s : State) (m : Nat) (b : Mailbox) : (s.setBox m b).dmas = s.dmas := rfl
@[simp] theorem setBox_wire (s : State) (m : Nat) (b : Mailbox) : (s.setBox m b).wire = s.wire := rfl
@[simp] theorem setBox_ident (s : State) (m : Nat) (b : Mailbox) : (s.setBox m b).ident = s.ident := rfl
@[simp] theorem setBox_votes (s : State) (m : Nat) (b : Mailbox) : (s.setBox m b).votes = s.votes := rfl
@[simp] theorem setBox_audit (s : State) (m : Nat) (b : Mailbox) : (s.setBox m b).audit = s.audit := rfl
@[simp] theorem setBox_power (s : State) (m : Nat) (b : Mailbox) : (s.setBox m b).power = s.power := rfl
@[simp] theorem setBox_gpio (s : State) (m : Nat) (b : Mailbox) : (s.setBox m b).gpio = s.gpio := rfl
@[simp] theorem setBox_ras (s : State) (m : Nat) (b : Mailbox) : (s.setBox m b).ras = s.ras := rfl
@[simp] theorem setBox_reticle (s : State) (m : Nat) (b : Mailbox) : (s.setBox m b).reticle = s.reticle := rfl
@[simp] theorem setBox_free (s : State) (m : Nat) (b : Mailbox) : (s.setBox m b).free = s.free := rfl
@[simp] theorem setBox_devstate (s : State) (m : Nat) (b : Mailbox) : (s.setBox m b).mgmt.devstate = s.mgmt.devstate := rfl
@[simp] theorem setBox_owner (s : State) (m : Nat) (b : Mailbox) : (s.setBox m b).mgmt.owner = s.mgmt.owner := rfl
@[simp] theorem setBox_leaseEnd (s : State) (m : Nat) (b : Mailbox) : (s.setBox m b).mgmt.leaseEnd = s.mgmt.leaseEnd := rfl
@[simp] theorem setBox_lease (s : State) (m : Nat) (b : Mailbox) : (s.setBox m b).mgmt.lease = s.mgmt.lease := rfl
@[simp] theorem setBox_elect (s : State) (m : Nat) (b : Mailbox) : (s.setBox m b).mgmt.elect = s.mgmt.elect := rfl
@[simp] theorem setBox_order (s : State) (m : Nat) (b : Mailbox) : (s.setBox m b).mgmt.order = s.mgmt.order := rfl
@[simp] theorem setBox_orderNext (s : State) (m : Nat) (b : Mailbox) : (s.setBox m b).mgmt.orderNext = s.mgmt.orderNext := rfl
@[simp] theorem setBox_offer (s : State) (m : Nat) (b : Mailbox) : (s.setBox m b).mgmt.offer = s.mgmt.offer := rfl
@[simp] theorem setBox_m2addr (s : State) (m : Nat) (b : Mailbox) : (s.setBox m b).mgmt.m2addr = s.mgmt.m2addr := rfl
@[simp] theorem setBox_sessions (s : State) (m : Nat) (b : Mailbox) : (s.setBox m b).mgmt.sessions = s.mgmt.sessions := rfl
@[simp] theorem setBox_creds (s : State) (m : Nat) (b : Mailbox) : (s.setBox m b).mgmt.creds = s.mgmt.creds := rfl
@[simp] theorem setBox_pend (s : State) (m : Nat) (b : Mailbox) : (s.setBox m b).mgmt.pend = s.mgmt.pend := rfl
@[simp] theorem setBox_m2off (s : State) (m : Nat) (b : Mailbox) : (s.setBox m b).mgmt.m2off = s.mgmt.m2off := rfl
@[simp] theorem setBox_m2len (s : State) (m : Nat) (b : Mailbox) : (s.setBox m b).mgmt.m2len = s.mgmt.m2len := rfl
@[simp] theorem setBox_m2data (s : State) (m : Nat) (b : Mailbox) : (s.setBox m b).mgmt.m2data = s.mgmt.m2data := rfl
@[simp] theorem setBox_faultAt (s : State) (m : Nat) (b : Mailbox) : (s.setBox m b).mgmt.faultAt = s.mgmt.faultAt := rfl
@[simp] theorem setBox_lastFault (s : State) (m : Nat) (b : Mailbox) : (s.setBox m b).mgmt.lastFault = s.mgmt.lastFault := rfl
@[simp] theorem setBox_tripped (s : State) (m : Nat) (b : Mailbox) : (s.setBox m b).mgmt.tripped = s.mgmt.tripped := rfl

/-- A mailbox that was written reads as written; the others as before. -/
theorem setBox_box (s : State) (m k : Nat) (b : Mailbox) : (s.setBox m b).box k = if k % 3 = m % 3 then b else s.box k := by
  simp only [State.box, State.setBox, Vector.getElem_set]
  by_cases h : k % 3 = m % 3
  · simp [h]
  · rw [if_neg (fun e => h e.symm), if_neg h]


/-! ### `State.setSession` -/

@[simp] theorem setSession_pending (s : State) (x : Session) : (s.setSession x).pending = s.pending := rfl
@[simp] theorem setSession_ctxs (s : State) (x : Session) : (s.setSession x).ctxs = s.ctxs := rfl
@[simp] theorem setSession_images (s : State) (x : Session) : (s.setSession x).images = s.images := rfl
@[simp] theorem setSession_queues (s : State) (x : Session) : (s.setSession x).queues = s.queues := rfl
@[simp] theorem setSession_qcache (s : State) (x : Session) : (s.setSession x).qcache = s.qcache := rfl
@[simp] theorem setSession_funcs (s : State) (x : Session) : (s.setSession x).funcs = s.funcs := rfl
@[simp] theorem setSession_coals (s : State) (x : Session) : (s.setSession x).coals = s.coals := rfl
@[simp] theorem setSession_dmas (s : State) (x : Session) : (s.setSession x).dmas = s.dmas := rfl
@[simp] theorem setSession_wire (s : State) (x : Session) : (s.setSession x).wire = s.wire := rfl
@[simp] theorem setSession_ident (s : State) (x : Session) : (s.setSession x).ident = s.ident := rfl
@[simp] theorem setSession_votes (s : State) (x : Session) : (s.setSession x).votes = s.votes := rfl
@[simp] theorem setSession_audit (s : State) (x : Session) : (s.setSession x).audit = s.audit := rfl
@[simp] theorem setSession_power (s : State) (x : Session) : (s.setSession x).power = s.power := rfl
@[simp] theorem setSession_gpio (s : State) (x : Session) : (s.setSession x).gpio = s.gpio := rfl
@[simp] theorem setSession_ras (s : State) (x : Session) : (s.setSession x).ras = s.ras := rfl
@[simp] theorem setSession_reticle (s : State) (x : Session) : (s.setSession x).reticle = s.reticle := rfl
@[simp] theorem setSession_free (s : State) (x : Session) : (s.setSession x).free = s.free := rfl
@[simp] theorem setSession_devstate (s : State) (x : Session) : (s.setSession x).mgmt.devstate = s.mgmt.devstate := rfl
@[simp] theorem setSession_owner (s : State) (x : Session) : (s.setSession x).mgmt.owner = s.mgmt.owner := rfl
@[simp] theorem setSession_leaseEnd (s : State) (x : Session) : (s.setSession x).mgmt.leaseEnd = s.mgmt.leaseEnd := rfl
@[simp] theorem setSession_lease (s : State) (x : Session) : (s.setSession x).mgmt.lease = s.mgmt.lease := rfl
@[simp] theorem setSession_elect (s : State) (x : Session) : (s.setSession x).mgmt.elect = s.mgmt.elect := rfl
@[simp] theorem setSession_order (s : State) (x : Session) : (s.setSession x).mgmt.order = s.mgmt.order := rfl
@[simp] theorem setSession_orderNext (s : State) (x : Session) : (s.setSession x).mgmt.orderNext = s.mgmt.orderNext := rfl
@[simp] theorem setSession_offer (s : State) (x : Session) : (s.setSession x).mgmt.offer = s.mgmt.offer := rfl
@[simp] theorem setSession_m2addr (s : State) (x : Session) : (s.setSession x).mgmt.m2addr = s.mgmt.m2addr := rfl
@[simp] theorem setSession_boxes (s : State) (x : Session) : (s.setSession x).mgmt.boxes = s.mgmt.boxes := rfl
@[simp] theorem setSession_creds (s : State) (x : Session) : (s.setSession x).mgmt.creds = s.mgmt.creds := rfl
@[simp] theorem setSession_pend (s : State) (x : Session) : (s.setSession x).mgmt.pend = s.mgmt.pend := rfl
@[simp] theorem setSession_m2off (s : State) (x : Session) : (s.setSession x).mgmt.m2off = s.mgmt.m2off := rfl
@[simp] theorem setSession_m2len (s : State) (x : Session) : (s.setSession x).mgmt.m2len = s.mgmt.m2len := rfl
@[simp] theorem setSession_m2data (s : State) (x : Session) : (s.setSession x).mgmt.m2data = s.mgmt.m2data := rfl
@[simp] theorem setSession_faultAt (s : State) (x : Session) : (s.setSession x).mgmt.faultAt = s.mgmt.faultAt := rfl
@[simp] theorem setSession_lastFault (s : State) (x : Session) : (s.setSession x).mgmt.lastFault = s.mgmt.lastFault := rfl
@[simp] theorem setSession_tripped (s : State) (x : Session) : (s.setSession x).mgmt.tripped = s.mgmt.tripped := rfl

/-! ### `closeSession` -/

@[simp] theorem closeSession_pending (s : State) (h : Word) : (closeSession s h).pending = s.pending := rfl
@[simp] theorem closeSession_ctxs (s : State) (h : Word) : (closeSession s h).ctxs = s.ctxs := rfl
@[simp] theorem closeSession_images (s : State) (h : Word) : (closeSession s h).images = s.images := rfl
@[simp] theorem closeSession_queues (s : State) (h : Word) : (closeSession s h).queues = s.queues := rfl
@[simp] theorem closeSession_qcache (s : State) (h : Word) : (closeSession s h).qcache = s.qcache := rfl
@[simp] theorem closeSession_funcs (s : State) (h : Word) : (closeSession s h).funcs = s.funcs := rfl
@[simp] theorem closeSession_coals (s : State) (h : Word) : (closeSession s h).coals = s.coals := rfl
@[simp] theorem closeSession_dmas (s : State) (h : Word) : (closeSession s h).dmas = s.dmas := rfl
@[simp] theorem closeSession_wire (s : State) (h : Word) : (closeSession s h).wire = s.wire := rfl
@[simp] theorem closeSession_ident (s : State) (h : Word) : (closeSession s h).ident = s.ident := rfl
@[simp] theorem closeSession_votes (s : State) (h : Word) : (closeSession s h).votes = s.votes := rfl
@[simp] theorem closeSession_audit (s : State) (h : Word) : (closeSession s h).audit = s.audit := rfl
@[simp] theorem closeSession_power (s : State) (h : Word) : (closeSession s h).power = s.power := rfl
@[simp] theorem closeSession_gpio (s : State) (h : Word) : (closeSession s h).gpio = s.gpio := rfl
@[simp] theorem closeSession_ras (s : State) (h : Word) : (closeSession s h).ras = s.ras := rfl
@[simp] theorem closeSession_reticle (s : State) (h : Word) : (closeSession s h).reticle = s.reticle := rfl
@[simp] theorem closeSession_free (s : State) (h : Word) : (closeSession s h).free = s.free := rfl

/-! ### `State.setDma` -/

@[simp] theorem setDma_pending (s : State) (c : Nat) (d : Dma) : (s.setDma c d).pending = s.pending := rfl
@[simp] theorem setDma_ctxs (s : State) (c : Nat) (d : Dma) : (s.setDma c d).ctxs = s.ctxs := rfl
@[simp] theorem setDma_images (s : State) (c : Nat) (d : Dma) : (s.setDma c d).images = s.images := rfl
@[simp] theorem setDma_queues (s : State) (c : Nat) (d : Dma) : (s.setDma c d).queues = s.queues := rfl
@[simp] theorem setDma_qcache (s : State) (c : Nat) (d : Dma) : (s.setDma c d).qcache = s.qcache := rfl
@[simp] theorem setDma_funcs (s : State) (c : Nat) (d : Dma) : (s.setDma c d).funcs = s.funcs := rfl
@[simp] theorem setDma_coals (s : State) (c : Nat) (d : Dma) : (s.setDma c d).coals = s.coals := rfl
@[simp] theorem setDma_wire (s : State) (c : Nat) (d : Dma) : (s.setDma c d).wire = s.wire := rfl
@[simp] theorem setDma_mgmt (s : State) (c : Nat) (d : Dma) : (s.setDma c d).mgmt = s.mgmt := rfl
@[simp] theorem setDma_ident (s : State) (c : Nat) (d : Dma) : (s.setDma c d).ident = s.ident := rfl
@[simp] theorem setDma_votes (s : State) (c : Nat) (d : Dma) : (s.setDma c d).votes = s.votes := rfl
@[simp] theorem setDma_audit (s : State) (c : Nat) (d : Dma) : (s.setDma c d).audit = s.audit := rfl
@[simp] theorem setDma_power (s : State) (c : Nat) (d : Dma) : (s.setDma c d).power = s.power := rfl
@[simp] theorem setDma_gpio (s : State) (c : Nat) (d : Dma) : (s.setDma c d).gpio = s.gpio := rfl
@[simp] theorem setDma_ras (s : State) (c : Nat) (d : Dma) : (s.setDma c d).ras = s.ras := rfl
@[simp] theorem setDma_reticle (s : State) (c : Nat) (d : Dma) : (s.setDma c d).reticle = s.reticle := rfl
@[simp] theorem setDma_free (s : State) (c : Nat) (d : Dma) : (s.setDma c d).free = s.free := rfl

/-! ### `Ctx.setQkey` -/

@[simp] theorem setQkey_num (x : Ctx) (q : Nat) (k : QKey) : (x.setQkey q k).num = x.num := rfl
@[simp] theorem setQkey_cfg (x : Ctx) (q : Nat) (k : QKey) : (x.setQkey q k).cfg = x.cfg := rfl
@[simp] theorem setQkey_stat (x : Ctx) (q : Nat) (k : QKey) : (x.setQkey q k).stat = x.stat := rfl
@[simp] theorem setQkey_m (x : Ctx) (q : Nat) (k : QKey) : (x.setQkey q k).m = x.m := rfl
@[simp] theorem setQkey_hold (x : Ctx) (q : Nat) (k : QKey) : (x.setQkey q k).hold = x.hold := rfl
@[simp] theorem setQkey_log (x : Ctx) (q : Nat) (k : QKey) : (x.setQkey q k).log = x.log := rfl
@[simp] theorem setQkey_inb (x : Ctx) (q : Nat) (k : QKey) : (x.setQkey q k).inb = x.inb := rfl
@[simp] theorem setQkey_rend (x : Ctx) (q : Nat) (k : QKey) : (x.setQkey q k).rend = x.rend := rfl
@[simp] theorem setQkey_outp (x : Ctx) (q : Nat) (k : QKey) : (x.setQkey q k).outp = x.outp := rfl
@[simp] theorem setQkey_orr (x : Ctx) (q : Nat) (k : QKey) : (x.setQkey q k).orr = x.orr := rfl
@[simp] theorem setQkey_snaps (x : Ctx) (q : Nat) (k : QKey) : (x.setQkey q k).snaps = x.snaps := rfl
@[simp] theorem setQkey_meters (x : Ctx) (q : Nat) (k : QKey) : (x.setQkey q k).meters = x.meters := rfl
@[simp] theorem setQkey_metersBase (x : Ctx) (q : Nat) (k : QKey) : (x.setQkey q k).metersBase = x.metersBase := rfl
@[simp] theorem setQkey_minBase (x : Ctx) (q : Nat) (k : QKey) : (x.setQkey q k).minBase = x.minBase := rfl
@[simp] theorem setQkey_spanStart (x : Ctx) (q : Nat) (k : QKey) : (x.setQkey q k).spanStart = x.spanStart := rfl
@[simp] theorem setQkey_tstep (x : Ctx) (q : Nat) (k : QKey) : (x.setQkey q k).tstep = x.tstep := rfl
@[simp] theorem setQkey_prevStmt (x : Ctx) (q : Nat) (k : QKey) : (x.setQkey q k).prevStmt = x.prevStmt := rfl
@[simp] theorem setQkey_memKey (x : Ctx) (q : Nat) (k : QKey) : (x.setQkey q k).memKey = x.memKey := rfl
@[simp] theorem setQkey_imported (x : Ctx) (q : Nat) (k : QKey) : (x.setQkey q k).imported = x.imported := rfl
@[simp] theorem setQkey_bad (x : Ctx) (q : Nat) (k : QKey) : (x.setQkey q k).bad = x.bad := rfl
@[simp] theorem setQkey_carried (x : Ctx) (q : Nat) (k : QKey) : (x.setQkey q k).carried = x.carried := rfl

/-! ### `Ctx.addMeter` -/

@[simp] theorem addMeter_num (x : Ctx) (k n : Nat) : (x.addMeter k n).num = x.num := rfl
@[simp] theorem addMeter_cfg (x : Ctx) (k n : Nat) : (x.addMeter k n).cfg = x.cfg := rfl
@[simp] theorem addMeter_stat (x : Ctx) (k n : Nat) : (x.addMeter k n).stat = x.stat := rfl
@[simp] theorem addMeter_m (x : Ctx) (k n : Nat) : (x.addMeter k n).m = x.m := rfl
@[simp] theorem addMeter_hold (x : Ctx) (k n : Nat) : (x.addMeter k n).hold = x.hold := rfl
@[simp] theorem addMeter_log (x : Ctx) (k n : Nat) : (x.addMeter k n).log = x.log := rfl
@[simp] theorem addMeter_inb (x : Ctx) (k n : Nat) : (x.addMeter k n).inb = x.inb := rfl
@[simp] theorem addMeter_rend (x : Ctx) (k n : Nat) : (x.addMeter k n).rend = x.rend := rfl
@[simp] theorem addMeter_outp (x : Ctx) (k n : Nat) : (x.addMeter k n).outp = x.outp := rfl
@[simp] theorem addMeter_orr (x : Ctx) (k n : Nat) : (x.addMeter k n).orr = x.orr := rfl
@[simp] theorem addMeter_snaps (x : Ctx) (k n : Nat) : (x.addMeter k n).snaps = x.snaps := rfl
@[simp] theorem addMeter_keys (x : Ctx) (k n : Nat) : (x.addMeter k n).keys = x.keys := rfl
@[simp] theorem addMeter_metersBase (x : Ctx) (k n : Nat) : (x.addMeter k n).metersBase = x.metersBase := rfl
@[simp] theorem addMeter_minBase (x : Ctx) (k n : Nat) : (x.addMeter k n).minBase = x.minBase := rfl
@[simp] theorem addMeter_spanStart (x : Ctx) (k n : Nat) : (x.addMeter k n).spanStart = x.spanStart := rfl
@[simp] theorem addMeter_tstep (x : Ctx) (k n : Nat) : (x.addMeter k n).tstep = x.tstep := rfl
@[simp] theorem addMeter_prevStmt (x : Ctx) (k n : Nat) : (x.addMeter k n).prevStmt = x.prevStmt := rfl
@[simp] theorem addMeter_memKey (x : Ctx) (k n : Nat) : (x.addMeter k n).memKey = x.memKey := rfl
@[simp] theorem addMeter_imported (x : Ctx) (k n : Nat) : (x.addMeter k n).imported = x.imported := rfl
@[simp] theorem addMeter_bad (x : Ctx) (k n : Nat) : (x.addMeter k n).bad = x.bad := rfl
@[simp] theorem addMeter_carried (x : Ctx) (k n : Nat) : (x.addMeter k n).carried = x.carried := rfl

/-! ### `Mach.setWord` -/

@[simp] theorem setWord_vc (m : Mach) (ws : List Word) : (m.setWord ws).vc = m.vc := rfl
@[simp] theorem setWord_reach (m : Mach) (ws : List Word) : (m.setWord ws).reach = m.reach := rfl
@[simp] theorem setWord_mem (m : Mach) (ws : List Word) : (m.setWord ws).mem = m.mem := rfl
@[simp] theorem setWord_img (m : Mach) (ws : List Word) : (m.setWord ws).img = m.img := rfl
@[simp] theorem setWord_umask (m : Mach) (ws : List Word) : (m.setWord ws).umask = m.umask := rfl
@[simp] theorem setWord_ic (m : Mach) (ws : List Word) : (m.setWord ws).ic = m.ic := rfl
@[simp] theorem setWord_tm (m : Mach) (ws : List Word) : (m.setWord ws).tm = m.tm := rfl
@[simp] theorem setWord_bm (m : Mach) (ws : List Word) : (m.setWord ws).bm = m.bm := rfl
@[simp] theorem setWord_vid (m : Mach) (ws : List Word) : (m.setWord ws).vid = m.vid := rfl
@[simp] theorem setWord_rl (m : Mach) (ws : List Word) : (m.setWord ws).rl = m.rl := rfl
@[simp] theorem setWord_bu (m : Mach) (ws : List Word) : (m.setWord ws).bu = m.bu := rfl
@[simp] theorem setWord_au (m : Mach) (ws : List Word) : (m.setWord ws).au = m.au := rfl
@[simp] theorem setWord_inp (m : Mach) (ws : List Word) : (m.setWord ws).inp = m.inp := rfl
@[simp] theorem setWord_oq (m : Mach) (ws : List Word) : (m.setWord ws).oq = m.oq := rfl
@[simp] theorem setWord_rb (m : Mach) (ws : List Word) : (m.setWord ws).rb = m.rb := rfl
@[simp] theorem setWord_dbg (m : Mach) (ws : List Word) : (m.setWord ws).dbg = m.dbg := rfl
@[simp] theorem setWord_attest (m : Mach) (ws : List Word) : (m.setWord ws).attest = m.attest := rfl
@[simp] theorem setWord_drbg (m : Mach) (ws : List Word) : (m.setWord ws).drbg = m.drbg := rfl
@[simp] theorem setWord_wall (m : Mach) (ws : List Word) : (m.setWord ws).wall = m.wall := rfl
@[simp] theorem setWord_cur (m : Mach) (ws : List Word) : (m.setWord ws).cur = m.cur := rfl
@[simp] theorem setWord_ioData (m : Mach) (ws : List Word) : (m.setWord ws).ioData = m.ioData := rfl
@[simp] theorem setWord_posted (m : Mach) (ws : List Word) : (m.setWord ws).posted = m.posted := rfl
@[simp] theorem setWord_fx (m : Mach) (ws : List Word) : (m.setWord ws).fx = m.fx := rfl
@[simp] theorem setWord_regs (m : Mach) (ws : List Word) : (m.setWord ws).cpu.regs = m.cpu.regs := rfl
@[simp] theorem setWord_pc (m : Mach) (ws : List Word) : (m.setWord ws).cpu.pc = m.cpu.pc := rfl
@[simp] theorem setWord_psw (m : Mach) (ws : List Word) : (m.setWord ws).cpu.psw = m.cpu.psw := rfl
@[simp] theorem setWord_hold (m : Mach) (ws : List Word) : (m.setWord ws).cpu.hold = m.cpu.hold := rfl
@[simp] theorem setWord_vbr (m : Mach) (ws : List Word) : (m.setWord ws).cpu.vbr = m.cpu.vbr := rfl
@[simp] theorem setWord_gtb (m : Mach) (ws : List Word) : (m.setWord ws).cpu.gtb = m.cpu.gtb := rfl
@[simp] theorem setWord_gtl (m : Mach) (ws : List Word) : (m.setWord ws).cpu.gtl = m.cpu.gtl := rfl
@[simp] theorem setWord_usp (m : Mach) (ws : List Word) : (m.setWord ws).cpu.usp = m.cpu.usp := rfl
@[simp] theorem setWord_ssp (m : Mach) (ws : List Word) : (m.setWord ws).cpu.ssp = m.cpu.ssp := rfl
@[simp] theorem setWord_cause (m : Mach) (ws : List Word) : (m.setWord ws).cpu.cause = m.cpu.cause := rfl
@[simp] theorem setWord_info (m : Mach) (ws : List Word) : (m.setWord ws).cpu.info = m.cpu.info := rfl
@[simp] theorem setWord_loops (m : Mach) (ws : List Word) : (m.setWord ws).cpu.loops = m.cpu.loops := rfl
@[simp] theorem setWord_acc (m : Mach) (ws : List Word) : (m.setWord ws).cpu.acc = m.cpu.acc := rfl
@[simp] theorem setWord_cychLatch (m : Mach) (ws : List Word) : (m.setWord ws).cpu.cychLatch = m.cpu.cychLatch := rfl
@[simp] theorem setWord_afterRete (m : Mach) (ws : List Word) : (m.setWord ws).cpu.afterRete = m.cpu.afterRete := rfl
@[simp] theorem setWord_begun (m : Mach) (ws : List Word) : (m.setWord ws).cpu.begun = m.cpu.begun := rfl
@[simp] theorem setWord_entry (m : Mach) (ws : List Word) : (m.setWord ws).cpu.entry = m.cpu.entry := rfl
@[simp] theorem setWord_blk (m : Mach) (ws : List Word) : (m.setWord ws).cpu.blk = m.cpu.blk := rfl
@[simp] theorem setWord_word (m : Mach) (ws : List Word) : (m.setWord ws).cpu.word = ws := rfl
@[simp] theorem setWord_idle (m : Mach) (ws : List Word) : (m.setWord ws).cpu.idle = m.cpu.idle := rfl
@[simp] theorem setWord_at12 (m : Mach) (ws : List Word) : (m.setWord ws).cpu.at12 = m.cpu.at12 := rfl
@[simp] theorem setWord_reg (m : Mach) (ws : List Word) (r : Reg) : (m.setWord ws).reg r = m.reg r := rfl

/-! ### `Mach.clearWord` -/

@[simp] theorem clearWord_vc (m : Mach) : (m.clearWord).vc = m.vc := rfl
@[simp] theorem clearWord_reach (m : Mach) : (m.clearWord).reach = m.reach := rfl
@[simp] theorem clearWord_mem (m : Mach) : (m.clearWord).mem = m.mem := rfl
@[simp] theorem clearWord_img (m : Mach) : (m.clearWord).img = m.img := rfl
@[simp] theorem clearWord_umask (m : Mach) : (m.clearWord).umask = m.umask := rfl
@[simp] theorem clearWord_ic (m : Mach) : (m.clearWord).ic = m.ic := rfl
@[simp] theorem clearWord_tm (m : Mach) : (m.clearWord).tm = m.tm := rfl
@[simp] theorem clearWord_bm (m : Mach) : (m.clearWord).bm = m.bm := rfl
@[simp] theorem clearWord_vid (m : Mach) : (m.clearWord).vid = m.vid := rfl
@[simp] theorem clearWord_rl (m : Mach) : (m.clearWord).rl = m.rl := rfl
@[simp] theorem clearWord_bu (m : Mach) : (m.clearWord).bu = m.bu := rfl
@[simp] theorem clearWord_au (m : Mach) : (m.clearWord).au = m.au := rfl
@[simp] theorem clearWord_inp (m : Mach) : (m.clearWord).inp = m.inp := rfl
@[simp] theorem clearWord_oq (m : Mach) : (m.clearWord).oq = m.oq := rfl
@[simp] theorem clearWord_rb (m : Mach) : (m.clearWord).rb = m.rb := rfl
@[simp] theorem clearWord_dbg (m : Mach) : (m.clearWord).dbg = m.dbg := rfl
@[simp] theorem clearWord_attest (m : Mach) : (m.clearWord).attest = m.attest := rfl
@[simp] theorem clearWord_drbg (m : Mach) : (m.clearWord).drbg = m.drbg := rfl
@[simp] theorem clearWord_wall (m : Mach) : (m.clearWord).wall = m.wall := rfl
@[simp] theorem clearWord_cur (m : Mach) : (m.clearWord).cur = m.cur := rfl
@[simp] theorem clearWord_ioData (m : Mach) : (m.clearWord).ioData = m.ioData := rfl
@[simp] theorem clearWord_posted (m : Mach) : (m.clearWord).posted = m.posted := rfl
@[simp] theorem clearWord_fx (m : Mach) : (m.clearWord).fx = m.fx := rfl
@[simp] theorem clearWord_regs (m : Mach) : (m.clearWord).cpu.regs = m.cpu.regs := rfl
@[simp] theorem clearWord_pc (m : Mach) : (m.clearWord).cpu.pc = m.cpu.pc := rfl
@[simp] theorem clearWord_psw (m : Mach) : (m.clearWord).cpu.psw = m.cpu.psw := rfl
@[simp] theorem clearWord_hold (m : Mach) : (m.clearWord).cpu.hold = m.cpu.hold := rfl
@[simp] theorem clearWord_vbr (m : Mach) : (m.clearWord).cpu.vbr = m.cpu.vbr := rfl
@[simp] theorem clearWord_gtb (m : Mach) : (m.clearWord).cpu.gtb = m.cpu.gtb := rfl
@[simp] theorem clearWord_gtl (m : Mach) : (m.clearWord).cpu.gtl = m.cpu.gtl := rfl
@[simp] theorem clearWord_usp (m : Mach) : (m.clearWord).cpu.usp = m.cpu.usp := rfl
@[simp] theorem clearWord_ssp (m : Mach) : (m.clearWord).cpu.ssp = m.cpu.ssp := rfl
@[simp] theorem clearWord_cause (m : Mach) : (m.clearWord).cpu.cause = m.cpu.cause := rfl
@[simp] theorem clearWord_info (m : Mach) : (m.clearWord).cpu.info = m.cpu.info := rfl
@[simp] theorem clearWord_loops (m : Mach) : (m.clearWord).cpu.loops = m.cpu.loops := rfl
@[simp] theorem clearWord_acc (m : Mach) : (m.clearWord).cpu.acc = m.cpu.acc := rfl
@[simp] theorem clearWord_cychLatch (m : Mach) : (m.clearWord).cpu.cychLatch = m.cpu.cychLatch := rfl
@[simp] theorem clearWord_afterRete (m : Mach) : (m.clearWord).cpu.afterRete = m.cpu.afterRete := rfl
@[simp] theorem clearWord_begun (m : Mach) : (m.clearWord).cpu.begun = m.cpu.begun := rfl
@[simp] theorem clearWord_entry (m : Mach) : (m.clearWord).cpu.entry = m.cpu.entry := rfl
@[simp] theorem clearWord_blk (m : Mach) : (m.clearWord).cpu.blk = m.cpu.blk := rfl
@[simp] theorem clearWord_word (m : Mach) : (m.clearWord).cpu.word = [] := rfl
@[simp] theorem clearWord_idle (m : Mach) : (m.clearWord).cpu.idle = m.cpu.idle := rfl
@[simp] theorem clearWord_at12 (m : Mach) : (m.clearWord).cpu.at12 = m.cpu.at12 := rfl
@[simp] theorem clearWord_reg (m : Mach) (r : Reg) : (m.clearWord).reg r = m.reg r := rfl

/-! ### `Mach.setBlk` -/

@[simp] theorem setBlk_vc (m : Mach) (n : Nat) : (m.setBlk n).vc = m.vc := rfl
@[simp] theorem setBlk_reach (m : Mach) (n : Nat) : (m.setBlk n).reach = m.reach := rfl
@[simp] theorem setBlk_mem (m : Mach) (n : Nat) : (m.setBlk n).mem = m.mem := rfl
@[simp] theorem setBlk_img (m : Mach) (n : Nat) : (m.setBlk n).img = m.img := rfl
@[simp] theorem setBlk_umask (m : Mach) (n : Nat) : (m.setBlk n).umask = m.umask := rfl
@[simp] theorem setBlk_ic (m : Mach) (n : Nat) : (m.setBlk n).ic = m.ic := rfl
@[simp] theorem setBlk_tm (m : Mach) (n : Nat) : (m.setBlk n).tm = m.tm := rfl
@[simp] theorem setBlk_bm (m : Mach) (n : Nat) : (m.setBlk n).bm = m.bm := rfl
@[simp] theorem setBlk_vid (m : Mach) (n : Nat) : (m.setBlk n).vid = m.vid := rfl
@[simp] theorem setBlk_rl (m : Mach) (n : Nat) : (m.setBlk n).rl = m.rl := rfl
@[simp] theorem setBlk_bu (m : Mach) (n : Nat) : (m.setBlk n).bu = m.bu := rfl
@[simp] theorem setBlk_au (m : Mach) (n : Nat) : (m.setBlk n).au = m.au := rfl
@[simp] theorem setBlk_inp (m : Mach) (n : Nat) : (m.setBlk n).inp = m.inp := rfl
@[simp] theorem setBlk_oq (m : Mach) (n : Nat) : (m.setBlk n).oq = m.oq := rfl
@[simp] theorem setBlk_rb (m : Mach) (n : Nat) : (m.setBlk n).rb = m.rb := rfl
@[simp] theorem setBlk_dbg (m : Mach) (n : Nat) : (m.setBlk n).dbg = m.dbg := rfl
@[simp] theorem setBlk_attest (m : Mach) (n : Nat) : (m.setBlk n).attest = m.attest := rfl
@[simp] theorem setBlk_drbg (m : Mach) (n : Nat) : (m.setBlk n).drbg = m.drbg := rfl
@[simp] theorem setBlk_wall (m : Mach) (n : Nat) : (m.setBlk n).wall = m.wall := rfl
@[simp] theorem setBlk_cur (m : Mach) (n : Nat) : (m.setBlk n).cur = m.cur := rfl
@[simp] theorem setBlk_ioData (m : Mach) (n : Nat) : (m.setBlk n).ioData = m.ioData := rfl
@[simp] theorem setBlk_posted (m : Mach) (n : Nat) : (m.setBlk n).posted = m.posted := rfl
@[simp] theorem setBlk_fx (m : Mach) (n : Nat) : (m.setBlk n).fx = m.fx := rfl
@[simp] theorem setBlk_regs (m : Mach) (n : Nat) : (m.setBlk n).cpu.regs = m.cpu.regs := rfl
@[simp] theorem setBlk_pc (m : Mach) (n : Nat) : (m.setBlk n).cpu.pc = m.cpu.pc := rfl
@[simp] theorem setBlk_psw (m : Mach) (n : Nat) : (m.setBlk n).cpu.psw = m.cpu.psw := rfl
@[simp] theorem setBlk_hold (m : Mach) (n : Nat) : (m.setBlk n).cpu.hold = m.cpu.hold := rfl
@[simp] theorem setBlk_vbr (m : Mach) (n : Nat) : (m.setBlk n).cpu.vbr = m.cpu.vbr := rfl
@[simp] theorem setBlk_gtb (m : Mach) (n : Nat) : (m.setBlk n).cpu.gtb = m.cpu.gtb := rfl
@[simp] theorem setBlk_gtl (m : Mach) (n : Nat) : (m.setBlk n).cpu.gtl = m.cpu.gtl := rfl
@[simp] theorem setBlk_usp (m : Mach) (n : Nat) : (m.setBlk n).cpu.usp = m.cpu.usp := rfl
@[simp] theorem setBlk_ssp (m : Mach) (n : Nat) : (m.setBlk n).cpu.ssp = m.cpu.ssp := rfl
@[simp] theorem setBlk_cause (m : Mach) (n : Nat) : (m.setBlk n).cpu.cause = m.cpu.cause := rfl
@[simp] theorem setBlk_info (m : Mach) (n : Nat) : (m.setBlk n).cpu.info = m.cpu.info := rfl
@[simp] theorem setBlk_loops (m : Mach) (n : Nat) : (m.setBlk n).cpu.loops = m.cpu.loops := rfl
@[simp] theorem setBlk_acc (m : Mach) (n : Nat) : (m.setBlk n).cpu.acc = m.cpu.acc := rfl
@[simp] theorem setBlk_cychLatch (m : Mach) (n : Nat) : (m.setBlk n).cpu.cychLatch = m.cpu.cychLatch := rfl
@[simp] theorem setBlk_afterRete (m : Mach) (n : Nat) : (m.setBlk n).cpu.afterRete = m.cpu.afterRete := rfl
@[simp] theorem setBlk_begun (m : Mach) (n : Nat) : (m.setBlk n).cpu.begun = m.cpu.begun := rfl
@[simp] theorem setBlk_entry (m : Mach) (n : Nat) : (m.setBlk n).cpu.entry = m.cpu.entry := rfl
@[simp] theorem setBlk_blk (m : Mach) (n : Nat) : (m.setBlk n).cpu.blk = some n := rfl
@[simp] theorem setBlk_word (m : Mach) (n : Nat) : (m.setBlk n).cpu.word = m.cpu.word := rfl
@[simp] theorem setBlk_idle (m : Mach) (n : Nat) : (m.setBlk n).cpu.idle = m.cpu.idle := rfl
@[simp] theorem setBlk_at12 (m : Mach) (n : Nat) : (m.setBlk n).cpu.at12 = m.cpu.at12 := rfl
@[simp] theorem setBlk_reg (m : Mach) (n : Nat) (r : Reg) : (m.setBlk n).reg r = m.reg r := rfl

/-! ### `Gpio.setPin` -/

@[simp] theorem setPin_store (g : Gpio) (n : Nat) (p : Pin) : (g.setPin n p).store = g.store := rfl
@[simp] theorem setPin_maskL (g : Gpio) (n : Nat) (p : Pin) : (g.setPin n p).maskL = g.maskL := rfl
@[simp] theorem setPin_maskH (g : Gpio) (n : Nat) (p : Pin) : (g.setPin n p).maskH = g.maskH := rfl
@[simp] theorem setPin_armed (g : Gpio) (n : Nat) (p : Pin) : (g.setPin n p).armed = g.armed := rfl
@[simp] theorem setPin_abort (g : Gpio) (n : Nat) (p : Pin) : (g.setPin n p).abort = g.abort := rfl
@[simp] theorem setPin_low (g : Gpio) (n : Nat) (p : Pin) : (g.setPin n p).low = g.low := rfl
@[simp] theorem setPin_lowTwice (g : Gpio) (n : Nat) (p : Pin) : (g.setPin n p).lowTwice = g.lowTwice := rfl
@[simp] theorem setPin_kept (g : Gpio) (n : Nat) (p : Pin) : (g.setPin n p).kept = g.kept := rfl
@[simp] theorem setPin_asleep (g : Gpio) (n : Nat) (p : Pin) : (g.setPin n p).asleep = g.asleep := rfl
@[simp] theorem setPin_perr (g : Gpio) (n : Nat) (p : Pin) : (g.setPin n p).perr = g.perr := rfl
@[simp] theorem setPin_syncOut (g : Gpio) (n : Nat) (p : Pin) : (g.setPin n p).syncOut = g.syncOut := rfl
@[simp] theorem setPin_syncAt (g : Gpio) (n : Nat) (p : Pin) : (g.setPin n p).syncAt = g.syncAt := rfl
@[simp] theorem setPin_straps (g : Gpio) (n : Nat) (p : Pin) : (g.setPin n p).straps = g.straps := rfl
@[simp] theorem setPin_bifurc (g : Gpio) (n : Nat) (p : Pin) : (g.setPin n p).bifurc = g.bifurc := rfl
@[simp] theorem setPin_thermtrip (g : Gpio) (n : Nat) (p : Pin) : (g.setPin n p).thermtrip = g.thermtrip := rfl

/-! ### `State.storeVote` -/

@[simp] theorem storeVote_pending (s : State) (f : VoteField) : (s.storeVote f).pending = s.pending := rfl
@[simp] theorem storeVote_ctxs (s : State) (f : VoteField) : (s.storeVote f).ctxs = s.ctxs := rfl
@[simp] theorem storeVote_images (s : State) (f : VoteField) : (s.storeVote f).images = s.images := rfl
@[simp] theorem storeVote_queues (s : State) (f : VoteField) : (s.storeVote f).queues = s.queues := rfl
@[simp] theorem storeVote_qcache (s : State) (f : VoteField) : (s.storeVote f).qcache = s.qcache := rfl
@[simp] theorem storeVote_funcs (s : State) (f : VoteField) : (s.storeVote f).funcs = s.funcs := rfl
@[simp] theorem storeVote_coals (s : State) (f : VoteField) : (s.storeVote f).coals = s.coals := rfl
@[simp] theorem storeVote_dmas (s : State) (f : VoteField) : (s.storeVote f).dmas = s.dmas := rfl
@[simp] theorem storeVote_wire (s : State) (f : VoteField) : (s.storeVote f).wire = s.wire := rfl
@[simp] theorem storeVote_mgmt (s : State) (f : VoteField) : (s.storeVote f).mgmt = s.mgmt := rfl
@[simp] theorem storeVote_ident (s : State) (f : VoteField) : (s.storeVote f).ident = s.ident := rfl
@[simp] theorem storeVote_audit (s : State) (f : VoteField) : (s.storeVote f).audit = s.audit := rfl
@[simp] theorem storeVote_power (s : State) (f : VoteField) : (s.storeVote f).power = s.power := rfl
@[simp] theorem storeVote_gpio (s : State) (f : VoteField) : (s.storeVote f).gpio = s.gpio := rfl
@[simp] theorem storeVote_ras (s : State) (f : VoteField) : (s.storeVote f).ras = s.ras := rfl
@[simp] theorem storeVote_reticle (s : State) (f : VoteField) : (s.storeVote f).reticle = s.reticle := rfl
@[simp] theorem storeVote_free (s : State) (f : VoteField) : (s.storeVote f).free = s.free := rfl
@[simp] theorem storeVote_votes (s : State) (f : VoteField) : (s.storeVote f).votes = s.votes.filter fun v => !decide (v.1.field = f) := rfl

/-- A written field has no damaged word (R507). -/
theorem storeVote_whole (s : State) (f : VoteField) : ∀ v ∈ (s.storeVote f).votes, v.1.field ≠ f := by
  intro v hv
  have := (List.mem_filter.mp hv).2
  simpa using this

/-! ### Reads of the vote store -/

/-- Where no copy is damaged nothing is lost and a read changes nothing (R507). -/
@[simp] theorem voteLost_whole (s : State) (p : VoteField → Bool) (h : s.votes = []) : s.voteLost p = false := by
  simp [State.voteLost, h]
@[simp] theorem readVotes_whole (s : State) (p : VoteField → Bool) (h : s.votes = []) : readVotes s p = s := by
  simp [readVotes, h]

/-- A read of no field reads nothing. -/
theorem readVotes_nothing (s : State) (p : VoteField → Bool) (h : ∀ v ∈ s.votes, p v.1.field = false) : readVotes s p = s := by
  have e : (s.votes.filter fun v => p v.1.field) = [] := List.filter_eq_nil_iff.mpr fun v hv => by simp [h v hv]
  simp [readVotes, e]

/-! ### `Outp.push` -/

@[simp] theorem push_sets (o : Outp) (m : OutMsg) : (o.push m).sets = o.sets := rfl
@[simp] theorem push_cmds (o : Outp) (m : OutMsg) : (o.push m).cmds = o.cmds := rfl
@[simp] theorem push_stats (o : Outp) (m : OutMsg) : (o.push m).stats = o.stats := rfl
@[simp] theorem push_flines (o : Outp) (m : OutMsg) : (o.push m).flines = o.flines := rfl
@[simp] theorem push_spart (o : Outp) (m : OutMsg) : (o.push m).spart = o.spart := rfl
@[simp] theorem push_slices (o : Outp) (m : OutMsg) : (o.push m).slices = o.slices := rfl
@[simp] theorem push_blocks (o : Outp) (m : OutMsg) : (o.push m).blocks = o.blocks := rfl
@[simp] theorem push_msgs (o : Outp) (m : OutMsg) : (o.push m).msgs = o.msgs ++ [{ m with num := o.msgNum }] := rfl
@[simp] theorem push_msgNum (o : Outp) (m : OutMsg) : (o.push m).msgNum = o.msgNum + 1 := rfl
@[simp] theorem push_marks (o : Outp) (m : OutMsg) : (o.push m).marks = o.marks := rfl
@[simp] theorem push_held (o : Outp) (m : OutMsg) : (o.push m).held = o.held := rfl
@[simp] theorem push_debugQ (o : Outp) (m : OutMsg) : (o.push m).debugQ = o.debugQ := rfl
@[simp] theorem push_frameRevs (o : Outp) (m : OutMsg) : (o.push m).frameRevs = o.frameRevs := rfl
@[simp] theorem push_blockRevs (o : Outp) (m : OutMsg) : (o.push m).blockRevs = o.blockRevs := rfl
@[simp] theorem push_pressed (o : Outp) (m : OutMsg) : (o.push m).pressed = o.pressed := rfl
@[simp] theorem push_maxLine (o : Outp) (m : OutMsg) : (o.push m).maxLine = o.maxLine := rfl

/-! ### Uses of stored items -/

/-- Items of which none is poisoned are read, and the use follows (R496, R499). -/
theorem useItems_clean (s : State) (x : Ctx) (l : List CtxStore) (go : State → State) (h : ∀ k ∈ l, x.badStore k = false) :
    useItems s x l go = go (l.foldl (fun s k => readStore s x.num k) s) := by
  have e : l.find? x.badStore = none := List.find?_eq_none.mpr fun k hk => by simp [h k hk]
  simp [useItems, e]

/-- The first poisoned one faults the context, and the use does not take place (R499, R500). -/
theorem useItems_bad (s : State) (x : Ctx) (l : List CtxStore) (go : State → State) (k : CtxStore) (h : l.find? x.badStore = some k) :
    useItems s x l go = storeFault s x k := by
  simp [useItems, h]

/-! ### Bulk reads of a port -/

/-- Where the port's DMA does not run no bulk read is made (R402). -/
theorem askBulk_down (s : State) (p : Nat) (h : portUp s p = false) : askBulk s p = s := by
  simp [askBulk, h]

@[simp] theorem dropBulk_pending (s : State) (p : Nat) : (dropBulk s p).pending = s.pending := rfl
@[simp] theorem dropBulk_ctxs (s : State) (p : Nat) : (dropBulk s p).ctxs = s.ctxs := rfl
@[simp] theorem dropBulk_images (s : State) (p : Nat) : (dropBulk s p).images = s.images := rfl
@[simp] theorem dropBulk_queues (s : State) (p : Nat) : (dropBulk s p).queues = s.queues := rfl
@[simp] theorem dropBulk_qcache (s : State) (p : Nat) : (dropBulk s p).qcache = s.qcache := rfl
@[simp] theorem dropBulk_funcs (s : State) (p : Nat) : (dropBulk s p).funcs = s.funcs := rfl
@[simp] theorem dropBulk_coals (s : State) (p : Nat) : (dropBulk s p).coals = s.coals := rfl
@[simp] theorem dropBulk_dmas (s : State) (p : Nat) : (dropBulk s p).dmas = s.dmas := rfl
@[simp] theorem dropBulk_ident (s : State) (p : Nat) : (dropBulk s p).ident = s.ident := rfl
@[simp] theorem dropBulk_votes (s : State) (p : Nat) : (dropBulk s p).votes = s.votes := rfl
@[simp] theorem dropBulk_audit (s : State) (p : Nat) : (dropBulk s p).audit = s.audit := rfl
@[simp] theorem dropBulk_power (s : State) (p : Nat) : (dropBulk s p).power = s.power := rfl
@[simp] theorem dropBulk_gpio (s : State) (p : Nat) : (dropBulk s p).gpio = s.gpio := rfl
@[simp] theorem dropBulk_ras (s : State) (p : Nat) : (dropBulk s p).ras = s.ras := rfl
@[simp] theorem dropBulk_reticle (s : State) (p : Nat) : (dropBulk s p).reticle = s.reticle := rfl
@[simp] theorem dropBulk_free (s : State) (p : Nat) : (dropBulk s p).free = s.free := rfl
@[simp] theorem dropBulk_wire (s : State) (p : Nat) : (dropBulk s p).wire = s.wire := rfl

/-! ### Contexts of a device whose clocks run -/

theorem liveCtx?_clocked (s : State) (c : Nat) (h : s.clocked = true) : s.liveCtx? c = s.ctx? c := by
  simp [State.liveCtx?, h]
theorem liveCtx?_stopped (s : State) (c : Nat) (h : s.clocked = false) : s.liveCtx? c = none := by
  simp [State.liveCtx?, h]

end Sys2Proof.Machine
end

