-- ==== Sys2Proof/Laws/Mem.lean ====
section
/-! SUPPORT. The byte memories: every operation keeps the canonical form, a read after a write gives the byte written, and a write leaves every other
byte alone. -/
namespace Sys2Proof.Machine

/-! ### The canonical form -/

theorem memWfFrom_mono {m : List Host.Cell} {lo hi : Nat} (h : memWfFrom hi m = true) (hl : lo ≤ hi) : memWfFrom lo m = true := by
  cases m with
  | nil => rfl
  | cons p m =>
    simp only [memWfFrom, Bool.and_eq_true, decide_eq_true_eq] at h ⊢
    exact ⟨⟨by omega, h.1.2⟩, h.2⟩

/-- A byte put at or above the bound keeps the form. -/
theorem memPut_wfFrom {m : List Host.Cell} {lo x : Nat} {v : Byte} (h : memWfFrom lo m = true) (hx : lo ≤ x) :
    memWfFrom lo (memPut m x v) = true := by
  induction m generalizing lo with
  | nil =>
    unfold memPut
    split
    · rfl
    · rename_i hv
      simp [memWfFrom, hx, hv]
  | cons p m ih =>
    obtain ⟨a, b⟩ := p
    simp only [memWfFrom, Bool.and_eq_true, decide_eq_true_eq] at h
    unfold memPut
    split
    · split
      · simpa [memWfFrom] using h
      · rename_i hxa hv
        simp only [memWfFrom, Bool.and_eq_true, decide_eq_true_eq]
        exact ⟨⟨hx, hv⟩, ⟨by omega, h.1.2⟩, h.2⟩
    · split
      · split
        · exact memWfFrom_mono h.2 (by omega)
        · rename_i hxa he hv
          subst he
          simp only [memWfFrom, Bool.and_eq_true, decide_eq_true_eq]
          exact ⟨⟨hx, hv⟩, h.2⟩
      · simp only [memWfFrom, Bool.and_eq_true, decide_eq_true_eq]
        exact ⟨h.1, ih h.2 (by omega)⟩

/-- Putting a byte keeps the canonical form. -/
theorem memPut_wf {m : List Host.Cell} {x : Nat} {v : Byte} (h : memWf m = true) : memWf (memPut m x v) = true :=
  memPut_wfFrom h (Nat.zero_le x)

/-- Putting bytes keeps the canonical form. -/
theorem memPutAll_wf {m : List Host.Cell} {x : Nat} {bs : List Byte} (h : memWf m = true) : memWf (memPutAll m x bs) = true := by
  induction bs generalizing m x with
  | nil => exact h
  | cons b bs ih => exact ih (memPut_wf h)

/-- What `memCanon` makes is canonical. -/
theorem memCanon_wf (l : List Host.Cell) : memWf (memCanon l) = true := by
  have h : ∀ m : List Host.Cell, memWf m = true → memWf (l.foldl (fun m p => memPut m p.1 p.2) m) = true := by
    induction l with
    | nil => exact fun m h => h
    | cons p l ih => exact fun m h => ih _ (memPut_wf h)
  exact h [] rfl

/-! ### Reads -/

/-- Below the bound nothing is listed. -/
theorem memGet_below {m : List Host.Cell} {lo y : Nat} (h : memWfFrom lo m = true) (hy : y < lo) : memGet m y = memDefault := by
  induction m generalizing lo with
  | nil => rfl
  | cons p m ih =>
    obtain ⟨a, b⟩ := p
    simp only [memWfFrom, Bool.and_eq_true, decide_eq_true_eq] at h
    unfold memGet
    rw [if_neg (by omega)]
    exact ih h.2 (by omega)

/-- A read after a write of one byte. -/
theorem memGet_memPut {m : List Host.Cell} {x y : Nat} {v : Byte} (h : memWf m = true) :
    memGet (memPut m x v) y = if y = x then v else memGet m y := by
  have key : ∀ (m : List Host.Cell) (lo : Nat), memWfFrom lo m = true → memGet (memPut m x v) y = if y = x then v else memGet m y := by
    intro m
    induction m with
    | nil =>
      intro lo _
      unfold memPut
      by_cases hv : v = memDefault
      · by_cases hy : y = x <;> simp [hv, hy, memGet]
      · by_cases hy : y = x
        · simp [hv, hy, memGet]
        · have : x ≠ y := fun e => hy e.symm
          simp [hv, hy, memGet, this]
    | cons p m ih =>
      obtain ⟨a, b⟩ := p
      intro lo h
      simp only [memWfFrom, Bool.and_eq_true, decide_eq_true_eq] at h
      unfold memPut
      by_cases h1 : x < a
      · rw [if_pos h1]
        by_cases hv : v = memDefault
        · rw [if_pos hv]
          by_cases hy : y = x
          · rw [if_pos hy]
            subst hy
            have hb : memGet m y = memDefault := memGet_below h.2 (by omega)
            simp only [memGet, if_neg (show a ≠ y by omega), hb, hv]
          · rw [if_neg hy]
        · rw [if_neg hv]
          by_cases hy : y = x
          · simp [memGet, hy]
          · have : x ≠ y := fun e => hy e.symm
            simp [memGet, hy, this]
      · rw [if_neg h1]
        by_cases h2 : x = a
        · rw [if_pos h2]
          by_cases hv : v = memDefault
          · rw [if_pos hv]
            by_cases hy : y = x
            · rw [if_pos hy, hv]
              exact memGet_below h.2 (by omega)
            · rw [if_neg hy]
              simp only [memGet, if_neg (show a ≠ y by omega)]
          · rw [if_neg hv]
            by_cases hy : y = x
            · simp [memGet, hy]
            · simp only [memGet, if_neg (show x ≠ y by omega), if_neg (show a ≠ y by omega), if_neg hy]
        · rw [if_neg h2]
          by_cases ha : a = y
          · have hy : y ≠ x := fun e => h2 (by omega)
            simp [memGet, ha, hy]
          · simp only [memGet, if_neg ha]
            exact ih (a + 1) h.2
  exact key m 0 h

/-- A read after a write of bytes. -/
theorem memGet_memPutAll {m : List Host.Cell} {x y : Nat} {bs : List Byte} (h : memWf m = true) :
    memGet (memPutAll m x bs) y = if x ≤ y ∧ y < x + bs.length then bs.getD (y - x) 0 else memGet m y := by
  induction bs generalizing m x with
  | nil =>
    rw [if_neg (by simp only [List.length_nil]; omega)]
    rfl
  | cons b bs ih =>
    unfold memPutAll
    rw [ih (memPut_wf h), memGet_memPut h]
    by_cases h1 : y = x
    · subst h1
      rw [if_neg (by omega), if_pos rfl, if_pos (by simp only [List.length_cons]; omega)]
      simp
    · by_cases h2 : x + 1 ≤ y ∧ y < x + 1 + bs.length
      · rw [if_pos h2, if_pos (by simp only [List.length_cons]; omega)]
        obtain ⟨k, hk⟩ : ∃ k, y - x = k + 1 := ⟨y - x - 1, by omega⟩
        rw [hk, List.getD_cons_succ]
        congr 1
        omega
      · rw [if_neg h2, if_neg h1, if_neg (by simp only [List.length_cons]; omega)]

/-! ### The three memories of a context -/

theorem setRam_memOk {m : Mach} {r : Ram} {c : List Host.Cell} (h : m.memOk = true) (hc : memWf c = true) : (m.setRam r c).memOk = true := by
  simp only [Mach.memOk, Bool.and_eq_true] at h ⊢
  cases r <;> simp_all [Mach.setRam]

theorem ramOf_wf {m : Mach} (r : Ram) (h : m.memOk = true) : memWf (m.ramOf r) = true := by
  simp only [Mach.memOk, Bool.and_eq_true] at h
  cases r <;> simp_all [Mach.ramOf]

/-- A fold of steps that keep the memories keeps them. -/
theorem foldl_mem {α : Type} (l : List α) (f : Mach → α → Mach) (hf : ∀ m a, (f m a).mem = m.mem) (m : Mach) : (l.foldl f m).mem = m.mem := by
  induction l generalizing m with
  | nil => rfl
  | cons a l ih => rw [List.foldl_cons, ih, hf]

/-- The memories after bytes have been put into one of them: its bytes, and what becomes of its poison. -/
theorem putRam_mem (e : Env) (m : Mach) (r : Ram) (off : Nat) (bs : List Byte) (t : Nat) :
    (m.putRam e r off bs t).mem = { (m.setRam r (memPutAll (m.ramOf r) off bs)).mem with
      poison := unpoisonAll m.mem.poison r off bs.length } := by
  unfold Mach.putRam
  dsimp only
  split
  · rw [foldl_mem _ _ (fun _ _ => stampWrite_mem _ _), foldl_mem _ _ (fun _ _ => emit_mem _ _)]
    cases r <;> rfl
  · rw [foldl_mem _ _ (fun _ _ => emit_mem _ _)]
    cases r <;> rfl

theorem memOk_of_mem {m n : Mach} (hw : m.mem.work = n.mem.work) (hv : m.mem.vram = n.mem.vram) (ha : m.mem.audio = n.mem.audio) :
    m.memOk = n.memOk := by
  simp only [Mach.memOk, hw, hv, ha]

/-- A store into one of the three memories keeps all of them in canonical form. -/
theorem putRam_memOk {e : Env} {m : Mach} {r : Ram} {off t : Nat} {bs : List Byte} (h : m.memOk = true) : (m.putRam e r off bs t).memOk = true := by
  have hm := putRam_mem e m r off bs t
  rw [memOk_of_mem (n := m.setRam r (memPutAll (m.ramOf r) off bs)) (by rw [hm]) (by rw [hm]) (by rw [hm])]
  exact setRam_memOk h (memPutAll_wf (ramOf_wf r h))

/-- A byte of a memory after such a store. -/
theorem putRam_ramByte {e : Env} {m : Mach} {r q : Ram} {off t a : Nat} {bs : List Byte} (h : m.memOk = true) :
    (m.putRam e r off bs t).ramByte q a
      = if q = r ∧ off ≤ a ∧ a < off + bs.length then bs.getD (a - off) 0 else m.ramByte q a := by
  have hm := putRam_mem e m r off bs t
  have hr : (m.putRam e r off bs t).ramOf q = (m.setRam r (memPutAll (m.ramOf r) off bs)).ramOf q := by
    cases q <;> simp only [Mach.ramOf, hm]
  unfold Mach.ramByte
  rw [hr]
  by_cases hq : q = r
  · subst hq
    have : (m.setRam q (memPutAll (m.ramOf q) off bs)).ramOf q = memPutAll (m.ramOf q) off bs := by cases q <;> rfl
    rw [this, memGet_memPutAll (ramOf_wf q h)]
    simp
  · have : (m.setRam r (memPutAll (m.ramOf r) off bs)).ramOf q = m.ramOf q := by cases q <;> cases r <;> first | rfl | exact absurd rfl hq
    rw [this]
    simp [hq]

/-- The state after reset holds canonical memories. -/
theorem reset_memOk : State.reset.memOk = true := by decide

end Sys2Proof.Machine
end

