-- ==== Sys2Proof/Tests/Slice0.lean ====
section
/-! SUPPORT. Tests: each well-formedness check refuses an ill-formed command, words written out from R78 and R79 decode to what they stand
for, and every statement's hypotheses are met by a concrete state (the theorems `wit_…`). -/
namespace Sys2Proof.Tests
open Sys2Proof Sys2Proof.Machine
set_option Elab.async false

/-! ### Ill-formed commands are refused -/

def goodHdr (op : Nat) : Hdr :=
  { master := 0, op := BitVec.ofNat 16 op, tag := 7, len := 4, fver := 1, flags := 0, sh := 0, seq := 0
    params := List.replicate 48 0, trailer := [] }
def goodKeys : KeyEnv :=
  { formatOk := true, lenOk := true, tdevOk := true, tagOk := true, imgHash := 5, tag := 0, qmask := 0x4, sid := 1, keys := [9] }
def goodImg : SealedImg :=
  { magicOk := true, ver := 1, rsvdOk := true, imgLen := 256, bulkLen := 304, tagOk := true, hash := 5, bytes := List.replicate 256 0 }
def goodCreate : CreateP :=
  { imgHash := 5, tag := 0, mode := 0, prof := 0, opts := 0, pmax := 0, allow := 0, port := 0, cls := 1, grace := 4000 }
def goodSetup : QueSetupP := { qid := 2, rbase := 0x1000, log2n := 4, prio := 0, coal := 0, opt := 1, sfh := 0, sfv := 0, eclaim := 0 }
def goodRegion : Region :=
  { left := 0, top := 0, right := 0, bottom := 0, nsig := 0, en := false, flagsOk := true, rsvdOk := true, missMax := 0, stillMax := 0, sigs := [0, 0, 0, 0] }
def goodPlc : Placement := { image := 0, x := 0, y := 0, alpha := 0, en := false, flagsOk := true, rsvdOk := true }
def goodPin : PinP := { pin := 5, func := 1, pull := 1, drive := 1, sleep := 1, out := false, oe := 1 }
def goodBoot : BootP :=
  { bifStrap := false, bankAOk := true, bankBOk := true, boardCfgOk := true, tagFlips := [], slacks := [30, 30, 30] }
/-- The public key of the private scalar 1, and a signature by it with the nonce 1 (R411). -/
def gPub : List Byte := pubBytes (p384gx, p384gy)
def gSign (msg : List Byte) : List Byte := be 48 p384gx ++ be 48 ((beNat (sha384Bytes msg) + p384gx) % p384n)
def gCert (kind : Byte) (chip devid domain : Nat) : List Byte :=
  let body := [kind, 1] ++ le 2 chip ++ zeros 4 ++ digest devid ++ gPub ++ zeros 3 ++ le 16 domain ++ zeros 36
  body ++ gSign body
/-- DEVID and DXK of a device whose secret is zero (`test_devid`, `test_dxk`). -/
def zDevid : Nat := 17818303140686683136763880272112067844504857828804710413039166627044604900539132189263727060364571783871578774362542
def zDxk : Nat := 3143827751957862124799029606973394668030163641825454982116470809711028566851686101038439040320789516686303021470810
def goodEnrol : EnrolP := { domain := 1, chipNo := 2, dpub := gPub, cert := gCert 0x12 2 zDevid 1 }
/-- An export to the device whose DIK and FWK are the scalar 1, under ticket 7. -/
def goodExport : ExportP :=
  let d := sha384 gPub
  let ticket := [0x13, 0x01] ++ zeros 6 ++ digest d ++ digest 7 ++ zeros 24
  { chainOk := true, tdik := gPub, dxk := gCert 0x11 0 d 0, fwk := gCert 0x10 0 d 0, member := gCert 0x12 0 d 0, ticket := ticket ++ gSign ticket
    outLen := 2 ^ 63 }
/-- The object of such a device for a device whose secret is zero, with no context data in it. -/
def goodImport : ImportP :=
  let head := [0x4C, 0x56, 0x43, 0x58, 1] ++ zeros 11 ++ digest (sha384 gPub) ++ digest zDevid ++ digest 7 ++ zeros 16 ++ gPub ++ zeros 15
  let tag := le 16 69773417459501608317989852491877935692
  { obj := ⟨head, [], tag⟩, sig := gSign (head ++ tag), sdik := some gPub, sfwk := gCert 0x10 0 (sha384 gPub) 0 }
/-- An envelope of a kind that opens to `pt` on device `i`, and a sealed image that opens to `bs`. -/
def sealEnv (i : Ident) (kind : Byte) (pt : List Byte) : Sealed :=
  let head := [0x4C, 0x56, 0x4B, 0x45, 0x01, kind] ++ le 2 (184 + pt.length) ++ digest i.devid ++ gPub ++ zeros 15
  let k := (wrapKey i.dxk gPub (lv8k [0x4B, 0x45] ++ [kind])).getD []
  let ct := gctrText k (zeros 12) pt
  ⟨head, ct, gcmTag k (zeros 12) head ct⟩
def sealImg (key : Nat) (bs : List Byte) : Sealed :=
  let head := [0x4C, 0x56, 0x53, 0x49, 1, 0, 0, 0] ++ le 4 bs.length ++ zeros 20
  let ct := gctrText (le 32 key) (zeros 12) bs
  ⟨head, ct, gcmTag (le 32 key) (zeros 12) head ct⟩
/-- A message of 16 bytes of queue 1 under key 7, SID 1, CTR 0: one CLOSE of target 1. -/
def rawIn : Sealed :=
  let head := [16, 0, 0, 0, 1, 1, 1, 0, 0, 0, 0, 0, 0, 0, 0, 0]
  let iv := [1, 0, 0, 0, 1, 1, 0, 0, 0, 0, 0, 0]
  let ct := gctrText (le 32 7) iv ([1, 0, 0, 0, 0, 3] ++ zeros 10)
  ⟨head, ct, gcmTag (le 32 7) iv head ct⟩
def goodIn : InMsg :=
  { mlen := 64, queue := 1, ver := 1, sid := 1, ctr := 0, tagOk := true, hostErr := false, body := .input [] }

theorem test_wf_context_number : wellFormed (.nop 65535) = true ∧ wellFormed (.nop 65536) = false := by decide
theorem test_wf_compare_form : wellFormed (.cmp 0 (.r32 0 1 2)) = true ∧ wellFormed (.cmp 0 (.r32 1 1 2)) = false := by decide
theorem test_wf_address_form : wellFormed (.ldw 0 3 (.postInc 4)) = true ∧ wellFormed (.ldw 0 4 (.postInc 4)) = false
    ∧ wellFormed (.ldhs 0 3 (.base16 4 1)) = false ∧ wellFormed (.ldh 0 3 (.base16 4 4)) = false := by decide
theorem test_wf_control_number : wellFormed (.mrs 0 1 0x14) = true ∧ wellFormed (.mrs 0 1 0x15) = false := by decide
theorem test_wf_loop_offset : wellFormed (.loop 0 1 1) = true ∧ wellFormed (.loop 0 1 0) = false ∧ wellFormed (.loopi 0 1 0) = false := by decide
theorem test_wf_macx : wellFormed (.macx 0 1 2 1 0 0 false false) = true ∧ wellFormed (.macx 0 1 2 2 0 0 false false) = false
    ∧ wellFormed (.macx 0 2 2 0 0 0 false false) = false := by decide
theorem test_wf_gate_number : wellFormed (.callg 0 0xF5) = true ∧ wellFormed (.callg 0 0xF0) = false := by decide
theorem test_wf_illegal_encoding : wellFormed (.illegalOpcode 0 ⟨false, 0xB000⟩) = true ∧ wellFormed (.illegalOpcode 0 ⟨false, 0x9000⟩) = false
    ∧ wellFormed (.illegalOpcode 0 ⟨false, 0xE000⟩) = false ∧ wellFormed (.illegalOpcode 0 ⟨true, 0x1000⟩) = false := by decide
theorem test_wf_register_target : wellFormed (.registerWrite (.io 0 0xFFFC) 0) = true ∧ wellFormed (.registerWrite (.io 0 0x10000) 0) = false
    ∧ wellFormed (.registerWrite (.bar0 0 0x20000) 0) = false ∧ wellFormed (.registerWrite (.mailbox 3 0) 0) = false
    ∧ wellFormed (.registerWrite (.gpio 2) 0) = false := by decide
theorem test_wf_port_and_queue : wellFormed (.doorbell 1 0xFFFFF 0 [] false) = true ∧ wellFormed (.doorbell 2 0 0 [] false) = false
    ∧ wellFormed (.outboundMessageWrite 0x100000) = false ∧ wellFormed (.coalescerFire 192) = false ∧ wellFormed (.msixVectorUnmask 0 257) = false := by
  decide
theorem test_wf_message : wellFormed (.inboundMessageRead 1 ⟨⟨zeros 16, [], zeros 16⟩, false⟩) = true
    ∧ wellFormed (.inboundMessageRead 0 ⟨⟨zeros 16, [1], zeros 16⟩, false⟩) = false := by decide
theorem test_wf_m2 : wellFormed (.m2Write ⟨0, true⟩ 0 []) = true ∧ wellFormed (.m2Write ⟨0, true⟩ 65536 []) = false
    ∧ wellFormed (.m2SetRead ⟨0, true⟩ 0 65536) = false := by
  decide
theorem test_wf_header : wellFormed (.chipQuery (goodHdr 0x0101)) = true ∧ wellFormed (.chipQuery (goodHdr 0x0102)) = false
    ∧ wellFormed (.chipQuery { goodHdr 0x0101 with len := 0 }) = false ∧ wellFormed (.chipQuery { goodHdr 0x0101 with master := 3 }) = false := by decide
theorem test_wf_opcode : wellFormed (.unassignedOpcode (goodHdr 0x0D01)) = true ∧ wellFormed (.unassignedOpcode (goodHdr 0x0A01)) = false := by decide
theorem test_wf_create : wellFormed (.ctxCreate (goodHdr 0x0301) goodCreate) = true
    ∧ wellFormed (.ctxCreate (goodHdr 0x0301) { goodCreate with allow := 2 ^ 32 }) = false := by decide +kernel
theorem test_wf_setup : wellFormed (.queSetup (goodHdr 0x0501) goodSetup) = true
    ∧ wellFormed (.queSetup (goodHdr 0x0501) { goodSetup with prio := 256 }) = false := by decide
theorem test_wf_enrol : wellFormed (.chipEnrol (goodHdr 0x0121) goodEnrol) = true
    ∧ wellFormed (.chipEnrol (goodHdr 0x0121) { goodEnrol with domain := 2 ^ 128 }) = false := by decide +kernel
theorem test_wf_export : wellFormed (.ctxExport (goodHdr 0x0307) 0 goodExport) = true
    ∧ wellFormed (.ctxExport (goodHdr 0x0307) 0 { goodExport with dxk := zeros 305 }) = false := by decide +kernel
theorem test_wf_keys : wellFormed (.imgKeys (goodHdr 0x0403) 0 ⟨zeros 168, [], zeros 16⟩) = true
    ∧ wellFormed (.imgKeys (goodHdr 0x0403) 0 ⟨zeros 168, [], zeros 15⟩) = false := by decide +kernel
theorem test_wf_image : wellFormed (.imgLoad (goodHdr 0x0401) none ⟨zeros 32, [], zeros 16⟩) = true
    ∧ wellFormed (.imgLoad (goodHdr 0x0401) none ⟨zeros 31, [], zeros 16⟩) = false := by decide +kernel
theorem test_wf_regions : wellFormed (.retWatch (goodHdr 0x0604) 0 0 (List.replicate 4 goodRegion)) = true
    ∧ wellFormed (.retWatch (goodHdr 0x0604) 0 0 (List.replicate 3 goodRegion)) = false
    ∧ wellFormed (.retWatch (goodHdr 0x0604) 0 0 (List.replicate 4 { goodRegion with sigs := [] })) = false := by decide
theorem test_wf_pins : wellFormed (.pinSet (goodHdr 0x0901) goodPin) = true ∧ wellFormed (.pinSet (goodHdr 0x0901) { goodPin with func := 256 }) = false
    ∧ wellFormed (.gpioPadChange 48 true) = false ∧ wellFormed (.pinlock 0x10A 0) = false := by decide
theorem test_wf_boot : wellFormed (.startUp goodBoot) = true ∧ wellFormed (.startUp { goodBoot with slacks := [] }) = false := by decide
theorem test_wf_samples : wellFormed (.powerLimitLoop 2000 [500, 500, 500, 500]) = true ∧ wellFormed (.powerLimitLoop 2000 []) = false
    ∧ wellFormed (.thermalSample [] []) = false ∧ wellFormed (.ageingReplan [1]) = false := by decide

/-! ### Cryptography -/

/-- FIPS 180-4, "abc"; FIPS 197, C.3; the first AES-256 case of the GCM specification. -/
theorem test_sha384 : (beNat (sha384Bytes [0x61, 0x62, 0x63]))
    = 0xcb00753f45a35e8bb5a03d699ac65007272c32ab0eded1631a8b605a43ff5bed8086072ba1e7cc2358baeca134c825a7 := by decide +kernel
theorem test_aes : beNat (aes (be 32 0x000102030405060708090A0B0C0D0E0F101112131415161718191A1B1C1D1E1F) (be 16 0x00112233445566778899AABBCCDDEEFF))
    = 0x8EA2B7CA516745BFEAFC49904B496089 := by decide +kernel
theorem test_gcm : beNat (gcmSeal (zeros 32) (zeros 12) [] []) = 0x530F8AFBC74536B9A963B4F1C4CB738B := by decide +kernel

theorem test_devid : ({} : Ident).devid = zDevid := by decide +kernel
theorem test_dxk : ({} : Ident).dxk = zDxk := by decide +kernel

theorem gPub_point : (pubPoint gPub).isSome = true := by decide +kernel

/-- An envelope that `sealEnv` makes opens to its payload on its device. -/
theorem openEnv_sealEnv (i : Ident) (kind : Byte) (pt : List Byte) : openEnv i kind (sealEnv i kind pt) = (pt, true) := by
  obtain ⟨q, hq⟩ := Option.isSome_iff_exists.mp gPub_point
  have hk : (hkdf gPub (ecdh i.dxk q) (lv8k [0x4B, 0x45] ++ [kind]) 32).length = 32 := hkdf_length _ _ _ _
  have e1 : bytesAt (sealEnv i kind pt).head 56 97 = gPub := by
    simp only [sealEnv]; generalize i.devid = d; rfl
  have e2 : bytesAt (sealEnv i kind pt).head 156 12 = zeros 12 := by
    simp only [sealEnv]; generalize i.devid = d; rfl
  rw [openEnv, e1, e2]
  simp only [wrapKey, hq, Option.map_some, openSealed, sealEnv, Option.getD_some]
  exact gcmOpen_sealed hk rfl _ _

/-- Its header names the device. -/
theorem tdev_sealEnv (i : Ident) (kind : Byte) (pt : List Byte) : numAt (sealEnv i kind pt).head 8 48 = i.devid := by
  refine numAt_of ?_ (sha384_lt _)
  simp only [sealEnv]; generalize i.devid = d; rfl

theorem sealedImgOf_sealImg (key : Nat) (bs : List Byte) (h : bs.length < 256 ^ 4) :
    sealedImgOf key (sealImg key bs) = { magicOk := true, ver := 1, rsvdOk := true, imgLen := bs.length, bulkLen := 48 + bs.length, tagOk := true
                                         hash := sha384 bs, bytes := bs } := by
  have hk : (le 32 key).length = 32 := leBytes_length _ _
  have hl := gctrText_length hk (iv := zeros 12) rfl bs
  have hg := gcmOpen_sealed hk (iv := zeros 12) rfl (sealImg key bs).head bs
  have ht := gcmTag_length hk (iv := zeros 12) rfl (sealImg key bs).head (gctrText (le 32 key) (zeros 12) bs)
  have hn : numAt (sealImg key bs).head 8 4 = bs.length := numAt_of (by simp only [sealImg]; generalize bs.length = n; rfl) h
  have hi : bytesAt (sealImg key bs).head 16 12 = zeros 12 := by simp only [sealImg]; generalize bs.length = n; rfl
  have hb : sealedLen (sealImg key bs) = 48 + bs.length := by
    simp only [sealedLen]; show 32 + _ + _ = _
    simp only [sealImg] at ht ⊢; rw [hl, ht]; omega
  have hg' : gcmOpen (le 32 key) (zeros 12) (sealImg key bs).head (sealImg key bs).ct (sealImg key bs).tag = (bs, true) := hg
  simp only [sealedImgOf, hi, hg', hn, hb]
  simp only [sealImg]; generalize bs.length = n; rfl

/-! ### Words written out from R78 and R79 -/

theorem test_word_alu : dec16 0 0x0135 = some (.add 0 (.r16 3 5)) ∧ dec32 0 0x0013E112 = some (.mulhu 0 1 2 3)
    ∧ dec32 0 0x0093E001 = some (.tst 0 (.r32 0 1 3)) := by decide
theorem test_word_immediate : dec32 0 0xFFFEE247 = some (.addi 0 (.i16 4 7 0xFFFE)) ∧ dec16 0 0x4519 = some (.lsr 0 (.imm 17 9))
    ∧ dec16 0 0x1A57 = some (.movi 0 7 0xA5) := by decide
theorem test_word_memory : dec16 0 0x6A52 = some (.ldw 0 2 (.stack16 0x25)) ∧ dec32 0 0x0160F065 = some (.sth 0 6 (.postInc 5))
    ∧ dec16 0 0xA312 = some (.ldb 0 1 (.base16 2 3)) ∧ dec32 0 0xFFF0ED12 = some (.stw 0 1 (.disp32 2 0xFFF0)) := by decide
theorem test_word_branch : dec16 0 0x7BFE = some (.bcc 0 .lt (.short 0xFE)) ∧ dec32 0 0x1234F256 = some (.bl 0 0x123456)
    ∧ dec16 0 0x9207 = some (.blr 0 7) := by decide
theorem test_word_control : dec32 0 0x0012F330 = some (.mrs 0 3 0x12) ∧ dec32 0 0x0011F400 = some (.msr 0 0x11 0)
    ∧ dec32 0 0x0300F609 = some (.loopi 0 48 9) := by decide
theorem test_word_accumulator : dec32 0 0x1103F702 = some (.macx 0 2 3 0 1 1 false false)
    ∧ dec32 0 0x01CFF860 = some (.accrd 0 6 15 2 true true) := by decide
theorem test_word_system : dec16 0 0x9405 = some (.post 0 5) ∧ dec16 0 0x93F1 = some (.rand 0) ∧ dec16 0 0x9004 = some (.rete 0)
    ∧ dec16 0 0x9502 = some (.bcmp 0) ∧ dec16 0 0x9000 = some (.nop 0) := by decide
theorem test_word_unassigned : dec16 0 0xB000 = none ∧ dec16 0 0x7F00 = none ∧ dec32 0 0x0000F900 = none ∧ dec32 0 0x0002F702 = none := by decide

/-! ### Witnesses: the queue and the block as a whole -/

/-- A context state in vc `v` of mode 0 with its PC in work RAM, every happening up to that vc having acted. -/
def wPast (v : Nat) : Mach :=
  { cpu := { pc := 0x01000000#32 }, vc := v, au := { samples := v / 256 + 1, blocks := (v / 256 + 1) / 48 }, bm := { lcmpDone := v + 1 }
    cur := { latch := (v + 25600) / 204800, capture := (v + 800) / 204800, inForce := (v + 1) / 204800, hblank := (v + 288) / 800,
             sprite := v / 800 + 1, commit := (v + 288) / 800 } }
/-- The same in vc 0. -/
def wMach : Mach := wPast 0
/-- A running context on lane 0 with two epochs released. -/
def wCtx (m : Mach) : Ctx := { num := 0, stat := .running, m := m, orr := { lane := some 0, released := 2, reach := some 1 } }
/-- A READY device owned by M0 that holds context `x`. -/
def wState (x : Ctx) : State := { State.reset with mgmt := { devstate := 2, owner := 0 }, ctxs := [x] }
/-- The processor of `wMach` with other fields. -/
def wCpu (c : Cpu) : Ctx := wCtx { wMach with cpu := { c with pc := 0x01000000#32 } }

theorem wit_StepRunsTheFrontCommand : ({ State.reset with pending := [.coldReset, .flr 0] } : State).pending = .coldReset :: [.flr 0] := rfl
theorem wit_EmptyQueuePassesOneMicrosecond : (wState (wCtx wMach)).pending = [] ∧ (wState (wCtx wMach)).mgmt.devstate ≠ 1 := by decide +kernel
theorem wit_StepKeepsMemoriesCanonical : (wState (wCtx wMach)).memOk = true ∧ ∃ t, step (wState (wCtx wMach)) = .next t := ⟨by decide +kernel, _, rfl⟩
theorem wit_EveryCommandLeavesANextState : ∃ t, exec .coldReset (wState (wCtx wMach)) = .next t := ⟨_, rfl⟩
theorem wit_InstructionsLeaveOtherContextsAlone :
    ∃ t, coreStep (wState (wCtx wMach)) 0 (encodingOf (.nop 0)) (fun _ m _ _ _ => ⟨m, 1, .seq⟩) = .next t ∧ 1 ≠ 0 := by
  refine ⟨_, rfl, by decide +kernel⟩
theorem wit_DecodingUndoesEncoding : (encodeCore (.callg 7 0xFF)).isSome = true ∧ wellFormed (.callg 7 0xFF) = true
    ∧ wellFormed (.ldbs 0 1 (.postReg 2 1)) = true ∧ wellFormed (.bcc 0 .al (.long 0xFFFFF)) = true := by decide +kernel

/-! ### Witnesses: instructions -/

/-- `Issues`, as a check that evaluates. -/
def issuesB (s : State) (x : Ctx) (len : Nat) : Bool :=
  decide (x.num = 0) && x.active && x.m.fx == [] && (chosen x.m x.m.vc).isNone && x.m.cpu.entry.isNone && !x.m.cpu.begun && x.m.cpu.word.isEmpty
    && x.m.cpu.blk.isNone && x.m.cpu.idle.isNone
    && !pswT x.m.cpu.psw && !x.m.dbg.bp0.getLsbD 0 && !x.m.dbg.bp1.getLsbD 0 && (fetchCheck (s.env x) x.m x.m.cpu.pc len).toOption.isSome
    && fetchFixes (s.env x) x.m x.m.cpu.pc len == []

theorem issues_of_check {s : State} {x : Ctx} {len : Nat} (hs : s.ctxs = [x]) (h : issuesB s x len = true) : Issues s 0 x len := by
  simp only [issuesB, decide_eq_true_eq, Bool.and_eq_true, beq_iff_eq, Bool.not_eq_true', Option.isNone_iff_eq_none, List.isEmpty_iff] at h
  obtain ⟨⟨⟨⟨⟨⟨⟨⟨⟨⟨⟨⟨⟨h1, h2⟩, h3⟩, h4⟩, h5⟩, h6⟩, h7⟩, h8⟩, h9⟩, h10⟩, h11⟩, h12⟩, h13⟩, h14⟩ := h
  refine ⟨by simp [State.ctx?, hs, h1], h2, h3, h4, h5, h6, h7, h8, h9, h10, h11, h12, ?_, h14⟩
  revert h13
  cases fetchCheck (s.env x) x.m x.m.cpu.pc len with
  | error e => simp [Except.toOption]
  | ok u => intro _; rfl

/-- Context `x` alone in `wState` issues instructions of both lengths, its memories are canonical, and its lane may run 32 vc. -/
def ready (x : Ctx) : Bool := issuesB (wState x) x 2 && issuesB (wState x) x 4 && laneMayPass x (x.m.vc + 31) && x.memOk

/-- `Stands`, as a check that evaluates. -/
def standsB (s : State) (x : Ctx) : Bool :=
  decide (x.num = 0) && x.active && x.m.fx == [] && (chosen x.m x.m.vc).isNone && x.m.cpu.entry.isNone && !x.m.cpu.begun && x.m.cpu.word.isEmpty
    && x.m.cpu.blk.isNone && x.m.cpu.idle.isNone && s.ctxs == [x]

theorem stands_of_check {s : State} {x : Ctx} (h : standsB s x = true) : Stands s 0 x := by
  simp only [standsB, decide_eq_true_eq, Bool.and_eq_true, beq_iff_eq, Bool.not_eq_true', Option.isNone_iff_eq_none, List.isEmpty_iff] at h
  obtain ⟨⟨⟨⟨⟨⟨⟨⟨⟨h1, h2⟩, h3⟩, h4⟩, h5⟩, h6⟩, h7⟩, h8⟩, h9⟩, hs⟩ := h
  exact ⟨by simp [State.ctx?, hs, h1], h2, h3, h4, h5, h6, h7, h8, h9⟩

/-- `IssuesTraced`, as a check that evaluates. -/
theorem traced_of_check {s : State} {x : Ctx} {len : Nat} (h : standsB s x = true) (ht : pswT x.m.cpu.psw = true) (h0 : x.m.dbg.bp0.getLsbD 0 = false)
    (h1 : x.m.dbg.bp1.getLsbD 0 = false) (hf : (fetchCheck (s.env x) x.m x.m.cpu.pc len).toOption.isSome = true)
    (hc : fetchFixes (s.env x) x.m x.m.cpu.pc len = []) : IssuesTraced s 0 x len := by
  refine ⟨stands_of_check h, ht, h0, h1, ?_, hc⟩
  revert hf
  cases fetchCheck (s.env x) x.m x.m.cpu.pc len with
  | error e => simp [Except.toOption]
  | ok u => intro _; rfl

theorem issues_of_ready {x : Ctx} (h : ready x = true) :
    Issues (wState x) 0 x 2 ∧ Issues (wState x) 0 x 4 ∧ laneFits x 32 ∧ x.memOk = true := by
  simp only [ready, Bool.and_eq_true] at h
  obtain ⟨⟨⟨h1, h2⟩, h3⟩, h5⟩ := h
  exact ⟨issues_of_check rfl h1, issues_of_check rfl h2, h3, h5⟩

/-- `Runs`, as a check that evaluates. -/
def runsB (x : Ctx) : Bool := decide (x.num = 0) && x.active && x.m.fx == []

theorem runs_of_check {s : State} {x : Ctx} (hs : s.ctxs = [x]) (h : runsB x = true) : Runs s 0 x := by
  simp only [runsB, decide_eq_true_eq, Bool.and_eq_true, beq_iff_eq] at h
  exact ⟨by simp [State.ctx?, hs, h.1.1], h.1.2, h.2⟩

theorem wit_AddAndSubtractWriteResultAndFlags : Issues (wState (wCtx wMach)) 0 (wCtx wMach) (aluLen (.r16 15 15))
    ∧ Issues (wState (wCtx wMach)) 0 (wCtx wMach) (aluLen (.r32 0 1 2)) ∧ laneFits (wCtx wMach) 1 :=
  ⟨issues_of_check rfl (by decide +kernel), issues_of_check rfl (by decide +kernel), by unfold laneFits; decide +kernel⟩
theorem wit_LogicAndExtendedOperationsWriteResultNAndZ : Issues (wState (wCtx wMach)) 0 (wCtx wMach) 4 ∧ laneFits (wCtx wMach) 2
    ∧ laneFits (wCtx wMach) 3 := ⟨issues_of_check rfl (by decide +kernel), by unfold laneFits; decide +kernel, by unfold laneFits; decide +kernel⟩
theorem wit_ComparesAndImmediates : ready (wCtx wMach) = true ∧ cmpFormOk (.r16 3 3) = true ∧ cmpFormOk (.r32 0 15 15) = true := by decide +kernel
theorem wit_ShiftsWriteResultAndLastBitOut : Issues (wState (wCtx wMach)) 0 (wCtx wMach) (shiftLen (.imm 31 15))
    ∧ Issues (wState (wCtx wMach)) 0 (wCtx wMach) (rorLen (.x32 0 1 2)) := ⟨issues_of_check rfl (by decide +kernel), issues_of_check rfl (by decide +kernel)⟩
theorem wit_DivisionsWriteQuotientOrTakeVector8 : Issues (wState (wCtx wMach)) 0 (wCtx wMach) 4 ∧ laneFits (wCtx wMach) 18
    ∧ wMach.reg 3 = 0 ∧ ready (wCpu { regs := Vector.replicate 16 0xFFFFFFFF }) = true :=
  ⟨issues_of_check rfl (by decide +kernel), by unfold laneFits; decide +kernel, by decide +kernel, by decide +kernel⟩

/-- Every register holds `v`. -/
def wAll (v : Word) : Ctx := wCpu { regs := Vector.replicate 16 v }
/-- The outcome of the access checks, as data that compares. -/
def place (x : Ctx) (acc : Acc) (a n : Nat) : Option Loc := (checkAccess ((wState x).env x) x.m acc a n).toOption
def refused (x : Ctx) (acc : Acc) (a n : Nat) : Option Nat :=
  match checkAccess ((wState x).env x) x.m acc a n with | .error v => some v.1 | .ok _ => none

theorem wit_LoadsReadThePlaceOrTakeTheException : ready (wAll 0x010FFFFC) = true
    ∧ place (wAll 0x010FFFFC) .read (eaAddr (wAll 0x010FFFFC).m 4 (.postInc 2)).toNat 4 = some (.ram .work 0xFFFFC)
    ∧ eaOk true true true 1 (.postInc 2) = true ∧ eaOk true true true 2 (.postInc 2) = false
    ∧ refused (wAll 0x010FFFFC) .read (eaAddr (wAll 0x010FFFFC).m 4 (.disp32 2 4)).toNat 4 = some 4
    ∧ refused (wAll 0x010FFFFC) .read (eaAddr (wAll 0x010FFFFC).m 4 (.disp32 2 1)).toNat 4 = some 3
    ∧ refused (wAll 0x1FFC) .read (eaAddr (wAll 0x1FFC).m 4 (.base16 2 0)).toNat 4 = some 11 := by decide +kernel
theorem wit_StoresWriteTheirBytesAlone : ready (wAll 0x1FFC) = true ∧ place (wAll 0x1FFC) .write 0x1FFC 4 = some (.fast 0x1FFC)
    ∧ ready (wAll 0x0203FFFC) = true ∧ place (wAll 0x0203FFFC) .write 0x0203FFFC 4 = some (.ram .vram 0x3FFFC)
    ∧ (wAll 0x0203FFFC).cfg.rben = false ∧ refused (wAll 0x04000000) .write 0x04000000 4 = some 4
    ∧ refused (wAll 0x1FFC) .write 0x1FFD 2 = some 3 ∧ eaOk false true false 3 (.postReg 3 3) = true := by decide +kernel
theorem wit_WordAccessesReachTheRegisters : ready (wAll 0xFF00C000) = true ∧ eaOk true true true 1 (.base16 2 7) = true
    ∧ place (wAll 0xFF00C000) .read 0xFF00C01C 4 = some (.io 0xC01C) ∧ place (wAll 0xFF00C000) .write 0xFF00C000 4 = some (.io 0xC000) := by decide +kernel
theorem wit_WordAccessesReachTheRegisters_video : (vidMask {} 0x4000).isSome = true ∧ (vidMask {} 0x7FFC).isSome = false := by decide
theorem wit_BranchesTransferControl : Issues (wState (wAll 5)) 0 (wAll 5) (bccLen (.long 0)) ∧ laneFits (wAll 5) 2 ∧ (wAll 5).m.reg 3 = 5
    ∧ condHolds (wAll 5).m.cpu.psw .ne = true ∧ condHolds (wAll 5).m.cpu.psw .eq = false :=
  ⟨issues_of_check rfl (by decide +kernel), by unfold laneFits; decide +kernel, by decide +kernel, by decide +kernel, by decide +kernel⟩
theorem wit_ControlRegistersMoveAndHold : ready (wCtx wMach) = true ∧ wMach.lv ≠ 0 ∧ ready (wCtx { wMach with
      cpu := { pc := 0x01000000#32, psw := 0 }, dbg := { wins := Vector.replicate 8 ⟨0x01000000, 0x01000000, 7⟩ } }) = true
    ∧ ({ wMach with cpu := { psw := 0 } } : Mach).lv = 0 := by decide +kernel

/-- A loop at level 0 whose end is the address after the instruction, with count `n`. -/
def wLoop (n : Word) (ld : Nat) : Ctx :=
  wCpu { psw := BitVec.ofNat 32 (0x400 + ld * 0x1000), loops := #v[⟨0x01000100, 0x01000002, n⟩, {}, {}] }

theorem wit_LoopsOpenRepeatAndClose : ready (wLoop 2 0) = true ∧ ready (wLoop 2 1) = true ∧ ready (wLoop 1 1) = true ∧ ready (wLoop 0 3) = true
    ∧ pswLD (wLoop 2 0).m.cpu.psw = 0 ∧ pswLD (wLoop 2 1).m.cpu.psw = 0 + 1 ∧ pswLD (wLoop 0 3).m.cpu.psw = 3
    ∧ (wLoop 2 1).m.cpu.loops[0].lend = (wLoop 2 1).m.following 2 ∧ (wLoop 0 3).m.cpu.loops[2].lend ≠ (wLoop 0 3).m.following 2 := by decide +kernel
theorem wit_AccumulatorOperations : ready (wAll 0x01000010) = true ∧ place (wAll 0x01000010) .read 0x01000010 2 = some (.ram .work 0x10)
    ∧ ready (wAll 0x01000011) = true ∧ refused (wAll 0x01000011) .read 0x01000011 2 = some 3 := by decide +kernel

/-! ### Witnesses: entries, gates, services, waits -/

/-- An image of `n` zero bytes whose word `at_` is `v`. -/
def wImage (at_ v n : Nat) : Image :=
  { hash := 5, len := n, bytes := List.replicate at_ 0 ++ leBytes 4 v ++ List.replicate (n - at_ - 4) 0, seed := 1, key := 2 }
/-- A context that runs `wImage`, whose vectors lie at 0x04000400. -/
def wVec (c : Cpu) (f : Mach → Mach) : Ctx := wCtx (f { wMach with cpu := { c with pc := 0x01000000#32 }, img := ⟨5, 0x600⟩ })
/-- `wState` with the image of that context, whose vector `k` has handler address VBR + 0x100. -/
def vState (x : Ctx) (k : Nat) : State := { wState x with images := [wImage (0x400 + 4 * k) 0x100 0x600] }

/-- What an entry for exception `k` in vc `t0` needs, as a check that evaluates. -/
def entryNeeds (e : Env) (m : Mach) (k : Exc) (t0 : Nat) : Bool :=
  decide (k.vec < 64) && m.memOk && frameOk e m (frameAddr m (t0 + 7)).toNat 64 && !inIo ((m.cpu.vbr.toNat + 4 * k.vec) % 2 ^ 32)
    && (descriptor e m k (t0 + 7)).toOption.map Prod.fst == some 0x100

/-- A context in the handler with w15 at the top of work RAM. -/
def wTop : Ctx := wVec { regs := (Vector.replicate 16 (0 : Word)).set 15 0x01100000 } id

theorem wit_EntriesSaveTheFrame : entryNeeds ((vState wTop 9).env wTop) wTop.m { vec := 9, pc := 0 } 0 = true
    ∧ frameOk ((vState wTop 9).env (wAll 0x20)) (wAll 0x20).m (frameAddr (wAll 0x20).m 7).toNat 64 = false
    ∧ (wAll 0x20).m.fx = [] := by decide +kernel

/-- Source 31 pends, enabled, with priority 1, and PSW lets it in. -/
def wInt : Ctx := wVec { psw := 0x420, regs := (Vector.replicate 16 (0 : Word)).set 15 0x01100000 } fun m =>
  { m with ic := { pend := { val := 0x80000000#32 }, enable := 0x80000000#32, prio := #v[0, 0, 0, 0x10000000#32] } }

/-- A context whose next instruction is traced; one whose next instruction's address a comparator names. -/
def wTraced : Ctx := wVec { psw := 0x410, regs := (Vector.replicate 16 (0 : Word)).set 15 0x01100000 } id
def wMet : Ctx := wVec { regs := (Vector.replicate 16 (0 : Word)).set 15 0x01100000 } fun m => { m with dbg := { m.dbg with bp1 := 0x01000001 } }

theorem wit_InterruptsAndTrapsEnterTheirHandler_debug : IssuesTraced (vState wTraced 10) 0 wTraced 2 ∧ Stands (vState wMet 9) 0 wMet
    ∧ laneFits wTraced 2 ∧ laneFits wMet 1
    ∧ entryNeeds ((vState wTraced 10).env wTraced) (retireSeq wTraced.m wTraced.m.cpu 1 2) { vec := 10, pc := 0 } 1 = true
    ∧ entryNeeds ((vState wMet 9).env wMet) wMet.m { vec := 9, pc := 0 } 0 = true
    ∧ laneMayPass wTraced 8 = true ∧ wMet.m.dbg.bp1.toNat / 2 = wMet.m.cpu.pc.toNat / 2 ∧ wMet.m.cpu.afterRete = false
    ∧ (fetchCheck ((vState wMet 9).env wMet) wMet.m wMet.m.cpu.pc 2).toOption.isSome = true ∧ fetchFixes ((vState wMet 9).env wMet) wMet.m wMet.m.cpu.pc 2 = [] :=
  ⟨traced_of_check (by decide +kernel) (by decide) (by decide) (by decide) (by decide +kernel) (by decide +kernel), stands_of_check (by decide +kernel),
    by unfold laneFits; decide +kernel, by unfold laneFits; decide +kernel, by decide +kernel, by decide +kernel, by decide +kernel, by decide +kernel,
    by decide, by decide +kernel, by decide +kernel⟩

theorem wit_InterruptsAndTrapsEnterTheirHandler :
    (runsB wInt = true ∧ wInt.memOk = true ∧ chosen wInt.m wInt.m.vc = some 31 ∧ wInt.m.cpu.entry = none ∧ boundaryNow wInt.m = some wInt.m.vc
      ∧ laneMayPass wInt 7 = true ∧ entryNeeds ((vState wInt 63).env wInt) wInt.m { vec := 63, info := 0x11F, pc := 0x01000000 } 0 = true)
    ∧ issuesB (vState wTop 9) wTop 2 = true ∧ entryNeeds ((vState wTop 9).env wTop) (trapped wTop.m 1) { vec := 9, info := 0x01000000, pc := 0x01000002 } 1 = true
    ∧ entryNeeds ((vState wTop 1).env wTop) (trapped wTop.m 1) { vec := 1, info := 0xB000, pc := 0x01000000 } 1 = true
    ∧ decodeCore 0 ⟨false, 0xB000⟩ = none ∧ laneMayPass wTop 8 = true := by decide +kernel

/-- Eight windows that grant everything everywhere. -/
def wWins : Dbg := { wins := Vector.replicate 8 ⟨0, 0xFFFFFFFF, 7⟩ }
/-- A context at level `lv` whose w15 names `n` words `ws` in work RAM at 0x100. -/
def wFrame (lv : Nat) (ws : List Word) : Ctx :=
  wCtx { wMach with
    cpu := { pc := 0x01000000#32, psw := BitVec.ofNat 32 (lv * 1024), regs := (Vector.replicate 16 (0 : Word)).set 15 0x01000100 }
    mem := { work := memPutAll [] 0x100 (ws.flatMap fun w => leBytes 4 w.toNat) }, dbg := wWins }
def frameB (x : Ctx) (n : Nat) : Bool :=
  frameReadable ((wState x).env x) x.m 0x01000100 n && (poisonByte ((wState x).env x) x.m 0x01000100 n (.ram .work 0x100)).isNone
    && areaLoc x.cfg.prof 0x01000100 n == some (.ram .work 0x100)
/-- A frame with PC `p` and PSW `v`; a gate record with return address `p` and PSW `v`. -/
def frameOf (p v : Word) : List Word := [p, v] ++ List.replicate 14 0
def recordOf (p v : Word) : List Word := [p, v, 0x6A7E0007, 0]

theorem wit_ReturnsRestoreWhatWasSaved : ready (wFrame 0 (frameOf 0x01000200 0)) = true ∧ (wFrame 0 []).m.lv = 0
    ∧ ready (wFrame 1 (frameOf 0x01000200 0x3F)) = true ∧ frameB (wFrame 1 (frameOf 0x01000200 0x3F)) 64 = true
    ∧ frameB (wFrame 1 (frameOf 0x01000201 0x400)) 64 = true ∧ frameB (wFrame 1 (frameOf 0x01000200 0x800)) 64 = true ∧ (wFrame 1 []).m.lv < 2
    ∧ frameReadable ((wState (wAll 0x100)).env (wAll 0x100)) (wAll 0x100).m 0x100 64 = false
    ∧ ready (wFrame 0 (recordOf 0x01000200 0)) = true ∧ frameB (wFrame 0 (recordOf 0x01000200 0)) 16 = true
    ∧ recordWin (wFrame 0 (recordOf 0x01000200 0)).m .read true 0x01000100 = true
    ∧ frameB (wFrame 1 (recordOf 0x01000200 0)) 16 = true ∧ frameB (wFrame 1 [0, 0, 0x6A7F0000, 0]) 16 = true
    ∧ areaWord ((wState (wFrame 1 (recordOf 4 1))).env (wFrame 1 (recordOf 4 1))) (wFrame 1 (recordOf 4 1)).m 0x01000100 16 2 = 0x6A7E0007 := by
  decide +kernel

/-- A level 0 caller of gate 0 in work RAM: the gate of two arguments enters 0x01000800 at level 1 from levels 0 and 1, and its first check
byte asks to read w1 bytes at w0. -/
def wGate : Ctx :=
  wCtx { wMach with
    cpu := { pc := 0x01000000#32, psw := 0, gtb := 0x01000400, gtl := 1, ssp := 0x01001000, regs := (Vector.replicate 16 (4 : Word)).set 0 0x01000500 }
    mem := { work := memPutAll [] 0x400 ([0x01000800, 0x03002925, 0, 0].flatMap fun (w : Word) => leBytes 4 w.toNat) }, dbg := wWins }

theorem wit_GateCallPushesTheRecordAndEnters : ready wGate = true ∧ gateEntry ((wState wGate).env wGate) wGate.m 0 0 = some (0x01000800, 0x03002925)
    ∧ bitOf 0x03002925 2 = true ∧ bitsOf 0x03002925 1 0 = 1 ∧ bitsOf 0x03002925 6 4 = 2 ∧ (gateChk 0x29).malformed 2 = false
    ∧ (gateChk 0x29).passes ((wState wGate).env wGate) wGate.m 0 = true ∧ (gateChk 0).malformed 2 = false ∧ bitOf 0x03002925 24 = true
    ∧ frameOk ((wState wGate).env wGate) wGate.m 0x01000FF0 16 = true ∧ recordWin wGate.m .write false 0x01000FF0 = true
    ∧ wGate.cfg.rben = false ∧ wGate.m.cpu.gtl.toNat ≤ 1 := by decide +kernel

/-- A level 1 caller of the services whose w0 names `a` and whose w1 is `n`, with side queue 5 open for `k` postings. -/
def wServ (a n : Word) (k : Nat) : Ctx :=
  wCtx { wMach with
    cpu := { pc := 0x01000000#32, regs := ((Vector.replicate 16 (0 : Word)).set 0 a).set 1 n }
    oq := (Vector.replicate 16 ({} : Oq)).set 5 { base := 0x8000, size := 0x1000, en := true, posts := List.replicate k ⟨0x8000, 4, 0, false, 0⟩ } }
/-- All gate checks of the services pass. -/
def servB (x : Ctx) : Bool := [0xF0, 0xF1, 0xF2, 0xF3, 0xF4].all fun g => (serviceGate ((wState x).env x) x.m g x.m.vc).isNone

theorem wit_MachineServicesAnswer : ready (wServ 0x01000100 0x01000400 0) = true ∧ servB (wServ 0x01000100 0x01000400 0) = true
    ∧ rangeOk { cfg := {}, images := [] } (wServ 0x01000100 0x01000400 0).m 1 0x01000100 64 1 = true
    ∧ rangeOk { cfg := {}, images := [] } (wServ 0x01000100 0x01000400 0).m 1 0x01000400 1024 2 = true
    ∧ argFault { cfg := {}, images := [] } (wServ 0x01000100 0x01000400 0).m 0x01000100 64 = none
    ∧ ready (wServ 0x01000100 256 0) = true ∧ rangeOk { cfg := {}, images := [] } (wServ 0x01000100 256 0).m 1 0x01000100 256 1 = true
    ∧ ready (wServ 5 0 1) = true ∧ ((wServ 5 0 1).m.oqOf 5).posts = [] ++ [⟨0x8000, 4, 0, false, 0⟩] ∧ ((wServ 5 0 0).m.oqOf 5).posts = []
    ∧ sideQueue 5 = true ∧ oqDir 5 ((wServ 5 0 1).m.oqOf 5) = false
    ∧ serviceGate ((wState (wFrame 0 [])).env (wFrame 0 [])) (wFrame 0 []).m 0xF1 0 = some 1 ∧ ready (wFrame 0 []) = true := by decide +kernel

/-- The refusal check of R55 for a POST on queue 5. -/
def postB (x : Ctx) : Bool :=
  let o := x.m.oqOf 5
  (decide (x.m.lv ≠ 0) || x.m.umask.getLsbD 12) && sideQueue 5 && o.en && !oqDir 5 o && decide ((x.m.reg 1).toNat ≠ 0)
    && decide ((x.m.reg 0).toNat + (x.m.reg 1).toNat ≤ o.size.toNat)
/-- A context that waits for nothing or for source 31, with a blit or none. -/
def wIdle (b : Bool) : Ctx :=
  wCtx { wMach with
    ic := if b then { pend := { val := 0x80000000#32 }, enable := 0x80000000#32, prio := #v[0, 0, 0, 0x10000000#32] } else {}
    bu := if b then {} else { queue := [{}], freeVc := 100 } }

theorem wit_PostAddsAPostingAndWaitsWait : ready (wServ 0xFFC 4 15) = true ∧ postB (wServ 0xFFC 4 15) = true ∧ postB (wServ 0xFFD 4 15) = false
    ∧ ready (wServ 0xFFC 4 16) = true ∧ ((wServ 0xFFC 4 16).m.oqOf 5).posts.length = 16 ∧ (wServ 0xFFC 4 15).cfg.rben = false
    ∧ ready (wIdle true) = true ∧ ready (wIdle false) = true ∧ (wIdle false).m.ic.firstReady (pswIPL (wIdle false).m.cpu.psw) = none
    ∧ (wIdle true).m.ic.firstReady (pswIPL (wIdle true).m.cpu.psw) = some 0 ∧ 0 < (wIdle false).m.bu.outstanding ∧ (wIdle true).m.bu.outstanding = 0 := by
  decide +kernel

/-- A block instruction over `n` words at 0x01000800 and 0x01000900, which hold `v` and 0 in their second word. -/
def wBlock (n v : Word) : Ctx :=
  wCtx { wMach with
    cpu := { pc := 0x01000000#32, regs := #v[0x01000800, 0x01000900, n, 0, 0, 0, 0, 0, 0, 0, 0, 0, 0, 0, 0, 0] }
    mem := { work := memPutAll [] 0x804 (leBytes 4 v.toNat) } }

theorem wordsAt_of_check {e : Env} {m : Mach} {acc : Acc} {r : Reg} {off n : Nat} (h : ((m.reg r).toNat % 4 = 0 ∧ (List.range n).all
      (fun i => (checkAccess e m acc ((m.reg r).toNat + 4 * i) 4).toOption == some (.ram .work (off + 4 * i))) = true)) : wordsAt e m acc r off n := by
  refine ⟨h.1, fun i hi => ?_⟩
  have := List.all_eq_true.mp h.2 i (List.mem_range.mpr hi)
  revert this
  cases checkAccess e m acc ((m.reg r).toNat + 4 * i) 4 with
  | error x => simp [Except.toOption]
  | ok l => simp [Except.toOption]

theorem wit_BlockInstructionsProcessAChunk : ready (wBlock 0 1) = true ∧ ready (wBlock 17 1) = true ∧ laneMayPass (wBlock 17 1) 33 = true
    ∧ wordsAt ((wState (wBlock 17 1)).env (wBlock 17 1)) (wBlock 17 1).m .write 0 0x800 16
    ∧ wordsAt ((wState (wBlock 17 1)).env (wBlock 17 1)) (wBlock 17 1).m .read 0 0x800 16
    ∧ wordsAt ((wState (wBlock 17 1)).env (wBlock 17 1)) (wBlock 17 1).m .read 1 0x900 16
    ∧ (wBlock 17 1).m.workWord 0x804 ≠ (wBlock 17 1).m.workWord 0x904 ∧ (∀ i, i < 16 → (wBlock 17 0).m.workWord (0x800 + 4 * i) = (wBlock 17 0).m.workWord (0x900 + 4 * i)) :=
  ⟨by decide +kernel, by decide +kernel, by decide +kernel, wordsAt_of_check (by decide +kernel), wordsAt_of_check (by decide +kernel),
    wordsAt_of_check (by decide +kernel), by decide +kernel, by decide +kernel⟩
theorem wit_NopHasNoEffectAndBrkTakesVector9 : Issues (vState wTop 9) 0 wTop 2 ∧ laneFits wTop 1
    ∧ Fx.faulted true ∉ (enter ((vState wTop 9).env wTop) (trapped wTop.m 1) { vec := 9, info := 0x01000000, pc := 0x01000002 } 1).fx
    ∧ Fx.faulted false ∉ (enter ((vState wTop 9).env wTop) (trapped wTop.m 1) { vec := 9, info := 0x01000000, pc := 0x01000002 } 1).fx :=
  ⟨issues_of_check rfl (by decide +kernel), by unfold laneFits; decide +kernel, by decide +kernel, by decide +kernel⟩
theorem wit_OnlyEntryGatesAndReteChangeTheLevel : encodeCore (.brk 0) ≠ none ∧ (vState wTop 9).ctx? 0 = some wTop
    ∧ ∃ t, exec (.brk 0) (vState wTop 9) = .next t ∧ (t.ctx? 0).isSome = true := by
  refine ⟨by decide, rfl, _, rfl, by decide +kernel⟩

/-! ### Witnesses: virtual time -/

/-- A running context in vc `v`, changed by `f`. -/
def wAt (v : Nat) (f : Mach → Mach) : Ctx := wCtx (f (wPast v))

theorem wit_TimerTickCountsMatchesAndWraps :
    let x := wAt 2 fun m => { m with tm := #v[{ en := true, reload := 0, cmp := 0 }, { en := true, chain := true }, { offAt := some 9 }, { en := false, offAt := some 9 }] }
    runsB x = true ∧ (x.m.timer 0).chain = false ∧ (x.m.timer 0).en = true ∧ hasCome x (.tick 0) ((x.m.timer 0).phase0 + 1) = true
      ∧ (x.m.timer 1).chain = true ∧ (x.m.timer 1).phase0 < 1 ∧ (x.m.timer 3).offAt ≠ some 1 ∧ (x.m.timer 2).en = false := by decide +kernel
theorem wit_CountWriteReplacesTheTick : runsB (wAt 9 id) = true ∧ laneMayPass (wAt 9 id) 9 = true
    ∧ ((wAt 9 fun m => { m with tm := Vector.replicate 4 { reload := 3 } }).m.timer 3).reload.toNat < (4 : Word).toNat := by decide +kernel
theorem wit_TimerControlHaltsAndHoldWindows :
    let h (k : Bool) : Ctx := { wAt 9 id with stat := .parked, cfg := { tcompat := k } }
    let w (n : Nat) : Ctx := wAt 9 fun m => { m with cpu := { m.cpu with hold := some n } }
    ((wState (h true)).ctx? 0 = some (h true) ∧ (h true).stat = .parked ∧ (h false).cfg.tcompat = false
        ∧ (h false).hold.since + (h false).hold.ticks < ({ wState (h false) with audit := { uptime := 1 } } : State).audit.uptime
        ∧ (wState (h false)).audit.uptime ≤ (h false).hold.since + (h false).hold.ticks)
      ∧ laneMayPass (w 9) 9 = true ∧ runsB (w 9) = true ∧ (w 9).m.cpu.hold = some 9 ∧ 9 ≤ (w 9).m.vc ∧ runsB (w 10) = true ∧ (w 10).m.vc < 10 := by
  refine ⟨⟨rfl, rfl, rfl, by decide, by decide⟩, ?_⟩
  decide +kernel

/-- Of two entries that stand in the list against their positions the second, on line 1, acts first and is skipped (R184). -/
def wBack : Ctx := wAt 799 fun m => { m with rl := { m.rl with inForce := some [⟨0x20000002, 5, false⟩, ⟨0x20000001, 6, false⟩], capt := 2 } }

theorem wBack_skips : SkipsFollow {} (modeOf 0) [⟨0x20000002, 5, false⟩, ⟨0x20000001, 6, false⟩] fun k => k = 1 := by
  intro k r h
  match k, h with
  | 0, h =>
    cases h
    constructor
    · intro e; cases e
    · rintro (h | h | h | h | ⟨j, q, h, -⟩)
      · revert h; decide
      · revert h; decide
      · revert h; decide
      · revert h; decide
      · omega
  | 1, h =>
    cases h
    exact ⟨fun _ => Or.inr (Or.inr (Or.inr (Or.inr ⟨0, ⟨0x20000002, 5, false⟩, by omega, rfl, by omega, by omega, Or.inl (by decide)⟩))), fun _ => rfl⟩
  | k + 2, h => cases h

/-- A list with one entry that writes BG 0's control on line 1, one that is skipped, and the context in whose frame it is in force. -/
def wEntry (skip : Bool) : RlEntry := ⟨if skip then 0xA0000001 else 0x20000001, 5, false⟩
def wList (b : Bool) : Ctx := wAt 799 fun m => { m with rl := { m.rl with inForce := some [wEntry b], capt := 1 } }

theorem wit_BeamEventsAndRasterListAct_order : runsB wBack = true ∧ (wBack.m.rl.inForce.getD [])[1]? = some ⟨0x20000001, 6, false⟩
    ∧ hasCome wBack .listEntry 799 = true ∧ rlLine ⟨0x20000001, 6, false⟩ = 1 ∧ rlLine ⟨0x20000002, 5, false⟩ = 2 ∧ wBack.m.cur.inForce = 0 := by
  decide +kernel

theorem wit_BeamEventsAndRasterListAct :
    (let x (v : Nat) := wAt v fun m => { m with cur := { m.cur with hblank := 0, commit := 0 } };
      runsB (x 512) = true ∧ hasCome (x 512) .hblank (commitVc (modeOf 0) 0) = true ∧ hasCome (x 511) .hblank (commitVc (modeOf 0) 0) = false
        ∧ laneMayPass (x 511) 511 = true)
    ∧ (let x := wAt 184512 fun m => { m with cur := { m.cur with hblank := 230, commit := 256, sprite := 256 } };
        runsB x = true ∧ hasCome x .hblank (commitVc (modeOf 0) 230) = true ∧ ¬ (230 % 256 < 224) ∧ hballAt x.m.bm (commitVc (modeOf 0) 230) = false)
    ∧ (let x := wAt 803 fun m => { m with bm := { lcmp := 0x00010001 } };
        runsB x = true ∧ bitsOf x.m.bm.lcmp.toNat 9 0 = 1 ∧ bitsOf x.m.bm.lcmp.toNat 25 16 = 1 ∧ hasCome x .lineCompare 802 = true ∧ 802 % 204800 = 1 * 800 + 1 * 2)
    ∧ 256 ≤ bitsOf (wAt 0 fun m => { m with bm := { lcmp := 256 } }).m.bm.lcmp.toNat 9 0
    ∧ (let x (v : Nat) (b : Word) := wAt v fun m => { m with cur := { m.cur with capture := 0, commit := 256, sprite := 256 }, rl := { m.rl with ctl := if b = 9 then 0 else 1, count := 1, base := b } };
        runsB (x 204000 9) = true ∧ hasCome (x 204000 9) .listCapture 204000 = true ∧ (x 204000 9).m.rl.ctl.getLsbD 0 = false
        ∧ hasCome (x 204000 0) .listCapture 204000 = true
        ∧ (x 204000 0x3FFF8).m.rl.base.toNat + 8 ≤ vramSize 0 ∧ vramSize 0 < (x 204000 0x3FFF9).m.rl.base.toNat + 8 ∧ (x 204000 0).m.rl.count ≠ 0
        ∧ (x 204000 0).m.mem.poison = [])
    ∧ (let x := wAt 204799 fun m => { m with cur := { m.cur with inForce := 0, commit := 256, sprite := 256 }, rl := { m.rl with inForce := some [{ wEntry false with done := true }] } };
        runsB x = true ∧ hasCome x .listInForce 204799 = true)
    ∧ (runsB (wList false) = true ∧ rlLine (wEntry false) = 1 ∧ rlSpan (wEntry false) = 0 ∧ (vidMask {} (rlOff (wEntry false))).isSome = true
        ∧ hasCome (wList false) .listEntry (rlVc (modeOf 0) 0 (wEntry false)) = true)
    ∧ (runsB (wList true) = true ∧ hasCome (wList true) .listEntry (rlVc (modeOf 0) 0 (wEntry true)) = true ∧ rlLine (wEntry true) = 1
        ∧ rlSpan (wEntry true) = 0 ∧ (wEntry true).w0.getLsbD 31 = true) := by decide +kernel

/-- A context with `n` sprites on line 0, before that line's evaluation. -/
def wSprites (n : Nat) : Ctx := wAt 0 fun m => { m with
  cur := { m.cur with sprite := 0 }
  vid := { m.vid with shownRegs := [(0x5000, 1)], shownVram := (List.range n).map fun k => (16 * k + 6, 0x80) } }
/-- A context that holds `n` slots of stack 0. -/
def wSlots (n : Nat) : Ctx := { wAt 0 id with rend := { slots := List.replicate n (99, 0), slotWait := true } }

theorem slotsUsed_wSlots (n : Nat) : slotsUsed (wState (wSlots n)) (stackOf (wSlots n)) = n := by
  simp [slotsUsed, wSlots, wState, stackOf, wAt, wCtx]

theorem wit_LinesAreSelectedAndRenderedAhead :
    (runsB (wSprites 65) = true ∧ ((picOf ((wState (wSprites 65)).env (wSprites 65)) (wSprites 65).m 0).qualifying 0 0).length = 65
      ∧ hasCome (wSprites 65) .sprites 0 = true ∧ (wSprites 65).m.mem.poison = [])
    ∧ (∀ b, (wSprites 64).m.blkPoisoned .vram b = false)
    ∧ ((wSlots 0).active = true ∧ sheafMayBegin (wSlots 0) = true ∧ slotsUsed (wState (wSlots 0)) (stackOf (wSlots 0)) < 32768)
    ∧ ((wSlots 32768).active = true ∧ sheafMayBegin (wSlots 32768) = true ∧ (∀ p ∈ (wSlots 32768).rend.slots, p.1 ≠ 0)
      ∧ 32768 ≤ slotsUsed (wState (wSlots 32768)) (stackOf (wSlots 32768)) ∧ (wSlots 32768).rend.slotWait = true)
    ∧ (let x := { wAt 0 id with rend := { slots := [(0, 0)] } };
      runsB x = true ∧ sheafOf (modeOf 0) x.nextLine ∈ x.rend.slots.map Prod.fst ∧ x.nextLine / 256 ≤ x.m.cur.capture ∧ x.heldLine x.nextLine = false
        ∧ x.m.mem.poison = [] ∧ (x.outp.setFor 0).plc = [] ∧ x.badStore .predictor = false ∧ ({ x with bad := [.predictor] } : Ctx).badStore .predictor = true) := by
  refine ⟨by decide +kernel, fun _ => rfl, ⟨rfl, rfl, ?_⟩, ⟨rfl, rfl, ?_, ?_, rfl⟩, by decide +kernel⟩
  · rw [slotsUsed_wSlots] <;> decide
  · intro p hp; rw [List.eq_of_mem_replicate hp]; decide
  · rw [slotsUsed_wSlots] <;> exact Nat.le_refl _

/-- A sprite of 8 by 8 pixels at the origin whose first pixel is not transparent. -/
def wSprite : Sprite := { x := 0, y := 0, pat := 0, w := 8, h := 8, hf := false, vf := false, bpp8 := true, en := true, pline := 0, bank := 0, prio := 0, math := false }
def wPic : Pic := { md := modeOf 0, vsize := vramSize 0, regs := [(0x4000, 1)], vram := [(0, 1), (32, 1)], writes := [] }

theorem wit_LinesAreSelectedAndRenderedAhead_picture :
    (wPic.spritePx 0 0 0 0 [wSprite]).isSome = true ∧ (wPic.shown 0 0 0 0 [wSprite]).length = 2
    ∧ (wPic.reg 0x4000 0).getLsbD 0 = true ∧ (wPic.reg 0x4000 0).getLsbD 10 = false ∧ (wPic.reg 0x4000 0).getLsbD 3 = false := by decide +kernel

/-- A queue `q` of context 0 with `n` descriptors of 4,096 bytes fetched. -/
def wQueue (q n : Nat) : Queue := { qid := q, log2n := 16, opt := 1, fetched := List.replicate n ⟨0x1000, 4096, true, false, false⟩ }
def wPort : Func := { busMaster := true, linkUp := true }
/-- A READY device with context `x`, its queues `qs`, and DMA running at port A. -/
def qState (x : Ctx) (qs : List Queue) : State := { wState x with queues := qs, funcs := #v[wPort, {}] }
/-- Context 0 with a key on every queue. -/
def keyed (x : Ctx) : Ctx := { x with keys := Vector.replicate 16 { sid := 1, ever := true, key := some 7 } }

theorem fillDescs_replicate (d : Desc) (hd : badDesc d = false) (hl : 1 ≤ d.len.toNat) :
    ∀ n m, m ≤ n → (fillDescs (List.replicate n d) m).isSome = true
  | 0, m, h => by simp [Nat.le_zero.mp h, fillDescs]
  | n + 1, 0, _ => by simp [fillDescs]
  | n + 1, m + 1, h => by
    have := fillDescs_replicate d hd hl n (m + 1 - Min.min (m + 1) d.len.toNat) (by omega)
    simp only [List.replicate_succ, fillDescs, hd, Bool.false_eq_true, if_false, Option.isSome_map]
    exact this

def wSlice : Slice := { kind := 1, frame := 0, rev := 0, idx := 0, first := 0, lines := [[0]], lastSl := false }
def wSliced : Ctx := { keyed (wAt 500 id) with outp := { slices := [wSlice] } }
def wPlain : List Byte := slicePlain (qState wSliced [wQueue 2 0]) wSliced wSlice

theorem slicePlain_queue (n : Nat) : slicePlain (qState wSliced [wQueue 2 n]) wSliced wSlice = wPlain := rfl

/-- The example of R283: two lines of Mode A and their coding. -/
def wOlcLine (dot50 : Nat) : List Nat :=
  List.replicate 50 0x2040C0 ++ [dot50] ++ List.replicate 49 0x2040C0 ++ [0xFFFFFF, 0xE0E0E0, 0x808080, 0] ++ List.replicate 152 0x2040C0
def wOlcBytes : List Byte :=
  [0xC0, 0x20, 0x40, 0xC0, 0x7F, 0x62, 0xC3, 0xFF, 0xFF, 0xFF, 0xE0, 0xE0, 0xE0, 0x80, 0x80, 0x80, 0, 0, 0, 0xBF, 0, 0xBF, 0, 0x97, 0,
    0x31, 0x80, 2, 0x3F, 0x3F, 0x3F, 0x0C]
theorem test_olc_example : decodeOlc 256 2 wOlcBytes = some [wOlcLine 0x2040C0, wOlcLine 0xE0E0E0] := by decide +kernel
theorem test_olc_invalid : decodeOlc 256 2 (wOlcBytes ++ [0]) = none ∧ decodeOlc 256 3 wOlcBytes = none ∧ decodeOlc 1 1 [0x40] = none
    ∧ decodeOlc 1 1 [0] = none ∧ decodeOlc 1 1 [0xC1, 1, 2, 3, 1, 2, 3] = none ∧ decodeOlc 1 1 [0xC0, 1, 2] = none := by decide +kernel
/-- The coding in literals decodes to its lines, more than 64 pixels a line included. -/
theorem test_olc_literals : decodeOlc 65 2 ([List.replicate 65 0x010203, List.replicate 65 7].flatMap fun l => literalLine l.length l)
    = some [List.replicate 65 0x010203, List.replicate 65 7] := by decide +kernel

theorem wit_LinesAreCommittedAndSealed :
    (let x := { wAt 512 fun m => { m with cur := { m.cur with commit := 0 } } with rend := { lines := [⟨0, 1, [], List.replicate 256 0⟩] } };
      runsB x = true ∧ x.rend.lines = ⟨0, 1, [], List.replicate 256 0⟩ :: [] ∧ x.m.cur.commit = 0 ∧ hasCome x .lineCommit (commitVc (modeOf 0) 0) = true
        ∧ x.badStore (.line 0) = false ∧ ({ x with bad := [.line 1] } : Ctx).badStore (.line 0) = false ∧ x.outp.maxLine ≤ 0 ∧ memWf x.m.vid.shownVram = true)
    ∧ (let s := qState wSliced [wQueue 2 (wPlain.length + 32)];
      s.ctx? 0 = some wSliced ∧ nextSlice s wSliced = some wSlice ∧ wSlice.kind = 1 ∧ heldBack s wSliced 2 0 = false ∧ s.clocked = true ∧ (∀ k ∈ sliceItems wSliced wSlice, wSliced.badStore k = false)
        ∧ canAccept s wSliced 2 (slicePlain s wSliced wSlice).length = true)
    ∧ canAccept (qState wSliced []) wSliced 2 (slicePlain (qState wSliced []) wSliced wSlice).length = false ∧ wSlice.waited = false
    ∧ (∀ l ∈ [wOlcLine 0, wOlcLine 1], l.length = 256 ∧ ∀ p ∈ l, p < 2 ^ 24) := by
  refine ⟨by decide +kernel, ⟨rfl, rfl, rfl, rfl, rfl, by decide +kernel, ?_⟩, rfl, rfl, by decide +kernel⟩
  rw [slicePlain_queue]
  have h := fillDescs_replicate ⟨0x1000, 4096, true, false, false⟩ rfl (by decide) (wPlain.length + 32) (wPlain.length + 32) (Nat.le_refl _)
  exact h

theorem wit_AudioSamplesBecomeBlocks :
    (let x := { wAt 0 fun m => { m with au := {} } with log := { maxSample := 1 } };
      runsB x = true ∧ hasCome x .sample 0 = true ∧ x.m.mem.poison = [] ∧ x.m.au.samples < x.log.maxSample ∧ ¬ 0 < (wAt 0 id).log.maxSample)
    ∧ (let x := wAt 12288 fun m => { m with au := { m.au with samples := 48, blocks := 0, out := List.replicate 48 (0, 0) } };
      runsB x = true ∧ x.m.au.samples = 48 * (x.m.au.blocks + 1) ∧ hasCome x .blockCommit (48 * 256) = true ∧ x.outp.blocks.length < 16)
    ∧ (let x := { keyed (wAt 12288 id) with outp := { blocks := List.replicate 16 ⟨0, 0, List.replicate 48 (0, 0), false⟩ } };
      runsB x = true ∧ 16 ≤ x.outp.blocks.length ∧ heldBack (qState x [wQueue 3 1]) x 3 (blockEpoch (modeOf 0) 0) = false
        ∧ canAccept (qState x [wQueue 3 1]) x 3 224 = true ∧ canAccept (qState x []) x 3 224 = false) := by decide +kernel

theorem wit_CommitsMakeTheShadowLive :
    (runsB (wAt 9 id) = true ∧ laneMayPass (wAt 9 id) 9 = true ∧ (wAt 9 id).m.au.commit = none ∧ (1 : Word).getLsbD 0 = true)
    ∧ (let x := wAt 256 fun m => { m with au := { m.au with samples := 1, commit := some 255, xfq := true, kon := 1, shadow := { m.au.shadow with voices := Vector.replicate 32 { ctl := 1 } } } };
      runsB x = true ∧ x.m.au.commit = some 255 ∧ 255 < x.m.au.samples * 256 ∧ x.m.au.xf = none ∧ x.m.au.xfq = true
        ∧ hasCome x .commitTaken 256 = true ∧ x.m.au.kon.getLsbD 0 = true ∧ x.m.au.koff.getLsbD 1 = false)
    ∧ (let x := wAt 16384 fun m => { m with au := { m.au with samples := 64, blocks := 1, xf := some (0, []) } };
      runsB x = true ∧ x.m.au.xf = some (0, []) ∧ 0 + 64 ≤ x.m.au.samples ∧ hasCome x .crossfadeEnd (64 * 256) = true) := by decide +kernel

/-- A fill of one 16-bit pixel at the start of work RAM; in format 7 it has an error. -/
def wFill (fmt : Nat) : BlitCmd := { dbase := 0x01000000, dgeom := BitVec.ofNat 32 (1 + fmt * 65536), op := 1, fill := 0x7FFF, lv := 1, seq := 1 }

theorem wit_BlitsAreAcceptedAndRunRowByRow :
    (runsB (wAt 0 id) = true ∧ laneMayPass (wAt 0 id) 0 = true ∧ (wAt 0 id).m.bu.outstanding < 4
      ∧ (wAt 0 fun m => { m with bu := { queue := List.replicate 3 (wFill 0) } }).m.bu.outstanding < 4)
    ∧ (let x (k : Nat) := wAt 0 fun m => { m with bu := { queue := [wFill k] } };
      runsB (x 0) = true ∧ (x 0).m.bu.run = none ∧ hasCome (x 0) .blitStart 0 = true ∧ blitErrors ((wState (x 0)).env (x 0)) (x 0).m (wFill 0) = 0
        ∧ blitErrors ((wState (x 7)).env (x 7)) (x 7).m (wFill 7) ≠ 0)
    ∧ (let x := wAt 12 fun m => { m with bu := { run := some ⟨wFill 0, 0, 0, false, false⟩ } };
      runsB x = true ∧ hasCome x .blitRow (nextRowVc ⟨wFill 0, 0, 0, false, false⟩) = true ∧ x.memOk = true
        ∧ mapLoc 0 x.m.img.len ((dstRect (wFill 0)).row (nextRow ⟨wFill 0, 0, 0, false, false⟩)) = some (.ram .work 0) ∧ x.m.guarded = []
        ∧ x.m.mem.poison = [] ∧ (wState x).images = [] ∧ x.cfg.rben = false ∧ blitHm1 (wFill 0) = 0 ∧ blitHm1 { wFill 0 with size := 0x10000 } ≠ 0) := by
  decide +kernel
theorem wit_BlitIsRefusedWhenFull :
    let x := wAt 0 fun m => { m with bu := { queue := List.replicate 4 (wFill 0), freeVc := 100 } }
    Runs (wState x) 0 x ∧ laneMayPass x 0 = true ∧ (1 : Word).getLsbD 0 = true ∧ x.m.bu.outstanding = 4 :=
  ⟨runs_of_check rfl (by decide +kernel), by decide +kernel, by decide, by decide +kernel⟩

/-! ### Witnesses: input, side data, rollback -/

/-- A context before its first latch, with `n` the lowest open target. -/
def wLatch (rben : Bool) (n : Nat) : Ctx :=
  { wAt 179200 fun m => { m with cur := { m.cur with latch := 0, commit := 256, sprite := 256 } } with cfg := { rben := rben, pmax := if rben then 2 else 0, allow := if rben then 64 else 0 }, log := { closed := n, pt := 1 } }
def latchB (x : Ctx) : Bool :=
  runsB x && hasCome x .latch (latchVc (modeOf 0) 0) && decide (2 ≤ x.orr.released) && !postingUnread x && (reachMove (wState x) x).isNone

theorem wit_InputLatchAppliesItsTarget : latchB (wLatch false 1) = true ∧ latchInput (wLatch false 1) 0 = none
    ∧ latchB (wLatch false 2) = true ∧ latchInput (wLatch false 2) 0 = some true ∧ latchB (wLatch true 1) = true
    ∧ latchInput (wLatch true 1) 0 = some false ∧ (wState (wLatch true 1)).mgmt.devstate = 2 ∧ (wLatch true 1).log.recsKept = []
    ∧ (∀ k ∈ latchItems (wLatch false 2) 0 true (latchCtx (wState (wLatch false 2)) (wLatch false 2) 0 true).2, (wLatch false 2).badStore k = false)
    ∧ latchFits (wState (wLatch true 1)) (wLatch true 1) 0 false = true
    ∧ latchFits (wState { wLatch true 1 with cfg := { rben := true, pmax := 2, allow := 0 } }) { wLatch true 1 with cfg := { rben := true, pmax := 2, allow := 0 } } 0 false = false := by
  decide +kernel

def wRec (kind : Byte) : InRec := ⟨1, 0, kind, 5, 0, 0⟩
def wMsg (rs : List InRec) : InMsg := { goodIn with body := .input rs }
/-- A context with rollback that has latched target 1 by prediction, with the message that contradicts it. -/
def wRolled : Ctx :=
  { wLatch true 1 with
    m := { (wLatch true 1).m with cur := { (wLatch true 1).m.cur with latch := 1 } }
    log := { closed := 1, pt := 1, applied := [(1, List.replicate 8 {}, 0)] }
    snaps := [{ frame := 0, m := (wLatch true 1).m }]
    inb := { waiting := [wMsg [wRec 0, wRec 3]] } }

theorem wit_InputMessagesLogAndRecordsApply :
    (({ present := true } : Port).present = true ∧ (wRec 0).kind = 0 ∧ (wRec 2).kind = 2 ∧ (wRec 0).port.toNat ≠ (7 : Fin 8).val)
    ∧ (let x := { wLatch false 1 with inb := { waiting := [wMsg [wRec 4, wRec 0]] }, orr := { anchor := -1000 } };
      (wState x).ctx? 0 = some x ∧ reachMove (wState x) x = none ∧ (wState x).clocked = true ∧ x.cfg.rben = false ∧ x.inb.waiting = wMsg [wRec 4, wRec 0] :: []
        ∧ reachedAfter (wState x) (releaseOf x (x.log.deadlines + 1)) 0 = true) := by
  refine ⟨by decide +kernel, rfl, rfl, rfl, rfl, by decide +kernel⟩

theorem wit_RollbackAndPredictionDepth :
    (let l := closeAll ([wRec 0, wRec 3].foldl (logRec true 1) (wRolled.log, 0)).1;
      wRolled.cfg.rben = true ∧ (∀ k ∈ comparedItems { wRolled with log := l } 1 ++ restoreItems wRolled 0, wRolled.badStore k = false) ∧ firstDiff l (l.closed - 1) 1 = some 1
        ∧ (wRolled.snaps.find? fun p => p.frame + 1 = 1).isSome = true)
    ∧ (let x (w u : Nat) : Ctx := { wLatch true 1 with log := { pt := 2, winLatches := 64, winW := w, winU := u } };
      (x 2 0).log.firstUse = none ∧ 64 ≤ (x 2 0).log.winLatches ∧ (x 0 1).log.winU < (x 0 1).log.pt)
    ∧ ({ firstUse := some 120 } : InLog).firstUse = some 120 := by decide +kernel

/-- A context that waits for the message `b`. -/
def wWaits (b : InBody) (h : Hold) (st : CtxStat) : Ctx :=
  { wAt 0 fun m => { m with cur := { m.cur with latch := 1 } } with
    inb := { waiting := [{ goodIn with body := b }], attestPend := [4] }, hold := h, stat := st }

theorem wit_InboundMessagesAct :
    ((wWaits (.side 3 true [1]) {} .running).inb.waiting = { goodIn with body := .side 3 true [1] } :: [] ∧ goodIn.queue < 16)
    ∧ ((wWaits (.debug 1 true) {} .running).hold.haltReq = false ∧ (wWaits (.debug 1 true) {} .parked).stat = .parked)
    ∧ ((wWaits (.debug 2 true) { haltReq := true } .running).hold.haltReq = true ∧ (wWaits (.debug 2 true) { halted := true, byHalt := true } .running).m.cur.latch = 1)
    ∧ ((wWaits (.debug 1 true) {} .running).inb.attestPend = 4 :: [] ∧ (some { buf := 0, nonce := 0, id := 4 } : Option AttestReq).isSome = true)
    ∧ (let x : Ctx := { wWaits (.keys goodKeys) {} .running with m := { wMach with img := ⟨5, 256⟩ } };
      (wState x).clocked = true ∧ keyFail x goodKeys = none ∧ keyFail x { goodKeys with tagOk := false } ≠ none ∧ goodKeys.qmask.getLsbD 2 = true) := by
  decide +kernel

/-! ### Witnesses: the Orrery and the host -/

theorem foldl_same {α : Type} (f : Option α → α → Option α) (a : α) (h0 : f none a = some a) (h1 : f (some a) a = some a) :
    ∀ n, (List.replicate (n + 1) a).foldl f none = some a := by
  intro n
  rw [List.replicate_succ, List.foldl_cons, h0]
  induction n with
  | zero => rfl
  | succ n ih => rw [List.replicate_succ, List.foldl_cons, h1, ih]

/-- A parked context that holds a lane; a context that waits for one. -/
def wHolds : Ctx := { wAt 0 id with stat := .parked }
def wWants : Ctx := { wAt 0 id with num := 1, orr := { released := 2, newcomer := true } }
/-- `n` lanes are held, and a context waits. -/
def wLanes (n : Nat) : State := { wState wHolds with ctxs := List.replicate (n + 1) wHolds ++ [wWants] }

theorem filter_replicate_all {α : Type} (p : α → Bool) (a : α) (h : p a = true) (n : Nat) : (List.replicate n a).filter p = List.replicate n a := by
  rw [List.filter_eq_self]; intro b hb; rw [List.eq_of_mem_replicate hb]; exact h
theorem filter_replicate_none {α : Type} (p : α → Bool) (a : α) (h : p a = false) (n : Nat) : (List.replicate n a).filter p = [] := by
  rw [List.filter_eq_nil_iff]; intro b hb; rw [List.eq_of_mem_replicate hb, h]; decide

theorem wLanes_waiting (n : Nat) : firstWaiting (wLanes n) = some wWants := by
  unfold firstWaiting firstOf wLanes
  rw [List.filter_append, filter_replicate_none _ _ (by decide +kernel)]
  rfl
theorem wLanes_served (n : Nat) : served (wLanes n) = some wWants := by
  have : firstOf (wLanes n) (fun x => waits x && x.orr.newcomer) = some wWants := by
    unfold firstOf wLanes
    rw [List.filter_append, filter_replicate_none _ _ (by decide +kernel)]
    rfl
  unfold served
  rw [this]
theorem wLanes_same (n : Nat) : ∀ k ∈ (wLanes n).ctxs, (wLanes n).ctx? k.num = some k := by
  intro k hk
  rcases List.mem_append.mp hk with h | h
  · rw [List.eq_of_mem_replicate h]; rfl
  · rw [List.mem_singleton.mp h]
    unfold State.ctx? wLanes
    rw [List.find?_append, List.find?_replicate]
    rfl
theorem wLanes_victim (n : Nat) : victim (wLanes n) = some wHolds := by
  unfold victim wLanes
  rw [List.filter_append, filter_replicate_all _ _ (by decide +kernel)]
  refine (congrArg _ (List.append_nil _)).trans ?_
  refine foldl_same (fun b x => match b with
    | none => some x
    | some y => if victimBefore x y then some x else some y) wHolds rfl ?_ n
  rfl
theorem wLanes_used (n : Nat) : (lanesUsed (wLanes n)).length = n + 1 := by
  unfold lanesUsed wLanes
  rw [List.filterMap_append, List.filterMap_replicate_of_some (b := 0) (by rfl)]
  simp [wWants]
theorem foldl_isSome {α : Type} (f : Option α → α → Option α) (h : ∀ b a, (f b a).isSome = true) :
    ∀ (l : List α) (b : Option α), b.isSome = true → (l.foldl f b).isSome = true
  | [], _, hb => hb
  | a :: l, b, _ => foldl_isSome f h l (f b a) (h b a)
theorem wWants_lane : (chooseLane (wState wWants)).isSome = true := by
  unfold chooseLane
  dsimp only
  cases h : (List.range laneCount).filter fun l => !(lanesUsed (wState wWants)).contains l with
  | nil =>
    have := List.filter_eq_nil_iff.mp h 0 (by simp [laneCount])
    exact absurd (by decide +kernel) this
  | cons a l =>
    refine foldl_isSome _ (fun b a => ?_) l _ rfl
    cases b with
    | none => rfl
    | some k => dsimp only; split <;> rfl

theorem wWants_laneFor : (laneFor (wState wWants) wWants).isSome = true := by
  have h : laneFor (wState wWants) wWants = chooseLane (wState wWants) := by rfl
  rw [h]; exact wWants_lane

theorem wit_EpochsAndSwaps :
    (let x : Ctx := { wAt 0 id with orr := { lane := some 0, released := 1, anchor := -900 } };
      (wState x).ctx? 0 = some x ∧ reachMove (wState x) x = none ∧ releaseOf x 1 ≤ edgeNow (wState x) ∧ x.orr.due < 1 ∧ onTime (wState x) x 0 = false)
    ∧ edgeNow (wState (wAt 0 id)) < releaseOf (wAt 0 id) 2
    ∧ (let s : State := { wState (wAt 0 id) with audit := { uptime := 1000000 } }; 1000000 * ((wAt 0 id).orr.second + 1) ≤ s.audit.uptime)
    ∧ ((wLanes 8191).ctx? 0 = some wHolds ∧ served (wLanes 8191) = some wWants ∧ (∀ k ∈ (wLanes 8191).ctxs, (wLanes 8191).ctx? k.num = some k) ∧ victim (wLanes 8191) = some wHolds ∧ wHolds.orr.lane = some 0
      ∧ 8192 ≤ (lanesUsed (wLanes 8191)).length)
    ∧ ((wState wWants).ctx? 1 = some wWants ∧ firstWaiting (wState wWants) = some wWants ∧ (laneFor (wState wWants) wWants).isSome = true ∧ wWants.orr.grant = none
      ∧ (wState wWants).power.frost = false ∧ (wState wWants).mgmt.devstate = 2 ∧ wWants.badStore .lane = false)
    ∧ (let x : Ctx := { wWants with orr := { released := 2, unpassed := true, grant := some 5 } }
      let s : State := { wState x with mgmt := { devstate := 3 } }
      s.ctx? 1 = some x ∧ laneFor s x = some 5 ∧ s.mgmt.devstate ≠ 2 ∧ x.orr.unpassed = true ∧ x.m.cur.latch < x.orr.released) := by
  refine ⟨⟨rfl, by decide +kernel, by decide +kernel, by decide, by decide +kernel⟩, by decide +kernel, by decide, ⟨rfl, wLanes_served _, wLanes_same _, wLanes_victim _, rfl, by rw [wLanes_used] <;> decide⟩,
    ⟨rfl, by rfl, wWants_laneFor, rfl, rfl, rfl, rfl⟩, by decide +kernel⟩

/-- Every lane is held. -/
def wFull : State := { wState wHolds with ctxs := (List.range 8192).map fun k => { wHolds with num := k, orr := { lane := some k } } }

/-- The orders of a swap: a lane is chosen where one is free, none where none is; a victim, a waiting context and a served one are there or not. -/
theorem wit_EpochsAndSwaps_orders : (chooseLane (wState wWants)).isSome = true ∧ chooseLane wFull = none ∧ (victim (wLanes 8191)).isSome = true
    ∧ victim State.reset = none ∧ (firstWaiting (wLanes 8191)).isSome = true ∧ firstWaiting State.reset = none
    ∧ (served (wLanes 8191)).isSome = true ∧ served State.reset = none := by
  refine ⟨wWants_lane, ?_, by rw [wLanes_victim] <;> rfl, rfl, by rw [wLanes_waiting] <;> rfl, rfl, by rw [wLanes_served] <;> rfl, rfl⟩
  have hu : lanesUsed wFull = List.range 8192 := by
    unfold lanesUsed wFull
    rw [List.filterMap_map]
    exact List.filterMap_some
  unfold chooseLane
  have hf : ((List.range laneCount).filter fun l => !(lanesUsed wFull).contains l) = [] := by
    rw [List.filter_eq_nil_iff, hu]
    intro l hl
    simp [laneCount] at hl ⊢
    exact hl
  simp only [hf, List.foldl_nil]

def wDesc : Desc := ⟨0x1000, 4096, true, true, false⟩
/-- Its 32 bytes in host memory: ADDR, LEN, OWN and END (R383). -/
def wRaw : RawDesc := le 8 0x1000 ++ le 4 4096 ++ zeros 11 ++ [3] ++ zeros 8
theorem test_descriptor : descOf wRaw = wDesc ∧ wRaw.length = 32 := by decide

theorem wit_DoorbellsFetchDescriptors :
    (let s := qState (wAt 0 id) [{ wQueue 2 0 with log2n := 4, fhead := 15 }];
      (s.queue? 2).isSome = true ∧ s.ctx? (2 / 16) = some (wAt 0 id) ∧ [wRaw, wRaw].all (fun b => (descOf b).own) = true ∧ [wRaw, wRaw].length = (1 + 16 - 15) % 16
        ∧ barUp s 0 = true ∧ portUp s 0 = true ∧ (wQueue 2 0).bad = false ∧ barUp State.reset 0 = false)
    ∧ (qState (wAt 0 id) []).queue? 2 = none
    ∧ (let q : Queue := { wQueue 2 0 with log2n := 4, fhead := 15, tail := 1, kept := true }; let s := qState (wAt 0 id) [q];
      (s.queues.filter fun k => k.kept) = [q] ∧ s.queue? 2 = some q ∧ portUp s 0 = true ∧ portUp (s.setFunc 0 { wPort with dis := true }) 0 = false
        ∧ ([⟨2, [wRaw, wRaw], false⟩] : List Ring).find? (fun r => r.qid = 2) = some ⟨2, [wRaw, wRaw], false⟩) := by
  refine ⟨⟨by decide +kernel, rfl, by decide, by decide, by decide +kernel, by decide +kernel, by decide, by decide⟩, rfl, by decide +kernel⟩

/-- A debug message of four bytes that waits for queue 8. -/
def wOut : OutMsg := { queue := 8, plain := [1, 2, 3, 4] }
def wSends : Ctx := { keyed (wAt 0 id) with outp := { msgs := [wOut] } }

theorem wit_MessagesAreWrittenAndChecked :
    (let s (n : Nat) := qState wSends [wQueue 8 n];
      liveQueue (s 0) wSends 8 = some (wQueue 8 0) ∧ (wSends.outp.msgs.find? fun m => m.queue = 8) = some wOut ∧ (wSends.qkey 8).valid = true
        ∧ plainPoison (s 0) wSends wOut = none ∧ fillDescs [] wOut.total = none ∧ (fillDescs (wQueue 8 1).fetched wOut.total).isSome = true
        ∧ (wQueue 8 1).chead < (wQueue 8 1).n ∧ dmaTurn (s 1) 0 (outWant (s 1) wSends (wQueue 8 1) wOut.total) = true
        ∧ (let t := { s 1 with dmas := Vector.replicate 64 { busy := true, qid := 3, prio := 7, left := 100 } };
          dmaTurn t 0 (outWant t wSends (wQueue 8 1) wOut.total) = false ∧ beatOf t 0 (t.func 0).beat = some 0))
    ∧ (let x := keyed (wAt 0 id); let q : Queue := { wQueue 1 0 with fetched := [wDesc] };
      liveQueue (qState x [q]) x 1 = some q ∧ inboundQueue x 1 = true ∧ stagingRoom x 1 (inboundOf {} x 1 rawIn false) = true ∧ splitMsg q.fetched = some ([wDesc], [])
        ∧ dmaTurn (qState x [q]) 0 (inWant q (descTotal [wDesc])) = true
        ∧ inStat x 1 (descTotal [{ wDesc with len := 48 }]) (inboundOf {} x 1 rawIn false) = 0
        ∧ inStat x 1 (descTotal [wDesc]) (inboundOf {} x 1 rawIn false) = 3 ∧ inStat x 1 (descTotal [wDesc]) (inboundOf {} x 1 ⟨[], [], []⟩ true) = 4) := by
  decide +kernel

/-- A posting whose bytes in work RAM are poisoned; inbound messages that are too long, or for which staging has no room. -/
theorem wit_MessagesAreWrittenAndChecked_waits :
    (let o : OutMsg := { queue := 5, src := some (5, 0, 4) }
     let x : Ctx := { keyed (wAt 0 fun m => { m with mem := { m.mem with poison := [⟨.work, 0, 0⟩] } }) with outp := { msgs := [o] } }
     let s := qState x [wQueue 5 1]
     liveQueue s x 5 = some (wQueue 5 1) ∧ (x.outp.msgs.find? fun m => m.queue = 5) = some o ∧ o.sealed = none ∧ (plainPoison s x o).isSome = true
      ∧ x.stat ≠ .faulted ∧ (fillDescs (wQueue 5 1).fetched o.total).isSome = true ∧ dmaTurn s 0 (outWant s x (wQueue 5 1) o.total) = true)
    ∧ (let long : Desc := { wDesc with len := 0x200000 }
      splitMsg [long] = some ([long], []) ∧ tooLong (descTotal [long]) = true ∧ tooLong (descTotal [wDesc]) = false)
    ∧ (let x : Ctx := { keyed (wAt 0 id) with log := { recs := List.replicate 4096 ⟨0, false, wRec 0⟩ } }
      stagingRoom x 1 (wMsg [wRec 0]) = false ∧ inboundQueue x 1 = true)
    ∧ (let s := (qState (wAt 0 id) []).setFunc 0 { wPort with dis := true, disClear := true }
      (s.func 0).disClear = true ∧ portIdle s 0 = true ∧ 0 ∈ s.ports) := by
  decide +kernel

theorem wit_DoorbellsFetchDescriptors_messages :
    (let s := qState wSends [wQueue 8 1];
      s.ctx? (8 / 16) = some wSends ∧ liveQueue s wSends 8 = some (wQueue 8 1) ∧ (wQueue 8 1).bad = false ∧ (∀ k ∈ msgItems wOut, wSends.badStore k = false)
        ∧ (wSends.outp.msgs.find? fun m => m.queue = 8) = some wOut ∧ (wSends.qkey 8).valid = true ∧ plainPoison s wSends wOut = none
        ∧ (fillDescs (wQueue 8 1).fetched wOut.total).isSome = true ∧ dmaTurn s 0 (outWant s wSends (wQueue 8 1) wOut.total) = true)
    ∧ (let x := keyed (wAt 0 id); let q : Queue := { wQueue 1 0 with fetched := [wDesc] };
      inboundQueue x 1 = true ∧ splitMsg q.fetched = some ([wDesc], []) ∧ stagingRoom x 1 (inboundOf {} x 1 ⟨[], [], []⟩ true) = true
        ∧ dmaTurn (qState x [q]) 0 (inWant q (descTotal [wDesc])) = true) :=
  ⟨⟨rfl, by decide +kernel, by decide +kernel, by decide +kernel, by decide +kernel, by decide +kernel, by decide +kernel, by decide +kernel⟩,
    by decide +kernel⟩

/-- The example of R396: 1,000 bytes at 0x1_2345_1F3A under Max_Payload_Size 512 and 256. -/
theorem test_tlps_of_R396 :
    (tlps 512 1000 0x123451F3A 1000).map (fun t => (tlpHead t.1 t.2, t.2))
        = [((0x123451F38, 50, 0b1100, 0b1111), 198), ((0x123452000, 128, 0b1111, 0b1111), 512), ((0x123452200, 73, 0b1111, 0b0011), 290)]
      ∧ (tlps 256 1000 0x123451F3A 1000).map (fun t => t.2) = [198, 256, 256, 256, 34] := by decide +kernel

/-- The write-back of R396's example: XLEN 1,000, STAT 0x00, MFLAGS 0x03, OWN cleared, no time stamp (R383). -/
theorem test_writeback_of_R396 :
    backBytes { wDesc with last := false } 1000 0 3 0 = [0xE8, 0x03, 0, 0, 0, 0, 3, 0, 0, 0, 0, 0, 0, 0, 0, 0] := by decide +kernel

/-- Reads of BAR0 and of the identity (R11, R375, R377, R378, R528). -/
theorem test_host_reads :
    (let s := wState (wAt 0 id); barRead s 0 0 0 4 = some 0x800801B0 ∧ barRead s 0 0 4 4 = some 2 ∧ barRead s 0 0 0x10 4 = some 1 ∧ barRead s 0 0 0x1C 4 = some 0
      ∧ barRead s 0 0 1 4 = some 0 ∧ barRead s 0 0 0 8 = some 0 ∧ barRead s 0 2 64 4 = some 0 ∧ configWord 0 = some 0x80081D8A ∧ configWord 8 = some 0x120000B0)
    ∧ barRead State.reset 0 0 0x10 4 = some 0 ∧ barRead State.reset 0 0 4 4 = some 1 := by decide +kernel

theorem wit_PortEventsAct :
    (let s : State := { State.reset with coals := State.reset.coals.set 95 { nm1 := 0, cnt := 1 } };
      (s.coals[95]).nm1 + 1 ≤ (s.coals[95]).cnt ∧ (State.reset.coals[95]).cnt = 0 ∧ 0 ∈ s.ports ∧ s.clocked = true
        ∧ ({ s with gpio := { s.gpio with thermtrip := true } } : State).clocked = false)
    ∧ (let s := qState (wAt 0 id) [wQueue 15 0]; s.ports = [0] ∧ barUp s 0 = true ∧ (s.queue? 15).isSome = true ∧ (s.func 0).dis = false
        ∧ portIdle s 0 = true ∧ (s.func 0).ptmEn = false ∧ ({ wPort with ptmEn := true } : Func).ptmEn = true ∧ (s.box 0).waiting = [] ∧ (s.func 0).d3hot = false
        ∧ ({ wPort with pba := 1 } : Func).pba.getLsbD 0 = true) := by
  decide +kernel

theorem wit_RegistersAndPinsTakeWrites :
    (let x (en dir : Bool) : Ctx := wAt 0 fun m => { m with oq := Vector.replicate 16 { base := 0x8000, size := 4096, en := en, dirIn := dir } };
      runsB (x false false) = true ∧ laneMayPass (x false false) 0 = true ∧ ((x false false).m.oqOf 9).en = false ∧ runsB (x true true) = true ∧ oqDir 9 ((x true true).m.oqOf 9) = true
        ∧ oqDir 9 ((x true false).m.oqOf 9) = false ∧ sideQueue 9 = true ∧ sideQueue 8 = false ∧ 0x8000 + 4096 ≤ workSize 0)
    ∧ (let s := wState (wAt 0 id); mailboxUp s 2 = true ∧ s.mgmt.devstate ≠ 1 ∧ memWf (s.box 2).mem = true ∧ 0 ∈ s.ports ∧ (s.func 0).d3hot = false)
    ∧ ((State.reset.gpio.pin 47).lock = false ∧ ({ armed := true } : Gpio).armed = true ∧ (0xA5 : Word).toNat % 256 = 0xA5
      ∧ (State.reset.gpio.pin 0).pad ≠ true ∧ ({ func := 8 } : Pin).func = 8 ∧ busRole 1 (2 % 4) = true ∧ busRole 1 (3 % 4) = false)
    ∧ (let s := wState (wAt 0 id); s.mgmt.devstate = 2 ∧ s.gpio.syncAt ≤ s.audit.uptime * 48 / 1000 ∧ s.audit.uptime * 48 / 1000 % 800 = 0) ∧ State.reset.mgmt.devstate = 1 := by decide +kernel

theorem wit_FaultsResetsAndStartUp :
    (let s (u : Nat) : State := { wState (wAt 0 id) with mgmt := { devstate := 3, faultAt := some 5, lastFault := some 5 }, audit := { uptime := u } };
      (s 9).mgmt.devstate = 3 ∧ (s 9).mgmt.faultAt = some 5 ∧ (s 9).audit.uptime < 5 + 2000000 ∧ 5 + 2000000 ≤ (s 2000005).audit.uptime
        ∧ (s 9).mgmt.lastFault.any (fun u => decide ((s 9).audit.uptime < u + 600000000)) = true)
    ∧ (wState (wAt 0 id)).mgmt.devstate ≠ 4 ∧ ({ State.reset with gpio := { bifurc := true } } : State).gpio.bifurc = true
    ∧ State.reset.mgmt.devstate = 1 ∧ (chooseBank State.reset.ident goodBoot).isSome = true
    ∧ chooseBank State.reset.ident { goodBoot with bankAOk := false, bankBOk := false } = none
    ∧ (State.reset.voteLost fun _ => true) = false ∧ lostIn { State.reset with votes := [(⟨.epoch, 0⟩, 0), (⟨.epoch, 0⟩, 1)] } [.epoch]
    ∧ ¬ lostIn { State.reset with votes := [(⟨.boot, 0⟩, 0), (⟨.boot, 0⟩, 1), (⟨.epoch, 0⟩, 1)] } [.epoch]
    ∧ State.reset.power.pllLost = false ∧ ({ pllLost := true } : Power).pllLost = true := by decide +kernel

/-! ### Witnesses: management -/

/-- A READY device owned by M0 whose session 1 has role `r`, changed by `f`. -/
def mState (r : Nat) (f : State → State) : State :=
  f { State.reset with funcs := #v[wPort, {}], mgmt := { devstate := 2, owner := 0, sessions := [{ sh := 1, master := 0, role := r, slot := 1, isOpen := true, seq := 1 }] } }
/-- The bytes of a field, written out from the catalogue's sizes (R453, R265, R269). -/
def parBytes : Par → List Byte
  | .num n v => le n v
  | .raw _ l => l
  | .rsvd n => zeros n
  | .any n => zeros n
  | .place p => le 2 p.image.toNat ++ le 2 p.x.toNat ++ le 2 p.y.toNat ++ [p.alpha, if p.en then 1 else 0] ++ zeros 8
  | .region g => le 2 g.left ++ le 2 g.top ++ le 2 g.right ++ le 2 g.bottom ++ le 1 g.nsig ++ [if g.en then 1 else 0] ++ zeros 2 ++ le 2 g.missMax
      ++ le 2 g.stillMax ++ g.sigs.flatMap fun v => le 4 v.toNat
  | .scrubOp k => le 1 k
  | .bit b => [if b then 1 else 0]
/-- The packet of a command, without its trailer: its fields padded to units, after the bulk descriptor where there is one. -/
def packet (op : Nat) (sh : Word) (bulk : Option (List Byte)) (f : Hdr → Instr) : Hdr :=
  let g : Hdr := { goodHdr op with sh := sh, seq := sh, flags := if bulk.isSome then 1 else 0, params := [], input := bulk.getD [] }
  let y := layout (f g)
  let fields := y.pars.flatMap parBytes
  let all := (match bulk with | some i => le 8 0x1000 ++ le 8 i.length ++ le 8 0x2000 ++ le 8 (y.outLen.getD 0) | none => []) ++ fields
    ++ zeros ((16 - fields.length % 16) % 16)
  { g with params := all, len := 1 + all.length / 16 + if sh = 0 then 0 else 1 }
/-- The packet with the trailer of a session whose key is 0 (R433). -/
def signed (h : Hdr) : Hdr := { h with trailer := (hmac (le 48 0) (packetBytes h)).take 16 }
/-- A command of session 1. -/
def mHdr (op : Nat) (bulk : Option (List Byte)) (f : Hdr → Instr) : Hdr := signed (packet op 1 bulk f)

/-- `Packed` for a packet with its trailer, as a check that evaluates before it is signed. -/
def packB (h : Hdr) (op : Nat) (y : Lay) : Bool :=
  h.op.toNat = op && h.params.length + 32 = 16 * h.len && h.sh ≠ 0 && decide (2 ≤ h.len) && parsSay y.pars (fieldsOf h)
    && (if h.bulk then inLenOf h = h.input.length && (y.outLen.all fun n => outLenOf h = n) && y.inOk else h.input.isEmpty) && lenRight y h
    && (badRsvd (fieldsAt h) y.pars (fieldsOf h)).isNone

theorem packed_signed {h : Hdr} {op : Nat} {i : Instr} (y : Lay) (e : layout i = y) (k : packB h op y = true) : Packed (signed h) op i := by
  simp only [packB, Bool.and_eq_true, decide_eq_true_eq, Option.isNone_iff_eq_none] at k
  obtain ⟨⟨⟨⟨⟨⟨⟨h1, h2⟩, h3⟩, h4⟩, h5⟩, h6⟩, h7⟩, h8⟩ := k
  subst e
  have ht : trailerLen (signed h) = 16 := if_pos ⟨h3, h4⟩
  refine ⟨h1, ?_, h7, h8⟩
  rw [spells, ht]
  have hl : (signed h).trailer.length = 16 := by simp [signed]
  simp only [hl, decide_true, Bool.and_true, Bool.and_eq_true, decide_eq_true_eq]
  exact ⟨⟨h2, h5⟩, h6⟩

/-- `Sent` for such a packet: what the state has to give. -/
def sentB (s : State) (r : Nat) : Bool :=
  takes s 0 && decide (s.mgmt.devstate = 2) && headPos (s.box 0) = (s.box 0).cprod
    && (match s.session? 1 with
      | some x => x.isOpen && decide (x.master = 0) && decide (x.role = r) && decide (1 = x.seq) && decide (x.key = 0)
      | none => false)

theorem sent_signed {s : State} {r : Nat} {h : Hdr} (k : sentB s r = true) (hm : h.master = 0) (hs : h.sh = 1) (hq : h.seq = 1) (hv : h.fver = 1)
    (hf : h.rsvdFlags = false) : Sent s (signed h) r := by
  simp only [sentB, Bool.and_eq_true, decide_eq_true_eq] at k
  obtain ⟨⟨⟨h1, h2⟩, h3⟩, h4⟩ := k
  revert h4
  cases e : s.session? 1 with
  | none => intro q; cases q
  | some x =>
    intro q
    simp only [Bool.and_eq_true, decide_eq_true_eq] at q
    have e' : s.session? (signed h).sh = some x := by rw [← e, ← hs]; rfl
    have em : (signed h).master = 0 := hm
    have ho : openSession s (signed h) = some x := by
      simp [openSession, e', em, q.1.1.1.1, q.1.1.1.2]
    refine ⟨by rw [em]; exact h1, ?_, h2, hv, hf, Or.inr ⟨?_, ?_, x, ho, q.1.1.2, ?_⟩⟩
    · simp [atHead, em, h3]
    · show h.sh ≠ 0
      rw [hs]; decide
    · rw [trailerRight, ho, Option.any_some, decide_eq_true_eq, q.2]
      rfl
    · show h.seq.toNat = x.seq
      rw [hq, ← q.1.2]; rfl

theorem sent_of_check {s : State} {r op : Nat} {bulk : Option (List Byte)} {f : Hdr → Instr} (k : sentB s r = true) : Sent s (mHdr op bulk f) r :=
  sent_signed k rfl rfl rfl rfl (by cases bulk <;> simp [packet, goodHdr, Hdr.rsvdFlags])

/-- The first command of an unowned chip needs no session. -/
theorem sent_without_session : Sent (mState 2 id) (goodHdr 0x0110) 0 :=
  ⟨by decide +kernel, by decide +kernel, rfl, rfl, rfl, Or.inl ⟨rfl, rfl⟩⟩

/-- The packet is sent by the owner with room for its reply of `n` payload bytes, and fewer than 16 commands pend. -/
def sends (s : State) (r n : Nat) : Bool :=
  sentB s r && decide (s.mgmt.owner = 0) && decide ((s.mgmt.pend.filter fun p => p.h.master = 0).length < 16)
    && decide (ringCost 2048 (s.box 0).rprod (1 + (n + 15) / 16 + 1) ≤ (s.box 0).free)

theorem sent_of_sends {s : State} {r n op : Nat} {bulk : Option (List Byte)} {f : Hdr → Instr} (k : sends s r n = true) :
    Sent s (mHdr op bulk f) r ∧ fromOwner s (mHdr op bulk f) ∧ roomFor s (mHdr op bulk f) n := by
  simp only [sends, Bool.and_eq_true, decide_eq_true_eq] at k
  exact ⟨sent_of_check k.1.1.1, k.1.1.2, k.2⟩

/-- Command `f` of opcode `op`, sent by session 1, is one that carries its operands. -/
abbrev Carries (op : Nat) (bulk : Option (List Byte)) (f : Hdr → Instr) : Prop := Packed (mHdr op bulk f) op (f (mHdr op bulk f))

/-- A pending command of M0 and the state that holds it. -/
def wPend (b : PendBody) : Pend := { h := packet 0x0601 1 (some [5]) fun _ => .nop 0, body := b, role := 3, ctx := 0xFFFF, asked := true }
def pState (b : PendBody) (f : State → State) : State := f (mState 3 fun s => { s with mgmt := { s.mgmt with pend := [wPend b] } })
def transfersB (s : State) (p : Pend) : Bool :=
  decide (s.mgmt.devstate = 2) && decide ((s.box p.h.master).waiting = [])
    && decide (ringCost 2048 (s.box p.h.master).rprod (1 + (0 + 15) / 16 + (decide (p.h.sh ≠ 0)).toNat) ≤ (s.box p.h.master).free)
    && decide (s.mgmt.pend.find? (fun q => decide (q.h.master = p.h.master) && decide (q.h.tag = p.h.tag) && transferReady s q) = some p)
    && !p.dropped && !needsInput p && portUp s p.h.master
theorem transfers_of_check {s : State} {p : Pend} (k : transfersB s p = true) : transfers s p := by
  simp only [transfersB, Bool.and_eq_true, decide_eq_true_eq, Bool.not_eq_true'] at k
  obtain ⟨⟨⟨⟨⟨⟨h1, h2⟩, h3⟩, h4⟩, h5⟩, h6⟩, h7⟩ := k
  exact ⟨h1, h2, h3, h4, h5, h6, h7⟩

/-- A sealed image that passes every check, with its envelope. -/
def okImg : SealedImg :=
  { goodImg with bytes := [0x4C, 0x56, 0x49, 0x4D, 1, 0, 0, 0] ++ List.replicate 248 0 }
def okEnv : ImgEnv := ⟨true, true, true, true, 5, 9, 8⟩
/-- M2's mailbox is reached over I2C pins. -/
def i2c (s : State) : State := { s with gpio := { s.gpio with pins := (s.gpio.pins.set 0 { func := 1 }).set 1 { func := 1 } } }

/-- A packet of PWR.LIMIT with 200 W, changed by `g`, whose trailer is wrong. -/
def wLimit (g : Hdr → Hdr) : Hdr := g { packet 0x0801 1 none (fun h => .pwrLimit h 200) with trailer := zeros 16 }
/-- A packet of FW.DIAG whose first reserved byte is 1. -/
def wDiag : Hdr := { packet 0x0C02 1 none (fun h => .fwDiag h 5) with params := [5, 0, 1] ++ zeros 13 }

theorem wit_MailboxesAndTransfers_checks :
    (let s := mState 2 id
     let t (g : Hdr → Hdr) : Bool := taken s 0x0801 (layout (.pwrLimit (wLimit g) 200)) (wLimit g)
     t id = true ∧ trailerRight s (wLimit id) = false ∧ t (fun h => { h with fver := 2 }) = true ∧ t (fun h => { h with flags := 4 }) = true
       ∧ t (fun h => { h with sh := 9 }) = true ∧ openSession s (wLimit fun h => { h with sh := 9 }) = none ∧ (openSession s (wLimit id)).isSome = true
       ∧ t (fun h => { h with params := le 2 200 ++ zeros 30, len := 4 }) = true
       ∧ lenRight (layout (.pwrLimit (wLimit id) 200)) (wLimit fun h => { h with params := le 2 200 ++ zeros 30, len := 4 }) = false)
    ∧ Carries 0x0801 none (fun h => .pwrLimit h 200)
    ∧ (Sent (mState 1 id) (signed wDiag) 1 ∧ lenRight (layout (.fwDiag wDiag 5)) wDiag = true ∧ parsSay (layout (.fwDiag wDiag 5)).pars wDiag.params = true
      ∧ wDiag.params.length + 32 = 16 * wDiag.len ∧ ((wDiag.params.drop 2).take 14).all (fun b => decide (b = 0)) = false) :=
  ⟨by decide +kernel, packed_signed _ rfl (by decide +kernel), sent_signed (by decide +kernel) rfl rfl rfl rfl rfl, by decide +kernel, by decide +kernel,
    by decide +kernel, by decide +kernel⟩
theorem wit_MailboxesAndTransfers :
    (m2Reached (i2c State.reset) ⟨State.reset.mgmt.m2addr, true⟩ = true ∧ m2Reached (i2c State.reset) ⟨State.reset.mgmt.m2addr, false⟩ = false
      ∧ memWf (State.reset.box 2).mem = true)
    ∧ (headBad (State.reset.box 0) = false ∧ headBad { cprod := 1 } = true ∧ takes ((mState 2 id).setBox 0 { cprod := 1 }) 0 = true
      ∧ ringCost 2048 (({ cprod := 1 } : Mailbox)).rprod 1 ≤ ({ cprod := 1 } : Mailbox).free ∧ (goodHdr 0).op = 0)
    ∧ (mailboxUp (mState 2 id) 2 = true ∧ ((mState 2 id).box 2).waiting = [] ∧ takes (mState 2 id) 0 = true
      ∧ ringCost 2048 ((mState 2 id).box 0).rprod 1 ≤ ((mState 2 id).box 0).free ∧ (goodHdr 0x0D01).op.toNat ∉ assignedOps
      ∧ taken (mState 2 id) 0x0D01 {} (goodHdr 0x0D01) = true ∧ (goodHdr 0x0D01).rsvdFlags = false)
    ∧ (sends (mState 2 id) 2 0 = true ∧ sends (mState 3 id) 3 0 = true)
    ∧ (transfersB (pState (.retUpload 1 1 [1, 2, 3, 4]) id) (wPend (.retUpload 1 1 [1, 2, 3, 4])) = true
      ∧ transfersB (pState (.fwUpdate 3 0 false false) id) (wPend (.fwUpdate 3 0 false false)) = true ∧ transfersB (pState (.imgLoad (some okEnv) okImg) id) (wPend (.imgLoad (some okEnv) okImg)) = true
      ∧ keySource (mState 3 id) (some okEnv) okImg = some (9, 8) ∧ firstFail (sealChecks (mState 3 id) (some okEnv) okImg) = none) := by decide +kernel

/-- A device with context `x` and the image it runs. -/
def mCtx (x : Ctx) (s : State) : State := { s with ctxs := [x], images := [wImage 0x400 0x100 0x600] }
def aRec (n : Nat) : AlmRec :=
  { seq := n, boot := 0, uptime := 0, time := 0, opcode := 0, status := 0, master := 0, role := 0, kind := 0, ctx := 0, session := 0, detail := [], chain := 0 }

/-- A statement of which the second copy is poisoned. -/
def wStmt : Stmt :=
  { sseq := 4, ctx := 0, final := false, merged := false, tstep := false, epoch := 0, minutes := 1, min0 := 0, tstart := 0, tend := 0, almSeq := 0
    imgHash := 5, tag := 0, prev := 0, counts := [], sig := 0, half := some (1, 0) }

/-- Reads of a bulk transfer have been made and discarded; DMA of the port runs or not; the fields of the vote store are readable or not. -/
theorem wit_MailboxesAndTransfers_discarded :
    (let p : Pend := { wPend (.retUpload 1 1 [1, 2, 3, 4]) with dropped := true }
     let s : State := mState 3 fun s => { s with mgmt := { s.mgmt with pend := [p] } }
     (s.mgmt.pend.find? fun q => decide (q.h.master = p.h.master) && decide (q.h.tag = p.h.tag) && transferReady s q) = some p ∧ p.h.bulk = true
      ∧ inLenOf p.h ≠ 0 ∧ portUp s p.h.master = true ∧ portUp (s.setFunc 0 { wPort with dis := true }) 0 = false ∧ portIdle s 0 = false)
    ∧ needsInput { wPend .claim with asked := false } = true ∧ portUp (mState 3 id) 0 = true ∧ ¬ lostIn (mState 3 id) [.boot]
    ∧ lostIn (mState 3 fun s => { s with votes := [(⟨.cred 1, 11⟩, 0), (⟨.cred 1, 11⟩, 2)] }) [credField 1] := by decide +kernel

theorem wit_QueriesAnswerWithTheirPayload_packets :
    Carries 0x0101 none (fun h => .chipQuery h)
    ∧ Carries 0x0102 none (fun h => .chipCerts h)
    ∧ Carries 0x0103 none (fun h => .chipEvents h 9)
    ∧ Carries 0x0805 none (fun h => .pwrQuery h)
    ∧ Carries 0x0903 none (fun h => .pinQuery h)
    ∧ Carries 0x030A none (fun h => .ctxAttest h 0 7)
    ∧ Carries 0x030B none (fun h => .ctxQuery h 0)
    ∧ Carries 0x0A02 none (fun h => .rasCounts h)
    ∧ Carries 0x0B02 none (fun h => .almHead h 7)
    ∧ Carries 0x0B01 none (fun h => .almRead h 4 120)
    ∧ Carries 0x0701 none (fun h => .mtrRead h 0)
    ∧ Carries 0x0605 none (fun h => .retWatchq h 0)
    ∧ Carries 0x0404 none (fun h => .imgList h 0)
    ∧ Carries 0x0502 none (fun h => .queQuery h 7)
    ∧ Carries 0x0702 none (fun h => .mtrStatement h 4 24) := by
  and_intros <;> exact packed_signed _ rfl (by decide +kernel)
theorem wit_QueriesAnswerWithTheirPayload :
    sends (mState 3 (mCtx wTop)) 3 128 = true ∧ (mState 3 (mCtx wTop)).ctx? 0 = some wTop
    ∧ (∃ r ∈ (mState 3 fun s => { s with audit := { recs := [aRec 4] } }).audit.recs, r.seq = 4)
    ∧ (∀ r ∈ recsFrom (mState 3 fun s => { s with audit := { recs := [aRec 4] } }) 4 120, r.bad = false)
    ∧ ((mState 3 fun s => { s with queues := [wQueue 7 0] }).queue? 7).isSome = true
    ∧ (let s := mState 3 fun s => { s with audit := { s.audit with sseq := 5, stmts := [wStmt] } };
      stmtsFrom s 4 24 = [wStmt] ∧ wStmt.bad = false ∧ wStmt.half ≠ none) :=
  ⟨by decide +kernel, rfl, by decide +kernel, by decide +kernel, by decide +kernel, by decide +kernel⟩

/-- The role under which CHIP.TAG's own check sees a packet is that of the session which carries it (R434, R447). -/
theorem test_chiptag_role {s : State} {h : Hdr} {r : Nat} (k : Sent s h r) : roleOf s (takenHdr s 0x0120 h) = r := by
  rcases k.auth with ⟨h0, hr⟩ | ⟨h0, ht, x, ho, hx, hq⟩
  · simp [roleOf, takenHdr, h0, hr]
  · have ho' : openSession s (takenHdr s 0x0120 h) = some x := ho
    have hs : ¬ (takenHdr s 0x0120 h).sh = 0 := h0
    have ha : firstFail (authChecks s (takenHdr s 0x0120 h)) = none := by
      unfold authChecks
      rw [if_neg hs, ho']
      simp [firstFail, takenHdr, hq, ht]
    unfold roleOf
    rw [if_neg hs, ho', ha]
    exact hx

theorem wit_OwnershipMoves_packets :
    Carries 0x0110 none (fun h => .chipClaim h)
    ∧ Carries 0x0111 none (fun h => .chipRenew h)
    ∧ Carries 0x0112 none (fun h => .chipRelease h)
    ∧ Carries 0x0113 none (fun h => .chipHandover h 2)
    ∧ Carries 0x0113 none (fun h => .chipHandover h 0xFF)
    ∧ Carries 0x0114 none (fun h => .chipAccept h) := by
  and_intros <;> exact packed_signed _ rfl (by decide +kernel)
theorem wit_OwnershipMoves :
    sends (mState 2 id) 2 0 = true ∧ (mState 2 id).mgmt.elect = none
    ∧ sentB (mState 2 fun s => { s with mgmt := { s.mgmt with owner := 3 } }) 2 = true
    ∧ sentB (mState 2 fun s => { s with mgmt := { s.mgmt with elect := some 9, owner := 3 } }) 2 = true
    ∧ (2 : Byte).toNat ≤ 2 ∧ (2 : Byte).toNat ≠ (mState 2 id).mgmt.owner
    ∧ sentB (mState 2 fun s => { s with mgmt := { s.mgmt with owner := 2, offer := some (0, 0) } }) 2 = true
    ∧ (let s := pState .claim fun s => { s with mgmt := { s.mgmt with elect := some 0, owner := 3 } };
      s.mgmt.elect = some 0 ∧ 0 ≤ s.audit.uptime ∧ (s.mgmt.order.find? fun k => s.mgmt.pend.any fun p => decide (p.body = .claim) && decide (p.h.master = k)) = some 0)
    ∧ (mState 2 id).mgmt.leaseEnd ≤ (mState 2 id).audit.uptime := by decide +kernel

theorem wit_SessionsAndIdentityChange_packets :
    Carries 0x0120 none (fun h => .chipTag h 255 [1] true)
    ∧ Carries 0x0120 none (fun h => .chipTag h 256 (List.replicate 256 1) true)
    ∧ Carries 0x0121 none (fun h => .chipEnrol h ⟨0, 0, zeros 97, zeros 304⟩)
    ∧ Carries 0x0121 none (fun h => .chipEnrol h goodEnrol)
    ∧ Carries 0x0122 none (fun h => .chipSetclaim h [2, 0, 1] 0x4C 600)
    ∧ Carries 0x0210 none (fun h => .roleSetcred h 5 0)
    ∧ Carries 0x0201 none (fun h => .sesOpen h 3 5 9 4 7)
    ∧ Carries 0x0202 none (fun h => .sesProve h 2 gPub (zeros 96))
    ∧ Carries 0x0203 none (fun h => .sesClose h) := by
  and_intros <;> exact packed_signed _ rfl (by decide +kernel)
theorem wit_SessionsAndIdentityChange :
    sends (mState 2 id) 2 225 = true ∧ sends (mState 3 id) 3 0 = true ∧ 255 + 1 ≤ 256 ∧ 511 + 1 ≤ 512
    ∧ (mState 2 id).ctxs = [] ∧ enrolZero ⟨0, 0, zeros 97, zeros 304⟩ = true ∧ enrolZero goodEnrol = false ∧ (pubPoint (leBytes 97 ((4 : Byte).toNat + 256 * leNat (gPub.drop 1)))).isSome = true
    ∧ [2, 0, 1].Perm [0, 1, 2] ∧ smbusReserved 0x4C = false
    ∧ sentB (mState 2 id) 2 = true ∧ (mState 2 id).mgmt.creds[1] = 0 ∧ slotOfRole 3 5 = true ∧ slotOfRole 1 0 = true
    ∧ (let s := mState 2 fun s => { s with mgmt := { s.mgmt with sessions := s.mgmt.sessions ++ [{ sh := 2, master := 0, role := 3, slot := 5, isOpen := false }] } };
      sends s 2 0 = true ∧ (s.session? 2).any (fun x => !x.isOpen && x.master = 0 && x.slot = 5) = true ∧ s.mgmt.creds[5] = 0)
    ∧ ecdsaVerify gPub (leBytes 48 0) (gSign (leBytes 48 0)) = true ∧ ecdsaVerify gPub (leBytes 48 0) [] = false
    ∧ (0 : Nat) + 300000000 ≤ ({ uptime := 300000000 } : Audit).uptime := by decide +kernel

/-- Context 0 as CTX.START needs it: its image's first word is the descriptor of vector 0. -/
def wDefined : Ctx := { keyed (wVec {} id) with stat := .defined }

theorem wit_ContextsAreCreatedAndStarted_packets :
    Carries 0x0301 none (fun h => .ctxCreate h goodCreate)
    ∧ Carries 0x0302 none (fun h => .ctxStart h 0)
    ∧ Carries 0x0306 none (fun h => .ctxClass h 0 3 0xFFFFFFFF)
    ∧ Carries 0x030C none (fun h => .ctxReimage h 0 5) := by
  and_intros <;> exact packed_signed _ rfl (by decide +kernel)
theorem wit_ContextsAreCreatedAndStarted :
    (let s := mState 3 fun s => { s with images := [wImage 0x400 0x100 0x600] };
      sends s 3 0 = true ∧ (s.image? goodCreate.imgHash).isSome = true ∧ firstFail (createChecks s goodCreate) = none)
    ∧ (let s := mState 3 (mCtx wDefined);
      sends s 3 0 = true ∧ s.mgmt.pend = [] ∧ wDefined.stat = .defined ∧ wDefined.imported = false ∧ (wDefined.qkey 2).valid = true
        ∧ (wDefined.qkey 3).valid = true ∧ budgetsHold s wDefined (claimIn s wDefined) = true ∧ wDefined.m.fx = [] ∧ inIo wDefined.m.cpu.vbr.toNat = false
        ∧ (loadSup (s.env wDefined) { wDefined.m with cpu := { wDefined.m.cpu with regs := wDefined.m.cpu.regs.set 15 0x1FC0 } } wDefined.m.cpu.vbr.toNat 4 0).toOption.isSome = true
        ∧ pinnedFull s 0 3 = false ∧ (s.image? 5).any (fun i => i.forbids 0 0 false) = false) := by decide +kernel

theorem wit_ContextsParkResumeAndGo_packets :
    Carries 0x0303 none (fun h => .ctxPark h 0)
    ∧ Carries 0x0304 none (fun h => .ctxResume h 0)
    ∧ Carries 0x0305 none (fun h => .ctxDestroy h 0) := by
  and_intros <;> exact packed_signed _ rfl (by decide +kernel)
theorem wit_ContextsParkResumeAndGo :
    (let x (st : CtxStat) (h : Hold) : Ctx := { wVec {} fun m => { m with cur := { m.cur with latch := 1 } } with stat := st, hold := h };
      sends (mState 3 (mCtx (x .running {}))) 3 0 = true ∧ (x .running {}).hold.parkReq = false
        ∧ (x .running { halted := true }).hold.halted = true ∧ (x .parked { byPark := true }).hold.halted = false
        ∧ (x .parked {}).m.cur.latch = 1 ∧ (x .parked { halted := true }).stat = .parked) := by decide +kernel

/-- An enrolled device with context `x` and ticket 7. -/
def eState_ (x : Ctx) (s : State) : State := { mCtx x s with ident := { enrolled := true }, audit := { tickets := [(7, 0)] } }

theorem wit_MigrationAndImages_packets :
    Carries 0x0307 (some ([0, 0] ++ exportInput goodExport)) (fun h => .ctxExport h 0 goodExport)
    ∧ Carries 0x0308 none (fun h => .ctxImprep h)
    ∧ Carries 0x0309 (some ([0, 0] ++ goodImport.sfwk ++ goodImport.obj.head ++ goodImport.obj.ct ++ goodImport.obj.tag ++ goodImport.sig)) (fun h => .ctxImport h 0 3 4000 goodImport.obj.head goodImport.obj.ct goodImport.obj.tag goodImport.sig goodImport.sdik goodImport.sfwk)
    ∧ Carries 0x0401 (some (zeros 48)) (fun h => .imgLoad h (some ⟨zeros 168, zeros 128, zeros 16⟩) ⟨zeros 32, [], zeros 16⟩)
    ∧ Carries 0x0401 (some (zeros 48)) (fun h => .imgLoad h none ⟨zeros 32, [], zeros 16⟩)
    ∧ Carries 0x0402 none (fun h => .imgUnload h 5)
    ∧ Carries 0x0403 none (fun h => .imgKeys h 0 ⟨zeros 168, zeros 40, zeros 16⟩) := by
  and_intros <;> exact packed_signed _ rfl (by decide +kernel)
theorem wit_MigrationAndImages :
    (let s := mState 3 (eState_ wTop);
      sends s 3 0 = true ∧ s.mgmt.pend = [] ∧ s.ident.enrolled = true ∧ wTop.stat = .running
        ∧ (∀ i, s.image? wTop.m.img.hash = some i → i.flag 0 = false ∧ i.minSvn ≤ targetSvn goodExport) ∧ (liveTickets s).length < 64
        ∧ portBad s 0 = false ∧ ctxCount s < 65536 ∧ pinnedFull s 65536 3 = false ∧ ticketFree s (objTnonce goodImport) = true
        ∧ memFits s (imageUnits okImg.imgLen) 0 = true)
    ∧ (let s := mState 3 fun s => { s with images := [wImage 0x400 0x100 0x600] }; (s.image? 5).isSome = true ∧ usersOf s 5 = 0)
    ∧ (let x : Ctx := { wTop with hold := { exportBy := some (packet 0x0307 1 (some []) (fun _ => .nop 0), goodExport), exporting := true } };
      transfersB (pState (.export_ 0) fun s => { s with ctxs := [x] }) (wPend (.export_ 0)) = true ∧ x.hold.exportBy.isSome = true)
    ∧ (∀ e : Exported, transfers (pState (.import_ 0 1 4000 e 7) id) (wPend (.import_ 0 1 4000 e 7))) := by
  refine ⟨⟨by decide +kernel, rfl, rfl, rfl, ?_, by decide +kernel, by decide +kernel, by decide +kernel, by decide +kernel,
    by decide +kernel, by decide +kernel⟩, by decide +kernel, by decide +kernel, fun e => transfers_of_check ?_⟩
  · intro i hi
    have : i = wImage 0x400 0x100 0x600 := by
      have h : (mState 3 (eState_ wTop)).image? wTop.m.img.hash = some (wImage 0x400 0x100 0x600) := by rfl
      rw [h] at hi; exact (Option.some.inj hi).symm
    subst this; decide +kernel
  · have h : (pState (.import_ 0 1 4000 e 7) id).mgmt.pend.find?
        (fun q => decide (q.h.master = 0) && decide (q.h.tag = 7) && transferReady (pState (.import_ 0 1 4000 e 7) id) q) = some (wPend (.import_ 0 1 4000 e 7)) := rfl
    simp only [transfersB, Bool.and_eq_true, decide_eq_true_eq]
    have hr : ringCost 2048 ((mState 3 id).box 0).rprod 2 ≤ ((mState 3 id).box 0).free := by decide +kernel
    exact ⟨⟨⟨⟨⟨⟨rfl, rfl⟩, hr⟩, h⟩, rfl⟩, by simp [needsInput, wPend]⟩, rfl⟩

/-- The membership certificate of CHIP.ENROL, those of an export, and an export object pass their checks (R424, R426, R428). -/
theorem wit_enrolment : enrolMatch goodEnrol {} = true ∧ enrolSigned goodEnrol = true := by
  refine ⟨?_, by decide +kernel⟩
  rw [enrolMatch, test_devid]; decide +kernel
theorem wit_export : goodExport.chainOk = true ∧ targetCerts goodExport = true
    ∧ memberSigned goodExport { domKey := leNat gPub } = true ∧ ticketSigned goodExport { domKey := leNat gPub } = true
    ∧ expSize (mState 3 (eState_ wTop)) wTop ≤ { goodExport with outLen := expSize (mState 3 (eState_ wTop)) wTop }.outLen :=
  ⟨rfl, by decide +kernel, by decide +kernel, by decide +kernel, Nat.le_refl _⟩
theorem wit_import : objFormat goodImport = true ∧ objTdevid goodImport = ({} : Ident).devid ∧ objSigned goodImport = true
    ∧ (openObj goodImport {}).2 = true := by
  refine ⟨by decide +kernel, ?_, by decide +kernel, ?_⟩
  · rw [test_devid]; decide +kernel
  · rw [openObj, test_dxk]; decide +kernel

/-- An object that holds context state `e` for a device whose secret is zero, whatever its signature: with `wit_import`, whose object is signed and
empty, it meets the hypotheses of an import. -/
def wImport (e : Exported) (sig : List Byte) : ImportP :=
  let k := (wrapKey ({} : Ident).dxk gPub exportInfo).getD []
  let ct := gctrText k (zeros 12) (exportPlain e)
  { goodImport with obj := ⟨goodImport.obj.head, ct, gcmTag k (zeros 12) goodImport.obj.head ct⟩, sig := sig }

theorem wit_importState (e : Exported) (sig : List Byte) :
    let s := mState 3 (eState_ wTop)
    let p := wImport e sig
    importedOf s p = some e ∧ (openObj p s.ident).2 = true ∧ objFormat p = true ∧ objTdevid p = zDevid ∧ ticketFree s (objTnonce p) = true := by
  obtain ⟨q, hq⟩ := Option.isSome_iff_exists.mp gPub_point
  have hk : (hkdf gPub (ecdh ({} : Ident).dxk q) exportInfo 32).length = 32 := hkdf_length _ _ _ _
  have e1 : bytesAt (wImport e sig).obj.head 176 97 = gPub := by show bytesAt goodImport.obj.head 176 97 = gPub; decide +kernel
  have e2 : bytesAt (wImport e sig).obj.head 276 12 = zeros 12 := by show bytesAt goodImport.obj.head 276 12 = zeros 12; decide +kernel
  have ho : openObj (wImport e sig) (mState 3 (eState_ wTop)).ident = (exportPlain e, true) := by
    rw [openObj, e1, e2]
    show openSealed (wrapKey ({} : Ident).dxk gPub exportInfo) (zeros 12) (wImport e sig).obj = _
    simp only [wrapKey, hq, Option.map_some, openSealed, wImport, Option.getD_some]
    exact gcmOpen_sealed hk rfl _ _
  exact ⟨by rw [importedOf, ho]; exact exportOf_exportPlain e, by rw [ho], by show objFormat goodImport = true; decide +kernel,
    by show objTdevid goodImport = zDevid; decide +kernel, by show ticketFree _ (objTnonce goodImport) = true; decide +kernel⟩

/-- An image of 256 bytes whose header passes, and the envelopes of its key and of a queue key (R413 to R419). -/
def wBytes : List Byte := [0x4C, 0x56, 0x49, 0x4D, 1, 0, 0, 0] ++ zeros 248

theorem wBytes_length : wBytes.length = 256 := by decide +kernel

theorem wit_imageLoad :
    let s := mState 3 id
    let env := some (imgEnvOf s.ident (sealEnv s.ident 1 (digest (sha384 wBytes) ++ le 32 9 ++ digest 8)))
    let img := openImg s env (sealImg 9 wBytes)
    keySource s env img = some (9, 8) ∧ img.magicOk = true ∧ img.rsvdOk = true ∧ 256 ≤ img.imgLen ∧ img.imgLen ≤ 67108864
      ∧ img.bulkLen = 48 + img.imgLen ∧ firstFail (sealChecks s env img) = none ∧ s.images.length + (pendImages s).length < 4096
      ∧ memFits s (imageUnits img.imgLen) 0 = true := by
  intro s env img
  have hp := openEnv_sealEnv s.ident 1 (digest (sha384 wBytes) ++ le 32 9 ++ digest 8)
  have he : env = some ⟨true, true, true, true, sha384 wBytes, 9, 8⟩ := by
    have h1 : numAt (digest (sha384 wBytes) ++ le 32 9 ++ digest 8) 0 48 = sha384 wBytes := by
      refine numAt_of ?_ (sha384_lt _); generalize sha384 wBytes = d; rfl
    have h2 : numAt (digest (sha384 wBytes) ++ le 32 9 ++ digest 8) 48 32 = 9 := by
      refine numAt_of ?_ (by decide); generalize sha384 wBytes = d; rfl
    have h3 : numAt (digest (sha384 wBytes) ++ le 32 9 ++ digest 8) 80 48 = 8 := by
      refine numAt_of ?_ (by decide); generalize sha384 wBytes = d; rfl
    have hk : ((wrapKey s.ident.dxk gPub (lv8k [0x4B, 0x45] ++ [1])).getD []).length = 32 := by
      obtain ⟨q, hq⟩ := Option.isSome_iff_exists.mp gPub_point
      simp only [wrapKey, hq, Option.map_some, Option.getD_some]; exact hkdf_length _ _ _ _
    have hl : sealedLen (sealEnv s.ident 1 (digest (sha384 wBytes) ++ le 32 9 ++ digest 8)) = 312 := by
      simp only [sealedLen]; show 168 + _ + _ = _
      simp only [sealEnv]; rw [gctrText_length hk rfl, gcmTag_length hk rfl]; simp
    have hc : (sealEnv s.ident 1 (digest (sha384 wBytes) ++ le 32 9 ++ digest 8)).ct.length = 128 := by
      simp only [sealEnv]; rw [gctrText_length hk rfl]; simp
    have hn : numAt (sealEnv s.ident 1 (digest (sha384 wBytes) ++ le 32 9 ++ digest 8)).head 6 2 = 312 := by
      refine numAt_of ?_ (by decide)
      simp only [sealEnv]; generalize s.ident.devid = d; generalize sha384 wBytes = f; rfl
    have hf : envFormat 1 (sealEnv s.ident 1 (digest (sha384 wBytes) ++ le 32 9 ++ digest 8)) = true := by
      simp only [sealEnv]; generalize s.ident.devid = d; generalize sha384 wBytes = f; rfl
    show some (imgEnvOf _ _) = _
    simp only [imgEnvOf, hp, h1, h2, h3, hl, hc, hn, hf, tdev_sealEnv, decide_true, Bool.and_self]
  have hi : img = { magicOk := true, ver := 1, rsvdOk := true, imgLen := 256, bulkLen := 304, tagOk := true, hash := sha384 wBytes, bytes := wBytes } := by
    show openImg s env _ = _
    rw [he]
    have h := sealedImgOf_sealImg 9 wBytes (by rw [wBytes_length]; decide)
    rw [wBytes_length] at h
    exact h
  rw [hi, he]
  have hc : firstFail (sealChecks s (some ⟨true, true, true, true, sha384 wBytes, 9, 8⟩)
      { magicOk := true, ver := 1, rsvdOk := true, imgLen := 256, bulkLen := 304, tagOk := true, hash := sha384 wBytes, bytes := wBytes }) = none := by
    generalize sha384 wBytes = d
    have hs : s.image? d = none := rfl
    simp only [sealChecks, ne_eq, not_true_eq_false, decide_false, hs, Option.any_none, keySource]
    rfl
  exact ⟨rfl, rfl, rfl, by decide, by decide, rfl, hc, by decide +kernel, by decide +kernel⟩

theorem wit_QueuesAndReticleAreSetUp_packets :
    Carries 0x0501 none (fun h => .queSetup h goodSetup)
    ∧ Carries 0x0601 none (fun h => .retUpload h 1 2 [1, 2, 3, 4, 5, 6, 7, 8])
    ∧ Carries 0x0601 (some [1, 2, 3, 4]) (fun h => .retUpload h 1 1 [1, 2, 3, 4])
    ∧ Carries 0x0602 none (fun h => .retFree h 0)
    ∧ Carries 0x0603 none (fun h => .retPlace h 0 15 [{ goodPlc with en := true }, goodPlc, goodPlc, goodPlc])
    ∧ Carries 0x0604 none (fun h => .retWatch h 0 15 (List.replicate 4 goodRegion)) := by
  and_intros <;> exact packed_signed _ rfl (by decide +kernel)
theorem wit_QueuesAndReticleAreSetUp :
    (let s := mState 3 fun s => { mCtx wTop s with queues := [{ wQueue 2 0 with opt := 0 }], reticle := [⟨0, 1, 1, [1, 2, 3, 4]⟩] };
      sends s 3 0 = true ∧ (s.queue? goodSetup.qid).isSome = true ∧ firstFail (setupChecks s goodSetup) = none
        ∧ retFull s 480 270 = false ∧ (∀ x ∈ s.ctxs, ∀ p ∈ livePlacements x, ¬ (p.en = true ∧ p.image = (0 : Half)))
        ∧ wTop.stat = .running ∧ (15 : Byte).toNat < 16
        ∧ firstFail (placeChecks s 15 [{ goodPlc with en := true }, goodPlc, goodPlc, goodPlc]) = none
        ∧ firstFail (watchChecks (modeOf wTop.cfg.mode) 15 (List.replicate 4 goodRegion)) = none ∧ s.mgmt.pend = []) := by decide +kernel

theorem wit_MeteringTimeAndFirmware_packets :
    Carries 0x0703 none (fun h => .mtrAck h 0)
    ∧ Carries 0x0710 none (fun h => .timeSet h 1)
    ∧ Carries 0x0C01 (some (zeros 64)) (fun h => .fwUpdate h true 1)
    ∧ Carries 0x0C02 none (fun h => .fwDiag h 5)
    ∧ Carries 0x0C03 none (fun h => .rmaReset h) := by
  and_intros <;> exact packed_signed _ rfl (by decide +kernel)
theorem wit_MeteringTimeAndFirmware :
    (let s : State := { wState (wAt 0 id) with audit := { uptime := 60000000, rejNow := #v[1001, 0, 0] } };
      s.audit.readyAt + 60000000 * (s.audit.minute + 1) ≤ s.audit.uptime ∧ s.power.frost = false ∧ s.audit.stmts.length + (s.ctxs.filter fun x => x.orr.charged).length ≤ 65536
        ∧ s.audit.rejAt[0] < s.audit.uptime / 1000000 ∧ 1000 < s.audit.rejNow[0] ∧ s.audit.rejNow[2] ≤ 1000)
    ∧ (let s := mState 3 fun s => { s with audit := { sseq := 1 } }; sends s 3 0 = true ∧ 0 < s.audit.sseq)
    ∧ (sends (mState 1 id) 1 0 = true ∧ (mState 1 id).mgmt.pend = [] ∧ (mState 1 id).ctxs = []
      ∧ (mState 1 id).ident.fwsvn ≤ 0) := by decide +kernel

theorem wit_PowerPinAndRasCommandsSet_packets :
    Carries 0x0801 none (fun h => .pwrLimit h 150)
    ∧ Carries 0x0802 none (fun h => .pwrStepcap h 2)
    ∧ Carries 0x0803 none (fun h => .pwrThrottle h 100)
    ∧ Carries 0x0804 none (fun h => .pwrAgeing h [])
    ∧ Carries 0x0901 none (fun h => .pinSet h goodPin)
    ∧ Carries 0x0902 none (fun h => .pinLock h (2 ^ 48 - 1))
    ∧ Carries 0x0A01 none (fun h => .rasScrubStop h 168)
    ∧ Carries 0x0A01 none (fun h => .rasScrubOnePass h 1)
    ∧ Carries 0x0A01 none (fun h => .rasScrubContinuous h 24)
    ∧ Carries 0x0A03 none (fun h => .rasThresh h 1 1)
    ∧ Carries 0x0A04 none (fun h => .rasClear h) := by
  and_intros <;> exact packed_signed _ rfl (by decide +kernel)
/-- RAS.SCRUB with OP 3 (R472): each of its rows can bring it. -/
theorem wit_PowerPinAndRasCommandsSet_scrub :
    let h : Hdr := { packet 0x0A01 1 none (fun h => .rasScrubStop h 9) with params := [3, 0, 0, 0] ++ le 4 9 ++ zeros 8 }
    2 < ((signed h).params.getD 0 0).toNat ∧ Packed (signed h) 0x0A01 (.rasScrubStop (signed h) 9) ∧ Packed (signed h) 0x0A01 (.rasScrubOnePass (signed h) 9)
      ∧ Packed (signed h) 0x0A01 (.rasScrubContinuous (signed h) 9) := by
  intro h
  refine ⟨by decide, ?_⟩
  and_intros <;> exact packed_signed _ rfl (by decide +kernel)
theorem wit_PowerPinAndRasCommandsSet :
    sends (mState 2 id) 2 0 = true ∧ sends (mState 3 id) 3 0 = true ∧ measuring (mState 2 id) = false
    ∧ ((mState 2 id).gpio.pin goodPin.pin).lock = false ∧ goodPin.pin < 48 ∧ 2 ^ 48 - 1 < 2 ^ 48 := by decide +kernel

/-- One CLK_TICK edge of the brake input outside Frost. -/
def lowTick (g : Gpio) : Gpio := brakeTick { State.reset with gpio := g }

theorem wit_PowerAndThermalEventsAct :
    (let s : State := { State.reset with power := { cap := 2, step := #v[0, 2, 2, 2] } }; s.power.step[0] < demandOf s.power 0)
    ∧ (let s : State := { State.reset with power := {} }; railPending s.power 3 = true ∧ hottestQuad { s.power with step := Vector.replicate 4 0 } [1, 3, 2, 1] = some 1)
    ∧ ({ railWait := #v[some 0, none, none, none] } : Power).railWait[0] = some 0
    ∧ (let s := i2c { wState { wAt 0 id with stat := .parked } with gpio := { pins := Vector.replicate 48 { func := 11 } } };
      s.power.brake = false ∧ s.power.frost = false ∧ s.mgmt.devstate = 2
        ∧ (∀ x ∈ s.ctxs, x.stat ≠ .running)
        ∧ let t := pmcsrWrite s 0 3; ∀ k ∈ t.ports, (t.func k).d3hot = true)
    ∧ (let g : Gpio := { pins := Vector.replicate 48 { func := 11, pad := false } };
      (∃ n : Fin 48, (govPin { State.reset with gpio := lowTick (lowTick g) } n.val).func = 11 ∧ (lowTick (lowTick g)).lowTwice[n] = true)
        ∧ ∀ n : Fin 48, (lowTick g).lowTwice[n] = false)
    ∧ (let s : State := { State.reset with power := { frost := true }, audit := { uptime := 86400000000 } };
      s.power.frost = true ∧ 0 ∈ s.ports ∧ s.power.lastAge + 86400000000 ≤ s.audit.uptime) := by decide +kernel

theorem wit_TheGleanerAndErrorHours :
    (let s (p : Power) (pad : Bool) : State := { wState { wAt 0 id with stat := .parked } with
        power := p, gpio := lowTick (lowTick { pins := Vector.replicate 48 { func := 11, pad := pad } }), audit := { uptime := 86400000000 } };
      demandOf {} 3 ≠ ({} : Power).step[3] ∧ ({} : Power).railWait[3] = none
        ∧ demandOf { step := Vector.replicate 4 2 } 0 < ({ step := Vector.replicate 4 2 } : Power).step[0]
        ∧ ({ railWait := Vector.replicate 4 (some 0) } : Power).railWait[2] = some 0 ∧ 0 ≤ (s {} true).audit.uptime
        ∧ brakePin (s {} false) = true ∧ brakePin (s { brake := true } true) = false
        ∧ (let t := pmcsrWrite (s {} true) 0 3; t.power.frost = false ∧ t.mgmt.devstate = 2 ∧ (∀ k ∈ t.ports, (t.func k).d3hot = true)
          ∧ ∀ x ∈ t.ctxs, x.stat ≠ .running)
        ∧ 0 ∈ (s { frost := true } true).ports ∧ (s {} true).power.lastAge + 86400000000 ≤ (s {} true).audit.uptime) ∧
    (let s (p : Nat) : State := { wState (wAt 0 id) with ras := { gop := 1, gpos := p, upsets := [⟨.ram 0 .work 0, false⟩, ⟨.reserved 1 64, true⟩] } };
      (s 0).ras.gop ≠ 0 ∧ (s 0).mgmt.devstate = 2 ∧ (s 0).power.frost = false ∧ (s 0).ras.gpos + 64 < 137438953472
        ∧ 137438953472 ≤ (s 137438953408).ras.gpos + 64)
    ∧ 3600000000 * (State.reset.ras.hour + 1) ≤ ({ uptime := 3600000000 } : Audit).uptime := by decide +kernel

end Sys2Proof.Tests
end

section
/-! SUPPORT. Which operations of the device leave every context alone, and which change one context alone: the frame of an instruction (R4, R16). -/
namespace Sys2Proof.Machine

/-! ### Folds -/

/-- A fold of steps that keep a part of the state keeps it. -/
theorem foldl_keeps {σ α β : Type} (p : σ → β) (f : σ → α → σ) (hf : ∀ s a, p (f s a) = p s) (l : List α) (s : σ) :
    p (l.foldl f s) = p s := by
  induction l generalizing s with
  | nil => rfl
  | cons a l ih => rw [List.foldl_cons, ih, hf]

/-- Equal lists of contexts hold equal contexts. -/
theorem ctx?_congr {s t : State} (h : t.ctxs = s.ctxs) (d : Nat) : t.ctx? d = s.ctx? d := by
  unfold State.ctx?
  rw [h]

/-! ### Events and the Almanac: no context changes -/

/-- The event log is part of the audit state. -/
theorem logEvent_eq (s : State) (e unit fn : Nat) : ∃ a, logEvent s e unit fn = { s with audit := a } := ⟨_, rfl⟩

@[simp] theorem logEvent_ctxs (s : State) (e unit fn : Nat) : (logEvent s e unit fn).ctxs = s.ctxs := by
  obtain ⟨a, h⟩ := logEvent_eq s e unit fn
  rw [h]

@[simp] theorem signal_ctxs (s : State) (p e : Nat) : (signal s p e).ctxs = s.ctxs := by
  unfold signal
  dsimp only
  split
  · rfl
  · rfl

@[simp] theorem setEvent_ctxs (s : State) (p e : Nat) : (setEvent s p e).ctxs = s.ctxs := by
  unfold setEvent
  dsimp only
  split
  · rfl
  · simp

@[simp] theorem raiseAll_ctxs (s : State) (e unit : Nat) : (raiseAll s e unit).ctxs = s.ctxs := by
  unfold raiseAll
  rw [foldl_keeps State.ctxs _ fun s p => setEvent_ctxs s p e, logEvent_ctxs]

@[simp] theorem raiseOn_ctxs (s : State) (p e unit : Nat) : (raiseOn s p e unit).ctxs = s.ctxs := by simp [raiseOn]

@[simp] theorem raiseCtx_ctxs (s : State) (x : Ctx) (e : Nat) : (raiseCtx s x e).ctxs = s.ctxs := by simp [raiseCtx]

@[simp] theorem appendRec_ctxs (s : State) (opcode : Half) (status master role kind : Byte) (ctx : Nat) (session : Word) (detail : List Byte) :
    (appendRec s opcode status master role kind ctx session detail).ctxs = s.ctxs := by
  unfold appendRec
  dsimp only
  split
  · split
    · rfl
    · rfl
  · rfl

@[simp] theorem deviceRec_ctxs (s : State) (ctx source : Nat) (more : List Byte) : (deviceRec s ctx source more).ctxs = s.ctxs := by simp [deviceRec]

@[simp] theorem rejectSummary_ctxs (s : State) (m : Nat) : (rejectSummary s m).ctxs = s.ctxs := by
  unfold rejectSummary
  dsimp only
  split
  · simp
  · rfl

@[simp] theorem rejectRec_ctxs (s : State) (m : Nat) (opcode : Half) (status role : Byte) (ctx : Nat) (session : Word) (detail : List Byte) :
    (rejectRec s m opcode status role ctx session detail).ctxs = s.ctxs := by
  have hs : (if s.audit.rejAt[m % 3] ≠ s.audit.uptime / 1000000 then rejectSummary s m else s).ctxs = s.ctxs := by
    split
    · simp
    · rfl
  unfold rejectRec
  generalize (if s.audit.rejAt[m % 3] ≠ s.audit.uptime / 1000000 then rejectSummary s m else s) = u at hs
  dsimp only
  split
  · rw [appendRec_ctxs, hs]
  · exact hs

/-! ### Replies and pending commands: no context changes -/

@[simp] theorem ringReply_ctxs (s : State) (m : Nat) (r : Reply) : (ringReply s m r).ctxs = s.ctxs := by
  unfold ringReply
  dsimp only
  split
  · simp
  · simp

@[simp] theorem flushReplies_ctxs (k : Nat) (s : State) (m : Nat) : (flushReplies k s m).ctxs = s.ctxs := by
  induction k generalizing s with
  | zero => rfl
  | succ k ih =>
    unfold flushReplies
    dsimp only
    split
    · rfl
    · split
      · simp [ih]
      · rfl

@[simp] theorem postReply_ctxs (s : State) (m : Nat) (r : Reply) : (postReply s m r).ctxs = s.ctxs := by simp [postReply]

@[simp] theorem dropPend_ctxs (s : State) (p : Pend) : (dropPend s p).ctxs = s.ctxs := rfl

@[simp] theorem reject_ctxs (s : State) (h : Hdr) (role : Byte) (ctx : Nat) (query : Bool) (status result : Nat) :
    (reject s h role ctx query status result).ctxs = s.ctxs := by
  unfold reject
  cases query
  · simp
  · simp

@[simp] theorem rejectPend_ctxs (s : State) (p : Pend) (status result : Nat) : (rejectPend s p status result).ctxs = s.ctxs := by simp [rejectPend]

@[simp] theorem rejectPendsOf_ctxs (s : State) (c status : Nat) : (rejectPendsOf s c status).ctxs = s.ctxs :=
  foldl_keeps State.ctxs _ (fun s p => rejectPend_ctxs s p status 0) _ _

/-! ### Error counts and corrections: no context changes -/

@[simp] theorem countHbm_ctxs (s : State) (st : Fin 4) : (countHbm s st).ctxs = s.ctxs := by
  unfold countHbm
  dsimp only
  split
  · simp
  · rfl

@[simp] theorem countChip_ctxs (s : State) (f : Ras → Ras) : (countChip s f).ctxs = s.ctxs := by
  unfold countChip
  dsimp only
  split
  · simp
  · rfl

@[simp] theorem correctHbm_ctxs (s : State) (u : Upset) : (correctHbm s u).ctxs = s.ctxs := by
  unfold correctHbm
  dsimp only
  split
  · rfl
  · simp

@[simp] theorem correctWhere_ctxs (s : State) (p : UpAt → Bool) : (correctWhere s p).ctxs = s.ctxs :=
  foldl_keeps State.ctxs _ correctHbm_ctxs _ _

@[simp] theorem noteUpset_ctxs (s : State) (c : Nat) (p : Option HbmAt) : (noteUpset s c p).ctxs = s.ctxs := by
  cases p with
  | none => exact countChip_ctxs s _
  | some p => exact correctWhere_ctxs s _

@[simp] theorem repair_ctxs (s : State) (c : Nat) (r : Ram) (off n : Nat) : (repair s c r off n).ctxs = s.ctxs := rfl
@[simp] theorem countUe_ctxs (s : State) (st : Fin 4) : (countUe s st).ctxs = s.ctxs := rfl

@[simp] theorem countConsumed_ctxs (s : State) (x : Ctx) (p : Option HbmAt) : (countConsumed s x p).ctxs = s.ctxs := by
  cases p with
  | none => rfl
  | some p =>
    cases p with
    | image off => rfl
    | ram r off =>
      unfold countConsumed
      dsimp only
      split
      · rfl
      · rfl

/-! ### Queues: no context changes -/

@[simp] theorem abandonWhere_ctxs (s : State) (p : Nat → Bool) : (abandonWhere s p).ctxs = s.ctxs := rfl

@[simp] theorem touchQueue_ctxs (s : State) (qid : Nat) : (touchQueue s qid).ctxs = s.ctxs := by
  unfold touchQueue
  extract_lets read l out cached
  have hread : read.ctxs = s.ctxs := by
    unfold read
    split
    · rfl
    · exact correctWhere_ctxs s _
  have hcached : cached.ctxs = s.ctxs := by
    obtain ⟨q, hq⟩ : ∃ q, cached = { read with qcache := q } := ⟨_, rfl⟩
    rw [hq, hread]
  split
  · exact hcached
  · exact hcached

theorem foldl_touchQueue_ctxs (l : List Nat) (c : Nat) (s : State) : (l.foldl (fun s n => touchQueue s (16 * c + n)) s).ctxs = s.ctxs := by
  induction l generalizing s with
  | nil => rfl
  | cons n l ih => rw [List.foldl_cons, ih, touchQueue_ctxs]

@[simp] theorem noteWork_ctxs (s : State) (x y : Ctx) : (noteWork s x y).ctxs = s.ctxs := foldl_touchQueue_ctxs _ x.num s

/-! ### What changes one context alone -/

/-- The final statement of a context is closed in its own chain (R442). -/
theorem finalStmt_other (s : State) {c d : Nat} (h : d ≠ c) : (finalStmt s c).ctx? d = s.ctx? d := by
  unfold finalStmt
  split
  next x hx =>
    split
    · have hn : x.num ≠ d := by rw [ctx?_num hx]; exact h.symm
      exact putCtx_other hn
    · rfl
  next => rfl

/-- A context fault changes its own context alone (R404). -/
theorem contextFault_other (s : State) {c d : Nat} (rule500 : Bool) (h : d ≠ c) : (contextFault s c rule500).ctx? d = s.ctx? d := by
  unfold contextFault
  split
  · rfl
  · next x hx =>
    split
    · rfl
    · extract_lets stopped raised noted errors counted recorded rejected
      have hstopped : stopped.ctx? d = s.ctx? d := putCtx_other (by rw [← ctx?_num hx] at h; exact h.symm)
      have hraised : raised.ctx? d = stopped.ctx? d := ctx?_congr (by simp [raised]) d
      have hcounted : counted.ctx? d = raised.ctx? d := by
        unfold counted
        split
        · exact ctx?_congr (raiseAll_ctxs raised 210 c) d
        · rfl
      have hrecorded : recorded.ctx? d = counted.ctx? d := ctx?_congr (deviceRec_ctxs _ _ _ _) d
      have hrejected : rejected.ctx? d = recorded.ctx? d := by
        rw [ctx?_congr (rejectPendsOf_ctxs _ _ _), finalStmt_other recorded h]
      have hsame : rejected.ctx? d = s.ctx? d := by rw [hrejected, hrecorded, hcounted, hraised, hstopped]
      split
      next y hy =>
        rw [← hsame]
        exact putCtx_other (by rw [← ctx?_num hy] at h; exact h.symm)
      next => exact hsame

/-- The contexts keep their numbers under the effects of a step. -/
theorem touchPage_num (x : Ctx) (old : List PoisonBlk) (r : Ram) (p : Nat) : (touchPage x old r p).num = x.num := by
  unfold touchPage
  split
  · rfl
  · split
    · rfl
    · rfl

theorem handOn_num (x : Ctx) (ep : Nat) (k : HeldKind) : (handOn x ep k).num = x.num := by
  cases k with
  | posting q copy id => rfl
  | debugMsg copy => rfl
  | attest id => rfl

theorem produce_num (x : Ctx) (t : Nat) (k : HeldKind) : (produce x t k).num = x.num := by
  unfold produce
  dsimp only
  split
  · exact handOn_num _ _ _
  · rfl

theorem applyCtxFx_num (old : List PoisonBlk) (x : Ctx) (t : Nat) (f : Fx) : (applyCtxFx old x t f).num = x.num := by
  cases f with
  | stamped w => rfl
  | touched r p => exact touchPage_num x old r p
  | posted q id base len copy =>
    simp only [applyCtxFx]
    split
    · exact produce_num _ _ _
    · rfl
  | marked q id => rfl
  | debugMsg b => exact produce_num _ _ _
  | attestReq id => exact produce_num _ _ _
  | _ => rfl

/-- An effect of a step of context `c` outside its context state leaves every other context alone. -/
theorem applyDevFx_other (s : State) {c d : Nat} (f : Fx) (h : d ≠ c) : (applyDevFx s c f).ctx? d = s.ctx? d := by
  cases f with
  | corrected p => exact ctx?_congr (noteUpset_ctxs s c p) d
  | wrote r off n => rfl
  | consumed p =>
    simp only [applyDevFx]
    split
    · exact ctx?_congr (countConsumed_ctxs s _ p) d
    · rfl
  | faulted rule500 => exact contextFault_other s rule500 h
  | _ => rfl

/-- Settling a step of context `x` leaves every other context alone, where `g` keeps the number. -/
theorem settleWith_other (s : State) (x : Ctx) (m : Mach) (g : Ctx → Ctx) (hg : ∀ y, (g y).num = y.num) {d : Nat} (h : d ≠ x.num) :
    (settleWith s x m g).ctx? d = s.ctx? d := by
  unfold settleWith
  dsimp only
  split
  · rfl
  · rw [foldl_keeps (fun s : State => s.ctx? d) _ fun s f => applyDevFx_other s f h, ctx?_congr (noteWork_ctxs _ _ _)]
    refine putCtx_other ?_
    rw [hg, noteVc_num, foldl_keeps Ctx.num _ fun y f => applyCtxFx_num _ y _ f]
    exact h.symm

/-- Settles O6: whatever an instruction's body does, its context alone is put back, and every effect outside it leaves the other contexts alone. -/
theorem instructionsLeaveOtherContextsAlone : Obligations.InstructionsLeaveOtherContextsAlone := by
  intro s t c d enc body hd ht
  unfold coreStep at ht
  split at ht
  · cases ht
    rfl
  · next x hx =>
    split at ht
    · cases ht
      rfl
    · cases ht
      exact settleWith_other s x _ id (fun _ => rfl) (by rw [ctx?_num hx]; exact hd)

end Sys2Proof.Machine
end

section
/-! PROOF. The statements of chapter 0 about the state after reset, and about the registers and pins. -/
namespace Sys2Proof.Machine

/-! ### The state after reset (R12, R376, R518) -/

/-- Pins 0 to 2 reset with a pull-up, the others as a pin without a set-up (R518). -/
theorem reset_pin {n : Nat} (hn : n < 48) : State.reset.gpio.pin n = if n < 3 then { pull := 1 } else {} := by
  have hofFn : ∀ i : Fin 48, resetPins[i] = if i.val < 3 then { pull := 1 } else {} := fun i => Vector.getElem_ofFn _
  have hpin := hofFn ⟨n % 48, Nat.mod_lt _ (by decide)⟩
  simp only [Nat.mod_eq_of_lt hn] at hpin
  rw [← hpin]
  simp only [State.reset, Gpio.pin, Fin.getElem_fin, Nat.mod_eq_of_lt hn]

/-- Both functions reset alike, their links down and every vector masked (R376, R397). -/
theorem reset_func (p : Nat) : State.reset.func p = {} := Vector.getElem_replicate _

/-- Settles O3: the device's fields hold their reset values, every function and pin its own, and `reset_memOk` gives the memories. -/
theorem resetLeavesBoot : Obligations.ResetLeavesBoot := by
  refine ⟨⟨rfl, rfl, rfl, rfl, rfl, rfl, rfl, fun p _ => ?_, rfl, rfl, fun n hn => ?_⟩, reset_memOk⟩
  · rw [reset_func]
    exact ⟨rfl, rfl, rfl⟩
  · rw [reset_pin hn]
    split
    · exact ⟨rfl, rfl, rfl, rfl⟩
    · exact ⟨rfl, rfl, rfl, rfl⟩

/-! ### A pin set-up that ends a rail change (R479, R522) -/

/-- A READY device with the default pins (R519): its quadrants run at the slowest step while nothing demands it, so that a change to a faster one
waits for the rail, whose regulator is on pins 4 and 5. -/
def railChanging : State := { State.reset with mgmt := { devstate := 2 }, gpio := { pins := defaultPins } }

/-- Pin 4 gives up function 12: the change of every quadrant fails and waits for its retry 1 s later (R479). -/
theorem railChanging_fails : (gpioWrite railChanging 16 0).power.railWait = Vector.replicate 4 (some 1000000) := rfl

/-- Refutes O47: a new set-up of pin 4 that ends function 12 fails the rail change in progress (R522), which sets the quadrants' retry times, where the
statement has every write of a pin leave the power state but for the rail's voltage. -/
theorem not_registersAndPinsTakeWrites : ¬ Obligations.RegistersAndPinsTakeWrites := by
  intro h
  obtain ⟨⟨-, -, -, -, hpins⟩, -⟩ := h
  obtain ⟨-, hunlocked⟩ := hpins railChanging 4 0 (by decide)
  obtain ⟨t, ht, -, -, hpower, -⟩ := hunlocked rfl
  obtain rfl : gpioWrite railChanging 16 0 = t := by injection ht
  have hkept : (gpioWrite railChanging 16 0).power.railWait = Vector.replicate 4 none := congrArg (fun p : Power => p.railWait) hpower
  exact absurd (railChanging_fails.symm.trans hkept) (by decide)

end Sys2Proof.Machine
end

section
/-! SUPPORT. The register blocks of the I/O region (R44): which block serves an offset, what a register reads back after a write, and what a read or a
write leaves alone. -/
namespace Sys2Proof.Machine

/-! ### The block that serves an offset -/

section
variable {e : Env} {m : Mach} {off t : Nat} {v : Word}

theorem ioWrite_sys (h : off / 4096 = 0) : ioWrite e m off v t = if off % 4096 = 0xC then { m with umask := v &&& 0x3FFF#32 } else m := by
  simp only [ioWrite, h]
theorem ioWrite_ic (h : off / 4096 = 1) : ioWrite e m off v t = icWrite m (off % 4096) v t := by simp only [ioWrite, h]
theorem ioWrite_tm (h : off / 4096 = 2) : ioWrite e m off v t = tmWrite m (off % 4096) v t := by simp only [ioWrite, h]
theorem ioWrite_bm (h : off / 4096 = 3) : ioWrite e m off v t = bmWrite m (off % 4096) v t := by simp only [ioWrite, h]

theorem ioWrite_vid (h : 4 ≤ off / 4096) (h' : off / 4096 ≤ 7) : ioWrite e m off v t = vidWrite e m off v t := by
  have hb : off / 4096 = 4 ∨ off / 4096 = 5 ∨ off / 4096 = 6 ∨ off / 4096 = 7 := by omega
  rcases hb with hb | hb | hb | hb
  all_goals simp only [ioWrite, hb]

theorem ioWrite_rl (h : off / 4096 = 8) : ioWrite e m off v t = rlWrite m (off % 4096) v := by simp only [ioWrite, h]
theorem ioWrite_bu (h : off / 4096 = 9) : ioWrite e m off v t = buWrite m (off % 4096) v t := by simp only [ioWrite, h]
theorem ioWrite_au (h : off / 4096 = 10) : ioWrite e m off v t = auWrite m (off % 4096) v t := by simp only [ioWrite, h]
theorem ioWrite_in (h : off / 4096 = 11) : ioWrite e m off v t = inWrite m (off % 4096) v t := by simp only [ioWrite, h]
theorem ioWrite_oq (h : off / 4096 = 12) : ioWrite e m off v t = oqWrite e m (off % 4096) v := by simp only [ioWrite, h]
theorem ioWrite_rb (h : off / 4096 = 13) : ioWrite e m off v t = rbWrite m (off % 4096) v := by simp only [ioWrite, h]
theorem ioWrite_dbg (h : off / 4096 = 15) : ioWrite e m off v t = dbgWrite m (off % 4096) v t := by simp only [ioWrite, h]

/-- Block 14 and what lies beyond the region ignore writes (R11). -/
theorem ioWrite_unassigned (h : off / 4096 = 14 ∨ 16 ≤ off / 4096) : ioWrite e m off v t = m := by
  rcases h with h | h
  · simp only [ioWrite, h]
  · obtain ⟨k, hk⟩ := Nat.exists_eq_add_of_le' h
    simp only [ioWrite, hk]

theorem ioRead_ic (h : off / 4096 = 1) : ioRead e m off t = (icRead m.ic (off % 4096), m) := by simp only [ioRead, h]
theorem ioRead_tm (h : off / 4096 = 2) : ioRead e m off t = tmRead m (off % 4096) := by simp only [ioRead, h]
theorem ioRead_bm (h : off / 4096 = 3) : ioRead e m off t = bmRead e m (off % 4096) t := by simp only [ioRead, h]

theorem ioRead_vid (h : 4 ≤ off / 4096) (h' : off / 4096 ≤ 7) : ioRead e m off t = (vidRead m off, m) := by
  have hb : off / 4096 = 4 ∨ off / 4096 = 5 ∨ off / 4096 = 6 ∨ off / 4096 = 7 := by omega
  rcases hb with hb | hb | hb | hb
  all_goals simp only [ioRead, hb]

theorem ioRead_au (h : off / 4096 = 10) : ioRead e m off t = (auRead m.au (off % 4096), m) := by simp only [ioRead, h]
theorem ioRead_rb (h : off / 4096 = 13) : ioRead e m off t = (rbRead m.rb (off % 4096), m) := by simp only [ioRead, h]
theorem ioRead_dbg (h : off / 4096 = 15) : ioRead e m off t = (dbgRead m.dbg (off % 4096), m) := by simp only [ioRead, h]

/-- Block 14 and what lies beyond the region read as zero (R11). -/
theorem ioRead_unassigned (h : off / 4096 = 14 ∨ 16 ≤ off / 4096) : ioRead e m off t = (0, m) := by
  rcases h with h | h
  · simp only [ioRead, h]
  · obtain ⟨k, hk⟩ := Nat.exists_eq_add_of_le' h
    simp only [ioRead, hk]

end

/-! ### Reading back what was written (R9, R10, R313) -/

/-- The register at `p.1`, written in vc `t` and read in vc `u`, gives the written bits that it holds, which are those of `p.2`. -/
def ReadsBack (e : Env) (m : Mach) (v : Word) (t u : Nat) (p : Nat × Word) : Prop := (ioRead e (ioWrite e m p.1 v t) p.1 u).1 = v &&& p.2

theorem and_fullWord (v : Word) : v &&& 0xFFFFFFFF#32 = v := BitVec.and_allOnes

section
variable {e : Env} {m : Mach} {v : Word} {t u : Nat}

theorem umask_readsBack : ReadsBack e m v t u (0xC, 0x3FFF#32) := rfl

theorem icEnable_readsBack : ReadsBack e m v t u (0x1008, 0xFFFFFFFF#32) := (and_fullWord v).symm

theorem icPrio_readsBack : ∀ i, i < 4 → ReadsBack e m v t u (0x1010 + 4 * i, 0x77777777#32) := by
  intro i hi
  have hb : (0x1010 + 4 * i) / 4096 = 1 := by omega
  have ho : (0x1010 + 4 * i) % 4096 = 0x10 + 4 * i := by omega
  have h2 : 0x10 + 4 * i ≠ 4 := by omega
  have h3 : 0x10 + 4 * i ≠ 8 := by omega
  have h4 : 0x10 + 4 * i ≤ 0x1C := by omega
  unfold ReadsBack
  dsimp only
  rw [ioWrite_ic hb, ioRead_ic hb, ho]
  simp [icWrite, icRead, h2, h3, h4]

/-- TM_RELOAD and TM_CMP. -/
theorem timer_readsBack {r : Nat} (hr : r = 0x08 ∨ r = 0x0C) : ∀ i, i < 4 → ReadsBack e m v t u (0x2000 + r + 0x20 * i, 0xFFFFFFFF#32) := by
  intro i hi
  have hb : (0x2000 + r + 0x20 * i) / 4096 = 2 := by omega
  have hlt : ¬ 0x80 ≤ (0x2000 + r + 0x20 * i) % 4096 := by omega
  have hn : (0x2000 + r + 0x20 * i) % 4096 / 0x20 = i := by omega
  have hm : (0x2000 + r + 0x20 * i) % 4096 % 0x20 = r := by omega
  unfold ReadsBack
  dsimp only
  rw [ioWrite_tm hb, ioRead_tm hb, and_fullWord]
  simp only [tmWrite, tmRead, hlt, if_false, hn, hm]
  rcases hr with rfl | rfl
  · simp [Mach.timer, Mach.setTimer]
  · simp [Mach.timer, Mach.setTimer]

theorem beam_readsBack : ReadsBack e m v t u (0x3014, 0x03FF03FF#32) ∧ ReadsBack e m v t u (0x3018, 1#32) := ⟨rfl, rfl⟩

theorem rasterList_readsBack : ReadsBack e m v t u (0x8000, 1#32) ∧ ReadsBack e m v t u (0x8004, 0x1FFFF8#32) := ⟨rfl, rfl⟩

/-- The command registers of the blitter by their offset in block 9, with the bits that they hold (R244). -/
def blitMasks : List (Nat × Word) :=
  [(0x00, 0xFFFFFFFF#32), (0x04, 0x000703FF#32), (0x08, 0x03FF03FF#32), (0x10, 0xFFFFFFFF#32), (0x14, 0x000703FF#32), (0x18, 0x03FF03FF#32),
    (0x20, 0x03FF03FF#32), (0x24, 0x0001FF07#32), (0x28, 0xFFFFFFFF#32), (0x2C, 0x3FF#32)]

theorem blit_readsBack {r : Nat} {k : Word} (h : (r, k) ∈ blitMasks) : ReadsBack e m v t u (0x9000 + r, k) := by
  simp only [blitMasks, List.mem_cons, Prod.mk.injEq, List.not_mem_nil, or_false] at h
  unfold ReadsBack
  rcases h with ⟨rfl, rfl⟩ | ⟨rfl, rfl⟩ | ⟨rfl, rfl⟩ | ⟨rfl, rfl⟩ | ⟨rfl, rfl⟩ | ⟨rfl, rfl⟩ | ⟨rfl, rfl⟩ | ⟨rfl, rfl⟩ | ⟨rfl, rfl⟩ | ⟨rfl, rfl⟩
  all_goals simp [ioWrite, ioRead, buWrite, buRead, and_fullWord]

/-- The registers of a voice by their offset in its set, with the bits that they hold (R313). -/
def voiceMasks : List (Nat × Word) :=
  [(0x00, 0x7F#32), (0x04, 0x3FFFFF#32), (0x08, 0xFFFFFF#32), (0x0C, 0xFFFFFF#32), (0x10, 0xFFFFFFFF#32), (0x14, 0xFFFFFFFF#32), (0x18, 0x01FF01FF#32),
    (0x1C, 0xFFFF7FFF#32)]

theorem voice_readsBack {r : Nat} {k : Word} (h : (r, k) ∈ voiceMasks) : ∀ i, i < 32 → ReadsBack e m v t u (0xA000 + r + 0x20 * i, k) := by
  intro i hi
  simp only [voiceMasks, List.mem_cons, Prod.mk.injEq, List.not_mem_nil, or_false] at h
  have hr : r < 0x20 := by omega
  have hb : (0xA000 + r + 0x20 * i) / 4096 = 10 := by omega
  have hlt : (0xA000 + r + 0x20 * i) % 4096 < 0x400 := by omega
  have hn : (0xA000 + r + 0x20 * i) % 4096 / 0x20 = i := by omega
  have hm : (0xA000 + r + 0x20 * i) % 4096 % 0x20 = r := by omega
  unfold ReadsBack
  dsimp only
  rw [ioWrite_au hb, ioRead_au hb]
  simp only [auWrite, auRead, hlt, if_true, hn, hm]
  rcases h with ⟨rfl, rfl⟩ | ⟨rfl, rfl⟩ | ⟨rfl, rfl⟩ | ⟨rfl, rfl⟩ | ⟨rfl, rfl⟩ | ⟨rfl, rfl⟩ | ⟨rfl, rfl⟩ | ⟨rfl, rfl⟩
  all_goals simp [AuSet.voice, Mach.setVoiceSet, and_fullWord]

/-- The registers of a bus by their offset in its set, with the bits that they hold (R313). -/
def busMasks : List (Nat × Word) :=
  [(0x00, 0xFFFFFFFF#32), (0x04, 0xFFFFFFFF#32), (0x08, 0xFFFF#32), (0x0C, 0x01FF1FFF#32), (0x10, 0xFFFFFFFF#32), (0x14, 0x000107FF#32)]

theorem bus_readsBack {r : Nat} {k : Word} (h : (r, k) ∈ busMasks) : ∀ i, i < 4 → ReadsBack e m v t u (0xA600 + r + 0x20 * i, k) := by
  intro i hi
  simp only [busMasks, List.mem_cons, Prod.mk.injEq, List.not_mem_nil, or_false] at h
  have hr : r < 0x20 := by omega
  have hb : (0xA600 + r + 0x20 * i) / 4096 = 10 := by omega
  have ho : (0xA600 + r + 0x20 * i) % 4096 = 0x600 + r + 0x20 * i := by omega
  have h1 : ¬ 0x600 + r + 0x20 * i < 0x400 := by omega
  have h2 : ¬ 0x600 + r + 0x20 * i < 0x600 := by omega
  have h3 : 0x600 + r + 0x20 * i < 0x680 := by omega
  have h4 : 0x600 ≤ 0x600 + r + 0x20 * i := by omega
  have hn : (0x600 + r + 0x20 * i - 0x600) / 0x20 = i := by omega
  have hm : (0x600 + r + 0x20 * i) % 0x20 = r := by omega
  unfold ReadsBack
  dsimp only
  rw [ioWrite_au hb, ioRead_au hb, ho]
  simp only [auWrite, auRead, h1, h2, h3, h4, and_self, if_true, if_false, hn, hm]
  rcases h with ⟨rfl, rfl⟩ | ⟨rfl, rfl⟩ | ⟨rfl, rfl⟩ | ⟨rfl, rfl⟩ | ⟨rfl, rfl⟩ | ⟨rfl, rfl⟩
  all_goals simp [AuSet.bus, Mach.setBusSet, and_fullWord]

theorem route_readsBack : ∀ i, i < 4 → ReadsBack e m v t u (0xA680 + 4 * i, 0x77777777#32) := by
  intro i hi
  have hb : (0xA680 + 4 * i) / 4096 = 10 := by omega
  have ho : (0xA680 + 4 * i) % 4096 = 0x680 + 4 * i := by omega
  have h1 : ¬ 0x680 + 4 * i < 0x400 := by omega
  have h2 : ¬ 0x680 + 4 * i < 0x600 := by omega
  have h3 : ¬ 0x680 + 4 * i < 0x680 := by omega
  have h4 : 0x680 ≤ 0x680 + 4 * i := by omega
  have h5 : 0x680 + 4 * i < 0x690 := by omega
  have h6 : (0x680 + 4 * i) % 4 = 0 := by omega
  unfold ReadsBack
  dsimp only
  rw [ioWrite_au hb, ioRead_au hb, ho]
  simp [auWrite, auRead, h1, h2, h3, h4, h5, h6]

/-- The master set and the triggers by their offset in block 10, with the bits that they hold (R313). -/
def masterMasks : List (Nat × Word) :=
  [(0x6C0, 0x1FFF#32), (0x6C4, 0x00011FFF#32), (0x6C8, 0xFFFFFFFF#32), (0x800, 0xFFFFFFFF#32), (0x804, 0xFFFFFFFF#32)]

theorem master_readsBack {r : Nat} {k : Word} (h : (r, k) ∈ masterMasks) : ReadsBack e m v t u (0xA000 + r, k) := by
  simp only [masterMasks, List.mem_cons, Prod.mk.injEq, List.not_mem_nil, or_false] at h
  unfold ReadsBack
  rcases h with ⟨rfl, rfl⟩ | ⟨rfl, rfl⟩ | ⟨rfl, rfl⟩ | ⟨rfl, rfl⟩ | ⟨rfl, rfl⟩
  all_goals simp [ioWrite, ioRead, auWrite, auRead, and_fullWord]

theorem rbCtl_readsBack : ReadsBack e m v t u (0xD000, 1#32) := rfl

/-- RB_HOLD and RB_AXP of a port (R329). -/
theorem rbPort_readsBack {r : Nat} {k : Word} (h : (r, k) ∈ [(0x0, 0xFFFFFFFF#32), (0x4, 3#32)]) :
    ∀ i, i < 8 → ReadsBack e m v t u (0xD100 + r + 0x10 * i, k) := by
  intro i hi
  simp only [List.mem_cons, Prod.mk.injEq, List.not_mem_nil, or_false] at h
  have hb : (0xD100 + r + 0x10 * i) / 4096 = 13 := by omega
  have ho : (0xD100 + r + 0x10 * i) % 4096 = 0x100 + r + 0x10 * i := by omega
  have h0 : 0x100 + r + 0x10 * i ≠ 0 := by omega
  have h1 : 0x100 + r + 0x10 * i ≠ 4 := by omega
  have h2 : 0x100 ≤ 0x100 + r + 0x10 * i ∧ 0x100 + r + 0x10 * i < 0x180 := by omega
  have hn : (0x100 + r + 0x10 * i - 0x100) / 0x10 % 8 = i := by omega
  have hm : (0x100 + r + 0x10 * i) % 0x10 = r := by omega
  unfold ReadsBack
  dsimp only
  rw [ioWrite_rb hb, ioRead_rb hb, ho]
  simp only [rbWrite, rbRead, h0, h1, h2, and_self, if_true, if_false, hn, hm]
  rcases h with ⟨rfl, rfl⟩ | ⟨rfl, rfl⟩
  · simp [and_fullWord]
  · simp

theorem breakpoint_readsBack : ReadsBack e m v t u (0xF008, 0xFFFFFFFF#32) ∧ ReadsBack e m v t u (0xF00C, 0xFFFFFFFF#32) :=
  ⟨(and_fullWord v).symm, (and_fullWord v).symm⟩

/-- The registers of a user window (R117, R118). -/
theorem window_readsBack {r : Nat} {k : Word} (h : (r, k) ∈ [(0x0, 0xFFFFF000#32), (0x4, 0xFFFFF000#32), (0x8, 7#32)]) :
    ∀ i, i < 8 → ReadsBack e m v t u (0xF100 + r + 0x10 * i, k) := by
  intro i hi
  simp only [List.mem_cons, Prod.mk.injEq, List.not_mem_nil, or_false] at h
  have hb : (0xF100 + r + 0x10 * i) / 4096 = 15 := by omega
  have ho : (0xF100 + r + 0x10 * i) % 4096 = 0x100 + r + 0x10 * i := by omega
  have h0 : 0x100 + r + 0x10 * i ≠ 0 := by omega
  have h1 : 0x100 + r + 0x10 * i ≠ 8 := by omega
  have h2 : 0x100 + r + 0x10 * i ≠ 0xC := by omega
  have h3 : 0x100 ≤ 0x100 + r + 0x10 * i ∧ 0x100 + r + 0x10 * i < 0x180 := by omega
  have hn : (0x100 + r + 0x10 * i - 0x100) / 0x10 % 8 = i := by omega
  have hm : (0x100 + r + 0x10 * i) % 0x10 = r := by omega
  unfold ReadsBack
  dsimp only
  rw [ioWrite_dbg hb, ioRead_dbg hb, ho]
  simp only [dbgWrite, dbgRead, h0, h1, h2, h3, and_self, if_true, if_false, hn, hm]
  rcases h with ⟨rfl, rfl⟩ | ⟨rfl, rfl⟩ | ⟨rfl, rfl⟩
  · simp
  · simp
  · simp

/-- Every plain register, block by block. -/
theorem plainRegisters_readBack : ∀ p ∈ plainRegisters, ReadsBack e m v t u p := by
  unfold plainRegisters
  dsimp only
  simp only [List.forall_mem_append, List.forall_mem_map, List.forall_mem_cons, List.mem_range, and_assoc, List.not_mem_nil, false_imp_iff,
    implies_true, true_and]
  obtain ⟨hlcmp, hbeamCtl⟩ := beam_readsBack (e := e) (m := m) (v := v) (t := t) (u := u)
  obtain ⟨hlistCtl, hlistBase⟩ := rasterList_readsBack (e := e) (m := m) (v := v) (t := t) (u := u)
  obtain ⟨hbp0, hbp1⟩ := breakpoint_readsBack (e := e) (m := m) (v := v) (t := t) (u := u)
  exact ⟨umask_readsBack, icEnable_readsBack, icPrio_readsBack, timer_readsBack (.inl rfl), timer_readsBack (.inr rfl), hlcmp, hbeamCtl, hlistCtl, hlistBase,
    blit_readsBack (r := 0x00) (by decide), blit_readsBack (r := 0x04) (by decide), blit_readsBack (r := 0x08) (by decide),
    blit_readsBack (r := 0x10) (by decide), blit_readsBack (r := 0x14) (by decide), blit_readsBack (r := 0x18) (by decide),
    blit_readsBack (r := 0x20) (by decide), blit_readsBack (r := 0x24) (by decide), blit_readsBack (r := 0x28) (by decide),
    blit_readsBack (r := 0x2C) (by decide),
    voice_readsBack (r := 0x00) (by decide), voice_readsBack (r := 0x04) (by decide), voice_readsBack (r := 0x08) (by decide),
    voice_readsBack (r := 0x0C) (by decide), voice_readsBack (r := 0x10) (by decide), voice_readsBack (r := 0x14) (by decide),
    voice_readsBack (r := 0x18) (by decide), voice_readsBack (r := 0x1C) (by decide),
    bus_readsBack (r := 0x00) (by decide), bus_readsBack (r := 0x04) (by decide), bus_readsBack (r := 0x08) (by decide),
    bus_readsBack (r := 0x0C) (by decide), bus_readsBack (r := 0x10) (by decide), bus_readsBack (r := 0x14) (by decide),
    route_readsBack, master_readsBack (r := 0x6C0) (by decide), master_readsBack (r := 0x6C4) (by decide), master_readsBack (r := 0x6C8) (by decide),
    master_readsBack (r := 0x800) (by decide), master_readsBack (r := 0x804) (by decide),
    rbCtl_readsBack, rbPort_readsBack (r := 0x0) (by decide), rbPort_readsBack (r := 0x4) (by decide), hbp0, hbp1,
    window_readsBack (r := 0x0) (by decide), window_readsBack (r := 0x4) (by decide), window_readsBack (r := 0x8) (by decide)⟩

end
/-! ### Bits cleared by ones, and stamped registers (R9, R174) -/

/-- A bit after a clear that retires in vc `t`: one that the device set in that vc stays (R9). -/
theorem clear_getLsbD (r : W1c) (bits : Word) (t : Nat) {i : Nat} (hi : i < 32) :
    (r.clear bits t).val.getLsbD i = (r.val.getLsbD i && !(bits.getLsbD i && !(decide (r.stamp = t + 1) && r.fresh.getLsbD i))) := by
  unfold W1c.clear
  by_cases h : r.stamp = t + 1
  · simp [h, hi]
  · simp [h, hi]

/-- A table gives back what was put under a number. -/
theorem tabGet_tabPut {α : Type} (l : List (Nat × α)) (x : Nat) (a : α) : tabGet (tabPut l x a) x = some a := by
  induction l with
  | nil => simp [tabPut, tabGet]
  | cons p l ih =>
    obtain ⟨y, b⟩ := p
    unfold tabPut
    split
    · simp [tabGet]
    · split
      · simp [tabGet]
      · next _ hne => rw [tabGet, if_neg (fun h => hne h.symm), ih]

/-- OB_OVF is read only (R206). -/
theorem vidMask_ovf (cfg : Cfg) : vidMask cfg 0x500C = none := rfl

section
variable {e : Env} {m : Mach} {off t u : Nat} {v : Word}

/-- A register of blocks 4 to 7 reads back, and its write is the newest of the log (R174). -/
theorem vidWrite_stamped {k : Word} (hlo : 0x4000 ≤ off) (hhi : off < 0x8000) (hk : vidMask e.cfg off = some k) :
    (ioRead e (ioWrite e m off v t) off u).1 = v &&& k ∧ (ioWrite e m off v t).vid.log
      = m.vid.log ++ [{ stamp := t, effect := vidEffect e.mode off t, target := .reg off, val := v &&& k, list := false }] := by
  have hne : off ≠ 0x500C := by
    rintro rfl
    rw [vidMask_ovf] at hk
    cases hk
  have h4 : 4 ≤ off / 4096 := by omega
  have h7 : off / 4096 ≤ 7 := by omega
  rw [ioWrite_vid h4 h7, ioRead_vid h4 h7]
  simp only [vidWrite, hk, vidRead, hne, if_false]
  exact ⟨congrArg (fun w => w.getD 0) (tabGet_tabPut m.vid.regs off (v &&& k)), rfl⟩

/-! ### What a read leaves alone (R159, R169) -/

/-- Only the reads of the counts of timers 0 to 2 fill a latch. -/
theorem tmRead_state {o : Nat} (h : o ≠ 0x04 ∧ o ≠ 0x24 ∧ o ≠ 0x44) : (tmRead m o).2 = m := by
  unfold tmRead
  split
  · rfl
  · dsimp only
    split
    · rfl
    · next hm =>
      have hn : ¬ o / 0x20 < 3 := by omega
      simp only [tmCountRead, hn, if_false]
    · rfl
    · rfl
    · rfl
    · rfl
    · rfl

/-- Only the read of BM_FRAMEL fills a latch. -/
theorem bmRead_state {o : Nat} (h : o ≠ 0x04) : (bmRead e m o t).2 = m := by
  unfold bmRead
  dsimp only
  split
  · rfl
  · exact absurd rfl h
  all_goals rfl

theorem ioRead_state (h : off ∉ [0x2004, 0x2024, 0x2044, 0x3004]) : (ioRead e m off u).2 = m := by
  simp only [List.mem_cons, List.not_mem_nil, or_false, not_or] at h
  unfold ioRead
  dsimp only
  split
  · rfl
  · rfl
  · exact tmRead_state (by omega)
  · exact bmRead_state (by omega)
  all_goals rfl

/-! ### What a write leaves alone -/

theorem icWrite_rest (o : Nat) : icWrite m o v t = { m with ic := (icWrite m o v t).ic } := by
  unfold icWrite
  split
  · rfl
  · split
    · rfl
    · split
      · rfl
      · split
        · rfl
        · rfl

theorem tmWrite_rest (o : Nat) : tmWrite m o v t = { m with tm := (tmWrite m o v t).tm } := by
  unfold tmWrite tmCtlWrite tmCountWrite
  dsimp only
  repeat' split
  all_goals rfl

theorem bmWrite_rest (o : Nat) : bmWrite m o v t = { m with bm := (bmWrite m o v t).bm } := by
  unfold bmWrite
  split
  all_goals rfl

theorem vidWrite_rest (o : Nat) : vidWrite e m o v t = { m with vid := (vidWrite e m o v t).vid, fx := (vidWrite e m o v t).fx }
    ∧ (vidWrite e m o v t).vid.sprites = m.vid.sprites ∧ (vidWrite e m o v t).vid.shownRegs = m.vid.shownRegs := by
  unfold vidWrite
  split
  all_goals exact ⟨rfl, rfl, rfl⟩

theorem rlWrite_rest (o : Nat) : rlWrite m o v = { m with rl := (rlWrite m o v).rl } ∧ (rlWrite m o v).rl.captured = m.rl.captured
    ∧ (rlWrite m o v).rl.inForce = m.rl.inForce := by
  unfold rlWrite
  split
  all_goals exact ⟨rfl, rfl, rfl⟩

/-- BU_GO refused raises source 14 (R248). -/
theorem buWrite_rest (o : Nat) : buWrite m o v t = { m with bu := (buWrite m o v t).bu, ic := (buWrite m o v t).ic }
    ∧ (buWrite m o v t).bu.run = m.bu.run := by
  unfold buWrite buGo
  dsimp only
  repeat' split
  all_goals exact ⟨rfl, rfl⟩

theorem auWrite_rest (o : Nat) : auWrite m o v t = { m with au := (auWrite m o v t).au } ∧ (auWrite m o v t).au.live = m.au.live
    ∧ (auWrite m o v t).au.voices = m.au.voices := by
  unfold auWrite auCommitWrite
  dsimp only
  repeat' split
  all_goals exact ⟨rfl, rfl, rfl⟩

theorem inWrite_rest (o : Nat) : inWrite m o v t = { m with inp := (inWrite m o v t).inp } ∧ (inWrite m o v t).inp.ports = m.inp.ports := by
  unfold inWrite
  split
  all_goals exact ⟨rfl, rfl⟩

theorem oqCtlWrite_rest (prof q : Nat) : oqCtlWrite prof m q v = { m with oq := (oqCtlWrite prof m q v).oq } := by
  unfold oqCtlWrite
  dsimp only
  repeat' split
  all_goals rfl

theorem oqWrite_rest (o : Nat) : oqWrite e m o v = { m with oq := (oqWrite e m o v).oq } := by
  unfold oqWrite
  dsimp only
  split
  · rfl
  · split
    · split
      all_goals rfl
    · split
      all_goals rfl
    · exact oqCtlWrite_rest e.cfg.prof _
    · rfl
    · rfl

theorem rbWrite_rest (o : Nat) : rbWrite m o v = { m with rb := (rbWrite m o v).rb } := by
  unfold rbWrite
  dsimp only
  repeat' split
  all_goals rfl

theorem dbgWrite_rest (o : Nat) : dbgWrite m o v t = { m with dbg := (dbgWrite m o v t).dbg } := by
  unfold dbgWrite
  dsimp only
  repeat' split
  all_goals rfl

/-- The processor and the vc stay as they are under every access to a register. -/
theorem ioRead_cpu_vc : (ioRead e m off u).2.cpu = m.cpu ∧ (ioRead e m off u).2.vc = m.vc := by
  unfold ioRead tmRead tmCountRead bmRead bmFramelRead
  dsimp only
  repeat' split
  all_goals exact ⟨rfl, rfl⟩

end

/-- What the registers of the I/O region hold and answer, from the rules of each block. -/
theorem registersHold (e : Env) (m : Mach) (v : Word) (t u : Nat) : RegistersHold e m v t u := by
  refine ⟨plainRegisters_readBack, fun off k hlo hhi hk => vidWrite_stamped hlo hhi hk, ?_, fun off h => ioRead_state h, ?_, ?_, rfl, rfl, rfl, rfl⟩
  · simp only [List.forall_mem_cons, List.not_mem_nil, false_imp_iff, implies_true, and_true]
    exact ⟨fun i hi => clear_getLsbD _ v t hi, fun i hi => clear_getLsbD _ v t hi, fun i hi => clear_getLsbD _ v t hi,
      fun i hi => clear_getLsbD _ v t hi, fun i hi => clear_getLsbD _ v t hi⟩
  · intro off h
    have hb : off / 4096 = 14 ∨ 16 ≤ off / 4096 := by omega
    exact ⟨congrArg Prod.fst (ioRead_unassigned hb), ioWrite_unassigned hb⟩
  · intro off
    dsimp only
    split
    next h =>
      rw [ioWrite_sys h]
      split
      · rfl
      · rfl
    next h => rw [ioWrite_ic h]; exact icWrite_rest _
    next h => rw [ioWrite_tm h]; exact tmWrite_rest _
    next h => rw [ioWrite_bm h]; exact bmWrite_rest _
    iterate 4 next h => rw [ioWrite_vid (by omega) (by omega)]; exact vidWrite_rest _
    next h => rw [ioWrite_rl h]; exact rlWrite_rest _
    next h => rw [ioWrite_bu h]; exact buWrite_rest _
    next h => rw [ioWrite_au h]; exact auWrite_rest _
    next h => rw [ioWrite_in h]; exact inWrite_rest _
    next h => rw [ioWrite_oq h]; exact oqWrite_rest _
    next h => rw [ioWrite_rb h]; exact rbWrite_rest _
    next h => rw [ioWrite_dbg h]; exact dbgWrite_rest _
    next =>
      simp only [imp_false] at *
      exact ioWrite_unassigned (by omega)

end Sys2Proof.Machine
end

section
/-! PROOF. LDW and STW on the I/O region (R81, R82): the access goes through the block's read or write, and the instruction retires on what that
leaves. -/
namespace Sys2Proof.Machine

/-! ### The register blocks and the processor -/

section
variable {e : Env} {m : Mach} {off t : Nat} {v : Word}

/-- No register read looks at the processor. -/
theorem ioRead_withCpu (c : Cpu) : ioRead e { m with cpu := c } off t = ((ioRead e m off t).1, { (ioRead e m off t).2 with cpu := c }) := by
  unfold ioRead tmRead tmCountRead bmRead bmFramelRead
  dsimp only
  repeat' split
  all_goals rfl

theorem icWrite_withCpu (c : Cpu) (o : Nat) : icWrite { m with cpu := c } o v t = { icWrite m o v t with cpu := c } := by
  unfold icWrite
  dsimp only
  repeat' split
  all_goals rfl

theorem tmWrite_withCpu (c : Cpu) (o : Nat) : tmWrite { m with cpu := c } o v t = { tmWrite m o v t with cpu := c } := by
  unfold tmWrite tmCtlWrite tmCountWrite Mach.timer
  dsimp only
  repeat' split
  all_goals rfl

theorem bmWrite_withCpu (c : Cpu) (o : Nat) : bmWrite { m with cpu := c } o v t = { bmWrite m o v t with cpu := c } := by
  unfold bmWrite
  dsimp only
  repeat' split
  all_goals rfl

theorem vidWrite_withCpu (c : Cpu) (o : Nat) : vidWrite e { m with cpu := c } o v t = { vidWrite e m o v t with cpu := c } := by
  unfold vidWrite
  dsimp only
  repeat' split
  all_goals rfl

theorem rlWrite_withCpu (c : Cpu) (o : Nat) : rlWrite { m with cpu := c } o v = { rlWrite m o v with cpu := c } := by
  unfold rlWrite
  dsimp only
  repeat' split
  all_goals rfl

/-- BU_GO captures the level (R247). -/
theorem buWrite_withCpu {c : Cpu} (h : pswLV c.psw = pswLV m.cpu.psw) (o : Nat) : buWrite { m with cpu := c } o v t = { buWrite m o v t with cpu := c } := by
  have hlv : ({ m with cpu := c } : Mach).lv = m.lv := h
  unfold buWrite buGo
  dsimp only
  rw [hlv]
  repeat' split
  all_goals rfl

theorem auWrite_withCpu (c : Cpu) (o : Nat) : auWrite { m with cpu := c } o v t = { auWrite m o v t with cpu := c } := by
  unfold auWrite auCommitWrite
  dsimp only
  repeat' split
  all_goals rfl

theorem inWrite_withCpu (c : Cpu) (o : Nat) : inWrite { m with cpu := c } o v t = { inWrite m o v t with cpu := c } := by
  unfold inWrite
  dsimp only
  repeat' split
  all_goals rfl

theorem oqWrite_withCpu (c : Cpu) (o : Nat) : oqWrite e { m with cpu := c } o v = { oqWrite e m o v with cpu := c } := by
  unfold oqWrite oqCtlWrite Mach.oqOf
  dsimp only
  repeat' split
  all_goals rfl

theorem rbWrite_withCpu (c : Cpu) (o : Nat) : rbWrite { m with cpu := c } o v = { rbWrite m o v with cpu := c } := by
  unfold rbWrite
  dsimp only
  repeat' split
  all_goals rfl

theorem dbgWrite_withCpu (c : Cpu) (o : Nat) : dbgWrite { m with cpu := c } o v t = { dbgWrite m o v t with cpu := c } := by
  unfold dbgWrite
  dsimp only
  repeat' split
  all_goals rfl

/-- The blocks that an offset may lie in. -/
theorem block_cases (off : Nat) : off / 4096 = 0 ∨ off / 4096 = 1 ∨ off / 4096 = 2 ∨ off / 4096 = 3 ∨ (4 ≤ off / 4096 ∧ off / 4096 ≤ 7) ∨ off / 4096 = 8
    ∨ off / 4096 = 9 ∨ off / 4096 = 10 ∨ off / 4096 = 11 ∨ off / 4096 = 12 ∨ off / 4096 = 13 ∨ off / 4096 = 15
    ∨ (off / 4096 = 14 ∨ 16 ≤ off / 4096) := by omega

/-- A register write sees no more of the processor than its level. -/
theorem ioWrite_withCpu {c : Cpu} (h : pswLV c.psw = pswLV m.cpu.psw) : ioWrite e { m with cpu := c } off v t = { ioWrite e m off v t with cpu := c } := by
  rcases block_cases off with hb | hb | hb | hb | ⟨hb, hb'⟩ | hb | hb | hb | hb | hb | hb | hb | hb
  · rw [ioWrite_sys hb, ioWrite_sys hb]
    split
    · rfl
    · rfl
  · rw [ioWrite_ic hb, ioWrite_ic hb, icWrite_withCpu]
  · rw [ioWrite_tm hb, ioWrite_tm hb, tmWrite_withCpu]
  · rw [ioWrite_bm hb, ioWrite_bm hb, bmWrite_withCpu]
  · rw [ioWrite_vid hb hb', ioWrite_vid hb hb', vidWrite_withCpu]
  · rw [ioWrite_rl hb, ioWrite_rl hb, rlWrite_withCpu]
  · rw [ioWrite_bu hb, ioWrite_bu hb, buWrite_withCpu h]
  · rw [ioWrite_au hb, ioWrite_au hb, auWrite_withCpu]
  · rw [ioWrite_in hb, ioWrite_in hb, inWrite_withCpu]
  · rw [ioWrite_oq hb, ioWrite_oq hb, oqWrite_withCpu]
  · rw [ioWrite_rb hb, ioWrite_rb hb, rbWrite_withCpu]
  · rw [ioWrite_dbg hb, ioWrite_dbg hb, dbgWrite_withCpu]
  · rw [ioWrite_unassigned hb, ioWrite_unassigned hb]

theorem ioWrite_cpu : (ioWrite e m off v t).cpu = m.cpu := by
  have h := ioWrite_withCpu (e := e) (m := m) (off := off) (v := v) (t := t) (c := m.cpu) rfl
  have hcpu := congrArg (fun y : Mach => y.cpu) h
  exact hcpu

theorem ioWrite_vc : (ioWrite e m off v t).vc = m.vc := by
  rcases block_cases off with hb | hb | hb | hb | ⟨hb, hb'⟩ | hb | hb | hb | hb | hb | hb | hb | hb
  · rw [ioWrite_sys hb]
    split
    · rfl
    · rfl
  · rw [ioWrite_ic hb, icWrite_rest]
  · rw [ioWrite_tm hb, tmWrite_rest]
  · rw [ioWrite_bm hb, bmWrite_rest]
  · rw [ioWrite_vid hb hb', (vidWrite_rest off).1]
  · rw [ioWrite_rl hb, (rlWrite_rest _).1]
  · rw [ioWrite_bu hb, (buWrite_rest _).1]
  · rw [ioWrite_au hb, (auWrite_rest _).1]
  · rw [ioWrite_in hb, (inWrite_rest _).1]
  · rw [ioWrite_oq hb, oqWrite_rest]
  · rw [ioWrite_rb hb, rbWrite_rest]
  · rw [ioWrite_dbg hb, dbgWrite_rest]
  · rw [ioWrite_unassigned hb]

end

/-! ### Retirement on another state -/

/-- A body that leaves `y`, in which nothing of the processor's place has moved, and retires in sequence with processor state `p`. -/
theorem coreStep_settleSeq {s : State} {c : Nat} {x : Ctx} {enc : Encoding} {body : Body} {y : Mach} {p : Cpu} {cost len : Nat}
    (he : (if enc.long then 4 else 2) = len) (h : Issues s c x len) (hl : laneFits x cost) (hpc : y.cpu.pc = x.m.cpu.pc) (hvc : y.vc = x.m.vc)
    (hb : body (s.env x) (issueState x.m) x.m.vc x.m.cpu.pc (x.m.following len) = ⟨{ y with cpu := p.idleMarks }, cost, .seq⟩) :
    coreStep s c enc body = .next (settle s x (retireSeq y p cost len)) := by
  subst he
  have hfollow : y.following (if enc.long then 4 else 2) = x.m.following (if enc.long then 4 else 2) := by rw [Mach.following, hpc, Mach.following]
  have hmarks := loopCheck_marks 4 p.idleMarks (x.m.following (if enc.long then 4 else 2))
  have hr : runCore (s.env x) x.m (if enc.long then 4 else 2) body = retireSeq y p cost (if enc.long then 4 else 2) := by
    rw [runCore_issues h (laneFits_one hl), hb, conclude_fits hl]
    simp only [finish, retireTo, issueState_vc, issueState_psw, h.noTrace, Bool.false_eq_true, ↓reduceIte, retireSeq, hfollow, hvc]
    generalize loopCheck 4 p.idleMarks (x.m.following (if enc.long then 4 else 2)) = l at hmarks
    obtain ⟨q, a⟩ := l
    cases q
    simp_all [Cpu.idleMarks]
  simp only [coreStep, h.here, h.active, hr, Bool.not_true, Bool.false_eq_true, ↓reduceIte]

/-! ### LDW and STW -/

/-- The encodings of LDW and STW are as long as their address form (R78, R79). -/
theorem encodingOf_ldw_length (c : Nat) (rd : Reg) (ea : Ea) : (if (encodingOf (.ldw c rd ea)).long then 4 else 2) = eaLen ea := by
  cases ea
  all_goals rfl

theorem encodingOf_stw_length (c : Nat) (rd : Reg) (ea : Ea) : (if (encodingOf (.stw c rd ea)).long then 4 else 2) = eaLen ea := by
  cases ea
  all_goals rfl

/-- The address and the write-back of an operand are those of the issuing state (R81). -/
theorem eaAddr_issueState (m : Mach) (n : Nat) (ea : Ea) : eaAddr (issueState m) n ea = eaAddr m n ea := by
  cases ea
  all_goals rfl

theorem eaBack_issueState (m : Mach) (n : Nat) (ea : Ea) : eaBack (issueState m) n ea = eaBack m n ea := by
  cases ea
  all_goals rfl

theorem checkAccess_issueState (e : Env) (m : Mach) (acc : Acc) (a n : Nat) : checkAccess e (issueState m) acc a n = checkAccess e m acc a n := rfl

/-- The registers after the write-back of a form that has none, and of one that has (R81). -/
theorem regsBack_none {m : Mach} {n : Nat} {ea : Ea} (h : eaBack m n ea = none) : regsBack m n ea = m.cpu.regs := by simp only [regsBack, h]

theorem regsBack_some {m : Mach} {n : Nat} {ea : Ea} {r : Reg} {v : Word} (h : eaBack m n ea = some (r, v)) :
    regsBack m n ea = m.cpu.regs.set r v := by simp only [regsBack, h]

/-- The write-back changes the registers of the processor alone, whatever else an access has changed. -/
theorem writeBack_regsBack (y m : Mach) (n : Nat) (ea : Ea) :
    writeBack { y with cpu := m.cpu.idleMarks } (eaBack m n ea) = { y with cpu := { m.cpu with regs := regsBack m n ea }.idleMarks } := by
  cases h : eaBack m n ea with
  | none =>
    rw [regsBack_none h]
    exact rfl
  | some b =>
    rw [regsBack_some h]
    exact rfl

/-- A word is its own zero extension. -/
theorem extend_word (v : Word) : extend .zero 4 v.toNat = v := BitVec.ofNat_toNat 32 v |>.trans (BitVec.setWidth_eq v)

/-- LDW of a register of the I/O region: the block's read in the second vc, then the write-back. -/
theorem ldw_io {s : State} {c : Nat} {x : Ctx} {rd : Reg} {ea : Ea} {off : Nat} (h : Issues s c x (eaLen ea)) (hok : eaOk true true true rd ea = true)
    (hacc : checkAccess (s.env x) x.m .read (eaAddr x.m 4 ea).toNat 4 = .ok (.io off)) (hl : laneFits x 2) :
    exec (.ldw c rd ea) s = .next (settle s x (retireSeq (ioRead (s.env x) x.m off (x.m.vc + 1)).2
      { x.m.cpu with regs := (regsBack x.m 4 ea).set rd (ioRead (s.env x) x.m off (x.m.vc + 1)).1 } 2 (eaLen ea))) := by
  obtain ⟨hcpu, hvc⟩ := ioRead_cpu_vc (e := s.env x) (m := x.m) (off := off) (u := x.m.vc + 1)
  refine coreStep_settleSeq (encodingOf_ldw_length c rd ea) h hl (congrArg Cpu.pc hcpu) hvc ?_
  have hread := ioRead_withCpu (e := s.env x) (m := x.m) (off := off) (t := x.m.vc + 1) (issueState x.m).cpu
  have hstate : ({ x.m with cpu := (issueState x.m).cpu } : Mach) = issueState x.m := rfl
  rw [hstate, issueState_cpu h] at hread
  simp only [loadBody, hok, issueState_begun, h.noBegun, loadAt, checkAccess_issueState, eaAddr_issueState, eaBack_issueState, hacc, hread, extend_word,
    writeBack_regsBack, Bool.not_true, Bool.false_eq_true, ↓reduceIte]
  rfl

/-- STW to a register of the I/O region: the block's write in the one vc, then the write-back. -/
theorem stw_io {s : State} {c : Nat} {x : Ctx} {rd : Reg} {ea : Ea} {off : Nat} (h : Issues s c x (eaLen ea)) (hok : eaOk true true false rd ea = true)
    (hacc : checkAccess (s.env x) x.m .write (eaAddr x.m 4 ea).toNat 4 = .ok (.io off)) (hl : laneFits x 1) :
    exec (.stw c rd ea) s = .next (settle s x (retireSeq (ioWrite (s.env x) x.m off (x.m.reg rd) x.m.vc)
      { x.m.cpu with regs := regsBack x.m 4 ea } 1 (eaLen ea))) := by
  refine coreStep_settleSeq (encodingOf_stw_length c rd ea) h hl (congrArg Cpu.pc ioWrite_cpu) ioWrite_vc ?_
  have hwrite := ioWrite_withCpu (e := s.env x) (m := x.m) (off := off) (v := x.m.reg rd) (t := x.m.vc) (c := (issueState x.m).cpu) rfl
  have hstate : ({ x.m with cpu := (issueState x.m).cpu } : Mach) = issueState x.m := rfl
  rw [hstate, issueState_cpu h] at hwrite
  simp only [storeBody, hok, storeAt, checkAccess_issueState, eaAddr_issueState, eaBack_issueState, issueState_reg, hacc, hwrite, writeBack_regsBack,
    Bool.not_true, Bool.false_eq_true, ↓reduceIte]

/-- A form that a load may take a store may take too (R80). -/
theorem eaOk_store {rd : Reg} {ea : Ea} (h : eaOk true true true rd ea = true) : eaOk true true false rd ea = true := by
  cases ea
  all_goals rfl

/-- Settles O15: `registersHold` for the registers, and the two instructions through their block's read and write. -/
theorem wordAccessesReachTheRegisters : Obligations.WordAccessesReachTheRegisters :=
  ⟨registersHold, fun _ _ _ _ _ _ h hok => ⟨fun hacc hl => ldw_io h hok hacc hl, fun hacc hl => stw_io h (eaOk_store hok) hacc hl⟩⟩

end Sys2Proof.Machine
end
